-- ==== Sys2Proof/Word.lean ====
section
/-! DEFINITION. The word types of the SJ824 and the numbers its manual counts in: samples and management words are
24 bits (R176), bodies are bytes, and lanes, slots, groups, regions and inputs are numbered from 0. -/

namespace Sys2Proof

/-- One byte of a request or reply body (R176). -/
abbrev Byte := BitVec 8

/-- The sixteen payload bits of a BODY word, a check, or a two-byte field. -/
abbrev Half := BitVec 16

/-- A word of a lane: a marker, a sample or a management word. -/
abbrev Word := BitVec 24

/-- Ingress lanes IL0 to IL7 and egress lanes EL0 to EL7. -/
abbrev LaneId := Fin 8

/-- Slots 0 to 23 of a frame. -/
abbrev SlotId := Fin 24

/-- Protection groups 0 to 15. -/
abbrev GroupId := Fin 16

/-- Regions 0 to 7 of the Access Guard. -/
abbrev RegionId := Fin 8

/-- Event inputs EVI0 to EVI3. -/
abbrev InputId := Fin 4

end Sys2Proof
end

