-- ==== Sys2Proof/Syntax.lean ====
section
/-! DEFINITION. The commands of the SJ824: one constructor of `Instr` for each row of spec/opcode_table.json, with the
row's operands. A request row carries the fields of its request body in the order the owner's chapter lists them, as
carried (R176), and the requesting channel where both channels may send it. The thirteen supervisor-only commands
(R134) reach an owner from channel 0 alone and carry no channel. -/

namespace Sys2Proof

/-- The two management channels: channel 0 is the supervisor, channel 1 the operator (R126, R149). -/
inductive ChannelId
  | ch0
  | ch1
  deriving DecidableEq, Repr

/-- The six bytes of an entry record as carried in a request (R179), before any check. -/
structure EntryRecord where
  mode : BitVec 4
  sourceLane : BitVec 4
  group : Byte
  fallback : BitVec 2
  sourceSlot : BitVec 5
  constant : Word
  deriving DecidableEq, Repr

/-- The units that take an egress frame start as an event of their own (R49, R92, R115, R136), and the MAP, whose idle
timer and bank swap are driven by superframe boundaries (R30, R39). -/
inductive FrameUnit
  | map
  | efa
  | psc
  | eiu
  | mcc0
  | mcc1
  deriving DecidableEq, Repr

/-- What comes with an edge on FREF: the levels of EVI0 to EVI3 (bit n is EVIn, 1 for HIGH; R115), how many words of the
frame before it had left each lane (R48), the order in which the part takes its units' events (open: R50, R92, R119),
and for each input how many of the group occurrences of its edge join the queues before its INPUT_EDGE (open: R116, R165;
one edge brings about at most two, REQUEST_DROPPED and a switch). -/
structure FrameEdge where
  pins : BitVec 4
  sent : Nat
  order : List FrameUnit
  edgePlace : Vector (Fin 3) 4
  deriving DecidableEq, Repr

/-- A management word received from a controller, by kind (R127, R178). -/
inductive MgmtWord
  | idle (ackValid : Bool) (ackSeq : BitVec 4)
  | head (code : BitVec 6) (seq : BitVec 4) (len : BitVec 5)
  | body (payload : Half)
  | tail (check : Half)
  deriving DecidableEq, Repr

/-- The commands, one for each row of the table. -/
inductive Instr
  /-- `straps` is MCS2-MCS0 and `pins` the EVI levels, both read at the release of RSTn (R120, R126). -/
  | deviceReset (straps : BitVec 3) (pins : BitVec 4)
  | egressFrameStart (edge : FrameEdge)
  | holdOffExpiry (group : GroupId)
  | wtrExpiry (group : GroupId)
  | idleExpiry
  | bankSwap
  | replyHoldExpiry (ch : ChannelId)
  | ingressWordArrival (lane : LaneId) (word : Word)
  | lossOfAlignment (lane : LaneId) (word : Word)
  | degradeWindowEnd (lane : LaneId) (word : Word)
  | readIdentity (ch : ChannelId)
  | readChannel (ch : ChannelId) (channel clear : Byte)
  | setChannel (channel enable lane slot replyHold : Byte)
  | restartChannel
  | datapathReset
  | openEdit (ch : ChannelId) (timeout : Byte)
  | commit (ch : ChannelId)
  | abandonEdit (ch : ChannelId)
  | breakLock
  | readEditState (ch : ChannelId)
  | setEntry (ch : ChannelId) (destLane destSlot : Byte) (entry : EntryRecord)
  | clearEntries (ch : ChannelId) (lane firstSlot count : Byte)
  | readEntries (ch : ChannelId) (bankSelect lane firstSlot count : Byte)
  | setLane (lane enable threshold : Byte)
  | readLane (ch : ChannelId) (lane clear : Byte)
  | setEgress (enables : Byte) (holdLimit : Half)
  | readEgress (ch : ChannelId)
  | configGroup (group workingLane protectLane revertive holdOff wtrPeriod operatorAccess : Byte)
  | deleteGroup (group : Byte)
  | groupRequestLockout (ch : ChannelId) (group : Byte)
  | groupRequestForce (ch : ChannelId) (group : Byte)
  | groupRequestManualP (ch : ChannelId) (group : Byte)
  | groupRequestManualW (ch : ChannelId) (group : Byte)
  /-- CLEAR; and the taking of a request whose KIND names no kind, for which the table has no row
  (notes/assumptions/13.md). -/
  | groupRequestClear (ch : ChannelId) (group : Byte)
  | readGroup (ch : ChannelId) (group : Byte)
  | setInput (input polarity mode group : Byte)
  | readInputs (ch : ChannelId)
  | setRegion (region present laneFirst laneLast slotFirst slotLast readPermit modifyPermit : Byte)
  | readRegions
  | readFault
  | clearFault
  | setSubscription (ch : ChannelId) (subscription alarm : Half)
  | readEvents (ch : ChannelId) (maxCount : Byte)
  deriving DecidableEq, Repr

end Sys2Proof
end

