-- ==== Sys2Proof/Decode.lean ====
section
/-! DEFINITION. Reading bits: the host's `decodeTableWord`, the management words (R127, R178), the packing of bodies
(R176), the entry record (R179) and the requests of the command table (10.6 of 10_formats_codes_and_pins.md). -/

namespace Sys2Proof

/-- No row of spec/opcode_table.json has bits, so no word spells a command by the table. -/
def decodeTableWord (_nbits _w : Nat) : Option Instr :=
  none

/-- The kind and fields of a received management word (R178). Every 24-bit value is some kind (R127). -/
def decodeMgmtWord (w : Word) : MgmtWord :=
  match (w.extractLsb' 22 2).toNat with
  | 0 => .idle (w.getLsbD 21) (w.extractLsb' 17 4)
  | 1 => .head (w.extractLsb' 16 6) (w.extractLsb' 12 4) (w.extractLsb' 7 5)
  | 2 => .body (w.extractLsb' 0 16)
  | _ => .tail (w.extractLsb' 0 16)

/-- The two bytes of a BODY word, first byte in bits 15-8 (R176). -/
def payloadBytes (p : Half) : List Byte :=
  [p.extractLsb' 8 8, p.extractLsb' 0 8]

/-- The bytes of a body, two to a BODY word in order (R176). -/
def bodyBytes (body : List Half) : List Byte :=
  body.flatMap payloadBytes

/-- Bytes as BODY words (R176). Every body has an even number of bytes; a last odd byte would be followed by a spare. -/
def packBytes : List Byte → List Half
  | a :: b :: rest => (a ++ b) :: packBytes rest
  | [a] => [a ++ (0 : Byte)]
  | [] => []

/-- A two-byte field, most significant byte first (R176). -/
def halfBytes (h : Half) : List Byte :=
  payloadBytes h

/-- The entry record in its six bytes (R179). -/
def decodeEntryRecord (b0 b1 b2 b3 b4 b5 : Byte) : EntryRecord :=
  { mode := b0.extractLsb' 4 4
    sourceLane := b0.extractLsb' 0 4
    group := b1
    fallback := b2.extractLsb' 6 2
    sourceSlot := b2.extractLsb' 0 5
    constant := b3 ++ b4 ++ b5 }

/-- The entry record as six bytes (R179), its spare bit 0 (R176). -/
def encodeEntryRecord (r : EntryRecord) : List Byte :=
  [r.mode ++ r.sourceLane, r.group, r.fallback ++ (0 : BitVec 1) ++ r.sourceSlot,
    r.constant.extractLsb' 16 8, r.constant.extractLsb' 8 8, r.constant.extractLsb' 0 8]

/-- The request length LEN of each command of the table of 10.6, and `none` for a CODE that names no command. -/
def commandLength (code : BitVec 6) : Option Nat :=
  match code.toNat with
  | 0x01 => some 0
  | 0x02 => some 1
  | 0x03 => some 3
  | 0x04 => some 0
  | 0x05 => some 0
  | 0x08 => some 1
  | 0x09 => some 0
  | 0x0A => some 0
  | 0x0B => some 0
  | 0x0C => some 0
  | 0x10 => some 4
  | 0x11 => some 2
  | 0x12 => some 2
  | 0x18 => some 2
  | 0x19 => some 1
  | 0x1A => some 2
  | 0x1B => some 0
  | 0x20 => some 4
  | 0x21 => some 1
  | 0x22 => some 1
  | 0x23 => some 1
  | 0x28 => some 2
  | 0x29 => some 0
  | 0x30 => some 4
  | 0x31 => some 0
  | 0x32 => some 0
  | 0x33 => some 0
  | 0x38 => some 2
  | 0x39 => some 1
  | _ => none

/-- The thirteen supervisor-only commands (R134, R150). -/
def supervisorOnly (code : BitVec 6) : Bool :=
  [0x03, 0x04, 0x05, 0x0B, 0x18, 0x1A, 0x20, 0x21, 0x28, 0x30, 0x31, 0x32, 0x33].contains code.toNat

/-- GROUP_REQUEST by KIND (R100, 10.5): its five rows. A KIND that names none is taken under the row of CLEAR
(notes/assumptions/13.md). -/
def decodeGroupRequest (ch : ChannelId) (group kind : Byte) : Instr :=
  match kind.toNat with
  | 1 => .groupRequestLockout ch group
  | 2 => .groupRequestForce ch group
  | 3 => .groupRequestManualP ch group
  | 4 => .groupRequestManualW ch group
  | _ => .groupRequestClear ch group

/-- The command that a request with this CODE and these body bytes names, by the table of 10.6. Spare bytes are ignored on
receipt (R176). A body of another length than the table's gives none. -/
def commandOf (ch : ChannelId) (code : BitVec 6) (bytes : List Byte) : Option Instr :=
  match code.toNat with
  | 0x01 => match bytes with
    | [] => some (.readIdentity ch)
    | _ => none
  | 0x02 => match bytes with
    | [c, clear] => some (.readChannel ch c clear)
    | _ => none
  | 0x03 => match bytes with
    | [c, enable, lane, slot, hold, _] => some (.setChannel c enable lane slot hold)
    | _ => none
  | 0x04 => match bytes with
    | [] => some .restartChannel
    | _ => none
  | 0x05 => match bytes with
    | [] => some .datapathReset
    | _ => none
  | 0x08 => match bytes with
    | [t, _] => some (.openEdit ch t)
    | _ => none
  | 0x09 => match bytes with
    | [] => some (.commit ch)
    | _ => none
  | 0x0A => match bytes with
    | [] => some (.abandonEdit ch)
    | _ => none
  | 0x0B => match bytes with
    | [] => some .breakLock
    | _ => none
  | 0x0C => match bytes with
    | [] => some (.readEditState ch)
    | _ => none
  | 0x10 => match bytes with
    | [l, s, b0, b1, b2, b3, b4, b5] => some (.setEntry ch l s (decodeEntryRecord b0 b1 b2 b3 b4 b5))
    | _ => none
  | 0x11 => match bytes with
    | [l, first, count, _] => some (.clearEntries ch l first count)
    | _ => none
  | 0x12 => match bytes with
    | [bank, l, first, count] => some (.readEntries ch bank l first count)
    | _ => none
  | 0x18 => match bytes with
    | [l, enable, threshold, _] => some (.setLane l enable threshold)
    | _ => none
  | 0x19 => match bytes with
    | [l, clear] => some (.readLane ch l clear)
    | _ => none
  | 0x1A => match bytes with
    | [enables, h1, h0, _] => some (.setEgress enables (h1 ++ h0))
    | _ => none
  | 0x1B => match bytes with
    | [] => some (.readEgress ch)
    | _ => none
  | 0x20 => match bytes with
    | [g, w, p, r, h, t, a, _] => some (.configGroup g w p r h t a)
    | _ => none
  | 0x21 => match bytes with
    | [g, _] => some (.deleteGroup g)
    | _ => none
  | 0x22 => match bytes with
    | [g, kind] => some (decodeGroupRequest ch g kind)
    | _ => none
  | 0x23 => match bytes with
    | [g, _] => some (.readGroup ch g)
    | _ => none
  | 0x28 => match bytes with
    | [i, polarity, mode, g] => some (.setInput i polarity mode g)
    | _ => none
  | 0x29 => match bytes with
    | [] => some (.readInputs ch)
    | _ => none
  | 0x30 => match bytes with
    | [r, p, lf, ll, sf, sl, rd, md] => some (.setRegion r p lf ll sf sl rd md)
    | _ => none
  | 0x31 => match bytes with
    | [] => some .readRegions
    | _ => none
  | 0x32 => match bytes with
    | [] => some .readFault
    | _ => none
  | 0x33 => match bytes with
    | [] => some .clearFault
    | _ => none
  | 0x38 => match bytes with
    | [s1, s0, a1, a0] => some (.setSubscription ch (s1 ++ s0) (a1 ++ a0))
    | _ => none
  | 0x39 => match bytes with
    | [n, _] => some (.readEvents ch n)
    | _ => none
  | _ => none

/-- The command that a complete request of channel `ch` hands to an owner (R134): none where channel 1 sends a
supervisor-only command, which never reaches its owner (R150). -/
def decodeCommand (ch : ChannelId) (code : BitVec 6) (bytes : List Byte) : Option Instr :=
  if ch = .ch1 ∧ supervisorOnly code = true then none else commandOf ch code bytes

end Sys2Proof
end

