-- ==== Sys2Proof/Config.lean ====
section
/-! DEFINITION. What the manual leaves open and the part decides: free values without a body, so that no proof can
lean on one, and the fixed sizes of the part that READ_IDENTITY reports (R141). -/

namespace Sys2Proof.Config

/-- The open order of several things that one event does and no rule orders (R165: "they may join a queue in either
order"). For the draw `n`, the item numbered `k` is taken at rank `rank n k`. Free value: notes/assumptions/7.md. -/
opaque rank : Nat → Nat → Nat

/-- Whether, in the arrival of a word at slot 23, the hand-off to the channel comes before the store write (R77: they
"need no order between them"). Free value for the draw `n`: notes/assumptions/8.md. -/
opaque handOffFirst : Nat → Bool

/-- PART_CODE of READ_IDENTITY (R141). -/
def partCode : Half := 0x0824

/-- REVISION of READ_IDENTITY: "1 for the part this manual describes" (R141). -/
def revision : Byte := 1

/-- A queue's capacity (R164). -/
def queueRecords : Nat := 32

/-- ALIGN_PATTERN of every marker (R53, R177). -/
def alignPattern : Half := 0x2F71

/-- Where the 16-bit counters saturate (Conventions of 00_scope.md; R79, R91, R140). -/
def counterLimit : Nat := 65535

/-- Where COUNT, LOST_COUNT and FAULT_OVERRUNS saturate (R157, R166, R167). -/
def byteLimit : Nat := 255

end Sys2Proof.Config
end

