-- ==== Sys2Proof/Machine/State.lean ====
section
/-! DEFINITION. The state of the SJ824 as plain data, block by block, and its values after device reset. A field that
the manual calls absent in a record's current form is not there: the record is an inductive or an Option. -/

namespace Sys2Proof.Machine

/-- A pair (lane, slot): a destination, a source or a management location (Terms of 00_scope.md). -/
structure Place where
  lane : LaneId
  slot : SlotId
  deriving DecidableEq, Repr

/-- One value for each of the 192 places, by lane and then by slot. -/
structure Grid (α : Type) where
  rows : Vector (Vector α 24) 8
  deriving DecidableEq, Repr

/-- The same value at every place. -/
def Grid.replicate {α : Type} (a : α) : Grid α :=
  ⟨Vector.replicate 8 (Vector.replicate 24 a)⟩

/-- FALLBACK with the CONSTANT that PATTERN alone carries (R3, R8). -/
inductive Fallback
  | silence
  | pattern (constant : Word)
  | hold
  deriving DecidableEq, Repr

/-- An entry in normal form (R3): each MODE with the fields present under it, so that absent fields cannot hold
anything. -/
inductive Entry
  | unused
  | direct (source : Place) (fallback : Fallback)
  | protect (group : GroupId) (slot : SlotId) (fallback : Fallback)
  | fixed (constant : Word)
  deriving DecidableEq, Repr

/-- A bank of the connection map (R1). -/
abbrev Bank := Grid Entry

/-- The two banks by letter (R2). -/
inductive BankName
  | a
  | b
  deriving DecidableEq, Repr

/-- HOLDER, IDLE_TIMEOUT and IDLE_REMAINING of the edit lock while a channel holds it (R24). -/
structure EditSession where
  holder : ChannelId
  idleTimeout : Nat
  idleRemaining : Nat
  deriving DecidableEq, Repr

/-- The MAP (R1, R2, R10, R24). `session` is none while HOLDER is none. `scheduled` holds COMMITTER while
COMMIT_SCHEDULED is true. -/
structure ConnectionMap where
  bankA : Bank
  bankB : Bank
  active : BankName
  generation : BitVec 8
  session : Option EditSession
  scheduled : Option ChannelId
  deriving DecidableEq, Repr

/-- The 24 slot words of a stored frame (4.4). -/
abbrev Frame := Vector Word 24

/-- The degrade window: positions judged and bad positions (R70). -/
structure Window where
  length : Nat
  bad : Nat
  deriving DecidableEq, Repr

/-- What an ILR keeps while its lane is ALIGNED: the expected frame number (R63), the count of consecutive bad positions
(R67), the degrade window (R70), DEGRADED (R71), and the slot words received since the last marker position, so that
the next word is at the expected marker position exactly when 24 are there (R63, R73). -/
structure Tracking where
  number : BitVec 4
  consecutiveBad : Nat
  window : Window
  degraded : Bool
  slots : List Word
  deriving DecidableEq, Repr

/-- The alignment state with what each state keeps (R64 to R67). In CONFIRM: the words passed since the last marker
position, the expected frame number, and whether one good position has been found. -/
inductive Alignment
  | off
  | hunt
  | confirm (passed : Nat) (number : BitVec 4) (oneGood : Bool)
  | aligned (t : Tracking)
  deriving DecidableEq, Repr

/-- The four lane counters (R79). -/
structure LaneCounters where
  badMarkers : Nat
  alignLosses : Nat
  dropSlips : Nat
  repeatSlips : Nat
  deriving DecidableEq, Repr

/-- An ILR: the enable flag is clear exactly in OFF (R64); the elastic store is `unread` and `lastRead` (4.4). -/
structure Lane where
  alignment : Alignment
  threshold : Nat
  unread : List Frame
  lastRead : Option Frame
  counters : LaneCounters
  deriving DecidableEq, Repr

/-- The kinds of standing request (R99). -/
inductive RequestKind
  | lockout
  | force
  | manualP
  | manualW
  deriving DecidableEq, Repr

/-- ORIGIN of a standing request (R99). -/
inductive Origin
  | channel (ch : ChannelId)
  | input (i : InputId)
  deriving DecidableEq, Repr

/-- STANDING_REQUEST with its ORIGIN (R99). -/
structure Standing where
  kind : RequestKind
  origin : Origin
  deriving DecidableEq, Repr

/-- The states of a configured group (5.2). -/
inductive GroupState
  | wIdle
  | wLockout
  | wSfP
  | wSdP
  | wManual
  | pForce
  | pSf
  | pSd
  | pManual
  | pWtr
  | pIdle
  deriving DecidableEq, Repr

/-- SELECTED (5.1). -/
inductive Selection
  | working
  | protect
  deriving DecidableEq, Repr

/-- The four conditions derived from a group's lanes (R87). -/
structure Conditions where
  sfW : Bool
  sfP : Bool
  sdW : Bool
  sdP : Bool
  deriving DecidableEq, Repr

/-- The record of a configured group (5.1). The two timers are none while absent. -/
structure Group where
  workingLane : LaneId
  protectLane : LaneId
  revertive : Bool
  holdOff : Nat
  wtrPeriod : Nat
  operatorAccess : Bool
  standing : Option Standing
  inputLockout : Bool
  conditions : Conditions
  state : GroupState
  selected : Selection
  holdOffRemaining : Option Nat
  wtrRemaining : Option Nat
  switchCount : Nat
  deriving DecidableEq, Repr

/-- MODE of an event input, with the GROUP that two of the modes carry (R114). -/
inductive InputMode
  | off
  | event
  | edgeManual (group : GroupId)
  | levelLockout (group : GroupId)
  deriving DecidableEq, Repr

/-- An input record (6.1). Levels are true for HIGH; `activeLow` is POLARITY ACTIVE_LOW. -/
structure Input where
  mode : InputMode
  activeLow : Bool
  lastSample : Bool
  accepted : Bool
  deriving DecidableEq, Repr

/-- The status codes (10.6). -/
inductive Status
  | ok
  | badCommand
  | badLength
  | badField
  | supervisorOnly
  | notPermitted
  | reservedSlot
  | noLock
  | locked
  | invalidMap
  | cancelled
  | notConfigured
  | inUse
  | outranked
  deriving DecidableEq, Repr

/-- The request buffer of a channel (7.3). -/
structure Request where
  code : BitVec 6
  seq : BitVec 4
  len : BitVec 5
  body : List Half
  deriving DecidableEq, Repr

/-- The seven channel counters (R140). -/
structure ChannelCounters where
  checkErrors : Nat
  truncated : Nat
  malformed : Nat
  busyDiscards : Nat
  duplicates : Nat
  retransmits : Nat
  abandoned : Nat
  deriving DecidableEq, Repr

/-- The deferred effects of a stored reply (7.3): of a READ_EVENTS, the number of records it marked and the LOST_COUNT it
reported; of a READ_LANE or READ_CHANNEL with CLEAR 1, the counters it reported. -/
inductive Deferred
  | none
  | events (marked lost : Nat)
  | lane (l : LaneId) (reported : LaneCounters)
  | channel (ch : ChannelId) (reported : ChannelCounters)
  deriving DecidableEq, Repr

/-- The stored reply with RESEND_COUNT (7.3). LEN is the number of its body words. -/
structure StoredReply where
  status : Status
  seq : BitVec 4
  body : List Half
  check : Half
  acked : Bool
  effects : Deferred
  resends : Nat
  deriving DecidableEq, Repr

/-- The channel's STATE with what each state keeps (7.3): the request buffer, whether a complete request still waits for
its owner to take it (R134), the reply position, HOLD_REMAINING. -/
inductive Phase
  | off
  | idle
  | receiving (r : Request)
  | executing (r : Request) (waits : Bool)
  | replying (position : Nat)
  | awaitAck (remaining : Nat)
  deriving DecidableEq, Repr

/-- A management channel controller (7.3). The locations stand in State: channel 0's by the strap lane, channel 1's in
`operatorPlace` (R126). -/
structure Channel where
  phase : Phase
  replyHold : Nat
  stored : Option StoredReply
  counters : ChannelCounters
  deriving DecidableEq, Repr

/-- A present region (R151). -/
structure Region where
  laneFirst : LaneId
  laneLast : LaneId
  slotFirst : SlotId
  slotLast : SlotId
  readPermit : Bool
  modifyPermit : Bool
  deriving DecidableEq, Repr

/-- REASON of a guard fault (R156). -/
inductive FaultReason
  | supervisor
  | region
  | groupAccess
  | origin
  deriving DecidableEq, Repr

/-- TARGET of a guard fault (R156). -/
inductive Target
  | none
  | destination (p : Place)
  | group (g : GroupId)
  deriving DecidableEq, Repr

/-- A filled fault record (8.4). -/
structure FaultRecord where
  channel : ChannelId
  code : BitVec 6
  seq : BitVec 4
  reason : FaultReason
  target : Target
  stamp : Half
  deriving DecidableEq, Repr

/-- The Access Guard (chapter 8). -/
structure Guard where
  regions : Vector (Option Region) 8
  fault : Option FaultRecord
  overruns : Nat
  deriving DecidableEq, Repr

/-- An occurrence's KIND with its SUBJECT (9.2). -/
inductive Event
  | laneAligned (l : LaneId)
  | laneLost (l : LaneId)
  | laneDegradeSet (l : LaneId)
  | laneDegradeClear (l : LaneId)
  | laneSlip (l : LaneId)
  | groupToProtect (g : GroupId)
  | groupToWorking (g : GroupId)
  | requestDropped (g : GroupId)
  | commitDone (ch : ChannelId)
  | lockExpired (ch : ChannelId)
  | lockBroken (ch : ChannelId)
  | guardFault (ch : ChannelId)
  | checkError (ch : ChannelId)
  | replyAbandoned (ch : ChannelId)
  | inputEdge (i : InputId)
  deriving DecidableEq, Repr

/-- An event record (9.1). -/
structure EventRecord where
  event : Event
  count : Nat
  firstStamp : Half
  inFlight : Bool
  deriving DecidableEq, Repr

/-- An event queue with its overflow flag, LOST_COUNT, its channel's masks (R168, laid out as R180) and its alarm line,
true while asserted (R124). -/
structure Queue where
  records : List EventRecord
  overflow : Bool
  lostCount : Nat
  subscription : Half
  alarmMask : Half
  alarm : Bool
  deriving DecidableEq, Repr

/-- Held value and hold count of a destination (R55). -/
structure HeldState where
  value : Word
  count : Nat
  deriving DecidableEq, Repr

/-- The 25 words of an egress frame (R48). -/
structure EgressFrame where
  marker : Word
  slots : Frame
  deriving DecidableEq, Repr

/-- The EFA (chapter 3). `lines` is the frame begun on each lane at the latest frame start, none where the lane sends
none; `sent` is what left of the frame before it (R48). -/
structure Assembler where
  frameNo : BitVec 4
  started : Bool
  superframes : Half
  enables : Byte
  holdLimit : Nat
  held : Grid HeldState
  lines : Vector (Option EgressFrame) 8
  sent : Vector (List Word) 8
  deriving DecidableEq, Repr

/-- The model's own record of one egress frame start (notes/assumptions/4.md): whether the MAP has taken its event of
that frame start, the committer whose COMMIT its bank swap completed (R40), the groups whose timers the PSC has reduced,
the management words supplied (R136), the frames taken from the stores (R49) and the lanes of the group snapshot
(R50). Between commands it is empty but for what the row of an expiry or of the swap took. -/
structure FrameWork where
  mapTaken : Bool
  swapped : Option ChannelId
  groupsTaken : Vector Bool 16
  word0 : Option Word
  word1 : Option Word
  taken : Vector (Option Frame) 8
  snapshot : Vector (Option LaneId) 16
  deriving DecidableEq, Repr

/-- The whole part, and three fields of the model's own: `work`, `free` (the draw counter of Config's free values) and
`pending` (the queue of waiting commands). -/
structure State where
  strapLane : LaneId
  operatorPlace : Option Place
  map : ConnectionMap
  efa : Assembler
  lanes : Vector Lane 8
  groups : Vector (Option Group) 16
  inputs : Vector Input 4
  ch0 : Channel
  ch1 : Channel
  guard : Guard
  queue0 : Queue
  queue1 : Queue
  work : FrameWork
  free : Nat
  pending : List Instr
  deriving DecidableEq, Repr

/-- The reasons a step could stop with a fault: the manual names no fault that stops the part, so there is none. -/
inductive Fault
  deriving DecidableEq, Repr

/-- The reasons for which a command could be refused. -/
inductive Refusal
  /-- Raised by `exec` alone, for a command that has no meaning yet. Safe: nothing is claimed of it. No arm raises it. -/
  | notModelled (mnemonic : String)
  deriving DecidableEq, Repr

/-- Every lane counter 0. -/
def LaneCounters.zero : LaneCounters :=
  ⟨0, 0, 0, 0⟩

/-- Every channel counter 0. -/
def ChannelCounters.zero : ChannelCounters :=
  ⟨0, 0, 0, 0, 0, 0, 0⟩

/-- Nothing done for the coming frame start. -/
def FrameWork.empty : FrameWork :=
  { mapTaken := false, swapped := none, groupsTaken := Vector.replicate 16 false, word0 := none, word1 := none,
    taken := Vector.replicate 8 none, snapshot := Vector.replicate 16 none }

/-- An ILR after device reset (R85): HUNT on the strap lane, OFF on the others. -/
def Lane.reset (a : Alignment) : Lane :=
  { alignment := a, threshold := 8, unread := [], lastRead := none, counters := LaneCounters.zero }

/-- A channel controller after device reset (R148). -/
def Channel.reset (p : Phase) : Channel :=
  { phase := p, replyHold := 48, stored := none, counters := ChannelCounters.zero }

/-- A queue with its masks after device reset (R175, R180). -/
def Queue.reset : Queue :=
  { records := [], overflow := false, lostCount := 0, subscription := 0x7FFF, alarmMask := 0, alarm := false }

/-- Every field after a device reset that reads these straps and EVI levels (R23, R24, R62, R85, R113, R120, R123, R126,
R148, R163, R175). -/
def State.resetWith (straps : BitVec 3) (pins : BitVec 4) : State :=
  { strapLane := straps.toFin
    operatorPlace := none
    map :=
      { bankA := Grid.replicate .unused, bankB := Grid.replicate .unused, active := .a, generation := 0
        session := none, scheduled := none }
    efa :=
      { frameNo := 15, started := false, superframes := 0, enables := BitVec.twoPow 8 straps.toNat, holdLimit := 96
        held := Grid.replicate ⟨0, 96⟩, lines := Vector.replicate 8 none, sent := Vector.replicate 8 [] }
    lanes := Vector.ofFn fun l => Lane.reset (if l = straps.toFin then .hunt else .off)
    groups := Vector.replicate 16 none
    inputs := Vector.ofFn fun i => ⟨.off, false, pins.getLsbD i.val, pins.getLsbD i.val⟩
    ch0 := Channel.reset .idle
    ch1 := Channel.reset .off
    guard := { regions := Vector.replicate 8 none, fault := none, overruns := 0 }
    queue0 := Queue.reset
    queue1 := Queue.reset
    work := FrameWork.empty
    free := 0
    pending := [] }

/-- The machine right after reset. DESIGN CHOICE (unsafe): the straps read 0 and EVI0 to EVI3 read LOW
(notes/assumptions/2.md); DEVICE_RESET carries other values. -/
def State.reset : State :=
  State.resetWith 0 0

end Sys2Proof.Machine
end

