-- ==== Sys2Proof/Machine/Flags.lean ====
section
/-! DEFINITION. The numbers behind the names (10.5, 10.6), the flag bytes, the check of R128, the alarm judgement of R124,
and the words the part sends (R177, R178). -/

namespace Sys2Proof.Machine

/-- A Nat as a one-byte field. -/
def byteOf (n : Nat) : Byte :=
  BitVec.ofNat 8 n

/-- A flag byte: 1 for true (R176). -/
def flagByte (b : Bool) : Byte :=
  if b then 1 else 0

/-- Saturating increase by one. -/
def satInc (limit n : Nat) : Nat :=
  min limit (n + 1)

/-- Status codes (10.6). -/
def Status.code : Status → Nat
  | .ok => 0
  | .badCommand => 1
  | .badLength => 2
  | .badField => 3
  | .supervisorOnly => 4
  | .notPermitted => 5
  | .reservedSlot => 6
  | .noLock => 7
  | .locked => 8
  | .invalidMap => 9
  | .cancelled => 10
  | .notConfigured => 11
  | .inUse => 12
  | .outranked => 13

/-- The CHANNEL code: 0 or 1 (10.5). -/
def channelCode : ChannelId → Nat
  | .ch0 => 0
  | .ch1 => 1

/-- HOLDER: 0 none, 1 channel 0, 2 channel 1 (10.5). -/
def holderCode : Option ChannelId → Nat
  | none => 0
  | some c => channelCode c + 1

/-- Bank letters: 0 for A, 1 for B (10.5). -/
def BankName.code : BankName → Nat
  | .a => 0
  | .b => 1

/-- Lane STATE codes (10.5). -/
def Alignment.code : Alignment → Nat
  | .off => 0
  | .hunt => 1
  | .confirm .. => 2
  | .aligned _ => 3

/-- Channel STATE codes (10.5). -/
def Phase.code : Phase → Nat
  | .off => 0
  | .idle => 1
  | .receiving _ => 2
  | .executing .. => 3
  | .replying _ => 4
  | .awaitAck _ => 5

/-- Request kind codes (10.5), the same for GROUP_REQUEST KIND and STANDING_REQUEST. -/
def RequestKind.code : RequestKind → Nat
  | .lockout => 1
  | .force => 2
  | .manualP => 3
  | .manualW => 4

/-- ORIGIN codes (10.5). -/
def Origin.code : Origin → Nat
  | .channel c => channelCode c + 1
  | .input i => i.val + 3

/-- Group STATE codes of a configured group (10.5). -/
def GroupState.code : GroupState → Nat
  | .wIdle => 1
  | .wLockout => 2
  | .wSfP => 3
  | .wSdP => 4
  | .wManual => 5
  | .pForce => 6
  | .pSf => 7
  | .pSd => 8
  | .pManual => 9
  | .pWtr => 10
  | .pIdle => 11

/-- SELECTED codes (10.5). -/
def Selection.code : Selection → Nat
  | .working => 0
  | .protect => 1

/-- Input MODE codes (10.5). -/
def InputMode.code : InputMode → Nat
  | .off => 0
  | .event => 1
  | .edgeManual _ => 2
  | .levelLockout _ => 3

/-- The GROUP of an input record, 0 when absent (R114). -/
def InputMode.groupField : InputMode → Nat
  | .edgeManual g => g.val
  | .levelLockout g => g.val
  | _ => 0

/-- Guard REASON codes (10.5). -/
def FaultReason.code : FaultReason → Nat
  | .supervisor => 1
  | .region => 2
  | .groupAccess => 3
  | .origin => 4

/-- Event kind codes (10.6). -/
def Event.code : Event → Nat
  | .laneAligned _ => 0
  | .laneLost _ => 1
  | .laneDegradeSet _ => 2
  | .laneDegradeClear _ => 3
  | .laneSlip _ => 4
  | .groupToProtect _ => 5
  | .groupToWorking _ => 6
  | .requestDropped _ => 7
  | .commitDone _ => 8
  | .lockExpired _ => 9
  | .lockBroken _ => 10
  | .guardFault _ => 11
  | .checkError _ => 12
  | .replyAbandoned _ => 13
  | .inputEdge _ => 14

/-- SUBJECT of an occurrence (10.6). -/
def Event.subject : Event → Nat
  | .laneAligned l => l.val
  | .laneLost l => l.val
  | .laneDegradeSet l => l.val
  | .laneDegradeClear l => l.val
  | .laneSlip l => l.val
  | .groupToProtect g => g.val
  | .groupToWorking g => g.val
  | .requestDropped g => g.val
  | .commitDone c => channelCode c
  | .lockExpired c => channelCode c
  | .lockBroken c => channelCode c
  | .guardFault c => channelCode c
  | .checkError c => channelCode c
  | .replyAbandoned c => channelCode c
  | .inputEdge i => i.val

/-- Whether a mask holds the kind of an occurrence: bit k stands for the kind whose code is k (R180). -/
def maskHolds (mask : Half) (e : Event) : Bool :=
  mask.getLsbD e.code

/-- Bit 15 of the alarm mask: the OVERFLOW item (R180). -/
def overflowItem (mask : Half) : Bool :=
  mask.getLsbD 15

/-- The condition of R124 under which a queue's alarm line is asserted. -/
def Queue.alarmCondition (q : Queue) : Bool :=
  q.records.any (fun r => maskHolds q.alarmMask r.event) || (q.overflow && overflowItem q.alarmMask)

/-- EVENTS_PENDING: some record is not in flight (R137, R170). -/
def Queue.eventsPending (q : Queue) : Bool :=
  q.records.any fun r => !r.inFlight

/-- One bit through the check register: generator x^16 + x^12 + x^5 + 1 (R128). -/
def checkBit (crc : Half) (b : Bool) : Half :=
  if crc.msb != b then (crc <<< 1) ^^^ 0x1021 else crc <<< 1

/-- One byte through the check register, most significant bit first (R128). -/
def checkByte (crc : Half) (b : Byte) : Half :=
  [7, 6, 5, 4, 3, 2, 1, 0].foldl (fun c k => checkBit c (b.getLsbD k)) crc

/-- The check of R128 over a byte string: the register starts at 0xFFFF and is not inverted. -/
def checkOf (bytes : List Byte) : Half :=
  bytes.foldl checkByte 0xFFFF

/-- The check of a request: CODE, SEQ and LEN each in a byte, then the body bytes (R128). -/
def Request.check (r : Request) : Half :=
  checkOf (r.code.zeroExtend 8 :: r.seq.zeroExtend 8 :: r.len.zeroExtend 8 :: bodyBytes r.body)

/-- The check of a reply: STATUS, SEQ and LEN each in a byte, then the body bytes (R128). -/
def replyCheck (status : Status) (seq : BitVec 4) (body : List Half) : Half :=
  checkOf (byteOf status.code :: seq.zeroExtend 8 :: byteOf body.length :: bodyBytes body)

/-- CONDITIONS: SF_W, SF_P, SD_W, SD_P from bit 0 (10.5). -/
def Conditions.byte (c : Conditions) : Byte :=
  byteOf (c.sfW.toNat + 2 * c.sfP.toNat + 4 * c.sdW.toNat + 8 * c.sdP.toNat)

/-- An input is active while its accepted level is its active level (R114). -/
def Input.active (i : Input) : Bool :=
  i.accepted != i.activeLow

/-- LEVEL: accepted level, last sample, active, from bit 0 (10.5). -/
def Input.levelByte (i : Input) : Byte :=
  byteOf (i.accepted.toNat + 2 * i.lastSample.toNat + 4 * i.active.toNat)

/-- POLARITY, MODE, GROUP and LEVEL of an input, as READ_INPUTS and SET_INPUT report them (R121, R122). -/
def Input.bytes (i : Input) : List Byte :=
  [flagByte i.activeLow, byteOf i.mode.code, byteOf i.mode.groupField, i.levelByte]

/-- The marker word (R53, R177). -/
def markerWord (frameNo : BitVec 4) (generation : BitVec 8) : Word :=
  Config.alignPattern ++ frameNo ++ generation.extractLsb' 0 4

/-- An egress IDLE word (R137, R178). -/
def idleWord (state : Nat) (eventsPending overflow lockHeld faultHeld : Bool) (generation : BitVec 8) : Word :=
  (0 : BitVec 2) ++ BitVec.ofNat 3 state ++ BitVec.ofBool eventsPending ++ BitVec.ofBool overflow ++
    BitVec.ofBool lockHeld ++ BitVec.ofBool faultHeld ++ (0 : BitVec 7) ++ generation

/-- An egress HEAD word (R178). -/
def headWord (status : Status) (seq : BitVec 4) (len : Nat) : Word :=
  (1 : BitVec 2) ++ (0 : BitVec 1) ++ BitVec.ofNat 5 status.code ++ seq ++ BitVec.ofNat 5 len ++ (0 : BitVec 7)

/-- An egress BODY word (R178). -/
def bodyWord (p : Half) : Word :=
  (2 : BitVec 2) ++ (0 : BitVec 6) ++ p

/-- An egress TAIL word (R178). -/
def tailWord (check : Half) : Word :=
  (3 : BitVec 2) ++ (0 : BitVec 6) ++ check

/-- The word of a stored reply at a reply position: the HEAD, the body words in order, the TAIL (7.3, R136). -/
def StoredReply.word (r : StoredReply) (position : Nat) : Word :=
  match position with
  | 0 => headWord r.status r.seq r.body.length
  | k + 1 =>
    match r.body[k]? with
    | some p => bodyWord p
    | none => tailWord r.check

/-- The ALIGN_PATTERN field of a word (R177). -/
def alignField (w : Word) : Half :=
  w.extractLsb' 8 16

/-- A word matches when its ALIGN_PATTERN field equals 0x2F71 (R63). -/
def matchesMarker (w : Word) : Bool :=
  alignField w == Config.alignPattern

/-- The FRAME_NO field of a marker (R177). -/
def frameField (w : Word) : BitVec 4 :=
  w.extractLsb' 4 4

/-- A marker position is good when the word there matches and carries the expected frame number (R63). -/
def goodMarker (expected : BitVec 4) (w : Word) : Bool :=
  matchesMarker w && frameField w == expected

end Sys2Proof.Machine
end

