-- ==== Sys2Proof/Machine/Ops.lean ====
section
/-! DEFINITION. The operations the commands share: tables by place, the records of State by number, the edit lock and the
banks, offering an occurrence to the queues (R165, R166), a guard fault (R157), and the forming of a reply (R135). -/

namespace Sys2Proof.Machine

/-! ### Tables by place -/

/-- The value at a place. -/
def Grid.get {α : Type} (g : Grid α) (p : Place) : α :=
  (g.rows.get p.lane).get p.slot

/-- The table with another value at one place. -/
def Grid.set {α : Type} (g : Grid α) (p : Place) (a : α) : Grid α :=
  ⟨g.rows.set p.lane.val ((g.rows.get p.lane).set p.slot.val a p.slot.isLt) p.lane.isLt⟩

/-- The table whose value at each place is given by a function. -/
def Grid.ofFn {α : Type} (f : Place → α) : Grid α :=
  ⟨Vector.ofFn fun l => Vector.ofFn fun s => f ⟨l, s⟩⟩

/-- The 192 destinations in destination order: by egress lane first and then by slot (00_scope.md). -/
def Place.all : List Place :=
  (List.finRange 8).flatMap fun l => (List.finRange 24).map fun s => ⟨l, s⟩

/-! ### Channels and locations -/

/-- The record of a channel. -/
def State.channel (s : State) : ChannelId → Channel
  | .ch0 => s.ch0
  | .ch1 => s.ch1

/-- Replaces the record of a channel. -/
def State.setChannel (s : State) (ch : ChannelId) (c : Channel) : State :=
  match ch with
  | .ch0 => { s with ch0 := c }
  | .ch1 => { s with ch1 := c }

/-- Puts a channel in another state, with nothing else of its record changed. -/
def State.setPhase (s : State) (ch : ChannelId) (p : Phase) : State :=
  s.setChannel ch { s.channel ch with phase := p }

/-- Changes a channel's counters. -/
def State.countChannel (s : State) (ch : ChannelId) (f : ChannelCounters → ChannelCounters) : State :=
  s.setChannel ch { s.channel ch with counters := f (s.channel ch).counters }

/-- The location of an enabled channel: channel 0 at (strap lane, 23), channel 1 where SET_CHANNEL put it (R11, R126). -/
def State.place (s : State) : ChannelId → Option Place
  | .ch0 => some ⟨s.strapLane, 23⟩
  | .ch1 => s.operatorPlace

/-- Channel 0 is always enabled, channel 1 while it has a location (R126). -/
def State.enabled (s : State) (ch : ChannelId) : Bool :=
  (s.place ch).isSome

/-- A place is the management location of an enabled channel, on the ingress side as a source and on the egress side as
a destination (R11). -/
def State.managed (s : State) (p : Place) : Bool :=
  s.place .ch0 == some p || s.place .ch1 == some p

/-- An enabled channel's location lies on the lane. -/
def State.managedLane (s : State) (l : LaneId) : Bool :=
  s.strapLane == l || (s.operatorPlace.map Place.lane) == some l

/-- The request of a channel that passed the generic checks and waits for its owner (R134). -/
def State.waiting (s : State) (ch : ChannelId) : Option Request :=
  match (s.channel ch).phase with
  | .executing r true => some r
  | _ => none

/-- A superframe boundary: a frame start at which FRAME_NO is 0 (R45). -/
def State.boundary (s : State) : Bool :=
  s.efa.frameNo == 0

/-! ### Lanes, groups, inputs -/

/-- Replaces the ILR of a lane. -/
def State.setLane (s : State) (l : LaneId) (x : Lane) : State :=
  { s with lanes := s.lanes.set l.val x l.isLt }

/-- The ILR of a lane. -/
def State.lane (s : State) (l : LaneId) : Lane :=
  s.lanes.get l

/-- Replaces a group record; none is OFF. -/
def State.setGroup (s : State) (g : GroupId) (x : Option Group) : State :=
  { s with groups := s.groups.set g.val x g.isLt }

/-- A group record; none is OFF. -/
def State.group (s : State) (g : GroupId) : Option Group :=
  s.groups.get g

/-- Replaces an input record. -/
def State.setInput (s : State) (i : InputId) (x : Input) : State :=
  { s with inputs := s.inputs.set i.val x i.isLt }

/-- An input record. -/
def State.input (s : State) (i : InputId) : Input :=
  s.inputs.get i

/-! ### Banks and the edit lock -/

/-- The other bank letter. -/
def BankName.other : BankName → BankName
  | .a => .b
  | .b => .a

/-- A bank by letter. -/
def ConnectionMap.bank (m : ConnectionMap) : BankName → Bank
  | .a => m.bankA
  | .b => m.bankB

/-- Replaces a bank by letter. -/
def ConnectionMap.setBank (m : ConnectionMap) (n : BankName) (b : Bank) : ConnectionMap :=
  match n with
  | .a => { m with bankA := b }
  | .b => { m with bankB := b }

/-- The bank the EFA composes from (R1, R2). -/
def ConnectionMap.activeBank (m : ConnectionMap) : Bank :=
  m.bank m.active

/-- The bank that takes edits (R1). -/
def ConnectionMap.pendingBank (m : ConnectionMap) : Bank :=
  m.bank m.active.other

/-- Replaces the pending bank. -/
def ConnectionMap.setPending (m : ConnectionMap) (b : Bank) : ConnectionMap :=
  m.setBank m.active.other b

/-- Restoring the pending bank: all 192 entries made equal to the active ones (R26). -/
def ConnectionMap.restore (m : ConnectionMap) : ConnectionMap :=
  m.setPending m.activeBank

/-- Releasing the lock: HOLDER none, COMMIT_SCHEDULED false, the other fields absent (R24). -/
def ConnectionMap.release (m : ConnectionMap) : ConnectionMap :=
  { m with session := none, scheduled := none }

/-- HOLDER (R24). -/
def ConnectionMap.holder (m : ConnectionMap) : Option ChannelId :=
  m.session.map EditSession.holder

/-- The number of destinations whose pending and active entries differ (R4). -/
def ConnectionMap.differing (m : ConnectionMap) : Nat :=
  Place.all.countP fun d => m.pendingBank.get d != m.activeBank.get d

/-- The sources an entry draws from (R9): a DIRECT entry's source; for a PROTECTED entry with a configured group, its slot
of the working and of the protect lane. -/
def Entry.sources (groups : Vector (Option Group) 16) : Entry → List Place
  | .direct p _ => [p]
  | .protect g slot _ =>
    match groups.get g with
    | some x => [⟨x.workingLane, slot⟩, ⟨x.protectLane, slot⟩]
    | none => []
  | _ => []

/-- An entry references a group when it is PROTECTED with that GROUP (R9). -/
def Entry.references (g : GroupId) : Entry → Bool
  | .protect g' _ _ => g' == g
  | _ => false

/-! ### Occurrences and queues -/

/-- Case 1 of R166: counts the occurrence in the record of its kind and subject that is not in flight, if there is one. -/
def coalesce (e : Event) : List EventRecord → Option (List EventRecord)
  | [] => none
  | r :: rest =>
    if r.event = e ∧ r.inFlight = false then
      some ({ r with count := satInc Config.byteLimit r.count } :: rest)
    else
      (coalesce e rest).map (r :: ·)

/-- Judges the alarm line anew (R124). -/
def Queue.judge (q : Queue) : Queue :=
  { q with alarm := q.alarmCondition }

/-- An occurrence offered to a queue: coalesced, appended or lost (R166, R167), and the alarm line judged anew (R124). -/
def Queue.arrive (q : Queue) (e : Event) (stamp : Half) : Queue :=
  match coalesce e q.records with
  | some records => Queue.judge { q with records := records }
  | none =>
    if q.records.length < Config.queueRecords then
      Queue.judge { q with records := q.records ++ [⟨e, 1, stamp, false⟩] }
    else
      Queue.judge { q with overflow := true, lostCount := satInc Config.byteLimit q.lostCount }

/-- A channel's queue. -/
def State.queue (s : State) : ChannelId → Queue
  | .ch0 => s.queue0
  | .ch1 => s.queue1

/-- Replaces a channel's queue. -/
def State.setQueue (s : State) (ch : ChannelId) (q : Queue) : State :=
  match ch with
  | .ch0 => { s with queue0 := q }
  | .ch1 => { s with queue1 := q }

/-- Offers an occurrence to one queue, if its channel is enabled and subscribed to the kind (R165). FIRST_STAMP is
SUPERFRAME_COUNT as it stands (R46). -/
def State.offer (s : State) (ch : ChannelId) (e : Event) : State :=
  if s.enabled ch && maskHolds (s.queue ch).subscription e then
    s.setQueue ch ((s.queue ch).arrive e s.efa.superframes)
  else
    s

/-- Raises an occurrence: offered to both queues (R165). -/
def State.raise (s : State) (e : Event) : State :=
  (s.offer .ch0 e).offer .ch1 e

/-- Raises several occurrences in turn (R165). -/
def State.raiseAll (s : State) (es : List Event) : State :=
  es.foldl State.raise s

/-! ### Open orders -/

/-- An order of items that no rule orders: for two or more, by the free ranks of the draw, lower number first where the
ranks are equal (R165; notes/assumptions/7.md). -/
def openOrder {n : Nat} (draw : Nat) (xs : List (Fin n)) : List (Fin n) :=
  if xs.length ≤ 1 then xs
  else xs.insertionSort fun a b => Config.rank draw a.val < Config.rank draw b.val ∨
    (Config.rank draw a.val = Config.rank draw b.val ∧ a.val ≤ b.val)

/-- Does something for each item of a list, in an open order of a fresh draw. One order serves both queues, which R165
leaves independent (DESIGN CHOICE, notes/assumptions/7.md). -/
def State.forEach {n : Nat} (s : State) (xs : List (Fin n)) (f : State → Fin n → State) : State :=
  (openOrder s.free xs).foldl f { s with free := s.free + 1 }

/-! ### Guard faults and replies -/

/-- A guard fault of a request of channel `ch`: fills the empty record or counts an overrun, and raises GUARD_FAULT
(R157). -/
def State.guardFault (s : State) (ch : ChannelId) (r : Request) (reason : FaultReason) (target : Target) : State :=
  let g : Guard :=
    match s.guard.fault with
    | none => { s.guard with fault := some ⟨ch, r.code, r.seq, reason, target, s.efa.superframes⟩ }
    | some _ => { s.guard with overruns := satInc Config.byteLimit s.guard.overruns }
  State.raise { s with guard := g } (.guardFault ch)

/-- The reply formed for a request: STATUS, its SEQ, the body, the check over them, not acknowledged, not resent; deferred
effects only with status OK (R135). -/
def formReply (r : Request) (status : Status) (body : List Byte) (effects : Deferred) : StoredReply :=
  { status := status, seq := r.seq, body := packBytes body, check := replyCheck status r.seq (packBytes body)
    acked := false, effects := if status = .ok then effects else .none, resends := 0 }

/-- Completion of a request of channel `ch`: its reply replaces the stored one and the channel is REPLYING from the head
(R135). -/
def State.finish (s : State) (ch : ChannelId) (r : Request) (status : Status) (body : List Byte)
    (effects : Deferred) : State :=
  s.setChannel ch { s.channel ch with phase := .replying 0, stored := some (formReply r status body effects) }

/-- Completion with status OK and a body without deferred effects. -/
def State.reply (s : State) (ch : ChannelId) (r : Request) (body : List Byte) : State :=
  s.finish ch r .ok body .none

/-- A refusal without a body (R135). -/
def State.refuse (s : State) (ch : ChannelId) (r : Request) (status : Status) : State :=
  s.finish ch r status [] .none

/-- A refusal that is a guard fault, both in one event (R157). -/
def State.guardRefuse (s : State) (ch : ChannelId) (r : Request) (status : Status) (reason : FaultReason)
    (target : Target) : State :=
  (s.guardFault ch r reason target).refuse ch r status

/-! ### The guard's answers -/

/-- A present region covers a destination (R151). -/
def Region.covers (x : Region) (p : Place) : Bool :=
  decide (x.laneFirst ≤ p.lane) && decide (p.lane ≤ x.laneLast) &&
    decide (x.slotFirst ≤ p.slot) && decide (p.slot ≤ x.slotLast)

/-- Some present region covers the destination with MODIFY_PERMIT (R152). -/
def Guard.mayModify (g : Guard) (p : Place) : Bool :=
  g.regions.toList.any fun x => match x with
    | some x => x.covers p && x.modifyPermit
    | none => false

/-- Some present region covers the destination with READ_PERMIT (R152). -/
def Guard.mayRead (g : Guard) (p : Place) : Bool :=
  g.regions.toList.any fun x => match x with
    | some x => x.covers p && x.readPermit
    | none => false

/-- The first destination of a run that a request of the channel is not permitted to modify; none for channel 0 (R149,
R153). -/
def State.unmodifiable (s : State) (ch : ChannelId) (run : List Place) : Option Place :=
  match ch with
  | .ch0 => none
  | .ch1 => run.find? fun p => !s.guard.mayModify p

/-- The first destination of a run that a request of the channel is not permitted to read; none for channel 0 (R149,
R153). -/
def State.unreadable (s : State) (ch : ChannelId) (run : List Place) : Option Place :=
  match ch with
  | .ch0 => none
  | .ch1 => run.find? fun p => !s.guard.mayRead p

end Sys2Proof.Machine
end

