-- ==== Sys2Proof/Machine/Operands.lean ====
section
/-! DEFINITION. Every operand form of the requests: the range checks behind BAD_FIELD, each written once, and the records
and runs that bodies carry, in both directions. -/

namespace Sys2Proof.Machine

/-- A number below `n`, or none where it is out of range. -/
def finOf (n k : Nat) : Option (Fin n) :=
  if h : k < n then some ⟨k, h⟩ else none

/-- A lane number 0 to 7. -/
def laneOf (b : Byte) : Option LaneId :=
  finOf 8 b.toNat

/-- A slot number 0 to 23. -/
def slotOf (b : Byte) : Option SlotId :=
  finOf 24 b.toNat

/-- A group number 0 to 15. -/
def groupOf (b : Byte) : Option GroupId :=
  finOf 16 b.toNat

/-- A flag byte of value 0 or 1 (R176). -/
def flagOf (b : Byte) : Option Bool :=
  match b.toNat with
  | 0 => some false
  | 1 => some true
  | _ => none

/-- CHANNEL 0 or 1 (10.5). -/
def channelOf (b : Byte) : Option ChannelId :=
  match b.toNat with
  | 0 => some .ch0
  | 1 => some .ch1
  | _ => none

/-- A place by its lane and slot bytes. -/
def placeOf (lane slot : Byte) : Option Place :=
  match laneOf lane, slotOf slot with
  | some l, some s => some ⟨l, s⟩
  | _, _ => none

/-- The run of COUNT destinations of a lane from FIRST_SLOT: COUNT from 1 to `most`, none past slot 23 (R18, R20). -/
def runOf (most : Nat) (lane first count : Byte) : Option (List Place) :=
  match laneOf lane, slotOf first with
  | some l, some f =>
    if 1 ≤ count.toNat ∧ count.toNat ≤ most ∧ f.val + count.toNat ≤ 24 then
      some (((List.finRange 24).filter fun k => f.val ≤ k.val ∧ k.val < f.val + count.toNat).map fun k => ⟨l, k⟩)
    else none
  | _, _ => none

/-- FALLBACK by its code, with the CONSTANT that PATTERN takes (R179); code 3 names none. -/
def fallbackOf (code : BitVec 2) (constant : Word) : Option Fallback :=
  match code.toNat with
  | 0 => some .silence
  | 1 => some (.pattern constant)
  | 2 => some .hold
  | _ => none

/-- The entry a record asks for, in normal form (R3); none where R14 refuses it BAD_FIELD. Absent fields are not
examined. -/
def entryOf (r : EntryRecord) : Option Entry :=
  match r.mode.toNat with
  | 0 => some .unused
  | 1 =>
    match finOf 8 r.sourceLane.toNat, finOf 24 r.sourceSlot.toNat, fallbackOf r.fallback r.constant with
    | some l, some s, some f => some (.direct ⟨l, s⟩ f)
    | _, _, _ => none
  | 2 =>
    match groupOf r.group, finOf 24 r.sourceSlot.toNat, fallbackOf r.fallback r.constant with
    | some g, some s, some f => some (.protect g s f)
    | _, _, _ => none
  | 3 => some (.fixed r.constant)
  | _ => none

/-- The FALLBACK code and CONSTANT of a fallback (R179). -/
def Fallback.fields : Fallback → BitVec 2 × Word
  | .silence => (0, 0)
  | .pattern c => (1, c)
  | .hold => (2, 0)

/-- The six fields of an entry, absent fields zero (R3). -/
def Entry.record : Entry → EntryRecord
  | .unused => ⟨0, 0, 0, 0, 0, 0⟩
  | .direct p f => ⟨1, BitVec.ofNat 4 p.lane.val, 0, f.fields.1, BitVec.ofNat 5 p.slot.val, f.fields.2⟩
  | .protect g s f => ⟨2, 0, byteOf g.val, f.fields.1, BitVec.ofNat 5 s.val, f.fields.2⟩
  | .fixed c => ⟨3, 0, 0, 0, 0, c⟩

/-- The six bytes of an entry in normal form (R179). -/
def Entry.bytes (e : Entry) : List Byte :=
  encodeEntryRecord e.record

/-- The accepted idle timeout of OPEN_EDIT: 32 for 0, 4 to 255 as given, 1 to 3 refused (R27). -/
def timeoutOf (b : Byte) : Option Nat :=
  if b.toNat = 0 then some 32 else if b.toNat < 4 then none else some b.toNat

/-- The accepted hold of SET_CHANNEL: 48 for 0, 8 to 255 as given, 1 to 7 refused (R143). -/
def replyHoldOf (b : Byte) : Option Nat :=
  if b.toNat = 0 then some 48 else if b.toNat < 8 then none else some b.toNat

/-- The accepted wait-to-restore period: 30 for 0, otherwise as given (R108). -/
def wtrPeriodOf (b : Byte) : Nat :=
  if b.toNat = 0 then 30 else b.toNat

/-- The region record that SET_REGION's fields ask for: `some none` for PRESENT 0, none where R159 refuses BAD_FIELD. -/
def regionOf (present laneFirst laneLast slotFirst slotLast readPermit modifyPermit : Byte) :
    Option (Option Region) :=
  match flagOf present with
  | none => none
  | some false => some none
  | some true =>
    match placeOf laneFirst slotFirst, placeOf laneLast slotLast, flagOf readPermit, flagOf modifyPermit with
    | some a, some b, some r, some m =>
      if a.lane ≤ b.lane ∧ a.slot ≤ b.slot then some (some ⟨a.lane, b.lane, a.slot, b.slot, r, m⟩) else none
    | _, _, _, _ => none

/-- The seven bytes of a region record, zero in the last six where it is absent (R160). -/
def regionBytes : Option Region → List Byte
  | none => [0, 0, 0, 0, 0, 0, 0]
  | some x =>
    [1, byteOf x.laneFirst.val, byteOf x.laneLast.val, byteOf x.slotFirst.val, byteOf x.slotLast.val,
      flagByte x.readPermit, flagByte x.modifyPermit]

/-- MODE of an input with its GROUP (R121): GROUP is examined in the two bound modes alone. -/
def inputModeOf (mode group : Byte) : Option InputMode :=
  match mode.toNat with
  | 0 => some .off
  | 1 => some .event
  | 2 => (groupOf group).map .edgeManual
  | 3 => (groupOf group).map .levelLockout
  | _ => none

/-- The group an input mode binds (R114). -/
def InputMode.bound : InputMode → Option GroupId
  | .edgeManual g => some g
  | .levelLockout g => some g
  | _ => none

/-- The group whose lockout level an input mode contributes to (R118). -/
def InputMode.lockoutGroup : InputMode → Option GroupId
  | .levelLockout g => some g
  | _ => none

/-- A two-byte counter field. -/
def counterBytes (n : Nat) : List Byte :=
  halfBytes (BitVec.ofNat 16 n)

/-- The four lane counters, two bytes each in the order of R79 (R83). -/
def LaneCounters.bytes (c : LaneCounters) : List Byte :=
  counterBytes c.badMarkers ++ counterBytes c.alignLosses ++ counterBytes c.dropSlips ++ counterBytes c.repeatSlips

/-- The seven channel counters, two bytes each in the order of R140 (R142). -/
def ChannelCounters.bytes (c : ChannelCounters) : List Byte :=
  counterBytes c.checkErrors ++ counterBytes c.truncated ++ counterBytes c.malformed ++
    counterBytes c.busyDiscards ++ counterBytes c.duplicates ++ counterBytes c.retransmits ++
    counterBytes c.abandoned

/-- Reduction of the lane counters by reported values, none below 0 (R84). -/
def LaneCounters.less (c reported : LaneCounters) : LaneCounters :=
  { badMarkers := c.badMarkers - reported.badMarkers, alignLosses := c.alignLosses - reported.alignLosses
    dropSlips := c.dropSlips - reported.dropSlips, repeatSlips := c.repeatSlips - reported.repeatSlips }

/-- Reduction of the channel counters by reported values, none below 0 (R138, R142). -/
def ChannelCounters.less (c reported : ChannelCounters) : ChannelCounters :=
  { checkErrors := c.checkErrors - reported.checkErrors, truncated := c.truncated - reported.truncated
    malformed := c.malformed - reported.malformed, busyDiscards := c.busyDiscards - reported.busyDiscards
    duplicates := c.duplicates - reported.duplicates, retransmits := c.retransmits - reported.retransmits
    abandoned := c.abandoned - reported.abandoned }

/-- An event record's six bytes (R180). -/
def EventRecord.bytes (r : EventRecord) : List Byte :=
  [byteOf r.event.code, byteOf r.event.subject, byteOf r.count] ++ halfBytes r.firstStamp ++ [0]

/-- TARGET_KIND, TARGET_A and TARGET_B (R161). -/
def Target.bytes : Target → List Byte
  | .none => [0, 0, 0]
  | .destination p => [1, byteOf p.lane.val, byteOf p.slot.val]
  | .group g => [2, byteOf g.val, 0]

/-- The twelve bytes of the fault record and FAULT_OVERRUNS (R161). -/
def Guard.faultBytes (g : Guard) : List Byte :=
  match g.fault with
  | none => [0, 0, 0, 0, 0, 0, 0, 0, 0, 0, byteOf g.overruns, 0]
  | some f =>
    [1, byteOf (channelCode f.channel), f.code.zeroExtend 8, f.seq.zeroExtend 8, byteOf f.reason.code] ++
      f.target.bytes ++ halfBytes f.stamp ++ [byteOf g.overruns, 0]

end Sys2Proof.Machine
end

