-- ==== Sys2Proof/Machine/Groups.lean ====
section
/-! DEFINITION. The Protection Switch Controller (chapter 5): items and ranks, the re-decision of R89 and R90, the timers of
R93 to R97, the reports of the lanes (R87), the requests of event inputs (R105), and the group commands. -/

namespace Sys2Proof.Machine

/-! ### Items and ranks -/

/-- The items of ranks 1 to 7 (R88). -/
inductive Item
  | lockout
  | sfP
  | force
  | sfW
  | sdP
  | sdW
  | manual
  deriving DecidableEq, Repr

/-- The rank number of an item (5.2). -/
def Item.rank : Item → Nat
  | .lockout => 1
  | .sfP => 2
  | .force => 3
  | .sfW => 4
  | .sdP => 5
  | .sdW => 6
  | .manual => 7

/-- The kind of the standing request. -/
def Group.standingKind (x : Group) : Option RequestKind :=
  x.standing.map Standing.kind

/-- Whether an item of the group is present (R88). -/
def Group.present (x : Group) : Item → Bool
  | .lockout => x.standingKind == some .lockout || x.inputLockout
  | .sfP => x.conditions.sfP
  | .force => x.standingKind == some .force
  | .sfW => x.conditions.sfW
  | .sdP => x.conditions.sdP
  | .sdW => x.conditions.sdW
  | .manual => x.standingKind == some .manualP || x.standingKind == some .manualW

/-- The present item of lowest rank number (R88). -/
def Group.topItem (x : Group) : Option Item :=
  [Item.lockout, .sfP, .force, .sfW, .sdP, .sdW, .manual].find? x.present

/-- The top rank (R88). -/
def Group.topRank (x : Group) : Nat :=
  match x.topItem with
  | some i => i.rank
  | none =>
    match x.state with
    | .pWtr => 8
    | .pIdle => 9
    | _ => 10

/-- The rank of a request's kind (R88). -/
def RequestKind.rank : RequestKind → Nat
  | .lockout => 1
  | .force => 3
  | .manualP => 7
  | .manualW => 7

/-- A request is outranked when the top item has a lower rank number than its own (R101). -/
def Group.outranks (x : Group) (k : RequestKind) : Bool :=
  match x.topItem with
  | some i => decide (i.rank < k.rank)
  | none => false

/-- The selection each state holds (5.2). -/
def GroupState.selection : GroupState → Selection
  | .wIdle => .working
  | .wLockout => .working
  | .wSfP => .working
  | .wSdP => .working
  | .wManual => .working
  | .pForce => .protect
  | .pSf => .protect
  | .pSd => .protect
  | .pManual => .protect
  | .pWtr => .protect
  | .pIdle => .protect

/-! ### Re-decision -/

/-- A manual request is dropped when an item of rank 1 to 6 is present (R89 step 1, R104). -/
def Group.mustDrop (x : Group) : Bool :=
  x.present .manual &&
    (x.present .lockout || x.present .sfP || x.present .force || x.present .sfW || x.present .sdP || x.present .sdW)

/-- The group after step 1 of R89. -/
def Group.dropManual (x : Group) : Group :=
  if x.mustDrop then { x with standing := none } else x

/-- The group in a new state: SELECTED takes the value the state holds, and a change of it is a switch that SWITCH_COUNT
counts (R89, R91). -/
def Group.enter (x : Group) (st : GroupState) (holdOff wtr : Option Nat) : Group :=
  { x with
    state := st, selected := st.selection, holdOffRemaining := holdOff, wtrRemaining := wtr
    switchCount := if st.selection = x.selected then x.switchCount else satInc Config.counterLimit x.switchCount }

/-- A working-lane fault at the top: PROTECT at once where the group is there already, or where HOLD_OFF is 0 and no
hold-off runs; otherwise W_IDLE with a hold-off running, a running one kept (R89, R93). -/
def Group.workingFault (x : Group) (st : GroupState) : Group :=
  if x.selected = .protect then x.enter st none none
  else
    match x.holdOffRemaining with
    | some n => x.enter .wIdle (some n) none
    | none => if x.holdOff = 0 then x.enter st none none else x.enter .wIdle (some x.holdOff) none

/-- No item present: R90, by the state before. Rows that R90 says do not arise keep their state
(notes/assumptions/17.md). -/
def Group.noItem (x : Group) : Group :=
  match x.state with
  | .pSf => if x.revertive then x.enter .pWtr none (some x.wtrPeriod) else x.enter .pIdle none none
  | .pSd => if x.revertive then x.enter .pWtr none (some x.wtrPeriod) else x.enter .pIdle none none
  | .pForce => if x.revertive then x.enter .wIdle none none else x.enter .pIdle none none
  | .pManual => if x.revertive then x.enter .wIdle none none else x.enter .pIdle none none
  | .pWtr => x.enter .pWtr none x.wtrRemaining
  | .pIdle => x.enter .pIdle none none
  | _ => x.enter .wIdle none none

/-- Steps 2 and 3 of R89: the new state by the top item. -/
def Group.settle (x : Group) : Group :=
  match x.topItem with
  | some .lockout => x.enter .wLockout none none
  | some .sfP => x.enter .wSfP none none
  | some .force => x.enter .pForce none none
  | some .sfW => x.workingFault .pSf
  | some .sdP => x.enter .wSdP none none
  | some .sdW => x.workingFault .pSd
  | some .manual => if x.standingKind = some .manualP then x.enter .pManual none none else x.enter .wManual none none
  | none => x.noItem

/-- A re-decision (R89). -/
def Group.redecide (x : Group) : Group :=
  x.dropManual.settle

/-- The group event of a change of SELECTED (R91). -/
def switchEvents (g : GroupId) (before after : Selection) : List Event :=
  match before, after with
  | .working, .protect => [.groupToProtect g]
  | .protect, .working => [.groupToWorking g]
  | _, _ => []

/-- The occurrences of a re-decision, in the order of its steps: REQUEST_DROPPED, then the switch (R89, R91, R104,
R165). -/
def Group.redecideEvents (x : Group) (g : GroupId) : List Event :=
  (if x.mustDrop then [Event.requestDropped g] else []) ++ switchEvents g x.selected x.redecide.selected

/-- Re-decides group `g` from the record `x`, its items as the event has changed them (R89), with its occurrences among
those of the event that causes it. -/
def State.redecideAmong (s : State) (g : GroupId) (x : Group) (among : List Event → List Event) : State :=
  (s.setGroup g (some x.redecide)).raiseAll (among (x.redecideEvents g))

/-- A re-decision that raises its own occurrences alone (R89). -/
def State.redecide (s : State) (g : GroupId) (x : Group) : State :=
  s.redecideAmong g x id

/-! ### Reports of the lanes -/

/-- A lane is ALIGNED. -/
def Lane.isAligned (l : Lane) : Bool :=
  match l.alignment with
  | .aligned _ => true
  | _ => false

/-- A lane is DEGRADED: only while it is ALIGNED (R87). -/
def Lane.isDegraded (l : Lane) : Bool :=
  match l.alignment with
  | .aligned t => t.degraded
  | _ => false

/-- The conditions of a group with these working and protect lanes (R87). -/
def State.conditionsOf (s : State) (working protect : LaneId) : Conditions :=
  { sfW := !(s.lane working).isAligned, sfP := !(s.lane protect).isAligned
    sdW := (s.lane working).isDegraded, sdP := (s.lane protect).isDegraded }

/-- The configured groups whose conditions are no longer those of their lanes. -/
def State.staleGroups (s : State) : List GroupId :=
  (List.finRange 16).filter fun g =>
    match s.group g with
    | some x => x.conditions != s.conditionsOf x.workingLane x.protectLane
    | none => false

/-- Updates a group's conditions from its lanes and re-decides it (R87). -/
def State.refreshGroup (s : State) (g : GroupId) : State :=
  match s.group g with
  | some x => s.redecide g { x with conditions := s.conditionsOf x.workingLane x.protectLane }
  | none => s

/-- The report of a lane's change to the PSC: every configured group whose conditions it changes is updated and re-decided
in the same event (R69, R87). The order of the groups is open, and the model keeps the occurrences of one group together
(R165; DESIGN CHOICE, notes/assumptions/7.md). -/
def State.reportLanes (s : State) : State :=
  s.forEach s.staleGroups State.refreshGroup

/-! ### Timers -/

/-- The reduction of a running hold-off at a frame start, and its expiry (R94). The top item is SF_W or SD_W while a
hold-off runs. -/
def Group.tickHoldOff (x : Group) : Group :=
  match x.holdOffRemaining with
  | none => x
  | some n =>
    if n ≤ 1 then x.enter (if x.topItem = some .sdW then .pSd else .pSf) none none
    else { x with holdOffRemaining := some (n - 1) }

/-- The reduction of a wait-to-restore at a superframe boundary, and its end (R96). -/
def Group.tickWtr (x : Group) : Group :=
  match x.state, x.wtrRemaining with
  | .pWtr, some n =>
    if n ≤ 1 then x.enter .wIdle none none else { x with wtrRemaining := some (n - 1) }
  | _, _ => x

/-- A group's timers at a frame start (R94), and at a superframe boundary (R96). -/
def Group.tick (x : Group) (boundary : Bool) : Group :=
  if boundary then x.tickHoldOff.tickWtr else x.tickHoldOff

/-- The PSC's event of a frame start for one group, once (R92, R94, R96). -/
def State.tickGroup (s : State) (g : GroupId) : State :=
  match s.work.groupsTaken.get g, s.group g with
  | false, some x =>
    let s1 : State := { s with work := { s.work with groupsTaken := s.work.groupsTaken.set g.val true g.isLt } }
    (s1.setGroup g (some (x.tick s.boundary))).raiseAll
      (switchEvents g x.selected (x.tick s.boundary).selected)
  | _, _ => s

/-- The groups whose timer ends at this frame start. -/
def State.expiringGroups (s : State) : List GroupId :=
  (List.finRange 16).filter fun g =>
    match s.work.groupsTaken.get g, s.group g with
    | false, some x => (x.tick s.boundary).selected != x.selected
    | _, _ => false

/-- The PSC's event of a frame start: the groups that switch in an open order (R165), then the timers of the others. -/
def State.pscEvent (s : State) : State :=
  (List.finRange 16).foldl State.tickGroup (s.forEach s.expiringGroups State.tickGroup)

/-! ### Requests of event inputs -/

/-- MANUAL_P presented by an event input: judged by outranking alone (R105, R117). The group's occurrences join the queues
among the event's own. -/
def State.presentInput (s : State) (g : GroupId) (i : InputId) (among : List Event → List Event) : State :=
  match s.group g with
  | some x =>
    if x.outranks .manualP then s.raiseAll (among [])
    else s.redecideAmong g { x with standing := some ⟨.manualP, .input i⟩ } among
  | none => s.raiseAll (among [])

/-- The lockout level of a group: an input in LEVEL_LOCKOUT mode bound to it is active (R118). -/
def State.lockoutLevel (s : State) (g : GroupId) : Bool :=
  s.inputs.toList.any fun i => i.mode.lockoutGroup == some g && i.active

/-- Re-evaluates a group's lockout level; a change is handed to the group, which is re-decided (R118). The group's
occurrences join the queues among the event's own. -/
def State.reevaluateAmong (s : State) (g : GroupId) (among : List Event → List Event) : State :=
  match s.group g with
  | some x =>
    if s.lockoutLevel g = x.inputLockout then s.raiseAll (among [])
    else s.redecideAmong g { x with inputLockout := s.lockoutLevel g } among
  | none => s.raiseAll (among [])

/-- A re-evaluation that raises the group's occurrences alone (R118, R121). -/
def State.reevaluate (s : State) (g : GroupId) : State :=
  s.reevaluateAmong g id

/-! ### Commands -/

/-- GROUP, STATE, SELECTED and TOP_RANK (R100, R108). -/
def Group.summary (x : Group) (g : GroupId) : List Byte :=
  [byteOf g.val, byteOf x.state.code, byteOf x.selected.code, byteOf x.topRank]

/-- The origin of the standing request is channel 0 (R100 check 6). -/
def Group.heldBySupervisor (x : Group) : Bool :=
  x.standing.map Standing.origin == some (.channel .ch0)

/-- The reply of an accepted request: the group as it then stands (R100). -/
def State.replyGroup (s : State) (ch : ChannelId) (r : Request) (g : GroupId) : State :=
  match s.group g with
  | some x => s.reply ch r (x.summary g)
  | none => s.reply ch r []

/-- Checks 5 and 6 of R100 and the acceptance of R102, for a configured group open to the channel. -/
def State.requestGroup (s : State) (ch : ChannelId) (r : Request) (g : GroupId) (x : Group) (k : RequestKind) : State :=
  if x.outranks k then s.finish ch r .outranked (x.summary g) .none
  else if ch = .ch1 ∧ x.heldBySupervisor then s.guardRefuse ch r .notPermitted .origin (.group g)
  else (s.redecide g { x with standing := some ⟨k, .channel ch⟩ }).replyGroup ch r g

/-- Check 6 of R100 and the clearing of R103, for a configured group open to the channel. -/
def State.clearGroup (s : State) (ch : ChannelId) (r : Request) (g : GroupId) (x : Group) : State :=
  if ch = .ch1 ∧ x.heldBySupervisor then s.guardRefuse ch r .notPermitted .origin (.group g)
  else if x.standing.isSome then (s.redecide g { x with standing := none }).replyGroup ch r g
  else s.replyGroup ch r g

/-- Checks 1 to 4 of R100, then what the kind asks for: `supervisorKind` for LOCKOUT and FORCE. -/
def State.groupRequest (s : State) (ch : ChannelId) (r : Request) (group : Byte) (supervisorKind : Bool)
    (go : GroupId → Group → State) : State :=
  match groupOf group with
  | none => s.refuse ch r .badField
  | some g =>
    if ch = .ch1 ∧ supervisorKind then s.guardRefuse ch r .supervisorOnly .supervisor (.group g)
    else
      match s.group g with
      | none => s.refuse ch r .notConfigured
      | some x =>
        if ch = .ch1 ∧ x.operatorAccess = false then s.guardRefuse ch r .notPermitted .groupAccess (.group g)
        else go g x

/-- GROUP_REQUEST of kind LOCKOUT (R100, R102). -/
def State.takeLockout (s : State) (ch : ChannelId) (r : Request) (group : Byte) : State :=
  s.groupRequest ch r group true fun g x => s.requestGroup ch r g x .lockout

/-- GROUP_REQUEST of kind FORCE (R100, R102). -/
def State.takeForce (s : State) (ch : ChannelId) (r : Request) (group : Byte) : State :=
  s.groupRequest ch r group true fun g x => s.requestGroup ch r g x .force

/-- GROUP_REQUEST of kind MANUAL_P (R100, R102). -/
def State.takeManualP (s : State) (ch : ChannelId) (r : Request) (group : Byte) : State :=
  s.groupRequest ch r group false fun g x => s.requestGroup ch r g x .manualP

/-- GROUP_REQUEST of kind MANUAL_W (R100, R102). -/
def State.takeManualW (s : State) (ch : ChannelId) (r : Request) (group : Byte) : State :=
  s.groupRequest ch r group false fun g x => s.requestGroup ch r g x .manualW

/-- The KIND that a GROUP_REQUEST carries, its second byte (R100). -/
def Request.groupKind (r : Request) : Option Byte :=
  (bodyBytes r.body)[1]?

/-- GROUP_REQUEST of kind CLEAR (R100, R103), and of a KIND that names no kind, which is BAD_FIELD whatever the group
(R100 check 1; notes/assumptions/13.md). -/
def State.takeClear (s : State) (ch : ChannelId) (r : Request) (group : Byte) : State :=
  if r.groupKind = some 5 then s.groupRequest ch r group false fun g x => s.clearGroup ch r g x
  else s.refuse ch r .badField

/-- Some entry of either bank satisfies a test (R9: "evaluated over the current content of both banks"). -/
def ConnectionMap.anyEntry (m : ConnectionMap) (f : Place → Entry → Bool) : Bool :=
  Place.all.any fun d => f d (m.bankA.get d) || f d (m.bankB.get d)

/-- Check 3 of R108: an entry naming the group would draw from a management location through these lanes. -/
def State.groupInUse (s : State) (g : GroupId) (working protect : LaneId) : Bool :=
  s.map.anyEntry fun _ e =>
    match e with
    | .protect g' slot _ => g' == g && (s.managed ⟨working, slot⟩ || s.managed ⟨protect, slot⟩)
    | _ => false

/-- The fields of a CONFIG_GROUP in range (R108 check 1). -/
structure GroupFields where
  group : GroupId
  working : LaneId
  protect : LaneId
  revertive : Bool
  holdOff : Nat
  wtrPeriod : Nat
  access : Bool
  deriving DecidableEq, Repr

/-- Check 1 of R108. -/
def groupFieldsOf (group working protect revertive holdOff wtr access : Byte) : Option GroupFields :=
  match groupOf group, laneOf working, laneOf protect, flagOf revertive, flagOf access with
  | some g, some w, some p, some r, some a =>
    if w ≠ p ∧ holdOff.toNat ≤ 31 then some ⟨g, w, p, r, holdOff.toNat, wtrPeriodOf wtr, a⟩ else none
  | _, _, _, _, _ => none

/-- The record of a group being configured, before its re-decision (R109 steps 1 to 4). -/
def State.freshGroup (s : State) (f : GroupFields) : Group :=
  { workingLane := f.working, protectLane := f.protect, revertive := f.revertive, holdOff := f.holdOff
    wtrPeriod := f.wtrPeriod, operatorAccess := f.access, standing := none, inputLockout := false
    conditions := s.conditionsOf f.working f.protect, state := .wIdle, selected := .working
    holdOffRemaining := none, wtrRemaining := none, switchCount := 0 }

/-- The effect of a changed REVERTIVE on a group at rest or waiting (R110). -/
def Group.convert (x : Group) (revertive : Bool) (wtrPeriod : Nat) : Group :=
  match x.state with
  | .pWtr => if revertive then x else { x with state := .pIdle, wtrRemaining := none }
  | .pIdle => if revertive then { x with state := .pWtr, wtrRemaining := some wtrPeriod } else x
  | _ => x

/-- The record of a configured group after an accepted CONFIG_GROUP (R110). -/
def Group.reconfigure (x : Group) (f : GroupFields) : Group :=
  { x.convert f.revertive f.wtrPeriod with
    revertive := f.revertive, holdOff := f.holdOff, wtrPeriod := f.wtrPeriod, operatorAccess := f.access }

/-- CONFIG_GROUP (R108 to R110). -/
def State.takeConfigGroup (s : State) (r : Request) (group working protect revertive holdOff wtr access : Byte) :
    State :=
  match groupFieldsOf group working protect revertive holdOff wtr access with
  | none => s.refuse .ch0 r .badField
  | some f =>
    match s.group f.group with
    | some x =>
      if f.working ≠ x.workingLane ∨ f.protect ≠ x.protectLane then s.refuse .ch0 r .badField
      else (s.setGroup f.group (some (x.reconfigure f))).replyGroup .ch0 r f.group
    | none =>
      if s.groupInUse f.group f.working f.protect then s.refuse .ch0 r .inUse
      else (s.redecide f.group (s.freshGroup f)).replyGroup .ch0 r f.group

/-- Check 3 of R111: an entry references the group, or an input is bound to it. -/
def State.groupBound (s : State) (g : GroupId) : Bool :=
  s.map.anyEntry (fun _ e => e.references g) || s.inputs.toList.any fun i => i.mode.bound == some g

/-- DELETE_GROUP (R111). -/
def State.takeDeleteGroup (s : State) (r : Request) (group : Byte) : State :=
  match groupOf group with
  | none => s.refuse .ch0 r .badField
  | some g =>
    if s.group g = none then s.refuse .ch0 r .notConfigured
    else if s.groupBound g then s.refuse .ch0 r .inUse
    else (s.setGroup g none).reply .ch0 r []

/-- The twenty bytes of READ_GROUP (R112). -/
def groupBytes (g : GroupId) : Option Group → List Byte
  | none => byteOf g.val :: List.replicate 19 0
  | some x =>
    [byteOf g.val, 1, byteOf x.workingLane.val, byteOf x.protectLane.val, flagByte x.revertive, byteOf x.holdOff,
      byteOf x.wtrPeriod, flagByte x.operatorAccess,
      byteOf ((x.standing.map fun q => q.kind.code).getD 0), byteOf ((x.standing.map fun q => q.origin.code).getD 0),
      flagByte x.inputLockout, x.conditions.byte, byteOf x.state.code, byteOf x.selected.code, byteOf x.topRank,
      byteOf (x.holdOffRemaining.getD 0), byteOf (x.wtrRemaining.getD 0)] ++
    counterBytes x.switchCount ++ [0]

/-- READ_GROUP (R112). -/
def State.takeReadGroup (s : State) (ch : ChannelId) (r : Request) (group : Byte) : State :=
  match groupOf group with
  | none => s.refuse ch r .badField
  | some g => s.reply ch r (groupBytes g (s.group g))

end Sys2Proof.Machine
end

