-- ==== Sys2Proof/Machine/Inputs.lean ====
section
/-! DEFINITION. The Event Input Unit (chapter 6): sampling and debounce at a frame start (R115), the effects of an accepted
change by mode (R116 to R118), and the input commands. -/

namespace Sys2Proof.Machine

/-- The input after a sample (R115): a change seen at two consecutive frame starts is accepted. -/
def Input.sample (x : Input) (level : Bool) : Input :=
  { x with accepted := if level = x.lastSample then level else x.accepted, lastSample := level }

/-- INPUT_EDGE among the group occurrences of its edge, after the first `place` of them: they have no order between them
(R116, R165), and the frame start's operand gives it, one order for both queues (DESIGN CHOICE,
notes/assumptions/20.md). -/
def edgeAmong (i : InputId) (place : Nat) (es : List Event) : List Event :=
  es.take place ++ .inputEdge i :: es.drop place

/-- An accepted change of an input, by its mode (R116 to R118). Only an active edge raises INPUT_EDGE. -/
def State.acceptChange (s : State) (i : InputId) (place : Nat) : State :=
  let x := s.input i
  let among : List Event → List Event := if x.active then edgeAmong i place else id
  match x.mode with
  | .off => s
  | .event => s.raiseAll (among [])
  | .edgeManual g => if x.active then s.presentInput g i among else s
  | .levelLockout g => s.reevaluateAmong g among

/-- One input's part of the EIU's event (R115). -/
def State.sampleInput (s : State) (i : InputId) (level : Bool) (place : Nat) : State :=
  let x := s.input i
  let s1 := s.setInput i (x.sample level)
  if (x.sample level).accepted = x.accepted then s1 else s1.acceptChange i place

/-- The EIU's event of a frame start: each input in turn, from EVI0 to EVI3 (R115). -/
def State.eiuEvent (s : State) (pins : BitVec 4) (places : Vector (Fin 3) 4) : State :=
  (List.finRange 4).foldl (fun s i => s.sampleInput i (pins.getLsbD i.val) (places.get i).val) s

/-- The groups whose lockout level a SET_INPUT re-evaluates (R121 step 3): of the mode before and of the mode after, one
group once. -/
def lockoutGroups (before after : InputMode) : List GroupId :=
  match before.lockoutGroup, after.lockoutGroup with
  | some g, some h => if g = h then [g] else [g, h]
  | some g, none => [g]
  | none, some h => [h]
  | none, none => []

/-- The groups of a list whose lockout level has changed. -/
def State.changedLockouts (s : State) (gs : List GroupId) : List GroupId :=
  gs.filter fun g =>
    match s.group g with
    | some x => s.lockoutLevel g != x.inputLockout
    | none => false

/-- SET_INPUT (R121). Two groups that both change are re-decided in an open order, the occurrences of one group kept
together (R165; DESIGN CHOICE, notes/assumptions/7.md). -/
def State.takeSetInput (s : State) (r : Request) (input polarity mode group : Byte) : State :=
  match finOf 4 input.toNat, flagOf polarity, inputModeOf mode group with
  | some i, some low, some m =>
    if (m.bound.map fun g => s.group g == none) = some true then s.refuse .ch0 r .notConfigured
    else
      let x := s.input i
      let y : Input := { x with mode := m, activeLow := low }
      let s1 := s.setInput i y
      let s2 := s1.forEach (s1.changedLockouts (lockoutGroups x.mode m)) State.reevaluate
      s2.reply .ch0 r (byteOf i.val :: y.bytes ++ [0])
  | _, _, _ => s.refuse .ch0 r .badField

/-- READ_INPUTS (R122). -/
def State.takeReadInputs (s : State) (ch : ChannelId) (r : Request) : State :=
  s.reply ch r (s.inputs.toList.flatMap Input.bytes)

/-- The input's record after a datapath reset: a bound input becomes EVENT (R123). -/
def Input.unbind (x : Input) : Input :=
  match x.mode with
  | .edgeManual _ => { x with mode := .event }
  | .levelLockout _ => { x with mode := .event }
  | _ => x

end Sys2Proof.Machine
end

