-- ==== Sys2Proof/Machine/Events.lean ====
section
/-! DEFINITION. The Event Queue Unit's own commands and effects (chapter 9): SET_SUBSCRIPTION, READ_EVENTS, the
acknowledgement of a READ_EVENTS reply, and the emptying of queue 1 at a channel restart. -/

namespace Sys2Proof.Machine

/-- The acknowledgement of a READ_EVENTS reply that marked and reported these numbers (R172). -/
def Queue.acknowledge (q : Queue) (marked lost : Nat) : Queue :=
  Queue.judge
    { q with
      records := q.records.drop marked
      lostCount := q.lostCount - lost
      overflow := if q.lostCount - lost = 0 then false else q.overflow }

/-- The oldest records marked IN_FLIGHT (R170). -/
def Queue.mark (q : Queue) (n : Nat) : Queue :=
  { q with records := (q.records.take n).map (fun r => { r with inFlight := true }) ++ q.records.drop n }

/-- Emptied by a channel restart, masks kept, the alarm line judged anew (R125, R174). -/
def Queue.clear (q : Queue) : Queue :=
  Queue.judge { q with records := [], overflow := false, lostCount := 0 }

/-- Both masks replaced, bit 15 of the subscription mask stored as 0, and the alarm line judged anew (R169, R180). -/
def Queue.subscribe (q : Queue) (subscription alarm : Half) : Queue :=
  Queue.judge { q with subscription := subscription &&& 0x7FFF, alarmMask := alarm }

/-- SET_SUBSCRIPTION, on the requesting channel's own masks (R169). -/
def State.takeSetSubscription (s : State) (ch : ChannelId) (r : Request) (subscription alarm : Half) : State :=
  (s.setQueue ch ((s.queue ch).subscribe subscription alarm)).reply ch r
    (halfBytes (subscription &&& 0x7FFF) ++ halfBytes alarm)

/-- OVERFLOW, LOST_COUNT, N and the records of a READ_EVENTS reply (R171). -/
def Queue.readBytes (q : Queue) (n : Nat) : List Byte :=
  [flagByte q.overflow, byteOf q.lostCount, byteOf n, 0] ++ (q.records.take n).flatMap EventRecord.bytes

/-- READ_EVENTS, on the requesting channel's own queue (R170, R171). -/
def State.takeReadEvents (s : State) (ch : ChannelId) (r : Request) (maxCount : Byte) : State :=
  if 1 ≤ maxCount.toNat ∧ maxCount.toNat ≤ 8 then
    let q := s.queue ch
    let n := min maxCount.toNat q.records.length
    (s.setQueue ch (q.mark n)).finish ch r .ok (q.readBytes n) (.events n q.lostCount)
  else s.refuse ch r .badField

end Sys2Proof.Machine
end

