-- ==== Sys2Proof/Machine/Channels.lean ====
section
/-! DEFINITION. The management channel controllers' reception and sending (chapter 7): words taken by kind and state (R129
to R132), duplicates and the generic checks (R133, R134), acknowledgement (R138), and the word supplied at a frame
start with the hold timer's expiry (R136, R137, R139). -/

namespace Sys2Proof.Machine

/-! ### Acknowledgement -/

/-- Deferred effects applied by their owners (R138, R84, R142, R172). -/
def State.applyEffects (s : State) (ch : ChannelId) (e : Deferred) : State :=
  match e with
  | .none => s
  | .events marked lost => s.setQueue ch ((s.queue ch).acknowledge marked lost)
  | .lane l reported =>
    s.setLane l { s.lane l with counters := (s.lane l).counters.less reported }
  | .channel c reported => s.countChannel c fun k => k.less reported

/-- Acknowledgement of the stored reply: ACKED becomes yes and the deferred effects are applied, once (R138). -/
def State.acknowledge (s : State) (ch : ChannelId) : State :=
  match (s.channel ch).stored with
  | some p =>
    if p.acked then s
    else (s.setChannel ch { s.channel ch with stored := some { p with acked := true } }).applyEffects ch p.effects
  | none => s

/-- A HEAD's implicit acknowledgement: a stored, unacknowledged reply of another SEQ (R129 step 1). -/
def State.acknowledgeImplicitly (s : State) (ch : ChannelId) (seq : BitVec 4) : State :=
  match (s.channel ch).stored with
  | some p => if p.seq = seq then s else s.acknowledge ch
  | none => s

/-! ### Counting -/

/-- CHECK_ERRORS increased (R140). -/
def ChannelCounters.incCheckErrors (k : ChannelCounters) : ChannelCounters :=
  { k with checkErrors := satInc Config.counterLimit k.checkErrors }

/-- TRUNCATED increased (R140). -/
def ChannelCounters.incTruncated (k : ChannelCounters) : ChannelCounters :=
  { k with truncated := satInc Config.counterLimit k.truncated }

/-- MALFORMED increased (R140). -/
def ChannelCounters.incMalformed (k : ChannelCounters) : ChannelCounters :=
  { k with malformed := satInc Config.counterLimit k.malformed }

/-- BUSY_DISCARDS increased (R140). -/
def ChannelCounters.incBusyDiscards (k : ChannelCounters) : ChannelCounters :=
  { k with busyDiscards := satInc Config.counterLimit k.busyDiscards }

/-- DUPLICATES increased (R140). -/
def ChannelCounters.incDuplicates (k : ChannelCounters) : ChannelCounters :=
  { k with duplicates := satInc Config.counterLimit k.duplicates }

/-- RETRANSMITS increased (R140). -/
def ChannelCounters.incRetransmits (k : ChannelCounters) : ChannelCounters :=
  { k with retransmits := satInc Config.counterLimit k.retransmits }

/-- ABANDONED increased (R140). -/
def ChannelCounters.incAbandoned (k : ChannelCounters) : ChannelCounters :=
  { k with abandoned := satInc Config.counterLimit k.abandoned }

/-! ### Requests -/

/-- The idle timer reloaded by an executed request of the holder's channel (R29). -/
def ConnectionMap.reload (m : ConnectionMap) (ch : ChannelId) : ConnectionMap :=
  match m.session with
  | some e => if e.holder = ch then { m with session := some { e with idleRemaining := e.idleTimeout } } else m
  | none => m

/-- The three generic checks of R134. What passes waits for its owner in EXECUTING. -/
def State.execute (s : State) (ch : ChannelId) (r : Request) : State :=
  match commandLength r.code with
  | none => s.refuse ch r .badCommand
  | some len =>
    if r.len.toNat ≠ len then s.refuse ch r .badLength
    else if ch = .ch1 ∧ supervisorOnly r.code then s.guardRefuse ch r .supervisorOnly .supervisor .none
    else s.setPhase ch (.executing r true)

/-- A duplicate of the stored reply's request: the stored reply is sent again from its head (R133). -/
def State.duplicate (s : State) (ch : ChannelId) (p : StoredReply) : State :=
  s.setChannel ch
    { s.channel ch with
      phase := .replying 0, stored := some { p with resends := 0 }
      counters := (s.channel ch).counters.incDuplicates }

/-- A complete request: a duplicate, or executed (R133, R134), with the idle timer reloaded first (R29). -/
def State.complete (s : State) (ch : ChannelId) (r : Request) : State :=
  match (s.channel ch).stored with
  | some p =>
    if p.seq = r.seq then s.duplicate ch p
    else State.execute { s with map := s.map.reload ch } ch r
  | none => State.execute { s with map := s.map.reload ch } ch r

/-- A partial or faulty request discarded, its cause counted (R130, R131). -/
def State.discard (s : State) (ch : ChannelId) (count : ChannelCounters → ChannelCounters) : State :=
  (s.countChannel ch count).setPhase ch .idle

/-- HEAD in IDLE, RECEIVING or AWAIT_ACK (R129). -/
def State.takeHead (s : State) (ch : ChannelId) (code : BitVec 6) (seq : BitVec 4) (len : BitVec 5) : State :=
  let s1 := s.acknowledgeImplicitly ch seq
  let s2 :=
    match (s.channel ch).phase with
    | .receiving _ => s1.countChannel ch ChannelCounters.incTruncated
    | _ => s1
  s2.setPhase ch (.receiving ⟨code, seq, len, []⟩)

/-- BODY in RECEIVING (R130). -/
def State.takeBody (s : State) (ch : ChannelId) (r : Request) (payload : Half) : State :=
  if r.body.length < r.len.toNat then s.setPhase ch (.receiving { r with body := r.body ++ [payload] })
  else s.discard ch ChannelCounters.incMalformed

/-- TAIL in RECEIVING (R130). -/
def State.takeTail (s : State) (ch : ChannelId) (r : Request) (check : Half) : State :=
  if r.body.length < r.len.toNat then s.discard ch ChannelCounters.incTruncated
  else if check = r.check then s.complete ch r
  else (s.discard ch ChannelCounters.incCheckErrors).raise (.checkError ch)

/-- An explicit acknowledgement with the stored reply's SEQ, in AWAIT_ACK or in IDLE (R138). -/
def State.takeAck (s : State) (ch : ChannelId) (valid : Bool) (seq : BitVec 4) : State :=
  match (s.channel ch).stored with
  | some p => if valid ∧ p.seq = seq then (s.acknowledge ch).setPhase ch .idle else s
  | none => s

/-- A word handed to the channel, by its state and the word's kind (R127, R129 to R132, R138). -/
def State.takeWord (s : State) (ch : ChannelId) (w : Word) : State :=
  match (s.channel ch).phase, decodeMgmtWord w with
  | .off, _ => s
  | .executing .., .head .. => s.countChannel ch ChannelCounters.incBusyDiscards
  | .executing .., _ => s
  | .replying _, .head .. => s.countChannel ch ChannelCounters.incBusyDiscards
  | .replying _, _ => s
  | _, .head code seq len => s.takeHead ch code seq len
  | .receiving r, .body p => s.takeBody ch r p
  | .receiving r, .tail c => s.takeTail ch r c
  | .receiving _, .idle .. => s.discard ch ChannelCounters.incTruncated
  | _, .idle valid seq => s.takeAck ch valid seq
  | _, _ => s.countChannel ch ChannelCounters.incMalformed

/-- The report that the channel's lane has left ALIGNED: a partial request is discarded (R131). -/
def State.lostAlignment (s : State) (ch : ChannelId) : State :=
  match (s.channel ch).phase with
  | .receiving _ => s.discard ch ChannelCounters.incTruncated
  | _ => s

/-! ### Sending -/

/-- The IDLE word a channel supplies, its STATE field as given (R137). -/
def State.idleWordOf (s : State) (ch : ChannelId) (stateCode : Nat) : Word :=
  idleWord stateCode (s.queue ch).eventsPending (s.queue ch).overflow (s.map.holder == some ch)
    (ch == .ch0 && s.guard.fault.isSome) s.map.generation

/-- The expiry of the hold timer: retransmission, or abandonment after the third (R139). -/
def State.expireHold (s : State) (ch : ChannelId) : State :=
  match (s.channel ch).stored with
  | some p =>
    if p.resends < 3 then
      s.setChannel ch
        { s.channel ch with
          phase := .replying 0, stored := some { p with resends := p.resends + 1 }
          counters := (s.channel ch).counters.incRetransmits }
    else (s.discard ch ChannelCounters.incAbandoned).raise (.replyAbandoned ch)
  | none => s.setPhase ch .idle

/-- The management word a channel has supplied for the coming frame. -/
def FrameWork.word (k : FrameWork) : ChannelId → Option Word
  | .ch0 => k.word0
  | .ch1 => k.word1

/-- Records the management word a channel supplies for the coming frame. -/
def State.supply (s : State) (ch : ChannelId) (w : Word) : State :=
  match ch with
  | .ch0 => { s with work := { s.work with word0 := some w } }
  | .ch1 => { s with work := { s.work with word1 := some w } }

/-- A reply word supplied: the reply position advances, and after the TAIL the hold timer is set (R136). -/
def State.sendReplyWord (s : State) (ch : ChannelId) (position : Nat) : State :=
  match (s.channel ch).stored with
  | some p =>
    (s.supply ch (p.word position)).setPhase ch
      (if position ≤ p.body.length then .replying (position + 1) else .awaitAck (s.channel ch).replyHold)
  | none => s

/-- The controller's event of a frame start, once (R136, R139). A reply completed by the bank swap at this very frame
start is not begun: the word is an IDLE word of the state that the frame start found (R40, R136;
notes/assumptions/9.md). -/
def State.mccEvent (s : State) (ch : ChannelId) : State :=
  if s.enabled ch ∧ s.work.word ch = none then
    match (s.channel ch).phase with
    | .replying 0 =>
      if s.work.swapped = some ch then s.supply ch (s.idleWordOf ch 3) else s.sendReplyWord ch 0
    | .replying k => s.sendReplyWord ch k
    | .awaitAck n =>
      let s1 := s.supply ch (s.idleWordOf ch 5)
      if n ≤ 1 then s1.expireHold ch else s1.setPhase ch (.awaitAck (n - 1))
    | p => s.supply ch (s.idleWordOf ch p.code)
  else s

end Sys2Proof.Machine
end

