-- ==== Sys2Proof/Machine/Lanes.lean ====
section
/-! DEFINITION. The Ingress Lane Receivers (chapter 4): word arrival by alignment state (R63 to R68), the degrade monitor
(R70 to R72), the elastic store (R73 to R75), the hand-off of management words (R77), and the lane commands. -/

namespace Sys2Proof.Machine

/-! ### Store and counters -/

/-- The store emptied of unread frames and of the last-read frame (R64, R68). -/
def Lane.empty (x : Lane) : Lane :=
  { x with unread := [], lastRead := none }

/-- BAD_MARKERS increased (R79). -/
def LaneCounters.incBadMarkers (k : LaneCounters) : LaneCounters :=
  { k with badMarkers := satInc Config.counterLimit k.badMarkers }

/-- ALIGN_LOSSES increased (R79). -/
def LaneCounters.incAlignLosses (k : LaneCounters) : LaneCounters :=
  { k with alignLosses := satInc Config.counterLimit k.alignLosses }

/-- DROP_SLIPS increased (R79). -/
def LaneCounters.incDropSlips (k : LaneCounters) : LaneCounters :=
  { k with dropSlips := satInc Config.counterLimit k.dropSlips }

/-- REPEAT_SLIPS increased (R79). -/
def LaneCounters.incRepeatSlips (k : LaneCounters) : LaneCounters :=
  { k with repeatSlips := satInc Config.counterLimit k.repeatSlips }

/-- A frame from its 24 slot words in slot order. -/
def frameOf (slots : List Word) : Frame :=
  Vector.ofFn fun i => slots.getD i.val 0

/-- A completed frame joins the unread list; at a full list the oldest unread frame is discarded first, a drop slip (R73,
R74). -/
def Lane.push (x : Lane) (f : Frame) : Lane :=
  if x.unread.length < 2 then { x with unread := x.unread ++ [f] }
  else { x with unread := x.unread.tail ++ [f], counters := x.counters.incDropSlips }

/-- A frame completes on a lane (R73, R74). -/
def State.completeFrame (s : State) (l : LaneId) (f : Frame) : State :=
  let s1 := s.setLane l ((s.lane l).push f)
  if (s.lane l).unread.length < 2 then s1 else s1.raise (.laneSlip l)

/-! ### Leaving and reaching ALIGNED -/

/-- The channels whose location lies on the lane learn that it left ALIGNED (R69, R131). -/
def State.reportLost (s : State) (l : LaneId) : State :=
  let s1 := if (s.place .ch0).map Place.lane = some l then s.lostAlignment .ch0 else s
  if (s.place .ch1).map Place.lane = some l then s1.lostAlignment .ch1 else s1

/-- The lane leaves ALIGNED for another alignment: the store is emptied, LANE_LOST raised, and the change reported (R64,
R68, R69). The occurrence of the lane comes before those of the groups (notes/assumptions/11.md). -/
def State.leaveAligned (s : State) (l : LaneId) (a : Alignment) (count : LaneCounters → LaneCounters) : State :=
  let x := s.lane l
  let s1 := s.setLane l { x.empty with alignment := a, counters := count x.counters }
  ((s1.raise (.laneLost l)).reportLost l).reportLanes

/-- Loss of alignment at the fourth consecutive bad position (R68). -/
def State.loseAlignment (s : State) (l : LaneId) : State :=
  s.leaveAligned l .hunt fun k => k.incBadMarkers.incAlignLosses

/-- The lane enters an alignment state that changes no declaration (R65, R66). -/
def State.track (s : State) (l : LaneId) (a : Alignment) : State :=
  s.setLane l { s.lane l with alignment := a }

/-- The lane is declared ALIGNED by a marker (R66): the expected number follows it and an empty degrade window begins. -/
def State.declareAligned (s : State) (l : LaneId) (number : BitVec 4) : State :=
  ((s.track l (.aligned ⟨number, 0, ⟨0, 0⟩, false, []⟩)).raise (.laneAligned l)).reportLanes

/-! ### The degrade monitor -/

/-- DEGRADED after the judgement of a window's bad count (R71). -/
def judgeDegraded (threshold bad : Nat) (degraded : Bool) : Bool :=
  if threshold = 0 then degraded
  else if degraded then decide (threshold / 2 < bad)
  else decide (threshold ≤ bad)

/-- The event of a change of DEGRADED (R71). -/
def degradeEvents (l : LaneId) (before after : Bool) : List Event :=
  match before, after with
  | false, true => [.laneDegradeSet l]
  | true, false => [.laneDegradeClear l]
  | _, _ => []

/-! ### Word arrival -/

/-- A marker position judged in ALIGNED (R67): the tracking after it, its window not yet judged. -/
def Tracking.judge (t : Tracking) (good : Bool) : Tracking :=
  { number := t.number + 1
    consecutiveBad := if good then 0 else t.consecutiveBad + 1
    window := ⟨t.window.length + 1, if good then t.window.bad else t.window.bad + 1⟩
    degraded := t.degraded
    slots := [] }

/-- The end of the degrade window, when it is due (R70, R71). -/
def Tracking.endWindow (t : Tracking) (threshold : Nat) : Tracking :=
  if t.window.length < 256 then t
  else { t with window := ⟨0, 0⟩, degraded := judgeDegraded threshold t.window.bad t.degraded }

/-- A bad position here is the fourth consecutive one (R68). -/
def Tracking.lastChance (t : Tracking) : Bool :=
  decide (3 ≤ t.consecutiveBad)

/-- A marker position in ALIGNED (R67, R68, R70, R71). -/
def State.markerAligned (s : State) (l : LaneId) (t : Tracking) (w : Word) : State :=
  let good := goodMarker t.number w
  let x := s.lane l
  if good = false ∧ t.lastChance then s.loseAlignment l
  else
    let t1 := (t.judge good).endWindow x.threshold
    let s1 := s.setLane l
      { x with alignment := .aligned t1, counters := if good then x.counters else x.counters.incBadMarkers }
    if t1.degraded = t.degraded then s1
    else (s1.raiseAll (degradeEvents l t.degraded t1.degraded)).reportLanes

/-- Hands a word found at a place to the channel whose ingress management location it is (R77). -/
def State.handOff (s : State) (p : Place) (w : Word) : State :=
  let s1 := if s.place .ch0 = some p then s.takeWord .ch0 w else s
  if s.place .ch1 = some p then s1.takeWord .ch1 w else s1

/-- A slot word in ALIGNED: it joins the frame, is handed off at a management location (R77), and completes the frame at
slot 23 (R73). Where the store is full the order of the hand-off and the store write is open (R77), one order for both
queues (DESIGN CHOICE, notes/assumptions/8.md). -/
def State.slotAligned (s : State) (l : LaneId) (t : Tracking) (w : Word) : State :=
  let slots := t.slots ++ [w]
  let s1 := s.track l (.aligned { t with slots := slots })
  match finOf 24 t.slots.length with
  | none => s1
  | some k =>
    if slots.length < 24 then s1.handOff ⟨l, k⟩ w
    else if (s.lane l).unread.length < 2 then (s1.handOff ⟨l, k⟩ w).completeFrame l (frameOf slots)
    else
      let s2 : State := { s1 with free := s1.free + 1 }
      if Config.handOffFirst s1.free then (s2.handOff ⟨l, k⟩ w).completeFrame l (frameOf slots)
      else (s2.completeFrame l (frameOf slots)).handOff ⟨l, k⟩ w

/-- The arrival of a word on a lane, by the lane's alignment state (R63 to R68). -/
def State.arrive (s : State) (l : LaneId) (w : Word) : State :=
  match (s.lane l).alignment with
  | .off => s
  | .hunt => if matchesMarker w then s.track l (.confirm 0 (frameField w + 1) false) else s
  | .confirm passed number oneGood =>
    if passed < 24 then s.track l (.confirm (passed + 1) number oneGood)
    else if goodMarker number w = false then s.track l .hunt
    else if oneGood then s.declareAligned l (number + 1)
    else s.track l (.confirm 0 (number + 1) true)
  | .aligned t => if t.slots.length < 24 then s.slotAligned l t w else s.markerAligned l t w

/-- The arrival of this word would be a bad position, the fourth in a row, in ALIGNED (R68). -/
def State.lossDue (s : State) (l : LaneId) (w : Word) : Bool :=
  match (s.lane l).alignment with
  | .aligned t => decide (24 ≤ t.slots.length) && !goodMarker t.number w && t.lastChance
  | _ => false

/-- The arrival of this word would judge the 256th position of the degrade window, without a loss of alignment (R70). -/
def State.windowEndDue (s : State) (l : LaneId) (w : Word) : Bool :=
  match (s.lane l).alignment with
  | .aligned t => decide (24 ≤ t.slots.length) && decide (255 ≤ t.window.length) && !s.lossDue l w
  | _ => false

/-- INGRESS_WORD_ARRIVAL (R63). -/
def execIngressWordArrival (l : LaneId) (w : Word) (s : State) : Host.Outcome State Fault Refusal :=
  .next (s.arrive l w)

/-- LOSS_OF_ALIGNMENT: the arrival of a word that brings the fourth consecutive bad position (R68); with no such loss due,
nothing comes about (notes/assumptions/3.md). -/
def execLossOfAlignment (l : LaneId) (w : Word) (s : State) : Host.Outcome State Fault Refusal :=
  .next (if s.lossDue l w then s.arrive l w else s)

/-- DEGRADE_WINDOW_END: the arrival of a word that ends the degrade window (R70, R71); with no such end due, nothing
comes about (notes/assumptions/3.md). -/
def execDegradeWindowEnd (l : LaneId) (w : Word) (s : State) : Host.Outcome State Fault Refusal :=
  .next (if s.windowEndDue l w then s.arrive l w else s)

/-! ### The take at a frame start -/

/-- The take from a store: the answer and the lane after it (R75). A lane that is not ALIGNED is not taken from (R49). -/
def Lane.take (x : Lane) : Option Frame × Lane :=
  if x.isAligned then
    match x.unread with
    | f :: rest => (some f, { x with unread := rest, lastRead := some f })
    | [] =>
      match x.lastRead with
      | some f => (some f, { x with counters := x.counters.incRepeatSlips })
      | none => (none, x)
  else (none, x)

/-- The take is a repeat slip (R75). -/
def Lane.repeats (x : Lane) : Bool :=
  x.isAligned && x.unread.isEmpty && x.lastRead.isSome

/-- The EFA's event of a frame start: one frame from the store of every ALIGNED lane (R49, R75), a LANE_SLIP for each
repeat slip, in an open order (R165), then the group snapshot (R50). -/
def State.efaEvent (s : State) : State :=
  let slipped := (List.finRange 8).filter fun l => (s.lane l).repeats
  let s1 : State :=
    { s with
      lanes := s.lanes.map fun x => x.take.2
      work := { s.work with
        taken := s.lanes.map fun x => x.take.1
        snapshot := s.groups.map fun g =>
          match g with
          | some x =>
            match x.selected with
            | .working => some x.workingLane
            | .protect => some x.protectLane
          | none => none } }
  s1.forEach slipped fun s l => s.raise (.laneSlip l)

/-! ### Commands -/

/-- Sets the enable of a lane: OFF enters HUNT, an enabled lane is left as it is (R64, R81). -/
def State.enableLane (s : State) (l : LaneId) : State :=
  if (s.lane l).alignment = .off then s.track l .hunt else s

/-- Clears the enable of a lane (R64): from ALIGNED with LANE_LOST, from another state with no event. -/
def State.disableLane (s : State) (l : LaneId) : State :=
  if (s.lane l).isAligned then s.leaveAligned l .off id
  else s.setLane l { (s.lane l).empty with alignment := .off }

/-- Replaces the degrade threshold (R72): a change to 0 clears DEGRADED with LANE_DEGRADE_CLEAR. -/
def State.setThreshold (s : State) (l : LaneId) (threshold : Nat) : State :=
  let x := s.lane l
  match x.alignment with
  | .aligned t =>
    if threshold = 0 ∧ x.threshold ≠ 0 ∧ t.degraded then
      ((s.setLane l { x with threshold := threshold, alignment := .aligned { t with degraded := false } }).raise
        (.laneDegradeClear l)).reportLanes
    else s.setLane l { x with threshold := threshold }
  | _ => s.setLane l { x with threshold := threshold }

/-- LANE, ENABLE and DEGRADE_THRESHOLD as now held, and STATE (R81). -/
def State.laneSummary (s : State) (l : LaneId) : List Byte :=
  [byteOf l.val, flagByte ((s.lane l).alignment != .off), byteOf (s.lane l).threshold,
    byteOf (s.lane l).alignment.code]

/-- SET_LANE (R80, R81). -/
def State.takeSetLane (s : State) (r : Request) (lane enable threshold : Byte) : State :=
  match laneOf lane, flagOf enable with
  | some l, some on =>
    if 63 < threshold.toNat then s.refuse .ch0 r .badField
    else if on = false ∧ s.managedLane l then s.refuse .ch0 r .inUse
    else
      let s1 := if on then s.enableLane l else s.disableLane l
      let s2 := s1.setThreshold l threshold.toNat
      s2.reply .ch0 r (s2.laneSummary l)
  | _, _ => s.refuse .ch0 r .badField

/-- The fourteen bytes of READ_LANE (R83). -/
def State.laneBytes (s : State) (l : LaneId) : List Byte :=
  let x := s.lane l
  [byteOf l.val, byteOf x.alignment.code, flagByte x.isDegraded, byteOf x.threshold, byteOf x.unread.length,
    flagByte x.lastRead.isSome] ++ x.counters.bytes

/-- READ_LANE (R82, R83), with the deferred reduction of R84 for CLEAR 1. -/
def State.takeReadLane (s : State) (ch : ChannelId) (r : Request) (lane clear : Byte) : State :=
  match laneOf lane, flagOf clear with
  | some l, some c =>
    if c ∧ ch = .ch1 then s.guardRefuse ch r .supervisorOnly .supervisor .none
    else s.finish ch r .ok (s.laneBytes l) (if c then .lane l (s.lane l).counters else .none)
  | _, _ => s.refuse ch r .badField

end Sys2Proof.Machine
end

