-- ==== Sys2Proof/Machine/Regions.lean ====
section
/-! DEFINITION. The Access Guard's commands (8.5): SET_REGION, READ_REGIONS, READ_FAULT and CLEAR_FAULT. -/

namespace Sys2Proof.Machine

/-- Replaces a region record; none is an absent region. -/
def State.setRegion (s : State) (n : RegionId) (x : Option Region) : State :=
  { s with guard := { s.guard with regions := s.guard.regions.set n.val x n.isLt } }

/-- SET_REGION (R159). -/
def State.takeSetRegion (s : State) (r : Request)
    (region present laneFirst laneLast slotFirst slotLast readPermit modifyPermit : Byte) : State :=
  match finOf 8 region.toNat, regionOf present laneFirst laneLast slotFirst slotLast readPermit modifyPermit with
  | some n, some x => (s.setRegion n x).reply .ch0 r (byteOf n.val :: regionBytes x)
  | _, _ => s.refuse .ch0 r .badField

/-- READ_REGIONS (R160). -/
def State.takeReadRegions (s : State) (r : Request) : State :=
  s.reply .ch0 r (s.guard.regions.toList.flatMap regionBytes)

/-- READ_FAULT (R161). -/
def State.takeReadFault (s : State) (r : Request) : State :=
  s.reply .ch0 r s.guard.faultBytes

/-- CLEAR_FAULT (R162): reports the record as it stands, then empties it. -/
def State.takeClearFault (s : State) (r : Request) : State :=
  State.reply { s with guard := { s.guard with fault := none, overruns := 0 } } .ch0 r s.guard.faultBytes

end Sys2Proof.Machine
end

