-- ==== Sys2Proof/Machine/Map.lean ====
section
/-! DEFINITION. The Map Controller's entry commands (chapter 1): SET_ENTRY, CLEAR_ENTRIES and READ_ENTRIES, and the
reserved-slot checks they share with COMMIT (R13, R35). -/

namespace Sys2Proof.Machine

/-- The source of a DIRECT entry is an ingress management location (R13 source check). -/
def State.directReserved (s : State) : Entry → Bool
  | .direct p _ => s.managed p
  | _ => false

/-- Writes entries of the pending bank. -/
def State.writePending (s : State) (f : Bank → Bank) : State :=
  { s with map := s.map.setPending (f s.map.pendingBank) }

/-- SET_ENTRY (R13 to R17). A write by channel 1 of the active entry itself is examined like any other (R16, R152, against
R154's words; DEDUCED, notes/assumptions/23.md). -/
def State.takeSetEntry (s : State) (ch : ChannelId) (r : Request) (destLane destSlot : Byte) (x : EntryRecord) :
    State :=
  match placeOf destLane destSlot, entryOf x with
  | some d, some e =>
    if s.map.holder ≠ some ch then s.refuse ch r .noLock
    else if e ≠ .unused ∧ s.managed d then s.refuse ch r .reservedSlot
    else if s.directReserved e then s.refuse ch r .reservedSlot
    else
      match s.unmodifiable ch [d] with
      | some p => s.guardRefuse ch r .notPermitted .region (.destination p)
      | none => (s.writePending fun b => b.set d e).reply ch r e.bytes
  | _, _ => s.refuse ch r .badField

/-- A bank with the entries of a run UNUSED (R19). -/
def clearRun (run : List Place) (b : Bank) : Bank :=
  run.foldl (fun b d => b.set d .unused) b

/-- CLEAR_ENTRIES (R18, R19). A run whose active entries are UNUSED is examined like any other (R18, R152, against R154's
words; DEDUCED, notes/assumptions/23.md). -/
def State.takeClearEntries (s : State) (ch : ChannelId) (r : Request) (lane first count : Byte) : State :=
  match runOf 24 lane first count with
  | none => s.refuse ch r .badField
  | some run =>
    if s.map.holder ≠ some ch then s.refuse ch r .noLock
    else
      match s.unmodifiable ch run with
      | some p => s.guardRefuse ch r .notPermitted .region (.destination p)
      | none =>
        (s.writePending (clearRun run)).reply ch r
          [byteOf (run.countP fun d => s.map.pendingBank.get d != .unused), 0]

/-- The bank that BANK_SELECT names by role, with its letter (R20, R21). -/
def ConnectionMap.selected (m : ConnectionMap) (pending : Bool) : BankName × Bank :=
  if pending then (m.active.other, m.pendingBank) else (m.active, m.activeBank)

/-- READ_ENTRIES (R20, R21). -/
def State.takeReadEntries (s : State) (ch : ChannelId) (r : Request) (bankSelect lane first count : Byte) : State :=
  match flagOf bankSelect, runOf 8 lane first count with
  | some pending, some run =>
    match s.unreadable ch run with
    | some p => s.guardRefuse ch r .notPermitted .region (.destination p)
    | none =>
      s.reply ch r
        ([byteOf (s.map.selected pending).1.code, s.map.generation, lane, first] ++
          run.flatMap fun d => ((s.map.selected pending).2.get d).bytes)
  | _, _ => s.refuse ch r .badField

end Sys2Proof.Machine
end

