-- ==== Sys2Proof/Machine/Sessions.lean ====
section
/-! DEFINITION. Edit sessions and commit (chapter 2): the lock commands, validation and scheduling, the MAP's event of a
superframe boundary (idle timer or bank swap), and what the bank swap does to held state (R57). -/

namespace Sys2Proof.Machine

/-- Restores the pending bank and releases the lock (R26, R31). -/
def State.endSession (s : State) : State :=
  { s with map := s.map.restore.release }

/-- OPEN_EDIT (R27, R28). -/
def State.takeOpenEdit (s : State) (ch : ChannelId) (r : Request) (timeout : Byte) : State :=
  match timeoutOf timeout with
  | none => s.refuse ch r .badField
  | some t =>
    match s.map.session with
    | none =>
      State.reply { s with map := { s.map.restore with session := some ⟨ch, t, t⟩ } } ch r
        [s.map.generation, byteOf s.map.active.code, byteOf t, 0]
    | some e =>
      if e.holder = ch then
        State.reply { s with map := { s.map with session := some ⟨ch, t, t⟩ } } ch r
          [s.map.generation, byteOf s.map.active.code, byteOf t, 0]
      else s.finish ch r .locked [byteOf (holderCode (some e.holder)), 0] .none

/-- ABANDON_EDIT (R31). -/
def State.takeAbandonEdit (s : State) (ch : ChannelId) (r : Request) : State :=
  if s.map.holder = some ch then s.endSession.reply ch r [byteOf s.map.differing, 0]
  else s.refuse ch r .noLock

/-- READ_EDIT_STATE (R33). -/
def State.takeReadEditState (s : State) (ch : ChannelId) (r : Request) : State :=
  s.reply ch r
    [byteOf (holderCode s.map.holder), byteOf ((s.map.session.map EditSession.idleTimeout).getD 0),
      byteOf ((s.map.session.map EditSession.idleRemaining).getD 0), flagByte s.map.scheduled.isSome,
      s.map.generation, byteOf s.map.active.code, byteOf s.map.differing, 0]

/-- Completes the COMMIT that waits in a committer's channel (R32, R39, R42). -/
def State.completeCommit (s : State) (ch : ChannelId) (status : Status) (body : List Byte) : State :=
  match (s.channel ch).phase with
  | .executing r false => s.finish ch r status body .none
  | _ => s

/-- Cancels a scheduled commit with CANCELLED (R32, R42). -/
def State.cancelCommit (s : State) : State :=
  match s.map.scheduled with
  | some c => s.completeCommit c .cancelled []
  | none => s

/-- BREAK_LOCK (R32). -/
def State.takeBreakLock (s : State) (r : Request) : State :=
  match s.map.holder with
  | none => s.refuse .ch0 r .noLock
  | some h =>
    (s.cancelCommit.endSession.raise (.lockBroken h)).reply .ch0 r
      [byteOf (holderCode (some h)), flagByte s.map.scheduled.isSome]

/-! ### Commit -/

/-- REASON of INVALID_MAP (R35). -/
inductive MapFault
  | groupNotConfigured
  | reserved
  | guard
  deriving DecidableEq, Repr

/-- Codes of REASON (10.5). -/
def MapFault.code : MapFault → Nat
  | .groupNotConfigured => 1
  | .reserved => 2
  | .guard => 3

/-- Test 1 of R35: the entry is PROTECTED and its group is not configured. -/
def State.namesOffGroup (s : State) : Entry → Bool
  | .protect g _ _ => s.group g == none
  | _ => false

/-- Test 2 of R35: the entry uses a reserved destination. -/
def State.usesReserved (s : State) (d : Place) (e : Entry) : Bool :=
  e != .unused && s.managed d

/-- Test 3 of R35: the entry draws from a reserved source. -/
def State.drawsReserved (s : State) (e : Entry) : Bool :=
  (e.sources s.groups).any s.managed

/-- The first of the four tests of R35 that the pending entry at a destination fails. -/
def State.entryFault (s : State) (ch : ChannelId) (d : Place) : Option MapFault :=
  let e := s.map.pendingBank.get d
  if s.namesOffGroup e then some .groupNotConfigured
  else if s.usesReserved d e then some .reserved
  else if s.drawsReserved e then some .reserved
  else if e ≠ s.map.activeBank.get d ∧ (s.unmodifiable ch [d]).isSome then some .guard
  else none

/-- Validation of the pending bank in destination order: the first failing entry with its reason (R35). -/
def State.validate (s : State) (ch : ChannelId) : Option (Place × MapFault) :=
  Place.all.findSome? fun d => (s.entryFault ch d).map fun f => (d, f)

/-- COMMIT (R34 to R37). A scheduled commit keeps the channel EXECUTING. -/
def State.takeCommit (s : State) (ch : ChannelId) (r : Request) : State :=
  if s.map.holder ≠ some ch then s.refuse ch r .noLock
  else
    match s.validate ch with
    | some (d, f) =>
      let s1 := if f = .guard then s.guardFault ch r .region (.destination d) else s
      s1.finish ch r .invalidMap [byteOf f.code, byteOf d.lane.val, byteOf d.slot.val, 0] .none
    | none => State.setPhase { s with map := { s.map with scheduled := some ch } } ch (.executing r false)

/-! ### Superframe boundaries -/

/-- The two entries keep their source: same MODE, DIRECT or PROTECTED, and same SOURCE_LANE, GROUP and SOURCE_SLOT
(R57). -/
def Entry.sameSource : Entry → Entry → Bool
  | .direct p _, .direct q _ => p == q
  | .protect g a _, .protect h b _ => g == h && a == b
  | _, _ => false

/-- Held state after a swap: reset where the entries differ and do not keep their source (R57). -/
def swapHeld (limit : Nat) (old new : Bank) (held : Grid HeldState) : Grid HeldState :=
  Grid.ofFn fun d =>
    if old.get d = new.get d ∨ (old.get d).sameSource (new.get d) then held.get d else ⟨0, limit⟩

/-- The map after a bank swap (R39 steps 2 to 5). -/
def ConnectionMap.swap (m : ConnectionMap) : ConnectionMap :=
  ({ m with active := m.active.other, generation := m.generation + 1 } : ConnectionMap).restore.release

/-- The bank swap of a commit scheduled by `c` (R39, R57), remembering whose COMMIT it completed (R40). -/
def State.bankSwap (s : State) (c : ChannelId) : State :=
  let m := s.map.swap
  let held := swapHeld s.efa.holdLimit s.map.activeBank m.activeBank s.efa.held
  let s1 : State :=
    { s with map := m, efa := { s.efa with held := held }, work := { s.work with swapped := some c } }
  (s1.completeCommit c .ok [m.generation, byteOf m.active.code, byteOf s.map.differing, 0]).raise (.commitDone c)

/-- The idle timer at a superframe boundary, and its expiry (R30). -/
def State.idleTick (s : State) : State :=
  match s.map.session with
  | some e =>
    if e.idleRemaining ≤ 1 then s.endSession.raise (.lockExpired e.holder)
    else { s with map := { s.map with session := some { e with idleRemaining := e.idleRemaining - 1 } } }
  | none => s

/-- The MAP's event of a superframe boundary, once: the swap of a scheduled commit, or the idle timer (R30, R39). -/
def State.mapEvent (s : State) : State :=
  if s.work.mapTaken || !s.boundary then s
  else
    let s1 : State := { s with work := { s.work with mapTaken := true } }
    match s.map.scheduled with
    | some c => s1.bankSwap c
    | none => s1.idleTick

/-! ### Interruption -/

/-- What a channel restart of channel 1 does to the lock: a session of channel 1 ends, a scheduled commit of its with no
reply, and LOCK_BROKEN is offered to channel 0's queue alone (R43). -/
def State.restartLock (s : State) : State :=
  if s.map.holder = some .ch1 then s.endSession.offer .ch0 (.lockBroken .ch1) else s

/-- The map after a datapath reset: both banks UNUSED, generation 0, the lock released, ACTIVE_BANK kept (R23, R42). -/
def ConnectionMap.datapathReset (m : ConnectionMap) : ConnectionMap :=
  { bankA := Grid.replicate .unused, bankB := Grid.replicate .unused, active := m.active, generation := 0
    session := none, scheduled := none }

end Sys2Proof.Machine
end

