-- ==== Sys2Proof/Machine/Device.lean ====
section
/-! DEFINITION. The commands a channel controller takes itself (7.9): READ_IDENTITY, READ_CHANNEL, SET_CHANNEL,
RESTART_CHANNEL and DATAPATH_RESET, the channel restart (R145), the egress commands (R60, R61) and device reset. -/

namespace Sys2Proof.Machine

/-- READ_IDENTITY (R141). -/
def State.takeReadIdentity (s : State) (ch : ChannelId) (r : Request) : State :=
  s.reply ch r
    (halfBytes Config.partCode ++
      [Config.revision, 8, 24, 16, 8, byteOf Config.queueRecords, byteOf s.strapLane.val] ++
      halfBytes s.efa.superframes ++ [0])

/-- STORED: 0 none, 1 unacknowledged, 2 acknowledged (R142). -/
def storedCode : Option StoredReply → Nat
  | none => 0
  | some p => if p.acked then 2 else 1

/-- CHANNEL, ENABLED, LANE and SLOT of a channel, LANE and SLOT 0 when absent (R142, R143). -/
def State.placeBytes (s : State) (c : ChannelId) : List Byte :=
  [byteOf (channelCode c), flagByte (s.enabled c), byteOf (((s.place c).map fun p => p.lane.val).getD 0),
    byteOf (((s.place c).map fun p => p.slot.val).getD 0)]

/-- The 22 bytes of READ_CHANNEL (R142). -/
def State.channelBytes (s : State) (c : ChannelId) : List Byte :=
  let x := s.channel c
  s.placeBytes c ++
    [byteOf x.replyHold, byteOf x.phase.code, byteOf (storedCode x.stored),
      ((x.stored.map StoredReply.seq).getD 0).zeroExtend 8] ++ x.counters.bytes

/-- READ_CHANNEL (R142), with the deferred reduction for CLEAR 1. -/
def State.takeReadChannel (s : State) (ch : ChannelId) (r : Request) (channel clear : Byte) : State :=
  match channelOf channel, flagOf clear with
  | some c, some k =>
    if ch = .ch1 ∧ c = .ch0 ∧ k then s.guardRefuse ch r .supervisorOnly .supervisor .none
    else s.finish ch r .ok (s.channelBytes c) (if k then .channel c (s.channel c).counters else .none)
  | _, _ => s.refuse ch r .badField

/-- A channel restart of channel 1 (R145), to IDLE or to OFF. What a frame start has from it is forgotten. A complete
request of channel 1 has been taken by its owner before it (`State.beforeRestart`). -/
def State.restart (s : State) (p : Phase) : State :=
  let s1 := s.restartLock
  { s1 with
    ch1 := { s1.ch1 with phase := p, stored := none, counters := ChannelCounters.zero }
    queue1 := s1.queue1.clear
    work := { s1.work with
      word1 := none, swapped := if s1.work.swapped = some .ch1 then none else s1.work.swapped } }

/-- An entry of either bank uses a place as its destination or draws from it as a source (R9, R143 check 4). -/
def State.placeInUse (s : State) (p : Place) : Bool :=
  s.map.anyEntry fun d e => (e != .unused && d == p) || (e.sources s.groups).contains p

/-- Sets the enable of ingress lane and egress lane of a new location (R144). -/
def State.enableLanes (s : State) (l : LaneId) : State :=
  let s1 := s.enableLane l
  { s1 with efa := { s1.efa with enables := s1.efa.enables ||| BitVec.twoPow 8 l.val } }

/-- Sets REPLY_HOLD of a channel; a running hold timer keeps its count (R139). -/
def State.setReplyHold (s : State) (c : ChannelId) (hold : Nat) : State :=
  s.setChannel c { s.channel c with replyHold := hold }

/-- Channel 1 enabled at or moved to a place (R144): the location, a restart to IDLE, and the lanes enabled. -/
def State.placeOperator (s : State) (p : Place) : State :=
  (State.restart { s with operatorPlace := some p } .idle).enableLanes p.lane

/-- Channel 1 disabled (R144): the location absent and a restart to OFF. -/
def State.removeOperator (s : State) : State :=
  State.restart { s with operatorPlace := none } .off

/-- The reply of SET_CHANNEL: the channel as now held (R143). -/
def State.replyChannel (s : State) (r : Request) (c : ChannelId) : State :=
  s.reply .ch0 r (s.placeBytes c ++ [byteOf (s.channel c).replyHold, 0])

/-- What a SET_CHANNEL asks for: a refusal, REPLY_HOLD of a channel alone, channel 1 at a new place, or channel 1
disabled (R143, R144). -/
inductive ChannelPlan where
  | refused (st : Status)
  | holdOnly (c : ChannelId) (hold : Nat)
  | enabledAt (p : Place) (hold : Nat)
  | disabled (hold : Nat)
  deriving DecidableEq, Repr

/-- Checks 3 and 4 of R143 for a SET_CHANNEL of channel 1 with ENABLE 1, and what it asks for (R144). -/
def State.planEnable (s : State) (p : Place) (hold : Nat) : ChannelPlan :=
  if s.place .ch0 = some p then .refused .badField
  else if s.operatorPlace = some p then .holdOnly .ch1 hold
  else if s.placeInUse p then .refused .inUse
  else .enabledAt p hold

/-- The checks of SET_CHANNEL in order, and what it asks for (R143, R144). -/
def State.planChannel (s : State) (channel enable lane slot hold : Byte) : ChannelPlan :=
  match channelOf channel, replyHoldOf hold with
  | some .ch0, some h => .holdOnly .ch0 h
  | some .ch1, some h =>
    match flagOf enable with
    | none => .refused .badField
    | some false => if s.operatorPlace = none then .holdOnly .ch1 h else .disabled h
    | some true =>
      match placeOf lane slot with
      | none => .refused .badField
      | some p => s.planEnable p h
  | _, _ => .refused .badField

/-- SET_CHANNEL (R143, R144). -/
def State.takeSetChannel (s : State) (r : Request) (channel enable lane slot hold : Byte) : State :=
  match s.planChannel channel enable lane slot hold with
  | .refused st => s.refuse .ch0 r st
  | .holdOnly c h => (s.setReplyHold c h).replyChannel r c
  | .enabledAt p h => ((s.setReplyHold .ch1 h).placeOperator p).replyChannel r .ch1
  | .disabled h => (s.setReplyHold .ch1 h).removeOperator.replyChannel r .ch1

/-- RESTART_CHANNEL (R146). -/
def State.takeRestartChannel (s : State) (r : Request) : State :=
  if s.operatorPlace = none then s.refuse .ch0 r .badField
  else (s.restart .idle).reply .ch0 r [byteOf s.ch1.phase.code, 0]

/-- What a datapath reset does outside the lock (R23, R62, R85, R113, R123). -/
def State.clearDatapath (s : State) : State :=
  { s with
    map := s.map.datapathReset
    efa := { s.efa with held := Grid.replicate ⟨0, s.efa.holdLimit⟩ }
    lanes := s.lanes.map fun x => { x with counters := LaneCounters.zero }
    groups := Vector.replicate 16 none
    inputs := s.inputs.map Input.unbind }

/-- DATAPATH_RESET (R147): a scheduled commit is cancelled and a held lock broken (R42), all in one event. -/
def State.takeDatapathReset (s : State) (r : Request) : State :=
  let s1 := s.cancelCommit.clearDatapath
  let s2 :=
    match s.map.holder with
    | some h => s1.raise (.lockBroken h)
    | none => s1
  s2.reply .ch0 r []

/-! ### Egress lanes -/

/-- A hold count under a changed limit (R58). -/
def clampCount (old new count : Nat) : Nat :=
  if count = old ∨ new < count then new else count

/-- Held state under a changed hold limit (R58). -/
def clampHeld (old new : Nat) (held : Grid HeldState) : Grid HeldState :=
  if old = new then held else Grid.ofFn fun d => ⟨(held.get d).value, clampCount old new (held.get d).count⟩

/-- ENABLES would disable the egress lane of an enabled channel's location (R60 check 2). -/
def State.egressInUse (s : State) (enables : Byte) : Bool :=
  (List.finRange 8).any fun l => s.managedLane l && !enables.getLsbD l.val

/-- SET_EGRESS (R60, R58). -/
def State.takeSetEgress (s : State) (r : Request) (enables : Byte) (limit : Half) : State :=
  if limit.toNat = 0 ∨ 1023 < limit.toNat then s.refuse .ch0 r .badField
  else if s.egressInUse enables then s.refuse .ch0 r .inUse
  else
    State.reply
      { s with efa := { s.efa with
          enables := enables, holdLimit := limit.toNat
          held := clampHeld s.efa.holdLimit limit.toNat s.efa.held } }
      .ch0 r ([enables] ++ halfBytes limit ++ [0])

/-- READ_EGRESS (R61). -/
def State.takeReadEgress (s : State) (ch : ChannelId) (r : Request) : State :=
  s.reply ch r
    ([s.efa.enables] ++ counterBytes s.efa.holdLimit ++ [s.efa.frameNo.zeroExtend 8, flagByte s.efa.started] ++
      halfBytes s.efa.superframes ++ [0])

/-! ### Device reset -/

/-- DEVICE_RESET: power-on, or the assertion and release of RSTn, as one event (R148; notes/assumptions/14.md). The queue
of waiting commands and the draw counter are the model's own and stay. -/
def execDeviceReset (straps : BitVec 3) (pins : BitVec 4) (s : State) : Host.Outcome State Fault Refusal :=
  .next { State.resetWith straps pins with free := s.free, pending := s.pending }

end Sys2Proof.Machine
end

