-- ==== Sys2Proof/Machine/Commands.lean ====
section
/-! DEFINITION. The owners' taking of requests (R134): a command of the table is taken when a channel controller has handed
over the request with these very operands; it is judged against the state it finds. A command that no waiting request
asks for changes nothing (notes/assumptions/3.md). -/

namespace Sys2Proof.Machine

/-- The waiting request of a channel, when it asks for this command (R134). -/
def State.asks (s : State) (ch : ChannelId) (i : Instr) : Option Request :=
  match s.waiting ch with
  | some r => if decodeCommand ch r.code (bodyBytes r.body) = some i then some r else none
  | none => none

/-- The owner's event for a command of a channel, when a waiting request asks for it. -/
def State.whenAsked (s : State) (ch : ChannelId) (i : Instr) (take : Request → State) :
    Host.Outcome State Fault Refusal :=
  .next (match s.asks ch i with
    | some r => take r
    | none => s)

/-- The owner's event for a command, by command; the rows that are no requests have no owner to take them. -/
def State.takeCommand (s : State) (r : Request) (i : Instr) : State :=
  match i with
  | .deviceReset _ _ => s
  | .egressFrameStart _ => s
  | .holdOffExpiry _ => s
  | .wtrExpiry _ => s
  | .idleExpiry => s
  | .bankSwap => s
  | .replyHoldExpiry _ => s
  | .ingressWordArrival _ _ => s
  | .lossOfAlignment _ _ => s
  | .degradeWindowEnd _ _ => s
  | .readIdentity ch => s.takeReadIdentity ch r
  | .readChannel ch channel clear => s.takeReadChannel ch r channel clear
  | .setChannel channel enable lane slot hold => s.takeSetChannel r channel enable lane slot hold
  | .restartChannel => s.takeRestartChannel r
  | .datapathReset => s.takeDatapathReset r
  | .openEdit ch timeout => s.takeOpenEdit ch r timeout
  | .commit ch => s.takeCommit ch r
  | .abandonEdit ch => s.takeAbandonEdit ch r
  | .breakLock => s.takeBreakLock r
  | .readEditState ch => s.takeReadEditState ch r
  | .setEntry ch destLane destSlot entry => s.takeSetEntry ch r destLane destSlot entry
  | .clearEntries ch lane first count => s.takeClearEntries ch r lane first count
  | .readEntries ch bankSelect lane first count => s.takeReadEntries ch r bankSelect lane first count
  | .setLane lane enable threshold => s.takeSetLane r lane enable threshold
  | .readLane ch lane clear => s.takeReadLane ch r lane clear
  | .setEgress enables limit => s.takeSetEgress r enables limit
  | .readEgress ch => s.takeReadEgress ch r
  | .configGroup group working protect revertive holdOff wtr access =>
    s.takeConfigGroup r group working protect revertive holdOff wtr access
  | .deleteGroup group => s.takeDeleteGroup r group
  | .groupRequestLockout ch group => s.takeLockout ch r group
  | .groupRequestForce ch group => s.takeForce ch r group
  | .groupRequestManualP ch group => s.takeManualP ch r group
  | .groupRequestManualW ch group => s.takeManualW ch r group
  | .groupRequestClear ch group => s.takeClear ch r group
  | .readGroup ch group => s.takeReadGroup ch r group
  | .setInput input polarity mode group => s.takeSetInput r input polarity mode group
  | .readInputs ch => s.takeReadInputs ch r
  | .setRegion region present laneFirst laneLast slotFirst slotLast readPermit modifyPermit =>
    s.takeSetRegion r region present laneFirst laneLast slotFirst slotLast readPermit modifyPermit
  | .readRegions => s.takeReadRegions r
  | .readFault => s.takeReadFault r
  | .clearFault => s.takeClearFault r
  | .setSubscription ch subscription alarm => s.takeSetSubscription ch r subscription alarm
  | .readEvents ch maxCount => s.takeReadEvents ch r maxCount

/-- A channel's waiting request is taken by its owner, if there is one, in the state that `before` leaves. -/
def State.takeBy (s : State) (ch : ChannelId) (before : State → Instr → State) : State :=
  match s.waiting ch with
  | some r =>
    match decodeCommand ch r.code (bodyBytes r.body) with
    | some i => (before s i).takeCommand r i
    | none => s
  | none => s

/-- The command, taken now, restarts channel 1 (R144, R146). -/
def State.restarts (s : State) (i : Instr) : Bool :=
  match i with
  | .setChannel channel enable lane slot hold =>
    match s.planChannel channel enable lane slot hold with
    | .enabledAt _ _ => true
    | .disabled _ => true
    | _ => false
  | .restartChannel => s.operatorPlace.isSome
  | _ => false

/-- Before a command that restarts channel 1 the owner takes the complete request of channel 1 that still waits: its
effects on the owner stand (R145, "Channel 1's TAIL first"; DEDUCED, notes/assumptions/22.md). -/
def State.beforeRestart (s : State) (i : Instr) : State :=
  if s.restarts i then s.takeBy .ch1 fun t _ => t else s

/-- A channel's waiting request is taken by its owner, if there is one (R134). -/
def State.takeWaiting (s : State) (ch : ChannelId) : State :=
  s.takeBy ch State.beforeRestart

/-- READ_IDENTITY (R141). -/
def execReadIdentity (ch : ChannelId) (s : State) : Host.Outcome State Fault Refusal :=
  s.whenAsked ch (.readIdentity ch) fun r => s.takeReadIdentity ch r

/-- READ_CHANNEL (R142). -/
def execReadChannel (ch : ChannelId) (channel clear : Byte) (s : State) : Host.Outcome State Fault Refusal :=
  s.whenAsked ch (.readChannel ch channel clear) fun r => s.takeReadChannel ch r channel clear

/-- SET_CHANNEL (R143, R144). A request of channel 1 that waits is taken before a restart (R145). -/
def execSetChannel (channel enable lane slot hold : Byte) (s : State) : Host.Outcome State Fault Refusal :=
  s.whenAsked .ch0 (.setChannel channel enable lane slot hold) fun r =>
    (s.beforeRestart (.setChannel channel enable lane slot hold)).takeSetChannel r channel enable lane slot hold

/-- RESTART_CHANNEL (R146). A request of channel 1 that waits is taken before the restart (R145). -/
def execRestartChannel (s : State) : Host.Outcome State Fault Refusal :=
  s.whenAsked .ch0 .restartChannel fun r => (s.beforeRestart .restartChannel).takeRestartChannel r

/-- DATAPATH_RESET (R147). -/
def execDatapathReset (s : State) : Host.Outcome State Fault Refusal :=
  s.whenAsked .ch0 .datapathReset fun r => s.takeDatapathReset r

/-- OPEN_EDIT (R27, R28). -/
def execOpenEdit (ch : ChannelId) (timeout : Byte) (s : State) : Host.Outcome State Fault Refusal :=
  s.whenAsked ch (.openEdit ch timeout) fun r => s.takeOpenEdit ch r timeout

/-- COMMIT (R34 to R37). -/
def execCommit (ch : ChannelId) (s : State) : Host.Outcome State Fault Refusal :=
  s.whenAsked ch (.commit ch) fun r => s.takeCommit ch r

/-- ABANDON_EDIT (R31). -/
def execAbandonEdit (ch : ChannelId) (s : State) : Host.Outcome State Fault Refusal :=
  s.whenAsked ch (.abandonEdit ch) fun r => s.takeAbandonEdit ch r

/-- BREAK_LOCK (R32). -/
def execBreakLock (s : State) : Host.Outcome State Fault Refusal :=
  s.whenAsked .ch0 .breakLock fun r => s.takeBreakLock r

/-- READ_EDIT_STATE (R33). -/
def execReadEditState (ch : ChannelId) (s : State) : Host.Outcome State Fault Refusal :=
  s.whenAsked ch (.readEditState ch) fun r => s.takeReadEditState ch r

/-- SET_ENTRY (R14 to R17). -/
def execSetEntry (ch : ChannelId) (destLane destSlot : Byte) (entry : EntryRecord) (s : State) :
    Host.Outcome State Fault Refusal :=
  s.whenAsked ch (.setEntry ch destLane destSlot entry) fun r => s.takeSetEntry ch r destLane destSlot entry

/-- CLEAR_ENTRIES (R18, R19). -/
def execClearEntries (ch : ChannelId) (lane first count : Byte) (s : State) : Host.Outcome State Fault Refusal :=
  s.whenAsked ch (.clearEntries ch lane first count) fun r => s.takeClearEntries ch r lane first count

/-- READ_ENTRIES (R20, R21). -/
def execReadEntries (ch : ChannelId) (bankSelect lane first count : Byte) (s : State) :
    Host.Outcome State Fault Refusal :=
  s.whenAsked ch (.readEntries ch bankSelect lane first count) fun r =>
    s.takeReadEntries ch r bankSelect lane first count

/-- SET_LANE (R80, R81). -/
def execSetLane (lane enable threshold : Byte) (s : State) : Host.Outcome State Fault Refusal :=
  s.whenAsked .ch0 (.setLane lane enable threshold) fun r => s.takeSetLane r lane enable threshold

/-- READ_LANE (R82, R83). -/
def execReadLane (ch : ChannelId) (lane clear : Byte) (s : State) : Host.Outcome State Fault Refusal :=
  s.whenAsked ch (.readLane ch lane clear) fun r => s.takeReadLane ch r lane clear

/-- SET_EGRESS (R60). -/
def execSetEgress (enables : Byte) (limit : Half) (s : State) : Host.Outcome State Fault Refusal :=
  s.whenAsked .ch0 (.setEgress enables limit) fun r => s.takeSetEgress r enables limit

/-- READ_EGRESS (R61). -/
def execReadEgress (ch : ChannelId) (s : State) : Host.Outcome State Fault Refusal :=
  s.whenAsked ch (.readEgress ch) fun r => s.takeReadEgress ch r

/-- CONFIG_GROUP (R108 to R110). -/
def execConfigGroup (group working protect revertive holdOff wtr access : Byte) (s : State) :
    Host.Outcome State Fault Refusal :=
  s.whenAsked .ch0 (.configGroup group working protect revertive holdOff wtr access) fun r =>
    s.takeConfigGroup r group working protect revertive holdOff wtr access

/-- DELETE_GROUP (R111). -/
def execDeleteGroup (group : Byte) (s : State) : Host.Outcome State Fault Refusal :=
  s.whenAsked .ch0 (.deleteGroup group) fun r => s.takeDeleteGroup r group

/-- GROUP_REQUEST of kind LOCKOUT (R100 to R102). -/
def execGroupRequestLockout (ch : ChannelId) (group : Byte) (s : State) : Host.Outcome State Fault Refusal :=
  s.whenAsked ch (.groupRequestLockout ch group) fun r => s.takeLockout ch r group

/-- GROUP_REQUEST of kind FORCE (R100 to R102). -/
def execGroupRequestForce (ch : ChannelId) (group : Byte) (s : State) : Host.Outcome State Fault Refusal :=
  s.whenAsked ch (.groupRequestForce ch group) fun r => s.takeForce ch r group

/-- GROUP_REQUEST of kind MANUAL_P (R100 to R102). -/
def execGroupRequestManualP (ch : ChannelId) (group : Byte) (s : State) : Host.Outcome State Fault Refusal :=
  s.whenAsked ch (.groupRequestManualP ch group) fun r => s.takeManualP ch r group

/-- GROUP_REQUEST of kind MANUAL_W (R100 to R102). -/
def execGroupRequestManualW (ch : ChannelId) (group : Byte) (s : State) : Host.Outcome State Fault Refusal :=
  s.whenAsked ch (.groupRequestManualW ch group) fun r => s.takeManualW ch r group

/-- GROUP_REQUEST of kind CLEAR, or of a KIND that names none (R100, R103; notes/assumptions/13.md). -/
def execGroupRequestClear (ch : ChannelId) (group : Byte) (s : State) : Host.Outcome State Fault Refusal :=
  s.whenAsked ch (.groupRequestClear ch group) fun r => s.takeClear ch r group

/-- READ_GROUP (R112). -/
def execReadGroup (ch : ChannelId) (group : Byte) (s : State) : Host.Outcome State Fault Refusal :=
  s.whenAsked ch (.readGroup ch group) fun r => s.takeReadGroup ch r group

/-- SET_INPUT (R121). -/
def execSetInput (input polarity mode group : Byte) (s : State) : Host.Outcome State Fault Refusal :=
  s.whenAsked .ch0 (.setInput input polarity mode group) fun r => s.takeSetInput r input polarity mode group

/-- READ_INPUTS (R122). -/
def execReadInputs (ch : ChannelId) (s : State) : Host.Outcome State Fault Refusal :=
  s.whenAsked ch (.readInputs ch) fun r => s.takeReadInputs ch r

/-- SET_REGION (R159). -/
def execSetRegion (region present laneFirst laneLast slotFirst slotLast readPermit modifyPermit : Byte) (s : State) :
    Host.Outcome State Fault Refusal :=
  s.whenAsked .ch0 (.setRegion region present laneFirst laneLast slotFirst slotLast readPermit modifyPermit) fun r =>
    s.takeSetRegion r region present laneFirst laneLast slotFirst slotLast readPermit modifyPermit

/-- READ_REGIONS (R160). -/
def execReadRegions (s : State) : Host.Outcome State Fault Refusal :=
  s.whenAsked .ch0 .readRegions fun r => s.takeReadRegions r

/-- READ_FAULT (R161). -/
def execReadFault (s : State) : Host.Outcome State Fault Refusal :=
  s.whenAsked .ch0 .readFault fun r => s.takeReadFault r

/-- CLEAR_FAULT (R162). -/
def execClearFault (s : State) : Host.Outcome State Fault Refusal :=
  s.whenAsked .ch0 .clearFault fun r => s.takeClearFault r

/-- SET_SUBSCRIPTION (R169). -/
def execSetSubscription (ch : ChannelId) (subscription alarm : Half) (s : State) : Host.Outcome State Fault Refusal :=
  s.whenAsked ch (.setSubscription ch subscription alarm) fun r => s.takeSetSubscription ch r subscription alarm

/-- READ_EVENTS (R170, R171). -/
def execReadEvents (ch : ChannelId) (maxCount : Byte) (s : State) : Host.Outcome State Fault Refusal :=
  s.whenAsked ch (.readEvents ch maxCount) fun r => s.takeReadEvents ch r maxCount

end Sys2Proof.Machine
end

