-- ==== Sys2Proof/Machine/Frames.lean ====
section
/-! DEFINITION. Egress frame assembly (chapter 3) and the egress frame start as a whole: the timebase (R45), the units'
events in the order given (R49, R92, R115, R136), the composition (R52 to R56), and the expiries that a command takes
ahead of the other events of the frame start they belong to (notes/assumptions/4.md). -/

namespace Sys2Proof.Machine

/-! ### Composition -/

/-- The lane an entry draws from in this frame: a DIRECT entry's, or the snapshot's lane of a PROTECTED entry's group
(R6, R7, R50); with the slot. -/
def State.frameSource (s : State) : Entry → Option Place
  | .direct p _ => some p
  | .protect g slot _ => (s.work.snapshot.get g).map fun l => ⟨l, slot⟩
  | _ => none

/-- The sample of a source in the frame taken for its lane; none while the lane is unavailable (R49). -/
def State.sampleOf (s : State) (p : Place) : Option Word :=
  (s.work.taken.get p.lane).map fun f => f.get p.slot

/-- The word and the held state of a destination whose source lane is unavailable (R56). -/
def fallbackWord (limit : Nat) (f : Fallback) (h : HeldState) : Word × HeldState :=
  match f with
  | .silence => (0, h)
  | .pattern c => (c, h)
  | .hold => if h.count < limit then (h.value, { h with count := h.count + 1 }) else (0, h)

/-- The word and the held state of a destination that draws from a source (R52 cases 4 and 5, R55). -/
def State.drawnWord (s : State) (e : Entry) (f : Fallback) (h : HeldState) : Word × HeldState :=
  match (s.frameSource e).bind s.sampleOf with
  | some w => (w, ⟨w, 0⟩)
  | none => fallbackWord s.efa.holdLimit f h

/-- The slot word of a destination by its entry, with its held state after (R52 cases 2 to 5). -/
def State.entryWord (s : State) (e : Entry) (h : HeldState) : Word × HeldState :=
  match e with
  | .unused => (0, h)
  | .fixed c => (c, h)
  | .direct _ f => s.drawnWord e f h
  | .protect _ _ f => s.drawnWord e f h

/-- The management word at a destination, if it is an enabled channel's location (R52 case 1, R54). -/
def State.managementWord (s : State) (d : Place) : Option Word :=
  if s.place .ch0 = some d then some (s.work.word0.getD 0)
  else if s.place .ch1 = some d then some (s.work.word1.getD 0)
  else none

/-- A destination's slot word and its held state after (R52). -/
def State.slotWord (s : State) (d : Place) : Word × HeldState :=
  match s.managementWord d with
  | some w => (w, s.efa.held.get d)
  | none => s.entryWord (s.map.activeBank.get d) (s.efa.held.get d)

/-- Egress lane `l` is enabled (R59). -/
def State.egressEnabled (s : State) (l : LaneId) : Bool :=
  s.efa.enables.getLsbD l.val

/-- The frame of an egress lane: the marker and the slot words, none while the lane is disabled (R52, R53, R59). -/
def State.laneFrame (s : State) (l : LaneId) : Option EgressFrame :=
  if s.egressEnabled l then
    some ⟨markerWord s.efa.frameNo s.map.generation, Vector.ofFn fun k => (s.slotWord ⟨l, k⟩).1⟩
  else none

/-- Held state after a frame: unchanged on a disabled lane (R52). -/
def State.heldAfter (s : State) : Grid HeldState :=
  Grid.ofFn fun d => if s.egressEnabled d.lane then (s.slotWord d).2 else s.efa.held.get d

/-- The composition of the egress frame, which ends the frame start's work. -/
def State.compose (s : State) : State :=
  { s with
    efa := { s.efa with lines := Vector.ofFn s.laneFrame, held := s.heldAfter }
    work := FrameWork.empty }

/-! ### The timebase -/

/-- The 25 words of an egress frame in the order sent (R48). -/
def EgressFrame.words (f : EgressFrame) : List Word :=
  f.marker :: f.slots.toList

/-- The timebase at an edge on FREF (R45). -/
def Assembler.advance (a : Assembler) : Assembler :=
  { a with
    frameNo := a.frameNo + 1, started := true
    superframes := if a.frameNo = 15 ∧ a.started then a.superframes + 1 else a.superframes }

/-- What left of the frame before, when the edge comes after `sent` of its words: the rest is dropped (R48). -/
def Assembler.cut (a : Assembler) (sent : Nat) : Assembler :=
  { a with sent := a.lines.map fun f => match f with
    | some f => f.words.take sent
    | none => [] }

/-! ### The frame start -/

/-- The order of the units' events: the order given, each unit once, and what it leaves out after it. -/
def frameSchedule (e : FrameEdge) : List FrameUnit :=
  e.order.foldr (fun u rest => u :: rest.filter fun v => v ≠ u) [.map, .efa, .psc, .eiu, .mcc0, .mcc1]

/-- A bank swap is due at this frame start (R39). -/
def State.swapDue (s : State) : Bool :=
  s.boundary && s.map.scheduled.isSome && !s.work.mapTaken

/-- A due bank swap, which the words that the controllers supply come after (R40, R54, R137). -/
def State.swapFirst (s : State) : State :=
  if s.swapDue then s.mapEvent else s

/-- A unit's event of the frame start. -/
def State.unitEvent (s : State) (e : FrameEdge) (u : FrameUnit) : State :=
  match u with
  | .map => s.mapEvent
  | .efa => s.efaEvent
  | .psc => s.pscEvent
  | .eiu => s.eiuEvent e.pins e.edgePlace
  | .mcc0 => s.swapFirst.mccEvent .ch0
  | .mcc1 => s.swapFirst.mccEvent .ch1

/-- The requests that still wait are taken by their owners before the frame start (R134), in the order of the channels'
controllers in the schedule. -/
def State.takeAllWaiting (s : State) (e : FrameEdge) : State :=
  if (frameSchedule e).idxOf FrameUnit.mcc0 < (frameSchedule e).idxOf FrameUnit.mcc1 then (s.takeWaiting .ch0).takeWaiting .ch1
  else (s.takeWaiting .ch1).takeWaiting .ch0

/-- The egress frame start: waiting requests first (R134), the timebase (R45), the units' events in the order given, and
the composition (R52). The bank swap has its place in that order, before the words of the controllers (R137) and before
the composition (R39, R51; notes/assumptions/6.md). -/
def State.frameStart (s : State) (e : FrameEdge) : State :=
  let s1 := s.takeAllWaiting e
  let s2 : State := { s1 with efa := (s1.efa.cut e.sent).advance }
  ((frameSchedule e).foldl (fun s u => s.unitEvent e u) s2).compose

/-- EGRESS_FRAME_START (R45). -/
def execEgressFrameStart (e : FrameEdge) (s : State) : Host.Outcome State Fault Refusal :=
  .next (s.frameStart e)

/-! ### Expiries taken ahead -/

/-- An edge on FREF has come: nothing stands before it in the queue but rows that take a unit's event of its frame start
(R47; notes/assumptions/4.md). -/
def edgeComes : List Instr → Bool
  | .egressFrameStart _ :: _ => true
  | .holdOffExpiry _ :: rest => edgeComes rest
  | .wtrExpiry _ :: rest => edgeComes rest
  | .idleExpiry :: rest => edgeComes rest
  | .bankSwap :: rest => edgeComes rest
  | .replyHoldExpiry _ :: rest => edgeComes rest
  | _ => false

/-- The frame start of an edge that has come can be taken: no request waits for its owner (R47, R134). -/
def State.ready (s : State) : Bool :=
  edgeComes s.pending && (s.waiting .ch0).isNone && (s.waiting .ch1).isNone

/-- A unit's event of the coming frame start, taken ahead of the EFA's own (R50, R92): it sees the timebase of that frame
start, and the timebase itself advances only with the EFA's event. -/
def State.atNextStart (s : State) (f : State → State) : State :=
  let s1 := f { s with efa := s.efa.advance }
  { s1 with efa := { s1.efa with
    frameNo := s.efa.frameNo, started := s.efa.started, superframes := s.efa.superframes } }

/-- The coming frame start is a superframe boundary (R45). -/
def State.nextBoundary (s : State) : Bool :=
  s.efa.frameNo == 15

/-- The coming frame start swaps the banks, and has not done so yet. -/
def State.swapAhead (s : State) : Bool :=
  s.nextBoundary && s.map.scheduled.isSome && !s.work.mapTaken

/-- The coming frame start ends the group's hold-off (R94). -/
def State.holdOffDue (s : State) (g : GroupId) : Bool :=
  match s.group g with
  | some x => !s.work.groupsTaken.get g && x.holdOffRemaining == some 1
  | none => false

/-- The coming superframe boundary ends the group's wait-to-restore (R96). -/
def State.wtrDue (s : State) (g : GroupId) : Bool :=
  match s.group g with
  | some x => !s.work.groupsTaken.get g && s.nextBoundary && x.state == .pWtr && x.wtrRemaining == some 1
  | none => false

/-- The coming superframe boundary expires the edit lock (R30). -/
def State.idleDue (s : State) : Bool :=
  s.nextBoundary && !s.work.mapTaken && s.map.scheduled.isNone &&
    ((s.map.session.map EditSession.idleRemaining) == some 1)

/-- The coming frame start ends the channel's hold timer (R139); not before a bank swap of the same frame start, which
the IDLE word supplied with it comes after (R137). -/
def State.replyHoldDue (s : State) (ch : ChannelId) : Bool :=
  s.enabled ch && (s.work.word ch).isNone && !s.swapAhead && decide ((s.channel ch).phase = .awaitAck 1)

/-- HOLD_OFF_EXPIRY of a group (R94). -/
def execHoldOffExpiry (g : GroupId) (s : State) : Host.Outcome State Fault Refusal :=
  .next (if s.ready ∧ s.holdOffDue g then s.atNextStart fun s => s.tickGroup g else s)

/-- WTR_EXPIRY of a group (R96). -/
def execWtrExpiry (g : GroupId) (s : State) : Host.Outcome State Fault Refusal :=
  .next (if s.ready ∧ s.wtrDue g then s.atNextStart fun s => s.tickGroup g else s)

/-- IDLE_EXPIRY of the edit lock (R30). -/
def execIdleExpiry (s : State) : Host.Outcome State Fault Refusal :=
  .next (if s.ready ∧ s.idleDue then s.atNextStart State.mapEvent else s)

/-- BANK_SWAP of a scheduled commit (R39). -/
def execBankSwap (s : State) : Host.Outcome State Fault Refusal :=
  .next (if s.ready ∧ s.swapAhead then s.atNextStart State.mapEvent else s)

/-- REPLY_HOLD_EXPIRY of a channel (R139). -/
def execReplyHoldExpiry (ch : ChannelId) (s : State) : Host.Outcome State Fault Refusal :=
  .next (if s.ready ∧ s.replyHoldDue ch then s.atNextStart fun s => s.mccEvent ch else s)

end Sys2Proof.Machine
end

