-- ==== Sys2Proof/Machine/Dispatch.lean ====
section
/-! DEFINITION. One arm per command of the table: a direct call of its meaning. -/

namespace Sys2Proof.Machine

def exec (i : Instr) (s : State) : Host.Outcome State Fault Refusal :=
  match i with
  | .deviceReset straps pins => Sys2Proof.Machine.execDeviceReset straps pins s
  | .egressFrameStart edge => Sys2Proof.Machine.execEgressFrameStart edge s
  | .holdOffExpiry group => Sys2Proof.Machine.execHoldOffExpiry group s
  | .wtrExpiry group => Sys2Proof.Machine.execWtrExpiry group s
  | .idleExpiry => Sys2Proof.Machine.execIdleExpiry s
  | .bankSwap => Sys2Proof.Machine.execBankSwap s
  | .replyHoldExpiry ch => Sys2Proof.Machine.execReplyHoldExpiry ch s
  | .ingressWordArrival lane word => Sys2Proof.Machine.execIngressWordArrival lane word s
  | .lossOfAlignment lane word => Sys2Proof.Machine.execLossOfAlignment lane word s
  | .degradeWindowEnd lane word => Sys2Proof.Machine.execDegradeWindowEnd lane word s
  | .readIdentity ch => Sys2Proof.Machine.execReadIdentity ch s
  | .readChannel ch channel clear => Sys2Proof.Machine.execReadChannel ch channel clear s
  | .setChannel channel enable lane slot replyHold => Sys2Proof.Machine.execSetChannel channel enable lane slot replyHold s
  | .restartChannel => Sys2Proof.Machine.execRestartChannel s
  | .datapathReset => Sys2Proof.Machine.execDatapathReset s
  | .openEdit ch timeout => Sys2Proof.Machine.execOpenEdit ch timeout s
  | .commit ch => Sys2Proof.Machine.execCommit ch s
  | .abandonEdit ch => Sys2Proof.Machine.execAbandonEdit ch s
  | .breakLock => Sys2Proof.Machine.execBreakLock s
  | .readEditState ch => Sys2Proof.Machine.execReadEditState ch s
  | .setEntry ch destLane destSlot entry => Sys2Proof.Machine.execSetEntry ch destLane destSlot entry s
  | .clearEntries ch lane firstSlot count => Sys2Proof.Machine.execClearEntries ch lane firstSlot count s
  | .readEntries ch bankSelect lane firstSlot count => Sys2Proof.Machine.execReadEntries ch bankSelect lane firstSlot count s
  | .setLane lane enable threshold => Sys2Proof.Machine.execSetLane lane enable threshold s
  | .readLane ch lane clear => Sys2Proof.Machine.execReadLane ch lane clear s
  | .setEgress enables holdLimit => Sys2Proof.Machine.execSetEgress enables holdLimit s
  | .readEgress ch => Sys2Proof.Machine.execReadEgress ch s
  | .configGroup group workingLane protectLane revertive holdOff wtrPeriod operatorAccess => Sys2Proof.Machine.execConfigGroup group workingLane protectLane revertive holdOff wtrPeriod operatorAccess s
  | .deleteGroup group => Sys2Proof.Machine.execDeleteGroup group s
  | .groupRequestLockout ch group => Sys2Proof.Machine.execGroupRequestLockout ch group s
  | .groupRequestForce ch group => Sys2Proof.Machine.execGroupRequestForce ch group s
  | .groupRequestManualP ch group => Sys2Proof.Machine.execGroupRequestManualP ch group s
  | .groupRequestManualW ch group => Sys2Proof.Machine.execGroupRequestManualW ch group s
  | .groupRequestClear ch group => Sys2Proof.Machine.execGroupRequestClear ch group s
  | .readGroup ch group => Sys2Proof.Machine.execReadGroup ch group s
  | .setInput input polarity mode group => Sys2Proof.Machine.execSetInput input polarity mode group s
  | .readInputs ch => Sys2Proof.Machine.execReadInputs ch s
  | .setRegion region present laneFirst laneLast slotFirst slotLast readPermit modifyPermit => Sys2Proof.Machine.execSetRegion region present laneFirst laneLast slotFirst slotLast readPermit modifyPermit s
  | .readRegions => Sys2Proof.Machine.execReadRegions s
  | .readFault => Sys2Proof.Machine.execReadFault s
  | .clearFault => Sys2Proof.Machine.execClearFault s
  | .setSubscription ch subscription alarm => Sys2Proof.Machine.execSetSubscription ch subscription alarm s
  | .readEvents ch maxCount => Sys2Proof.Machine.execReadEvents ch maxCount s

end Sys2Proof.Machine
end

