-- ==== Sys2Proof/Safety.lean ====
section
/-! DEFINITION. The laws of the SJ824's state that the manual states across its chapters, in the terms the statements use:
what every step keeps, and what device reset establishes. -/

namespace Sys2Proof

/-- The channel whose request a command is; none for the rows that are no requests. -/
def Instr.sender : Instr → Option ChannelId
  | .deviceReset .. => none
  | .egressFrameStart _ => none
  | .holdOffExpiry _ => none
  | .wtrExpiry _ => none
  | .idleExpiry => none
  | .bankSwap => none
  | .replyHoldExpiry _ => none
  | .ingressWordArrival .. => none
  | .lossOfAlignment .. => none
  | .degradeWindowEnd .. => none
  | .readIdentity ch => some ch
  | .readChannel ch .. => some ch
  | .setChannel .. => some .ch0
  | .restartChannel => some .ch0
  | .datapathReset => some .ch0
  | .openEdit ch _ => some ch
  | .commit ch => some ch
  | .abandonEdit ch => some ch
  | .breakLock => some .ch0
  | .readEditState ch => some ch
  | .setEntry ch .. => some ch
  | .clearEntries ch .. => some ch
  | .readEntries ch .. => some ch
  | .setLane .. => some .ch0
  | .readLane ch .. => some ch
  | .setEgress .. => some .ch0
  | .readEgress ch => some ch
  | .configGroup .. => some .ch0
  | .deleteGroup _ => some .ch0
  | .groupRequestLockout ch _ => some ch
  | .groupRequestForce ch _ => some ch
  | .groupRequestManualP ch _ => some ch
  | .groupRequestManualW ch _ => some ch
  | .groupRequestClear ch .. => some ch
  | .readGroup ch _ => some ch
  | .setInput .. => some .ch0
  | .readInputs ch => some ch
  | .setRegion .. => some .ch0
  | .readRegions => some .ch0
  | .readFault => some .ch0
  | .clearFault => some .ch0
  | .setSubscription ch .. => some ch
  | .readEvents ch _ => some ch

/-- The rows that take a unit's event of a frame start ahead of the others (notes/assumptions/4.md). -/
def Instr.TakenAhead : Instr → Prop
  | .holdOffExpiry _ => True
  | .wtrExpiry _ => True
  | .idleExpiry => True
  | .bankSwap => True
  | .replyHoldExpiry _ => True
  | _ => False

end Sys2Proof

namespace Sys2Proof.Machine

/-! ### Event queues (R124, R164, R166, R167) -/

/-- The law of one event queue. -/
structure Queue.Lawful (q : Queue) : Prop where
  /-- R164: "Each event queue holds at most 32 records". -/
  length_le : q.records.length ≤ 32
  /-- COUNT is 1 to 255 (9.1). -/
  count_range : ∀ r ∈ q.records, 1 ≤ r.count ∧ r.count ≤ 255
  /-- R164: the records in flight stand together at the head. -/
  inFlight_first : q.records.Pairwise fun a b => b.inFlight = true → a.inFlight = true
  /-- R164: for any kind and subject, at most one record that is not in flight. -/
  waiting_distinct : ((q.records.filter fun r => !r.inFlight).map EventRecord.event).Nodup
  /-- R167: "The flag is set exactly while LOST_COUNT is above 0". -/
  overflow_iff : q.overflow = true ↔ 0 < q.lostCount
  /-- LOST_COUNT is 0 to 255 (R167). -/
  lost_le : q.lostCount ≤ 255
  /-- R124: the alarm line follows its condition. -/
  alarm_eq : q.alarm = q.alarmCondition
  /-- R169: the position of the subscription mask that stands for no kind is stored as 0. -/
  spare_clear : q.subscription.getLsbD 15 = false

/-- Both event queues. -/
structure State.QueueLaw (s : State) : Prop where
  queue0 : s.queue0.Lawful
  queue1 : s.queue1.Lawful

/-- The number of records of a queue in flight. -/
def Queue.inFlightCount (q : Queue) : Nat :=
  q.records.countP EventRecord.inFlight

/-- The records that a stored reply holds in flight: those a READ_EVENTS reply marked, until it is acknowledged (R164,
R172). -/
def StoredReply.holds (p : StoredReply) : Nat :=
  match p.effects with
  | .events marked _ => if p.acked then 0 else marked
  | _ => 0

/-- A stored reply does not stand in the way of a request: it is acknowledged, or the request has its SEQ and will be a
duplicate (R129, R133, R170). -/
def StoredReply.yields (p : StoredReply) (r : Request) : Prop :=
  p.acked = true ∨ p.seq = r.seq

/-- The law that ties a channel's queue to its stored reply. -/
structure State.ReadLaw (s : State) (ch : ChannelId) : Prop where
  /-- The records in flight are exactly those of the stored, unacknowledged READ_EVENTS reply (R164, R173). -/
  inFlight_eq : (s.queue ch).inFlightCount = (((s.channel ch).stored.map StoredReply.holds).getD 0)
  /-- R129: a HEAD with another SEQ has acknowledged the stored reply. -/
  receiving_yields : ∀ r p, (s.channel ch).phase = .receiving r → (s.channel ch).stored = some p → p.yields r
  /-- R135: "A stored reply that is replaced has always been acknowledged by then". -/
  executing_acked : ∀ r w p, (s.channel ch).phase = .executing r w → (s.channel ch).stored = some p → p.acked = true

/-- The queues of both channels and their stored replies. -/
structure State.EventLaw (s : State) : Prop where
  queues : s.QueueLaw
  reads0 : s.ReadLaw .ch0
  reads1 : s.ReadLaw .ch1

/-! ### The map and the edit lock (R12, R24 to R26, R35, R37) -/

/-- The law of the edit lock. -/
structure State.LockLaw (s : State) : Prop where
  /-- R26: "Whenever no channel holds the edit lock, the pending bank equals the active bank in every entry". -/
  free_equal : s.map.session = none → s.map.pendingBank = s.map.activeBank
  /-- R33: whenever a commit is scheduled, COMMITTER is HOLDER. -/
  committer_holds : ∀ c, s.map.scheduled = some c → s.map.holder = some c
  /-- R37: the committer's channel stays EXECUTING. -/
  committer_executes : ∀ c, s.map.scheduled = some c → ∃ r, (s.channel c).phase = .executing r false
  /-- IDLE_TIMEOUT is 4 to 255, and a held lock has boundaries left (R27, R30). -/
  idle_range : ∀ e, s.map.session = some e →
    4 ≤ e.idleTimeout ∧ e.idleTimeout ≤ 255 ∧ 1 ≤ e.idleRemaining ∧ e.idleRemaining ≤ e.idleTimeout

/-- A bank that may drive traffic (R12, R35): reserved destinations UNUSED, no reserved source drawn from, and every
PROTECTED entry names a configured group. -/
structure State.CleanBank (s : State) (b : Bank) : Prop where
  reserved_unused : ∀ d, s.managed d = true → b.get d = .unused
  sources_free : ∀ d p, p ∈ (b.get d).sources s.groups → s.managed p = false
  groups_configured : ∀ d, s.namesOffGroup (b.get d) = false

/-- The law of the map. -/
structure State.MapLaw (s : State) : Prop where
  lock : s.LockLaw
  /-- The laws of R12 and R35 on the active bank. -/
  active_clean : s.CleanBank s.map.activeBank
  /-- R38: the bank that passed validation stays fit to be swapped in. -/
  scheduled_clean : s.map.scheduled.isSome = true → s.CleanBank s.map.pendingBank

/-! ### Protection groups and event inputs (R86 to R98, R114, R118) -/

/-- What a group's state must be under its top item (R89, R90). -/
def Group.Settled (x : Group) : Prop :=
  match x.topItem with
  | some .lockout => x.state = .wLockout
  | some .sfP => x.state = .wSfP
  | some .force => x.state = .pForce
  | some .sfW => x.state = .pSf ∨ (x.state = .wIdle ∧ x.holdOffRemaining.isSome = true)
  | some .sdP => x.state = .wSdP
  | some .sdW => x.state = .pSd ∨ (x.state = .wIdle ∧ x.holdOffRemaining.isSome = true)
  | some .manual => x.state = if x.standingKind = some .manualP then .pManual else .wManual
  | none => (x.state = .wIdle ∧ x.holdOffRemaining = none) ∨ (x.state = .pWtr ∧ x.revertive = true) ∨
      (x.state = .pIdle ∧ x.revertive = false)

/-- The law of a configured group's own record. -/
structure Group.Lawful (x : Group) : Prop where
  /-- R86: "A configured group's working and protect lanes are two different ingress lanes". -/
  lanes_differ : x.workingLane ≠ x.protectLane
  settled : x.Settled
  /-- SELECTED is the value the state holds (5.2). -/
  selected_eq : x.selected = x.state.selection
  /-- A hold-off runs only in W_IDLE (5.2), with 1 to 31 frame starts left. -/
  holdOff_range : ∀ n, x.holdOffRemaining = some n → x.state = .wIdle ∧ 1 ≤ n ∧ n ≤ 31
  /-- WTR_REMAINING is present exactly in P_WTR (5.2), 1 to 255. -/
  wtr_iff : x.wtrRemaining.isSome = true ↔ x.state = .pWtr
  wtr_range : ∀ n, x.wtrRemaining = some n → 1 ≤ n ∧ n ≤ 255
  /-- R104: no manual request stands beside an item of rank 1 to 6. -/
  manual_top : x.mustDrop = false
  config_range : x.holdOff ≤ 31 ∧ 1 ≤ x.wtrPeriod ∧ x.wtrPeriod ≤ 255
  count_le : x.switchCount ≤ 65535

/-- The law of the groups and of what acts on them. -/
structure State.GroupLaw (s : State) : Prop where
  records : ∀ g x, s.group g = some x → x.Lawful
  /-- R87: the conditions are those of the two lanes. -/
  conditions : ∀ g x, s.group g = some x → x.conditions = s.conditionsOf x.workingLane x.protectLane
  /-- R118: INPUT_LOCKOUT follows the lockout level. -/
  lockouts : ∀ g x, s.group g = some x → x.inputLockout = s.lockoutLevel g
  /-- R121: "An input is therefore bound only to a configured group". -/
  bound : ∀ i g, (s.input i).mode.bound = some g → (s.group g).isSome = true

/-! ### Ingress lanes and held state (R55, R59, R64 to R79) -/

/-- The law of one ILR. -/
structure Lane.Lawful (x : Lane) : Prop where
  /-- R73: "Each ingress elastic store holds at most two unread complete frames". -/
  unread_le : x.unread.length ≤ 2
  /-- R75: the store of a lane that is not ALIGNED is empty. -/
  empty_unless_aligned : x.isAligned = false → x.unread = [] ∧ x.lastRead = none
  /-- DEGRADE_THRESHOLD is 0 to 63 (R80). -/
  threshold_le : x.threshold ≤ 63
  /-- In CONFIRM the next expected marker position is at most 25 words away (R65, R66). -/
  confirm_range : ∀ n e g, x.alignment = .confirm n e g → n ≤ 24
  /-- In ALIGNED: at most 24 slot words since the marker position (R67), fewer than four consecutive bad positions
  (R68), and a window of fewer than 256 positions (R70). -/
  tracking_range : ∀ t, x.alignment = .aligned t →
    t.slots.length ≤ 24 ∧ t.consecutiveBad ≤ 3 ∧ t.window.length ≤ 255 ∧ t.window.bad ≤ t.window.length
  /-- R79: the counters are 16 bits wide. -/
  counters_le : x.counters.badMarkers ≤ 65535 ∧ x.counters.alignLosses ≤ 65535 ∧ x.counters.dropSlips ≤ 65535 ∧
    x.counters.repeatSlips ≤ 65535

/-- The law of the lanes: the ILRs, and the lanes of management locations (R59, R80). -/
structure State.LaneLaw (s : State) : Prop where
  lanes : ∀ l, (s.lane l).Lawful
  /-- R80: the lane of an enabled channel's location is never disabled. -/
  managed_on : ∀ l, s.managedLane l = true → (s.lane l).alignment ≠ .off
  /-- R59: the egress lane of an enabled channel is enabled. -/
  managed_sent : ∀ l, s.managedLane l = true → s.efa.enables.getLsbD l.val = true
  /-- The hold limit is 1 to 1023 (R60). -/
  limit_range : 1 ≤ s.efa.holdLimit ∧ s.efa.holdLimit ≤ 1023
  /-- R55: "The hold count stays between 0 and the hold limit at all times". -/
  held_le : ∀ d, (s.efa.held.get d).count ≤ s.efa.holdLimit

/-! ### Channels and the guard (R126, R128, R130, R136, R139, R157) -/

/-- The law of one channel controller's record (7.3). -/
structure Channel.Lawful (x : Channel) : Prop where
  hold_range : 8 ≤ x.replyHold ∧ x.replyHold ≤ 255
  /-- R130: no more body words than the HEAD announced. -/
  receiving_le : ∀ r, x.phase = .receiving r → r.body.length ≤ r.len.toNat
  /-- R130: a complete request has all its body words. -/
  executing_eq : ∀ r w, x.phase = .executing r w → r.body.length = r.len.toNat
  /-- The reply position is 0 to LEN + 1 of the stored reply. -/
  replying_le : ∀ k, x.phase = .replying k → ∃ p, x.stored = some p ∧ k ≤ p.body.length + 1
  /-- HOLD_REMAINING is 1 to 255, and a reply is stored. -/
  awaiting_range : ∀ n, x.phase = .awaitAck n → x.stored.isSome = true ∧ 1 ≤ n ∧ n ≤ 255
  /-- R128: CHECK is the check over the reply; LEN fits its field; RESEND_COUNT is 0 to 3. -/
  stored_sound : ∀ p, x.stored = some p →
    p.check = replyCheck p.status p.seq p.body ∧ p.body.length ≤ 31 ∧ p.resends ≤ 3

/-- The law of the management channels and the guard. -/
structure State.ChannelLaw (s : State) : Prop where
  ch0 : s.ch0.Lawful
  ch1 : s.ch1.Lawful
  /-- Channel 0 is always enabled; channel 1 is OFF exactly while it has no location (R126). -/
  ch0_on : s.ch0.phase ≠ .off
  ch1_off_iff : s.ch1.phase = .off ↔ s.operatorPlace = none
  /-- R126: "The two channels therefore never share a location". -/
  places_differ : s.operatorPlace ≠ some ⟨s.strapLane, 23⟩
  /-- R157: "FAULT_OVERRUNS is not 0 unless FILLED is true". -/
  overruns_filled : s.guard.overruns ≠ 0 → s.guard.fault.isSome = true
  overruns_le : s.guard.overruns ≤ 255
  /-- R149: the guard's faults come from channel 1. -/
  fault_operator : ∀ f, s.guard.fault = some f → f.channel = .ch1
  /-- A present region's firsts are not above its lasts (R151). -/
  regions_ordered : ∀ n x, s.guard.regions.get n = some x → x.laneFirst ≤ x.laneLast ∧ x.slotFirst ≤ x.slotLast

/-- A state in which the laws of every chapter hold. -/
structure State.Lawful (s : State) : Prop where
  events : s.EventLaw
  map : s.MapLaw
  groups : s.GroupLaw
  lanes : s.LaneLaw
  channels : s.ChannelLaw

/-! ### The terms of the statements -/

/-- Channel `ch` holds a complete request with this CODE and these body bytes, and it waits for its owner (R134, R176). -/
structure State.Waits (s : State) (ch : ChannelId) (r : Request) (code : BitVec 6) (bytes : List Byte) : Prop where
  phase : (s.channel ch).phase = .executing r true
  code_eq : r.code = code
  bytes_eq : bodyBytes r.body = bytes

/-- A channel's queue after these occurrences, offered in this order with this stamp (R165). -/
def State.queueAfter (s : State) (stamp : Half) (es : List Event) (ch : ChannelId) : Queue :=
  es.foldl (fun q e => if s.enabled ch && maskHolds q.subscription e then q.arrive e stamp else q) (s.queue ch)

/-- The state after these occurrences, stamped with SUPERFRAME_COUNT as it stands. -/
def State.withEvents (s : State) (es : List Event) : State :=
  { s with queue0 := s.queueAfter s.efa.superframes es .ch0, queue1 := s.queueAfter s.efa.superframes es .ch1 }

/-- The same at the coming frame start: with the SUPERFRAME_COUNT that it reaches (R45; notes/assumptions/10.md). -/
def State.withEventsAhead (s : State) (es : List Event) : State :=
  { s with
    queue0 := s.queueAfter s.efa.advance.superframes es .ch0
    queue1 := s.queueAfter s.efa.advance.superframes es .ch1 }

/-- An edge on FREF has come (R47): the commands that wait are rows that take a unit's event ahead, and then an
EGRESS_FRAME_START. -/
def State.EdgeComes (s : State) : Prop :=
  ∃ ahead e rest, s.pending = ahead ++ .egressFrameStart e :: rest ∧ ∀ c ∈ ahead, c.TakenAhead

/-- The frame start of an edge that has come is being taken: no request waits for its owner (R47, R134). -/
def State.Startable (s : State) : Prop :=
  s.EdgeComes ∧ ∀ ch r, (s.channel ch).phase ≠ .executing r true

/-- The GROUP_REQUEST row of a kind. -/
def RequestKind.command (k : RequestKind) (ch : ChannelId) (group : Byte) : Instr :=
  match k with
  | .lockout => .groupRequestLockout ch group
  | .force => .groupRequestForce ch group
  | .manualP => .groupRequestManualP ch group
  | .manualW => .groupRequestManualW ch group

/-- A destination stands before another in destination order: by lane first and then by slot. -/
def Place.before (a b : Place) : Prop :=
  a.lane < b.lane ∨ (a.lane = b.lane ∧ a.slot < b.slot)

/-- Some present region that covers the destination has this permit (R151, R152). -/
def Guard.Grants (g : Guard) (permit : Region → Bool) (p : Place) : Prop :=
  ∃ n x, g.regions.get n = some x ∧ x.laneFirst ≤ p.lane ∧ p.lane ≤ x.laneLast ∧ x.slotFirst ≤ p.slot ∧
    p.slot ≤ x.slotLast ∧ permit x = true

/-- A request of the channel may not touch the destination: channel 1, without a region that grants it (R149, R152). -/
def State.Denied (s : State) (ch : ChannelId) (permit : Region → Bool) (p : Place) : Prop :=
  ch = .ch1 ∧ ¬ s.guard.Grants permit p

/-- The destination is the lowest-numbered one of the run that the channel may not touch (R153). -/
def State.FirstDenied (s : State) (ch : ChannelId) (permit : Region → Bool) (run : List Place) (p : Place) : Prop :=
  p ∈ run ∧ s.Denied ch permit p ∧ ∀ q ∈ run, q.before p → ¬ s.Denied ch permit q

/-- The run of destinations that LANE, FIRST_SLOT and COUNT name, in slot order (R18, R20). -/
def slotRun (lane : LaneId) (first count : Nat) : List Place :=
  ((List.finRange 24).filter fun k => first ≤ k.val ∧ k.val < first + count).map fun k => ⟨lane, k⟩

/-- The place is the management location of some enabled channel (R11). -/
def State.Reserved (s : State) (p : Place) : Prop :=
  ∃ ch, s.place ch = some p

/-- The entry draws from the source (R9). -/
def State.Draws (s : State) (e : Entry) (p : Place) : Prop :=
  (∃ f, e = .direct p f) ∨
    ∃ g f x, e = .protect g p.slot f ∧ s.group g = some x ∧ (x.workingLane = p.lane ∨ x.protectLane = p.lane)

/-- The pending entry of a destination fails the test of this number in the table of R35. -/
def State.FailsTest (s : State) (ch : ChannelId) (d : Place) (test : Nat) : Prop :=
  match test with
  | 1 => ∃ g slot f, s.map.pendingBank.get d = .protect g slot f ∧ s.group g = none
  | 2 => s.map.pendingBank.get d ≠ .unused ∧ s.Reserved d
  | 3 => ∃ p, s.Draws (s.map.pendingBank.get d) p ∧ s.Reserved p
  | 4 => s.map.pendingBank.get d ≠ s.map.activeBank.get d ∧ s.Denied ch Region.modifyPermit d
  | _ => False

/-- The result of a validation that fails: the first failing entry in destination order, and the first test it fails
(R35). -/
def State.FirstFailure (s : State) (ch : ChannelId) (d : Place) (test : Nat) : Prop :=
  s.FailsTest ch d test ∧ (∀ n, n < test → ¬ s.FailsTest ch d n) ∧
    ∀ q, q.before d → ∀ n, ¬ s.FailsTest ch q n

/-- REASON of INVALID_MAP by the number of the test (R35, 10.5). -/
def reasonOfTest (test : Nat) : Byte :=
  match test with
  | 1 => 1
  | 4 => 3
  | _ => 2

/-- The two entries keep their source (R57): same MODE, DIRECT or PROTECTED, same SOURCE_LANE, GROUP and SOURCE_SLOT. -/
def Entry.KeepsSource (a b : Entry) : Prop :=
  (∃ p f h, a = .direct p f ∧ b = .direct p h) ∨ ∃ g k f h, a = .protect g k f ∧ b = .protect g k h

/-- The frame that the store of a lane answers to a take, none while the lane is unavailable (R49, R75). -/
def Lane.answer (x : Lane) : Option Frame :=
  if x.isAligned then
    match x.unread with
    | f :: _ => some f
    | [] => x.lastRead
  else none

/-- The slot word of a destination in the frame begun on its lane, none while the lane sends none. -/
def State.sentWord (s : State) (d : Place) : Option Word :=
  (s.efa.lines.get d.lane).map fun f => f.slots.get d.slot

end Sys2Proof.Machine
end

