-- ==== Sys2Proof/Certificates/Slice0/Obligations.lean ====
section
/-! DEFINITION. The statements about the SJ824 for the provers. A request row is stated from the bytes of the request that
waits (`State.Waits`), so that each statement holds for every value of every field; replies are named by `State.finish`,
whose own statement is `ReplyFormed`, occurrences by `State.withEvents` and `State.queueAfter`, whose operation on one
queue `OccurrencesJoinQueues` states. -/

open Sys2Proof Sys2Proof.Machine

/-! ### The step, the completions and device reset -/

/-- A step takes the command at the front of the queue and executes it on the state with the rest of the queue. The
second clause, idling on an empty queue, is the model's choice (notes/assumptions/1.md). -/
def Obligations.StepRunsFrontCommand : Prop :=
  ∀ (s : State) (c : Instr) (rest : List Instr),
    step { s with pending := c :: rest } = exec c { s with pending := rest } ∧
    step { s with pending := [] } = .next { s with pending := [] }

/-- No command stops the part: the manual names no fault that does. A row that nothing asks for or that is not due
completes with no change (notes/assumptions/3.md and 4.md). No command touches the queue of waiting commands, which is
the model's own (notes/assumptions/1.md; for DEVICE_RESET, 14.md). -/
def Obligations.EveryCommandCompletes : Prop :=
  ∀ (c : Instr) (s : State), ∃ t, exec c s = .next t ∧ t.pending = s.pending

/-- A request row changes nothing unless the request that waits on its channel asks for it. A row of an expiry or of the
bank swap changes nothing unless its frame start is being taken, it is due there, and its unit has not acted yet. A row
of a word's consequence changes nothing unless the word brings it about. This is the model's choice
(notes/assumptions/3.md and 4.md). -/
def Obligations.UnaskedChangesNothing : Prop :=
  ∀ (c : Instr) (s : State),
    (∀ ch, c.sender = some ch →
      (∀ r, (s.channel ch).phase = .executing r true → decodeCommand ch r.code (bodyBytes r.body) ≠ some c) →
      exec c s = .next s) ∧
    (∀ g, c = .holdOffExpiry g →
      ¬ (s.Startable ∧ s.work.groupsTaken.get g = false ∧
        ∃ x, s.group g = some x ∧ x.holdOffRemaining = some 1) → exec c s = .next s) ∧
    (∀ g, c = .wtrExpiry g →
      ¬ (s.Startable ∧ s.work.groupsTaken.get g = false ∧ s.efa.frameNo = 15 ∧
        ∃ x, s.group g = some x ∧ x.state = .pWtr ∧ x.wtrRemaining = some 1) → exec c s = .next s) ∧
    (c = .idleExpiry →
      ¬ (s.Startable ∧ s.work.mapTaken = false ∧ s.efa.frameNo = 15 ∧ s.map.scheduled = none ∧
        ∃ e, s.map.session = some e ∧ e.idleRemaining = 1) → exec c s = .next s) ∧
    (c = .bankSwap →
      ¬ (s.Startable ∧ s.work.mapTaken = false ∧ s.efa.frameNo = 15 ∧ s.map.scheduled ≠ none) →
      exec c s = .next s) ∧
    (∀ ch, c = .replyHoldExpiry ch →
      ¬ (s.Startable ∧ s.enabled ch = true ∧ s.work.word ch = none ∧ (s.channel ch).phase = .awaitAck 1 ∧
        ¬ (s.work.mapTaken = false ∧ s.efa.frameNo = 15 ∧ s.map.scheduled ≠ none)) → exec c s = .next s) ∧
    (∀ l w, c = .lossOfAlignment l w →
      ¬ (∃ t, (s.lane l).alignment = .aligned t ∧ 24 ≤ t.slots.length ∧ 3 ≤ t.consecutiveBad ∧
        ¬ (w.extractLsb' 8 16 = 0x2F71 ∧ w.extractLsb' 4 4 = t.number)) → exec c s = .next s) ∧
    (∀ l w, c = .degradeWindowEnd l w →
      ¬ (∃ t, (s.lane l).alignment = .aligned t ∧ 24 ≤ t.slots.length ∧ 255 ≤ t.window.length ∧
        (t.consecutiveBad < 3 ∨ (w.extractLsb' 8 16 = 0x2F71 ∧ w.extractLsb' 4 4 = t.number))) →
      exec c s = .next s)

/-- What DEVICE_RESET leaves in every block (R23, R62, R85, R113, R123, R125, R148, R163, R175). The queue of waiting
commands and the draw counter are the model's own and stay (notes/assumptions/14.md). -/
def Obligations.DeviceResetValues : Prop :=
  ∀ (straps : BitVec 3) (pins : BitVec 4) (s : State), ∃ t, exec (.deviceReset straps pins) s = .next t ∧
    t.pending = s.pending ∧ t.free = s.free ∧
    ((∀ n d, (t.map.bank n).get d = .unused) ∧ t.map.active = .a ∧ t.map.generation = 0 ∧ t.map.session = none ∧
      t.map.scheduled = none) ∧
    (t.efa.frameNo = 15 ∧ t.efa.started = false ∧ t.efa.superframes = 0 ∧ t.efa.holdLimit = 96 ∧
      (∀ l : LaneId, t.efa.enables.getLsbD l.val = decide (l.val = straps.toNat)) ∧
      (∀ d, t.efa.held.get d = ⟨0, 96⟩) ∧ (∀ l : LaneId, t.efa.lines.get l = none ∧ t.efa.sent.get l = [])) ∧
    (∀ l, t.lane l =
      ⟨if l.val = straps.toNat then .hunt else .off, 8, [], none, ⟨0, 0, 0, 0⟩⟩) ∧
    (∀ g, t.group g = none) ∧
    (∀ i, t.input i = ⟨.off, false, pins.getLsbD i.val, pins.getLsbD i.val⟩) ∧
    (t.place .ch0 = some ⟨straps.toFin, 23⟩ ∧ t.place .ch1 = none ∧
      t.ch0 = ⟨.idle, 48, none, ⟨0, 0, 0, 0, 0, 0, 0⟩⟩ ∧ t.ch1 = ⟨.off, 48, none, ⟨0, 0, 0, 0, 0, 0, 0⟩⟩) ∧
    ((∀ n : RegionId, t.guard.regions.get n = none) ∧ t.guard.fault = none ∧ t.guard.overruns = 0) ∧
    (∀ ch, t.queue ch = ⟨[], false, 0, 0x7FFF, 0, false⟩)

/-- Every law of the part holds after device reset, whatever the straps and the levels. -/
def Obligations.LawsHoldAtDeviceReset : Prop :=
  ∀ (straps : BitVec 3) (pins : BitVec 4), (State.resetWith straps pins).Lawful

/-! ### Invariants -/

/-- Every step keeps the law of the event queues and of the replies that hold records in flight (R164, R166, R167, R124,
R135, R173). -/
def Obligations.StepKeepsEventLaw : Prop :=
  ∀ s t : State, s.EventLaw → step s = .next t → t.EventLaw

/-- Every step keeps the law of the map: the edit lock, the equality of the banks while it is free, and the reserved
slots and configured groups of the active bank (R12, R26, R35, R38). -/
def Obligations.StepKeepsMapLaw : Prop :=
  ∀ s t : State, s.MapLaw → step s = .next t → t.MapLaw

/-- Every step keeps the law of the groups: state, selection, timers, conditions and lockouts agree (R86 to R98, R104,
R118, R121). -/
def Obligations.StepKeepsGroupLaw : Prop :=
  ∀ s t : State, s.GroupLaw → step s = .next t → t.GroupLaw

/-- Every step keeps the law of the lanes and of held state (R55, R59, R64 to R75, R79, R80). -/
def Obligations.StepKeepsLaneLaw : Prop :=
  ∀ s t : State, s.LaneLaw → step s = .next t → t.LaneLaw

/-- Every step keeps the law of the channels and of the guard (R126, R128, R130, R136, R139, R149, R151, R157). -/
def Obligations.StepKeepsChannelLaw : Prop :=
  ∀ s t : State, s.ChannelLaw → step s = .next t → t.ChannelLaw

/-! ### Rules of the whole part -/

/-- No request of channel 1 changes what the supervisor holds: the active bank, the lanes, the egress enables and hold
limit, the inputs, the regions, the channels' locations, channel 0's own record, and the configuration of any group
(R106, R134, R149, R150); and it changes a pending entry only where a region grants modifying, or back to the active
entry (R152, R153). -/
def Obligations.OperatorCannotReshape : Prop :=
  (∀ (c : Instr) (s t : State), c.sender = some .ch1 → exec c s = .next t →
     (t.map.active = s.map.active ∧ t.map.activeBank = s.map.activeBank ∧ t.map.generation = s.map.generation) ∧
     t.lanes = s.lanes ∧ t.efa = s.efa ∧ t.inputs = s.inputs ∧ t.guard.regions = s.guard.regions ∧
     t.strapLane = s.strapLane ∧ t.operatorPlace = s.operatorPlace ∧ t.ch0 = s.ch0 ∧
     (∀ g, (s.group g = none → t.group g = none) ∧ ∀ x, s.group g = some x → ∃ y, t.group g = some y ∧
       y.workingLane = x.workingLane ∧ y.protectLane = x.protectLane ∧ y.revertive = x.revertive ∧
       y.holdOff = x.holdOff ∧ y.wtrPeriod = x.wtrPeriod ∧ y.operatorAccess = x.operatorAccess ∧
       y.inputLockout = x.inputLockout ∧ y.conditions = x.conditions ∧
       ((∃ k, y.standing = some ⟨k, .channel .ch1⟩ ∧ (k = .manualP ∨ k = .manualW)) ∨ y.standing = none ∨
         y.standing = x.standing) ∧
       (x.operatorAccess = false → y = x))) ∧
  (∀ (c : Instr) (s t : State), c.sender = some .ch1 → exec c s = .next t →
     ∀ d, t.map.pendingBank.get d = s.map.pendingBank.get d ∨ s.guard.Grants Region.modifyPermit d ∨
       t.map.pendingBank.get d = s.map.activeBank.get d)

/-- R157: "Once filled, the guard fault record is unchanged until CLEAR_FAULT or device reset." A CLEAR_FAULT that still
waits is taken by a frame start as well (notes/assumptions/5.md). -/
def Obligations.FaultRecordKept : Prop :=
  ∀ (c : Instr) (s t : State) (f : FaultRecord), s.guard.fault = some f → exec c s = .next t →
    t.guard.fault = some f ∨ (∃ straps pins, c = .deviceReset straps pins) ∨
    ((c = .clearFault ∨ ∃ e, c = .egressFrameStart e) ∧ ∃ r, s.ch0.phase = .executing r true ∧ r.code = 0x33)

/-- The generation identifies the active bank (R2, R10, R39): unless a device reset or a waiting DATAPATH_RESET is
taken, either the active bank, its letter and the generation stay, or the letter is exchanged and the generation
advances by one modulo 256. The row BANK_SWAP swaps while FRAME_NO is still 15, ahead of the frame start
(notes/assumptions/4.md), and a frame start takes a DATAPATH_RESET that still waits (5.md). -/
def Obligations.GenerationFollowsSwap : Prop :=
  ∀ (c : Instr) (s t : State), exec c s = .next t → (∀ straps pins, c ≠ .deviceReset straps pins) →
    (∀ r, s.ch0.phase = .executing r true → r.code ≠ 0x05) →
    (t.map.active = s.map.active ∧ t.map.activeBank = s.map.activeBank ∧ t.map.generation = s.map.generation) ∨
    (t.map.active ≠ s.map.active ∧ t.map.generation = s.map.generation + 1 ∧
      (c = .bankSwap ∨ ∃ e, c = .egressFrameStart e) ∧ s.efa.frameNo = 15)

/-! ### Formats -/

/-- R177: the marker's fields, what an ILR judges by them, and the example of the rule. -/
def Obligations.MarkerWordFields : Prop :=
  (∀ (n : BitVec 4) (gen : BitVec 8),
    (markerWord n gen).extractLsb' 8 16 = 0x2F71 ∧ (markerWord n gen).extractLsb' 4 4 = n ∧
    (markerWord n gen).extractLsb' 0 4 = gen.extractLsb' 0 4) ∧
  (∀ w : Word, matchesMarker w = true ↔ w.extractLsb' 8 16 = 0x2F71) ∧
  (∀ (w : Word) (expected : BitVec 4),
    goodMarker expected w = true ↔ w.extractLsb' 8 16 = 0x2F71 ∧ w.extractLsb' 4 4 = expected) ∧
  markerWord 9 7 = 0x2F7197 ∧
  (∀ (s : State) (l m : LaneId) (f g : EgressFrame), s.laneFrame l = some f → s.laneFrame m = some g →
    f.marker = g.marker)

/-- R178. Ingress: each word kind gives back the fields it was built from, whatever its spare bits, as in the worked
encodings of 10.3. Egress: the fields of the words of a stored reply by reply position and of an IDLE word, with every
spare bit 0. -/
def Obligations.ManagementWordFields : Prop :=
  ((∀ (valid : Bool) (seq : BitVec 4) (spare : BitVec 17),
     decodeMgmtWord ((0 : BitVec 2) ++ BitVec.ofBool valid ++ seq ++ spare) = .idle valid seq) ∧
   (∀ (code : BitVec 6) (seq : BitVec 4) (len : BitVec 5) (spare : BitVec 7),
     decodeMgmtWord ((1 : BitVec 2) ++ code ++ seq ++ len ++ spare) = .head code seq len) ∧
   (∀ (spare : BitVec 6) (payload : Half), decodeMgmtWord ((2 : BitVec 2) ++ spare ++ payload) = .body payload) ∧
   (∀ (spare : BitVec 6) (check : Half), decodeMgmtWord ((3 : BitVec 2) ++ spare ++ check) = .tail check) ∧
   decodeMgmtWord 0x413000 = .head 0x01 3 0 ∧ decodeMgmtWord 0xC0AEFF = .tail 0xAEFF ∧
   decodeMgmtWord 0x502200 = .head 0x10 2 4 ∧ decodeMgmtWord 0x80050C = .body 0x050C ∧ decodeMgmtWord 0 = .idle false 0) ∧
  ((∀ (p : StoredReply), p.body.length ≤ 31 →
     (p.word 0).extractLsb' 22 2 = 1 ∧ (p.word 0).extractLsb' 21 1 = 0 ∧
     ((p.word 0).extractLsb' 16 5).toNat = p.status.code ∧ (p.word 0).extractLsb' 12 4 = p.seq ∧
     ((p.word 0).extractLsb' 7 5).toNat = p.body.length ∧ (p.word 0).extractLsb' 0 7 = 0) ∧
   (∀ (p : StoredReply) (k : Nat) (h : Half), p.body[k]? = some h →
     (p.word (k + 1)).extractLsb' 22 2 = 2 ∧ (p.word (k + 1)).extractLsb' 16 6 = 0 ∧
     (p.word (k + 1)).extractLsb' 0 16 = h) ∧
   (∀ (p : StoredReply), (p.word (p.body.length + 1)).extractLsb' 22 2 = 3 ∧
     (p.word (p.body.length + 1)).extractLsb' 16 6 = 0 ∧ (p.word (p.body.length + 1)).extractLsb' 0 16 = p.check) ∧
   (∀ (s : State) (ch : ChannelId) (code : Nat), code < 8 →
     (s.idleWordOf ch code).extractLsb' 22 2 = 0 ∧ ((s.idleWordOf ch code).extractLsb' 19 3).toNat = code ∧
     ((s.idleWordOf ch code).getLsbD 18 = true ↔ ∃ r ∈ (s.queue ch).records, r.inFlight = false) ∧
     (s.idleWordOf ch code).getLsbD 17 = (s.queue ch).overflow ∧
     ((s.idleWordOf ch code).getLsbD 16 = true ↔ ∃ e, s.map.session = some e ∧ e.holder = ch) ∧
     ((s.idleWordOf ch code).getLsbD 15 = true ↔ ch = .ch0 ∧ s.guard.fault ≠ none) ∧
     (s.idleWordOf ch code).extractLsb' 8 7 = 0 ∧ (s.idleWordOf ch code).extractLsb' 0 8 = s.map.generation))

/-- The check of R128: the register starts at 0xFFFF, and each byte is divided by x^16 + x^12 + x^5 + 1, most significant
bit first; the worked register values of 7.2. Bytes sent with their check leave the register at 0, since it is not
inverted, and bytes sent with any other check do not. -/
def Obligations.CheckDividesToZero : Prop :=
  checkOf [] = 0xFFFF ∧
  (∀ (bytes : List Byte) (b : Byte),
    let shift (r : Half) : Half := if r.msb = true then (r <<< 1) ^^^ 0x1021 else r <<< 1
    checkOf (bytes ++ [b]) =
      (List.range 8).foldl (fun r _ => shift r) (checkOf bytes ^^^ (b ++ (0 : Byte)))) ∧
  (checkOf [0x01] = 0xF1D1 ∧ checkOf [0x01, 0x03] = 0x1E5D ∧ checkOf [0x01, 0x03, 0x00] = 0xAEFF) ∧
  (∀ (bytes : List Byte) (sent : Half), checkOf (bytes ++ halfBytes sent) = 0 ↔ sent = checkOf bytes)

/-- R3, R14, R179: the entry that a record asks for is stored in normal form, and its six bytes ask for that same entry;
a record asks for no entry exactly where a present field is out of range. -/
def Obligations.EntryRecordNormalForm : Prop :=
  (∀ e : Entry, entryOf e.record = some e) ∧
  (∀ e : Entry, ∃ b0 b1 b2 b3 b4 b5, e.bytes = [b0, b1, b2, b3, b4, b5] ∧
    decodeEntryRecord b0 b1 b2 b3 b4 b5 = e.record) ∧
  (∀ r : EntryRecord, entryOf r = none ↔
    3 < r.mode.toNat ∨ (r.mode = 1 ∧ 7 < r.sourceLane.toNat) ∨ (r.mode = 2 ∧ 15 < r.group.toNat) ∨
      ((r.mode = 1 ∨ r.mode = 2) ∧ (23 < r.sourceSlot.toNat ∨ r.fallback = 3))) ∧
  (∀ (r : EntryRecord) (e : Entry), entryOf r = some e →
    e.record.mode = r.mode ∧
    e.record.sourceLane = (if r.mode = 1 then r.sourceLane else 0) ∧
    e.record.group = (if r.mode = 2 then r.group else 0) ∧
    e.record.sourceSlot = (if r.mode = 1 ∨ r.mode = 2 then r.sourceSlot else 0) ∧
    e.record.fallback = (if r.mode = 1 ∨ r.mode = 2 then r.fallback else 0) ∧
    e.record.constant =
      (if r.mode = 3 ∨ ((r.mode = 1 ∨ r.mode = 2) ∧ r.fallback = 1) then r.constant else 0))

/-! ### Event queues -/

/-- An occurrence raised is offered to each queue whose channel is enabled and subscribed to its kind, with the
superframe count as it stands (R165). A queue counts it in the record of its kind and subject that is not in flight, or
appends a record, or loses it, and its alarm line is judged anew (R124, R166, R167). -/
def Obligations.OccurrencesJoinQueues : Prop :=
  (∀ (q : Queue) (e : Event) (stamp : Half),
     (∀ before r after, q.records = before ++ r :: after → r.event = e → r.inFlight = false →
       (∀ x ∈ before, ¬ (x.event = e ∧ x.inFlight = false)) →
       (q.arrive e stamp).records = before ++ { r with count := min 255 (r.count + 1) } :: after ∧
       (q.arrive e stamp).overflow = q.overflow ∧ (q.arrive e stamp).lostCount = q.lostCount) ∧
     ((∀ x ∈ q.records, ¬ (x.event = e ∧ x.inFlight = false)) →
       (q.records.length < 32 →
         (q.arrive e stamp).records = q.records ++ [⟨e, 1, stamp, false⟩] ∧
         (q.arrive e stamp).overflow = q.overflow ∧ (q.arrive e stamp).lostCount = q.lostCount) ∧
       (32 ≤ q.records.length →
         (q.arrive e stamp).records = q.records ∧ (q.arrive e stamp).overflow = true ∧
         (q.arrive e stamp).lostCount = min 255 (q.lostCount + 1))) ∧
     (q.arrive e stamp).subscription = q.subscription ∧ (q.arrive e stamp).alarmMask = q.alarmMask ∧
     ((q.arrive e stamp).alarm = true ↔
       (∃ r ∈ (q.arrive e stamp).records, q.alarmMask.getLsbD r.event.code = true) ∨
         ((q.arrive e stamp).overflow = true ∧ q.alarmMask.getLsbD 15 = true))) ∧
  (∀ (s : State) (e : Event),
     s.raise e =
       { s with
         queue0 := if s.queue0.subscription.getLsbD e.code then s.queue0.arrive e s.efa.superframes else s.queue0
         queue1 :=
           if s.operatorPlace ≠ none ∧ s.queue1.subscription.getLsbD e.code then
             s.queue1.arrive e s.efa.superframes
           else s.queue1 })

/-- The deferred effects of a stored reply are applied at its acknowledgement, once (R138): a READ_EVENTS reply removes
the records it marked and reduces LOST_COUNT by what it reported (R172), a READ_LANE reply with CLEAR 1 reduces the four
counters by what it reported, none below 0 (R84), and a READ_CHANNEL reply with CLEAR 1 the seven channel counters
(R142). A reply without deferred effects becomes ACKED alone, and a channel without a stored reply has nothing to
acknowledge. The records are removed from the head of the queue (notes/assumptions/21.md). -/
def Obligations.DeferredEffectsOnce : Prop :=
  (∀ (s : State) (ch : ChannelId) (p : StoredReply), (s.channel ch).stored = some p →
     (p.acked = true → s.acknowledge ch = s) ∧
     (∀ marked lost, p.acked = false → p.effects = .events marked lost → ∃ t, s.acknowledge ch = t ∧
       (t.queue ch).records = (s.queue ch).records.drop marked ∧
       (t.queue ch).lostCount = (s.queue ch).lostCount - lost ∧
       (t.queue ch).overflow = (decide (lost < (s.queue ch).lostCount) && (s.queue ch).overflow) ∧
       (t.queue ch).subscription = (s.queue ch).subscription ∧ (t.queue ch).alarmMask = (s.queue ch).alarmMask ∧
       (t.queue ch).alarm = (t.queue ch).alarmCondition ∧
       t = (s.setQueue ch (t.queue ch)).setChannel ch { s.channel ch with stored := some { p with acked := true } })) ∧
  (∀ (s : State) (ch : ChannelId) (p : StoredReply) (l : LaneId) (k : LaneCounters),
     (s.channel ch).stored = some p → p.effects = .lane l k →
     (p.acked = false →
       let c := (s.lane l).counters
       s.acknowledge ch =
         (s.setChannel ch { s.channel ch with stored := some { p with acked := true } }).setLane l
           { s.lane l with counters :=
             ⟨c.badMarkers - k.badMarkers, c.alignLosses - k.alignLosses, c.dropSlips - k.dropSlips,
               c.repeatSlips - k.repeatSlips⟩ } ∧
       (s.acknowledge ch).acknowledge ch = s.acknowledge ch) ∧
     (p.acked = true → s.acknowledge ch = s)) ∧
  (∀ (s : State) (ch c : ChannelId) (p : StoredReply) (k : ChannelCounters),
     (s.channel ch).stored = some p → p.effects = .channel c k →
     (p.acked = false →
       let s1 := s.setChannel ch { s.channel ch with stored := some { p with acked := true } }
       let n := (s.channel c).counters
       s.acknowledge ch =
         s1.setChannel c { s1.channel c with counters :=
           { checkErrors := n.checkErrors - k.checkErrors, truncated := n.truncated - k.truncated
             malformed := n.malformed - k.malformed, busyDiscards := n.busyDiscards - k.busyDiscards
             duplicates := n.duplicates - k.duplicates, retransmits := n.retransmits - k.retransmits
             abandoned := n.abandoned - k.abandoned } } ∧
       (s.acknowledge ch).acknowledge ch = s.acknowledge ch) ∧
     (p.acked = true → s.acknowledge ch = s)) ∧
  (∀ (s : State) (ch : ChannelId),
     (∀ p, (s.channel ch).stored = some p → p.acked = false → p.effects = .none →
       s.acknowledge ch = s.setChannel ch { s.channel ch with stored := some { p with acked := true } }) ∧
     ((s.channel ch).stored = none → s.acknowledge ch = s))

/-- SET_SUBSCRIPTION replaces both masks of the requesting channel and judges its alarm line (R169, R180). READ_EVENTS
reports the oldest records of its queue and marks them in flight, or refuses BAD_FIELD (R170, R171, R180). KIND and
SUBJECT by the table of 10.6. -/
def Obligations.QueueCommands : Prop :=
  ((∀ l : LaneId, (Event.laneAligned l).code = 0 ∧ (Event.laneLost l).code = 1 ∧ (Event.laneDegradeSet l).code = 2 ∧
       (Event.laneDegradeClear l).code = 3 ∧ (Event.laneSlip l).code = 4 ∧ (Event.laneAligned l).subject = l.val ∧
       (Event.laneLost l).subject = l.val ∧ (Event.laneDegradeSet l).subject = l.val ∧
       (Event.laneDegradeClear l).subject = l.val ∧ (Event.laneSlip l).subject = l.val) ∧
     (∀ g : GroupId, (Event.groupToProtect g).code = 5 ∧ (Event.groupToWorking g).code = 6 ∧
       (Event.requestDropped g).code = 7 ∧ (Event.groupToProtect g).subject = g.val ∧
       (Event.groupToWorking g).subject = g.val ∧ (Event.requestDropped g).subject = g.val) ∧
     (∀ ch : ChannelId, let n : Nat := if ch = .ch0 then 0 else 1
       (Event.commitDone ch).code = 8 ∧ (Event.lockExpired ch).code = 9 ∧ (Event.lockBroken ch).code = 10 ∧
       (Event.guardFault ch).code = 11 ∧ (Event.checkError ch).code = 12 ∧ (Event.replyAbandoned ch).code = 13 ∧
       (Event.commitDone ch).subject = n ∧ (Event.lockExpired ch).subject = n ∧ (Event.lockBroken ch).subject = n ∧
       (Event.guardFault ch).subject = n ∧ (Event.checkError ch).subject = n ∧
       (Event.replyAbandoned ch).subject = n) ∧
     (∀ i : InputId, (Event.inputEdge i).code = 14 ∧ (Event.inputEdge i).subject = i.val)) ∧
  (∀ (s : State) (ch : ChannelId) (r : Request) (s1 s0 a1 a0 : Byte), s.Waits ch r 0x38 [s1, s0, a1, a0] →
     ∃ q : Queue, q.records = (s.queue ch).records ∧ q.overflow = (s.queue ch).overflow ∧
       q.lostCount = (s.queue ch).lostCount ∧ q.alarmMask = a1 ++ a0 ∧
       (∀ k, k < 15 → q.subscription.getLsbD k = (s1 ++ s0 : Half).getLsbD k) ∧ q.subscription.getLsbD 15 = false ∧
       (q.alarm = true ↔ (∃ x ∈ q.records, q.alarmMask.getLsbD x.event.code = true) ∨
         (q.overflow = true ∧ q.alarmMask.getLsbD 15 = true)) ∧
       exec (.setSubscription ch (s1 ++ s0) (a1 ++ a0)) s = .next
         ((s.setQueue ch q).finish ch r .ok (halfBytes q.subscription ++ halfBytes q.alarmMask) .none)) ∧
  (∀ (s : State) (ch : ChannelId) (r : Request) (most spare : Byte), s.Waits ch r 0x39 [most, spare] →
     (most.toNat = 0 ∨ 8 < most.toNat →
       exec (.readEvents ch most) s = .next (s.finish ch r .badField [] .none)) ∧
     (1 ≤ most.toNat → most.toNat ≤ 8 → ∀ taken rest, (s.queue ch).records = taken ++ rest →
       taken.length = min most.toNat (s.queue ch).records.length →
       exec (.readEvents ch most) s = .next
         ((s.setQueue ch
             { s.queue ch with records := taken.map (fun x => { x with inFlight := true }) ++ rest }).finish ch r .ok
           ([if (s.queue ch).overflow then 1 else 0, BitVec.ofNat 8 (s.queue ch).lostCount,
               BitVec.ofNat 8 taken.length, 0] ++
             taken.flatMap fun x => [BitVec.ofNat 8 x.event.code, BitVec.ofNat 8 x.event.subject,
               BitVec.ofNat 8 x.count, x.firstStamp.extractLsb' 8 8, x.firstStamp.extractLsb' 0 8, 0])
           (.events taken.length (s.queue ch).lostCount))))

/-! ### The map, the edit lock and commit -/

/-- SET_ENTRY: its checks in order, with the refusal of each, and the write of the entry in normal form into the pending
bank alone (R13 to R17). That channel 1 is refused on a destination without a grant even where it writes the active
entry back is the model's reading (R16 against R154; notes/assumptions/23.md). -/
def Obligations.SetEntryDecided : Prop :=
  ∀ (s : State) (ch : ChannelId) (r : Request) (l k b0 b1 b2 b3 b4 b5 : Byte),
    s.Waits ch r 0x10 [l, k, b0, b1, b2, b3, b4, b5] →
    let x := decodeEntryRecord b0 b1 b2 b3 b4 b5
    ((7 < l.toNat ∨ 23 < k.toNat ∨ entryOf x = none) →
      exec (.setEntry ch l k x) s = .next (s.finish ch r .badField [] .none)) ∧
    ∀ (d : Place) (e : Entry), d.lane.val = l.toNat → d.slot.val = k.toNat → entryOf x = some e →
      (s.map.holder ≠ some ch → exec (.setEntry ch l k x) s = .next (s.finish ch r .noLock [] .none)) ∧
      (s.map.holder = some ch →
        ((e ≠ .unused ∧ s.Reserved d) ∨ (∃ p f, e = .direct p f ∧ s.Reserved p) →
          exec (.setEntry ch l k x) s = .next (s.finish ch r .reservedSlot [] .none)) ∧
        (¬ (e ≠ .unused ∧ s.Reserved d) → ¬ (∃ p f, e = .direct p f ∧ s.Reserved p) →
          (s.Denied ch Region.modifyPermit d →
            exec (.setEntry ch l k x) s = .next
              ((s.guardFault ch r .region (.destination d)).finish ch r .notPermitted [] .none)) ∧
          (¬ s.Denied ch Region.modifyPermit d → ∃ t, exec (.setEntry ch l k x) s = .next t ∧
            t.map.pendingBank.get d = e ∧
            (∀ q, q ≠ d → t.map.pendingBank.get q = s.map.pendingBank.get q) ∧
            t.map.activeBank = s.map.activeBank ∧ t.map.active = s.map.active ∧
            t = State.finish { s with map := s.map.setPending t.map.pendingBank } ch r .ok e.bytes .none)))

/-- CLEAR_ENTRIES: its checks in order, and the run of the pending bank made UNUSED with the count of entries that were
not (R18, R19). That channel 1 is refused without a grant even where the active entries are UNUSED is the model's
reading (R18 against R154; notes/assumptions/23.md). -/
def Obligations.ClearEntriesDecided : Prop :=
  ∀ (s : State) (ch : ChannelId) (r : Request) (l first count spare : Byte),
    s.Waits ch r 0x11 [l, first, count, spare] →
    ((7 < l.toNat ∨ 23 < first.toNat ∨ count.toNat = 0 ∨ 24 < count.toNat ∨ 24 < first.toNat + count.toNat) →
      exec (.clearEntries ch l first count) s = .next (s.finish ch r .badField [] .none)) ∧
    ∀ lane : LaneId, lane.val = l.toNat → first.toNat ≤ 23 → 1 ≤ count.toNat → first.toNat + count.toNat ≤ 24 →
      let run := slotRun lane first.toNat count.toNat
      (s.map.holder ≠ some ch →
        exec (.clearEntries ch l first count) s = .next (s.finish ch r .noLock [] .none)) ∧
      (s.map.holder = some ch →
        (∀ p, s.FirstDenied ch Region.modifyPermit run p →
          exec (.clearEntries ch l first count) s = .next
            ((s.guardFault ch r .region (.destination p)).finish ch r .notPermitted [] .none)) ∧
        ((∀ p ∈ run, ¬ s.Denied ch Region.modifyPermit p) → ∃ t, exec (.clearEntries ch l first count) s = .next t ∧
          (∀ q, q ∈ run → t.map.pendingBank.get q = .unused) ∧
          (∀ q, q ∉ run → t.map.pendingBank.get q = s.map.pendingBank.get q) ∧
          t.map.activeBank = s.map.activeBank ∧ t.map.active = s.map.active ∧
          t = State.finish { s with map := s.map.setPending t.map.pendingBank } ch r .ok
            [BitVec.ofNat 8 (run.countP fun q => decide (s.map.pendingBank.get q ≠ .unused)), 0] .none))

/-- READ_ENTRIES: its checks in order, and the reply taken from the bank that has the role (R20, R21). -/
def Obligations.ReadEntriesDecided : Prop :=
  ∀ (s : State) (ch : ChannelId) (r : Request) (bank l first count : Byte),
    s.Waits ch r 0x12 [bank, l, first, count] →
    ((1 < bank.toNat ∨ 7 < l.toNat ∨ 23 < first.toNat ∨ count.toNat = 0 ∨ 8 < count.toNat ∨
        24 < first.toNat + count.toNat) →
      exec (.readEntries ch bank l first count) s = .next (s.finish ch r .badField [] .none)) ∧
    ∀ lane : LaneId, lane.val = l.toNat → bank.toNat ≤ 1 → first.toNat ≤ 23 → 1 ≤ count.toNat → count.toNat ≤ 8 →
      first.toNat + count.toNat ≤ 24 →
      let run := slotRun lane first.toNat count.toNat
      (∀ p, s.FirstDenied ch Region.readPermit run p →
        exec (.readEntries ch bank l first count) s = .next
          ((s.guardFault ch r .region (.destination p)).finish ch r .notPermitted [] .none)) ∧
      ((∀ p ∈ run, ¬ s.Denied ch Region.readPermit p) →
        exec (.readEntries ch bank l first count) s = .next
          (s.finish ch r .ok
            ([if (s.map.active = .a) ↔ bank.toNat = 0 then 0 else 1, s.map.generation, l, first] ++
              run.flatMap fun d =>
                ((if bank.toNat = 0 then s.map.activeBank else s.map.pendingBank).get d).bytes)
            .none))

/-- Restoring the pending bank makes it equal to the active bank and changes nothing else; releasing the lock clears its
record and nothing else (R24, R26). ABANDON_EDIT counts what it discards and does both, or refuses NO_LOCK (R31).
BREAK_LOCK does both with LOCK_BROKEN, a scheduled commit of channel 1 answered CANCELLED, or refuses NO_LOCK (R32). -/
def Obligations.SessionsEnded : Prop :=
  (∀ m : ConnectionMap,
     (m.restore.pendingBank = m.activeBank ∧ m.restore.activeBank = m.activeBank ∧ m.restore.active = m.active ∧
       m.restore.generation = m.generation ∧ m.restore.session = m.session ∧ m.restore.scheduled = m.scheduled) ∧
     m.release = { m with session := none, scheduled := none } ∧
     (∀ d, m.restore.pendingBank.get d = m.restore.activeBank.get d) ∧ m.restore.differing = 0) ∧
  (∀ (s : State) (ch : ChannelId) (r : Request), s.Waits ch r 0x0A [] →
     (s.map.holder ≠ some ch → exec (.abandonEdit ch) s = .next (s.finish ch r .noLock [] .none)) ∧
     (s.map.holder = some ch →
       exec (.abandonEdit ch) s = .next
         (State.finish { s with map := s.map.restore.release } ch r .ok
           [BitVec.ofNat 8 (Place.all.countP fun d =>
             decide (s.map.pendingBank.get d ≠ s.map.activeBank.get d)), 0] .none))) ∧
  (∀ (s : State) (r : Request), s.Waits .ch0 r 0x0B [] →
     (s.map.holder = none → exec .breakLock s = .next (s.finish .ch0 r .noLock [] .none)) ∧
     (∀ h, s.map.holder = some h → s.map.scheduled = none →
       exec .breakLock s = .next
         (((State.withEvents { s with map := s.map.restore.release } [.lockBroken h])).finish .ch0 r .ok
           [if h = .ch0 then 1 else 2, 0] .none)) ∧
     (∀ q, s.map.holder = some .ch1 → s.map.scheduled = some .ch1 → s.ch1.phase = .executing q false →
       exec .breakLock s = .next
         ((State.finish (State.withEvents { s with map := s.map.restore.release } [.lockBroken .ch1]) .ch1 q .cancelled []
           .none).finish .ch0 r .ok [2, 1] .none)))

/-- OPEN_EDIT by TIMEOUT and HOLDER (R27, R28). -/
def Obligations.OpenEditDecided : Prop :=
  ∀ (s : State) (ch : ChannelId) (r : Request) (timeout spare : Byte), s.Waits ch r 0x08 [timeout, spare] →
    (1 ≤ timeout.toNat → timeout.toNat ≤ 3 →
      exec (.openEdit ch timeout) s = .next (s.finish ch r .badField [] .none)) ∧
    ∀ T : Nat, (timeout.toNat = 0 ∧ T = 32) ∨ (4 ≤ timeout.toNat ∧ T = timeout.toNat) →
      let body : List Byte :=
        [s.map.generation, if s.map.active = .a then 0 else 1, BitVec.ofNat 8 T, 0]
      (s.map.session = none →
        exec (.openEdit ch timeout) s = .next
          (State.finish { s with map := { s.map.restore with session := some ⟨ch, T, T⟩ } } ch r .ok body .none)) ∧
      (∀ e, s.map.session = some e → e.holder = ch →
        exec (.openEdit ch timeout) s = .next
          (State.finish { s with map := { s.map with session := some ⟨ch, T, T⟩ } } ch r .ok body .none)) ∧
      (∀ e, s.map.session = some e → e.holder ≠ ch →
        exec (.openEdit ch timeout) s = .next
          (s.finish ch r .locked [if e.holder = .ch0 then 1 else 2, 0] .none))

/-- COMMIT: NO_LOCK, or INVALID_MAP with the first failing entry and its reason, a guard fault where the reason is
GUARD, or the commit is scheduled and the channel stays EXECUTING (R34 to R37, R153). -/
def Obligations.CommitDecided : Prop :=
  ∀ (s : State) (ch : ChannelId) (r : Request), s.Waits ch r 0x09 [] →
    (s.map.holder ≠ some ch → exec (.commit ch) s = .next (s.finish ch r .noLock [] .none)) ∧
    (s.map.holder = some ch →
      (∀ d test, s.FirstFailure ch d test →
        exec (.commit ch) s = .next
          ((if test = 4 then s.guardFault ch r .region (.destination d) else s).finish ch r .invalidMap
            [reasonOfTest test, BitVec.ofNat 8 d.lane.val, BitVec.ofNat 8 d.slot.val, 0] .none)) ∧
      ((∀ d test, ¬ s.FailsTest ch d test) →
        exec (.commit ch) s = .next
          (State.setPhase { s with map := { s.map with scheduled := some ch } } ch (.executing r false))))

/-- The bank swap of a scheduled commit (R39, R57): both banks then hold the committed entries, the generation advances,
the lock is released, held state is reset where an entry changed its source, the committer is answered and COMMIT_DONE
raised. The row BANK_SWAP takes the swap of the boundary whose edge has come, ahead of the other units, and the frame
start then does what one does whose order begins with the MAP (the model's choice, notes/assumptions/4.md). -/
def Obligations.BankSwapTaken : Prop :=
  (∀ (s : State) (c : ChannelId) (q : Request), (s.channel c).phase = .executing q false →
     ∃ (m : ConnectionMap) (held : Grid HeldState),
       m.active = s.map.active.other ∧ m.generation = s.map.generation + 1 ∧ m.session = none ∧ m.scheduled = none ∧
       m.activeBank = s.map.pendingBank ∧ m.pendingBank = s.map.pendingBank ∧
       (∀ d, (s.map.activeBank.get d = s.map.pendingBank.get d ∨
           (s.map.activeBank.get d).KeepsSource (s.map.pendingBank.get d) → held.get d = s.efa.held.get d) ∧
         (s.map.activeBank.get d ≠ s.map.pendingBank.get d →
           ¬ (s.map.activeBank.get d).KeepsSource (s.map.pendingBank.get d) → held.get d = ⟨0, s.efa.holdLimit⟩)) ∧
       s.bankSwap c =
         (State.finish
             { s with map := m, efa := { s.efa with held := held }, work := { s.work with swapped := some c } } c q .ok
             [s.map.generation + 1, if s.map.active = .a then 1 else 0,
               BitVec.ofNat 8 (Place.all.countP fun d =>
                 decide (s.map.pendingBank.get d ≠ s.map.activeBank.get d)), 0] .none).withEvents [.commitDone c]) ∧
  (∀ (s : State) (c : ChannelId), s.Startable → s.efa.frameNo = 15 → s.map.scheduled = some c →
     s.work.mapTaken = false → ∃ t, exec .bankSwap s = .next t ∧
       t.map.generation = s.map.generation + 1 ∧ t.map.active = s.map.active.other ∧
       t.map.activeBank = s.map.pendingBank ∧ t.map.session = none ∧
       (∀ e rest, e.order = .map :: rest → exec (.egressFrameStart e) t = exec (.egressFrameStart e) s))

/-- A superframe boundary is taken by the MAP once: the swap of a scheduled commit, else the idle timer (R30, R39). The
row IDLE_EXPIRY expires the lock that has one boundary left, ahead of the other units at the boundary whose edge has
come (the order ahead is the model's choice, notes/assumptions/4.md; its stamp, notes/assumptions/10.md). -/
def Obligations.BoundaryTakenByMap : Prop :=
  (∀ s : State,
     (s.work.mapTaken = true ∨ s.efa.frameNo ≠ 0 → s.mapEvent = s) ∧
     (s.work.mapTaken = false → s.efa.frameNo = 0 →
       (∀ c, s.map.scheduled = some c →
         s.mapEvent = State.bankSwap { s with work := { s.work with mapTaken := true } } c) ∧
       (s.map.scheduled = none → s.mapEvent = State.idleTick { s with work := { s.work with mapTaken := true } }))) ∧
  ((∀ (s : State) (e : EditSession), s.map.session = some e →
     (1 < e.idleRemaining → s.idleTick =
       { s with map := { s.map with session := some { e with idleRemaining := e.idleRemaining - 1 } } }) ∧
     (e.idleRemaining ≤ 1 → s.idleTick =
       State.withEvents { s with map := s.map.restore.release } [.lockExpired e.holder])) ∧
   (∀ s : State, s.map.session = none → s.idleTick = s) ∧
   (∀ (s : State) (e : EditSession), s.Startable → s.efa.frameNo = 15 → s.map.session = some e →
     e.idleRemaining = 1 → s.map.scheduled = none → s.work.mapTaken = false →
     exec .idleExpiry s = .next
       (State.withEventsAhead
         { s with map := s.map.restore.release, work := { s.work with mapTaken := true } } [.lockExpired e.holder])))

/-! ### Egress frames -/

/-- An egress frame start advances the timebase, cuts the frame before it after the words that had left, and sends on
each enabled lane a marker with the frame number reached and the map generation after any swap (R45, R48, R53, R59). How
many words had left is an operand (notes/assumptions/12.md). It takes the event of each unit once, in an order that
begins with the operand's (notes/assumptions/6.md), with a due bank swap before the controllers' words (R54, R137), and
then composes: the MAP's, the EFA's, the timers of every group once, the inputs from EVI0 to EVI3 (R115), and each
controller's. Where a request still waits, its row is taken first (R134); where both channels' requests wait, the row of
the channel whose controller comes first in the operand's order, channel 0's where it names neither, and then the other
(notes/assumptions/5.md). -/
def Obligations.FrameStartTimebase : Prop :=
  (∀ (s : State) (e : FrameEdge), ∃ t, exec (.egressFrameStart e) s = .next t ∧
     t.efa.frameNo = s.efa.frameNo + 1 ∧ t.efa.started = true ∧
     t.efa.superframes =
       (if s.efa.frameNo = 15 ∧ s.efa.started = true then s.efa.superframes + 1 else s.efa.superframes) ∧
     (∀ l : LaneId,
       (∀ f, s.efa.lines.get l = some f → t.efa.sent.get l = (f.marker :: f.slots.toList).take e.sent) ∧
       (s.efa.lines.get l = none → t.efa.sent.get l = []) ∧
       (t.efa.enables.getLsbD l.val = true → ∃ f, t.efa.lines.get l = some f ∧
         f.marker = (0x2F71 : Half) ++ (s.efa.frameNo + 1) ++ t.map.generation.extractLsb' 0 4) ∧
       (t.efa.enables.getLsbD l.val = false → t.efa.lines.get l = none))) ∧
  (∀ (s : State) (e : FrameEdge), (∀ ch r, (s.channel ch).phase ≠ .executing r true) →
     ∃ order : List FrameUnit, order.Nodup ∧ (∀ u, u ∈ order) ∧ (e.order.Nodup → e.order <+: order) ∧
       let swapped (t : State) : State :=
         if t.efa.frameNo = 0 ∧ t.map.scheduled ≠ none ∧ t.work.mapTaken = false then t.mapEvent else t
       let sampled (t : State) (i : InputId) : State :=
         t.sampleInput i (e.pins.getLsbD i.val) (e.edgePlace.get i).val
       let event (t : State) (u : FrameUnit) : State :=
         match u with
         | .map => t.mapEvent
         | .efa => t.efaEvent
         | .psc => t.pscEvent
         | .eiu => sampled (sampled (sampled (sampled t 0) 1) 2) 3
         | .mcc0 => (swapped t).mccEvent .ch0
         | .mcc1 => (swapped t).mccEvent .ch1
       exec (.egressFrameStart e) s =
         .next (order.foldl event { s with efa := (s.efa.cut e.sent).advance }).compose) ∧
  (∀ (s : State) (e : FrameEdge) (ch : ChannelId) (r : Request) (c : Instr), (s.channel ch).phase = .executing r true →
     decodeCommand ch r.code (bodyBytes r.body) = some c →
     let controller (x : ChannelId) : FrameUnit := if x = .ch0 then .mcc0 else .mcc1
     (∀ other q, other ≠ ch → (s.channel other).phase = .executing q true →
       (∃ before after, e.order = before ++ controller ch :: after ∧ controller other ∉ before) ∨
         (ch = .ch0 ∧ .mcc0 ∉ e.order ∧ .mcc1 ∉ e.order)) →
     ∃ t, exec c s = .next t ∧ exec (.egressFrameStart e) s = exec (.egressFrameStart e) t ∧
       ∀ r, (t.channel ch).phase ≠ .executing r true) ∧
  (∀ s : State, ∃ gs : List GroupId, gs.Nodup ∧ (∀ g, g ∈ gs) ∧
     s.pscEvent = gs.foldl State.tickGroup { s with free := s.free + 1 })

/-- Every destination of an egress frame is composed from the one active bank, the one frame that each lane's store
answered at that frame start and one lane per group, with its held state (R49 to R52, R55, R56). A state with a request
that still waits is left to the taking of that request (R134). -/
def Obligations.FrameComposedWhole : Prop :=
  ∀ (s : State) (e : FrameEdge), (∀ ch r, (s.channel ch).phase ≠ .executing r true) →
    ∃ t, exec (.egressFrameStart e) s = .next t ∧ ∃ lane : GroupId → LaneId,
      (∀ g x, s.group g = some x → lane g = x.workingLane ∨ lane g = x.protectLane) ∧
      ∀ d w, t.sentWord d = some w → (∀ ch, t.place ch ≠ some d) →
        let source : Option Place :=
          match t.map.activeBank.get d with
          | .direct p _ => some p
          | .protect g k _ => (t.group g).map fun _ => ⟨lane g, k⟩
          | _ => none
        (t.map.activeBank.get d = .unused → w = 0) ∧
        (∀ c, t.map.activeBank.get d = .fixed c → w = c) ∧
        (∀ p f, source = some p → (s.lane p.lane).answer = some f →
          w = f.get p.slot ∧ t.efa.held.get d = ⟨w, 0⟩) ∧
        (∀ f, ((∃ p, t.map.activeBank.get d = .direct p f) ∨ ∃ g k, t.map.activeBank.get d = .protect g k f) →
          (∀ p, source = some p → (s.lane p.lane).answer = none) →
          (f = .silence → w = 0) ∧ (∀ c, f = .pattern c → w = c) ∧
          (f = .hold → (w = 0 ∧ t.efa.holdLimit ≤ (t.efa.held.get d).count) ∨
            (w = (t.efa.held.get d).value ∧ 0 < (t.efa.held.get d).count ∧
              (t.efa.held.get d).count ≤ t.efa.holdLimit)))

/-- The take from each store at a frame start with the group snapshot (R49, R50, R75), with a LANE_SLIP for each repeat
slip in an open order (R165, notes/assumptions/7.md), and the slot word of a destination by the cases of R52 with its
held state after (R55, R56). The composition puts each slot word into the frame of its lane and keeps the held state
beside it; a disabled lane has no frame and its held state stays (R52, R59). -/
def Obligations.TakeAndSlotWords : Prop :=
  (∀ s : State,
     (∀ l, (s.efaEvent.work.taken.get l) = (s.lane l).answer) ∧
     (∀ l, (s.lane l).isAligned = false → s.efaEvent.lane l = s.lane l) ∧
     (∀ l, (s.lane l).isAligned = true →
       (∀ f rest, (s.lane l).unread = f :: rest →
         s.efaEvent.lane l = { s.lane l with unread := rest, lastRead := some f }) ∧
       (∀ f, (s.lane l).unread = [] → (s.lane l).lastRead = some f →
         s.efaEvent.lane l = { s.lane l with
           counters := { (s.lane l).counters with
             repeatSlips := min 65535 ((s.lane l).counters.repeatSlips + 1) } }) ∧
       ((s.lane l).unread = [] → (s.lane l).lastRead = none → s.efaEvent.lane l = s.lane l)) ∧
     (∀ g, s.efaEvent.work.snapshot.get g =
       (s.group g).map fun x => if x.selected = .working then x.workingLane else x.protectLane) ∧
     s.efaEvent.groups = s.groups ∧ s.efaEvent.map = s.map ∧ s.efaEvent.efa = s.efa ∧
     ∃ slipped : List LaneId, slipped.Nodup ∧
       (∀ l, l ∈ slipped ↔ (s.lane l).isAligned = true ∧ (s.lane l).unread = [] ∧ (s.lane l).lastRead ≠ none) ∧
       ∀ ch, s.efaEvent.queue ch = s.queueAfter s.efa.superframes (slipped.map .laneSlip) ch) ∧
  (∀ (s : State) (d : Place),
     (∀ ch w, s.place ch = some d → s.work.word ch = some w → (∀ c, c ≠ ch → s.place c ≠ some d) →
       s.slotWord d = (w, s.efa.held.get d)) ∧
     ((∀ ch, s.place ch ≠ some d) →
       let h := s.efa.held.get d
       (s.map.activeBank.get d = .unused → s.slotWord d = (0, h)) ∧
       (∀ c, s.map.activeBank.get d = .fixed c → s.slotWord d = (c, h)) ∧
       ∀ f p, (s.map.activeBank.get d = .direct p f ∨
           ∃ g, s.map.activeBank.get d = .protect g p.slot f ∧ s.work.snapshot.get g = some p.lane) →
         (∀ frame, s.work.taken.get p.lane = some frame →
           s.slotWord d = (frame.get p.slot, ⟨frame.get p.slot, 0⟩)) ∧
         (s.work.taken.get p.lane = none →
           (f = .silence → s.slotWord d = (0, h)) ∧ (∀ c, f = .pattern c → s.slotWord d = (c, h)) ∧
           (f = .hold → h.count < s.efa.holdLimit → s.slotWord d = (h.value, ⟨h.value, h.count + 1⟩)) ∧
           (f = .hold → s.efa.holdLimit ≤ h.count → s.slotWord d = (0, h))))) ∧
  (∀ (s : State) (d : Place),
     (s.efa.enables.getLsbD d.lane.val = true →
       s.compose.sentWord d = some (s.slotWord d).1 ∧ s.compose.efa.held.get d = (s.slotWord d).2) ∧
     (s.efa.enables.getLsbD d.lane.val = false →
       s.compose.efa.lines.get d.lane = none ∧ s.compose.efa.held.get d = s.efa.held.get d) ∧
     s.compose = { s with
       efa := { s.efa with lines := s.compose.efa.lines, held := s.compose.efa.held }, work := FrameWork.empty })

/-- SET_EGRESS: its checks in order, and the new enables and hold limit with the hold counts adjusted (R58, R60). -/
def Obligations.SetEgressDecided : Prop :=
  ∀ (s : State) (r : Request) (enables h1 h0 spare : Byte), s.Waits .ch0 r 0x1A [enables, h1, h0, spare] →
    let limit := (h1 ++ h0 : Half).toNat
    (limit = 0 ∨ 1023 < limit →
      exec (.setEgress enables (h1 ++ h0)) s = .next (s.finish .ch0 r .badField [] .none)) ∧
    (1 ≤ limit → limit ≤ 1023 →
      ((∃ ch p, s.place ch = some p ∧ enables.getLsbD p.lane.val = false) →
        exec (.setEgress enables (h1 ++ h0)) s = .next (s.finish .ch0 r .inUse [] .none)) ∧
      ((∀ ch p, s.place ch = some p → enables.getLsbD p.lane.val = true) → ∃ held : Grid HeldState,
        (∀ d, (held.get d).value = (s.efa.held.get d).value ∧
          (limit = s.efa.holdLimit → (held.get d).count = (s.efa.held.get d).count) ∧
          (limit ≠ s.efa.holdLimit → (s.efa.held.get d).count = s.efa.holdLimit → (held.get d).count = limit) ∧
          (limit ≠ s.efa.holdLimit → (s.efa.held.get d).count ≠ s.efa.holdLimit →
            (held.get d).count = min (s.efa.held.get d).count limit)) ∧
        exec (.setEgress enables (h1 ++ h0)) s = .next
          (State.finish
            { s with efa := { s.efa with enables := enables, holdLimit := limit, held := held } } .ch0 r .ok
            [enables, h1, h0, 0] .none)))

/-! ### Ingress lanes -/

/-- Word arrival in OFF, HUNT and CONFIRM (R63 to R66): OFF ignores the word, HUNT takes a matching word as candidate,
CONFIRM passes 24 words and then judges one, the second good one declaring the lane ALIGNED with LANE_ALIGNED. The
lane's occurrence comes before the report to the groups (notes/assumptions/11.md). -/
def Obligations.AcquisitionWords : Prop :=
  ∀ (s : State) (l : LaneId) (w : Word),
    ((s.lane l).alignment = .off → exec (.ingressWordArrival l w) s = .next s) ∧
    ((s.lane l).alignment = .hunt →
      (w.extractLsb' 8 16 ≠ 0x2F71 → exec (.ingressWordArrival l w) s = .next s) ∧
      (w.extractLsb' 8 16 = 0x2F71 → exec (.ingressWordArrival l w) s = .next
        (s.setLane l { s.lane l with alignment := .confirm 0 (w.extractLsb' 4 4 + 1) false }))) ∧
    (∀ passed number one, (s.lane l).alignment = .confirm passed number one →
      (passed < 24 → exec (.ingressWordArrival l w) s = .next
        (s.setLane l { s.lane l with alignment := .confirm (passed + 1) number one })) ∧
      (24 ≤ passed →
        (¬ (w.extractLsb' 8 16 = 0x2F71 ∧ w.extractLsb' 4 4 = number) →
          exec (.ingressWordArrival l w) s = .next (s.setLane l { s.lane l with alignment := .hunt })) ∧
        (w.extractLsb' 8 16 = 0x2F71 → w.extractLsb' 4 4 = number → one = false →
          exec (.ingressWordArrival l w) s = .next
            (s.setLane l { s.lane l with alignment := .confirm 0 (number + 1) true })) ∧
        (w.extractLsb' 8 16 = 0x2F71 → w.extractLsb' 4 4 = number → one = true →
          exec (.ingressWordArrival l w) s = .next
            ((State.withEvents (s.setLane l
                { s.lane l with alignment := .aligned ⟨number + 1, 0, ⟨0, 0⟩, false, []⟩ })
              [.laneAligned l]).reportLanes))))

/-- A marker position in ALIGNED: good and bad positions are counted, the expected number advances, the slots of the
next frame begin, and the 256th position ends the degrade window with its judgement (R67, R70, R71); the fourth
consecutive bad position loses alignment instead, with both counters, HUNT, an empty store, LANE_LOST and the reports
(R68, R69). DEGRADE_WINDOW_END and LOSS_OF_ALIGNMENT are those arrivals when they are due (notes/assumptions/3.md), and
the lane's occurrence comes before the report (11.md). The loss is reported to each enabled channel whose location lies
on the lane, and to no other (R69, R131). -/
def Obligations.MarkerPositionJudged : Prop :=
  (∀ (s : State) (l : LaneId) (w : Word) (t : Tracking), (s.lane l).alignment = .aligned t → 24 ≤ t.slots.length →
     ∀ good : Bool, (good = true ↔ w.extractLsb' 8 16 = 0x2F71 ∧ w.extractLsb' 4 4 = t.number) →
     (good = true ∨ t.consecutiveBad < 3) →
     let x := s.lane l
     let bad := t.window.bad + if good then 0 else 1
     let counters := if good then x.counters else
       { x.counters with badMarkers := min 65535 (x.counters.badMarkers + 1) }
     let run := if good then 0 else t.consecutiveBad + 1
     (t.window.length + 1 < 256 →
       exec (.ingressWordArrival l w) s = .next (s.setLane l { x with
         alignment := .aligned ⟨t.number + 1, run, ⟨t.window.length + 1, bad⟩, t.degraded, []⟩
         counters := counters })) ∧
     (255 ≤ t.window.length → exec (.degradeWindowEnd l w) s = exec (.ingressWordArrival l w) s) ∧
     (255 ≤ t.window.length → ∀ after : Bool,
       (after = true ↔
         (x.threshold = 0 ∧ t.degraded = true) ∨
         (x.threshold ≠ 0 ∧ t.degraded = false ∧ x.threshold ≤ bad) ∨
         (x.threshold ≠ 0 ∧ t.degraded = true ∧ x.threshold / 2 < bad)) →
       let s1 := s.setLane l { x with
         alignment := .aligned ⟨t.number + 1, run, ⟨0, 0⟩, after, []⟩, counters := counters }
       (after = t.degraded → exec (.ingressWordArrival l w) s = .next s1) ∧
       (after = true → t.degraded = false →
         exec (.ingressWordArrival l w) s = .next (s1.withEvents [.laneDegradeSet l]).reportLanes) ∧
       (after = false → t.degraded = true →
         exec (.ingressWordArrival l w) s = .next (s1.withEvents [.laneDegradeClear l]).reportLanes))) ∧
  (∀ (s : State) (l : LaneId) (w : Word) (t : Tracking), (s.lane l).alignment = .aligned t → 24 ≤ t.slots.length →
     3 ≤ t.consecutiveBad → ¬ (w.extractLsb' 8 16 = 0x2F71 ∧ w.extractLsb' 4 4 = t.number) →
     let x := s.lane l
     let s1 := s.setLane l
       ⟨.hunt, x.threshold, [], none, { x.counters with
         badMarkers := min 65535 (x.counters.badMarkers + 1)
         alignLosses := min 65535 (x.counters.alignLosses + 1) }⟩
     exec (.lossOfAlignment l w) s = .next ((s1.withEvents [.laneLost l]).reportLost l).reportLanes ∧
     exec (.ingressWordArrival l w) s = exec (.lossOfAlignment l w) s) ∧
  (∀ (s : State) (l : LaneId), s.reportLost l =
     { s with
       ch0 := if s.strapLane = l then (s.lostAlignment .ch0).ch0 else s.ch0
       ch1 := if s.operatorPlace.map Place.lane = some l then (s.lostAlignment .ch1).ch1 else s.ch1 })

/-- A slot word in ALIGNED joins its frame and is handed to the channel whose ingress management location it is (R77).
At slot 23 the frame is completed in the same event, in an order that the model leaves open (notes/assumptions/8.md). -/
def Obligations.SlotWordHandedOff : Prop :=
  ∀ (s : State) (l : LaneId) (w : Word) (t : Tracking) (k : SlotId), (s.lane l).alignment = .aligned t →
    t.slots.length = k.val →
    let s1 := s.setLane l { s.lane l with alignment := .aligned { t with slots := t.slots ++ [w] } }
    (k.val < 23 →
      (∀ ch, s.place ch = some ⟨l, k⟩ → (∀ c, c ≠ ch → s.place c ≠ some ⟨l, k⟩) →
        exec (.ingressWordArrival l w) s = .next (s1.takeWord ch w)) ∧
      ((∀ ch, s.place ch ≠ some ⟨l, k⟩) → exec (.ingressWordArrival l w) s = .next s1)) ∧
    (k.val = 23 →
      ((∀ ch, s.place ch ≠ some ⟨l, k⟩) → ∃ n, exec (.ingressWordArrival l w) s = .next
        (State.completeFrame { s1 with free := n } l (Vector.ofFn fun i => (t.slots ++ [w]).getD i.val 0))) ∧
      (∀ ch, s.place ch = some ⟨l, k⟩ → (∀ c, c ≠ ch → s.place c ≠ some ⟨l, k⟩) → ∃ n,
        exec (.ingressWordArrival l w) s = .next
          (State.completeFrame (State.takeWord { s1 with free := n } ch w) l
            (Vector.ofFn fun i => (t.slots ++ [w]).getD i.val 0)) ∨
        exec (.ingressWordArrival l w) s = .next
          ((State.completeFrame { s1 with free := n } l
            (Vector.ofFn fun i => (t.slots ++ [w]).getD i.val 0)).takeWord ch w)))

/-- R73 and R74: a completed frame joins the unread list; where the list holds two, the oldest is discarded first,
DROP_SLIPS rises and LANE_SLIP is raised; the last-read frame is not touched. -/
def Obligations.CompletedFrameStored : Prop :=
  ∀ (s : State) (l : LaneId) (f : Frame),
    ((s.lane l).unread.length < 2 →
      s.completeFrame l f = s.setLane l { s.lane l with unread := (s.lane l).unread ++ [f] }) ∧
    (∀ oldest kept, (s.lane l).unread = [oldest, kept] →
      s.completeFrame l f =
        (s.setLane l { s.lane l with
          unread := [kept, f]
          counters := { (s.lane l).counters with
            dropSlips := min 65535 ((s.lane l).counters.dropSlips + 1) } }).withEvents [.laneSlip l])

/-- The report of the lanes reaches every configured group whose conditions it changes, and no other: each is re-decided
from its record with the new conditions (R69, R87, R89), and the occurrences of those groups, REQUEST_DROPPED and then
the switch of each (notes/assumptions/11.md), join the queues group by group in an open order (R91, R104, R165;
notes/assumptions/7.md). Nothing else changes. -/
def Obligations.LaneReportsReachGroups : Prop :=
  ∀ s : State,
    let now (x : Group) : Conditions :=
      ⟨!(s.lane x.workingLane).isAligned, !(s.lane x.protectLane).isAligned, (s.lane x.workingLane).isDegraded,
        (s.lane x.protectLane).isDegraded⟩
    let occurrences (g : GroupId) : List Event :=
      match s.group g with
      | some x =>
        let y : Group := { x with conditions := now x }
        (if y.mustDrop = true then [.requestDropped g] else []) ++
          (if y.selected = .working ∧ y.redecide.selected = .protect then [.groupToProtect g] else []) ++
          (if y.selected = .protect ∧ y.redecide.selected = .working then [.groupToWorking g] else [])
      | none => []
    (∀ g, s.group g = none → s.reportLanes.group g = none) ∧
    (∀ g x, s.group g = some x →
      (x.conditions = now x → s.reportLanes.group g = some x) ∧
      (x.conditions ≠ now x → s.reportLanes.group g = some ({ x with conditions := now x }.redecide))) ∧
    (∃ gs : List GroupId, gs.Nodup ∧ (∀ g, g ∈ gs ↔ ∃ x, s.group g = some x ∧ x.conditions ≠ now x) ∧
      ∀ ch, s.reportLanes.queue ch = s.queueAfter s.efa.superframes (gs.flatMap occurrences) ch) ∧
    s.reportLanes.lanes = s.lanes ∧ s.reportLanes.map = s.map ∧ s.reportLanes.efa = s.efa ∧
    s.reportLanes.inputs = s.inputs ∧ s.reportLanes.ch0 = s.ch0 ∧ s.reportLanes.ch1 = s.ch1 ∧
    s.reportLanes.guard = s.guard ∧ s.reportLanes.strapLane = s.strapLane ∧
    s.reportLanes.operatorPlace = s.operatorPlace ∧ s.reportLanes.work = s.work ∧
    s.reportLanes.pending = s.pending

/-- SET_LANE: its checks in order, and on a lane that is not ALIGNED its effect (R64, R72, R80, R81). An occurrence of
the lane comes before the report to the groups (notes/assumptions/11.md). -/
def Obligations.SetLaneDecided : Prop :=
  ∀ (s : State) (r : Request) (l enable threshold spare : Byte), s.Waits .ch0 r 0x18 [l, enable, threshold, spare] →
    ((7 < l.toNat ∨ 1 < enable.toNat ∨ 63 < threshold.toNat) →
      exec (.setLane l enable threshold) s = .next (s.finish .ch0 r .badField [] .none)) ∧
    ∀ lane : LaneId, lane.val = l.toNat → enable.toNat ≤ 1 → threshold.toNat ≤ 63 →
      (enable = 0 → (∃ ch p, s.place ch = some p ∧ p.lane = lane) →
        exec (.setLane l enable threshold) s = .next (s.finish .ch0 r .inUse [] .none)) ∧
      ((enable = 1 ∨ ∀ ch p, s.place ch = some p → p.lane ≠ lane) →
        (∀ t, (s.lane lane).alignment = .aligned t → enable = 1 →
          let cleared := decide (threshold = 0 ∧ (s.lane lane).threshold ≠ 0) && t.degraded
          let s1 := s.setLane lane { s.lane lane with
            threshold := threshold.toNat
            alignment := .aligned { t with degraded := t.degraded && !cleared } }
          exec (.setLane l enable threshold) s = .next
            ((if cleared then (s1.withEvents [.laneDegradeClear lane]).reportLanes else s1).finish .ch0 r .ok
              [l, 1, threshold, 3] .none)) ∧
        (∀ t, (s.lane lane).alignment = .aligned t → enable = 0 → ∃ u,
          exec (.setLane l enable threshold) s = .next (State.finish u .ch0 r .ok [l, 0, threshold, 0] .none) ∧
          u.lane lane = ⟨.off, threshold.toNat, [], none, (s.lane lane).counters⟩ ∧
          (∀ m, m ≠ lane → u.lane m = s.lane m) ∧
          u = { (State.withEvents (s.setLane lane ⟨.off, (s.lane lane).threshold, [], none, (s.lane lane).counters⟩)
              [.laneLost lane]).reportLanes with lanes := u.lanes }) ∧
        ((∀ t, (s.lane lane).alignment ≠ .aligned t) → ∃ a : Sys2Proof.Machine.Alignment,
          (enable = 1 → a = if (s.lane lane).alignment = .off then .hunt else (s.lane lane).alignment) ∧
          (enable = 0 → a = .off) ∧ ∃ u : Lane,
          (enable = 1 → u = { s.lane lane with alignment := a, threshold := threshold.toNat }) ∧
          (enable = 0 → u = ⟨.off, threshold.toNat, [], none, (s.lane lane).counters⟩) ∧
          exec (.setLane l enable threshold) s = .next
            ((s.setLane lane u).finish .ch0 r .ok [l, enable, threshold, BitVec.ofNat 8 a.code] .none)))

/-- READ_LANE and READ_CHANNEL: BAD_FIELD, SUPERVISOR_ONLY for a clear that channel 1 may not ask for, or the reply,
with the reduction deferred where CLEAR is 1 (R82, R83, R142). Lane and channel STATE by the codes of 10.5. -/
def Obligations.ReadAndClearDecided : Prop :=
  ((Sys2Proof.Machine.Alignment.off.code = 0 ∧ Sys2Proof.Machine.Alignment.hunt.code = 1 ∧
       (∀ n e g, (Sys2Proof.Machine.Alignment.confirm n e g).code = 2) ∧
       ∀ t, (Sys2Proof.Machine.Alignment.aligned t).code = 3) ∧
     Phase.off.code = 0 ∧ Phase.idle.code = 1 ∧ (∀ r, (Phase.receiving r).code = 2) ∧
     (∀ r w, (Phase.executing r w).code = 3) ∧ (∀ k, (Phase.replying k).code = 4) ∧
     ∀ n, (Phase.awaitAck n).code = 5) ∧
  (∀ (s : State) (ch : ChannelId) (r : Request) (l clear : Byte), s.Waits ch r 0x19 [l, clear] →
     ((7 < l.toNat ∨ 1 < clear.toNat) →
       exec (.readLane ch l clear) s = .next (s.finish ch r .badField [] .none)) ∧
     ∀ lane : LaneId, lane.val = l.toNat →
       (clear = 1 → ch = .ch1 → exec (.readLane ch l clear) s = .next
         ((s.guardFault ch r .supervisor .none).finish ch r .supervisorOnly [] .none)) ∧
       (clear.toNat ≤ 1 → ¬ (clear = 1 ∧ ch = .ch1) →
         let x := s.lane lane
         exec (.readLane ch l clear) s = .next
           (s.finish ch r .ok
             ([l, BitVec.ofNat 8 x.alignment.code, if x.isDegraded then 1 else 0, BitVec.ofNat 8 x.threshold,
                 BitVec.ofNat 8 x.unread.length, if x.lastRead = none then 0 else 1] ++
               halfBytes (BitVec.ofNat 16 x.counters.badMarkers) ++ halfBytes (BitVec.ofNat 16 x.counters.alignLosses) ++
               halfBytes (BitVec.ofNat 16 x.counters.dropSlips) ++ halfBytes (BitVec.ofNat 16 x.counters.repeatSlips))
             (if clear = 1 then .lane lane x.counters else .none)))) ∧
  (∀ (s : State) (ch : ChannelId) (r : Request) (c clear : Byte), s.Waits ch r 0x02 [c, clear] →
     ((1 < c.toNat ∨ 1 < clear.toNat) →
       exec (.readChannel ch c clear) s = .next (s.finish ch r .badField [] .none)) ∧
     (ch = .ch1 → c = 0 → clear = 1 → exec (.readChannel ch c clear) s = .next
       ((s.guardFault ch r .supervisor .none).finish ch r .supervisorOnly [] .none)) ∧
     ∀ k : ChannelId, (k = .ch0 ∧ c = 0) ∨ (k = .ch1 ∧ c = 1) → clear.toNat ≤ 1 → ¬ (ch = .ch1 ∧ c = 0 ∧ clear = 1) →
       let x := s.channel k
       let place : List Byte :=
         match s.place k with
         | some p => [1, BitVec.ofNat 8 p.lane.val, BitVec.ofNat 8 p.slot.val]
         | none => [0, 0, 0]
       let stored : List Byte :=
         match x.stored with
         | some p => [if p.acked then 2 else 1, p.seq.zeroExtend 8]
         | none => [0, 0]
       exec (.readChannel ch c clear) s = .next
         (s.finish ch r .ok
           ([c] ++ place ++ [BitVec.ofNat 8 x.replyHold, BitVec.ofNat 8 x.phase.code] ++ stored ++
             [x.counters.checkErrors, x.counters.truncated, x.counters.malformed, x.counters.busyDiscards,
               x.counters.duplicates, x.counters.retransmits, x.counters.abandoned].flatMap
                 fun n => halfBytes (BitVec.ofNat 16 n))
           (if clear = 1 then .channel k x.counters else .none)))

/-! ### Protection groups -/

/-- R88 and R101: which items are present, and the ranks of items, kinds of request and the group as a whole; the top
item is the present item of lowest rank number, and a request is outranked exactly by a present item of a lower rank
number than its own: LOCKOUT by nothing, FORCE by LOCKOUT and SF_P, a manual request by any item of rank 1 to 6. A
MANUAL_P in P_WTR or P_IDLE is accepted without a switch. -/
def Obligations.OutrankedByItems : Prop :=
  ∀ x : Group,
    ((x.present .lockout = true ↔ (∃ o, x.standing = some ⟨.lockout, o⟩) ∨ x.inputLockout = true) ∧
      (x.present .force = true ↔ ∃ o, x.standing = some ⟨.force, o⟩) ∧
      (x.present .manual = true ↔ ∃ o, x.standing = some ⟨.manualP, o⟩ ∨ x.standing = some ⟨.manualW, o⟩) ∧
      x.present .sfP = x.conditions.sfP ∧ x.present .sfW = x.conditions.sfW ∧ x.present .sdP = x.conditions.sdP ∧
      x.present .sdW = x.conditions.sdW) ∧
    (∀ i, x.topItem = some i ↔ x.present i = true ∧ ∀ j, x.present j = true → i.rank ≤ j.rank) ∧
    (x.topItem = none ↔ ∀ j, x.present j = false) ∧
    (Item.lockout.rank = 1 ∧ Item.sfP.rank = 2 ∧ Item.force.rank = 3 ∧ Item.sfW.rank = 4 ∧ Item.sdP.rank = 5 ∧
      Item.sdW.rank = 6 ∧ Item.manual.rank = 7) ∧
    (RequestKind.lockout.rank = 1 ∧ RequestKind.force.rank = 3 ∧ RequestKind.manualP.rank = 7 ∧
      RequestKind.manualW.rank = 7) ∧
    ((∀ i, x.topItem = some i → x.topRank = i.rank) ∧
      (x.topItem = none → x.topRank = if x.state = .pWtr then 8 else if x.state = .pIdle then 9 else 10)) ∧
    (∀ k, x.outranks k = true ↔ ∃ i, x.present i = true ∧ i.rank < k.rank) ∧
    x.outranks .lockout = false ∧
    (x.outranks .force = true ↔ x.present .lockout = true ∨ x.present .sfP = true) ∧
    (∀ k, k = .manualP ∨ k = .manualW →
      (x.outranks k = true ↔ x.present .lockout = true ∨ x.present .sfP = true ∨ x.present .force = true ∨
        x.present .sfW = true ∨ x.present .sdP = true ∨ x.present .sdW = true)) ∧
    (∀ o, x.topItem = none → x.state = .pWtr ∨ x.state = .pIdle → x.selected = .protect →
      let y := { x with standing := some ⟨.manualP, o⟩ }.redecide
      x.outranks .manualP = false ∧ y.state = .pManual ∧ y.selected = .protect ∧ y.switchCount = x.switchCount ∧
        y.standing = some ⟨.manualP, o⟩)

/-- A re-decision of a group: the drop of a manual request (R104), the new state by the top item (R89), by the state
before where no item is present (R90), the timers, and the switch (R91, R93, R95 to R98); the record is replaced, and
REQUEST_DROPPED and then the switch are raised (R165). REQUEST_DROPPED first is the model's reading
(notes/assumptions/11.md), and so is that P_WTR of a non-revertive group and P_IDLE of a revertive one keep their state
with no item, which R90 says does not arise (17.md). -/
def Obligations.RedecisionTable : Prop :=
  (∀ x : Group,
     (x.mustDrop = true ↔ x.present .manual = true ∧ ∃ i, x.present i = true ∧ i.rank < 7) ∧
     (x.mustDrop = true → x.redecide = { x with standing := none }.redecide ∧ x.redecide.standing = none) ∧
     (x.mustDrop = false →
       let y := x.redecide
       let moved (st : GroupState) (holdOff wtr : Option Nat) : Prop :=
         y.state = st ∧ y.holdOffRemaining = holdOff ∧ y.wtrRemaining = wtr
       (x.topItem = some .lockout → moved .wLockout none none) ∧
       (x.topItem = some .sfP → moved .wSfP none none) ∧
       (x.topItem = some .force → moved .pForce none none) ∧
       (x.topItem = some .sdP → moved .wSdP none none) ∧
       (x.topItem = some .manual → x.standingKind = some .manualP → moved .pManual none none) ∧
       (x.topItem = some .manual → x.standingKind ≠ some .manualP → moved .wManual none none) ∧
       (∀ st, (x.topItem = some .sfW ∧ st = .pSf) ∨ (x.topItem = some .sdW ∧ st = .pSd) →
         (x.selected = .protect → moved st none none) ∧
         (x.selected = .working →
           (∀ n, x.holdOffRemaining = some n → moved .wIdle (some n) none) ∧
           (x.holdOffRemaining = none → x.holdOff = 0 → moved st none none) ∧
           (x.holdOffRemaining = none → 0 < x.holdOff → moved .wIdle (some x.holdOff) none))) ∧
       (x.topItem = none →
         (x.state.selection = .working → moved .wIdle none none) ∧
         (x.state = .pSf ∨ x.state = .pSd →
           (x.revertive = true → moved .pWtr none (some x.wtrPeriod)) ∧
           (x.revertive = false → moved .pIdle none none)) ∧
         (x.state = .pForce ∨ x.state = .pManual →
           (x.revertive = true → moved .wIdle none none) ∧ (x.revertive = false → moved .pIdle none none)) ∧
         (x.state = .pWtr → moved .pWtr none x.wtrRemaining) ∧ (x.state = .pIdle → moved .pIdle none none)) ∧
       y.selected = y.state.selection ∧
       y.switchCount = (if y.selected = x.selected then x.switchCount else min 65535 (x.switchCount + 1)) ∧
       y = { x with
         state := y.state, selected := y.selected, holdOffRemaining := y.holdOffRemaining
         wtrRemaining := y.wtrRemaining, switchCount := y.switchCount })) ∧
  (∀ (s : State) (g : GroupId) (x : Group),
     s.redecide g x = State.withEvents (s.setGroup g (some x.redecide))
       ((if x.mustDrop = true then [.requestDropped g] else []) ++
         (if x.selected = .working ∧ x.redecide.selected = .protect then [.groupToProtect g] else []) ++
         (if x.selected = .protect ∧ x.redecide.selected = .working then [.groupToWorking g] else [])))

/-- GROUP_REQUEST: its six checks in order; an accepted LOCKOUT, FORCE, MANUAL_P or MANUAL_W is recorded with its origin
and the group re-decided, an accepted CLEAR removes the standing request and re-decides the group, and changes nothing
where none stands (R100, R102, R103, R106, R155). A KIND that names no kind is BAD_FIELD, taken under the row of CLEAR
(the model's choice, notes/assumptions/13.md). KIND, STATE and SELECTED by the codes of 10.5. -/
def Obligations.GroupRequestDecided : Prop :=
  ((RequestKind.lockout.code = 1 ∧ RequestKind.force.code = 2 ∧ RequestKind.manualP.code = 3 ∧
       RequestKind.manualW.code = 4) ∧
     (GroupState.wIdle.code = 1 ∧ GroupState.wLockout.code = 2 ∧ GroupState.wSfP.code = 3 ∧ GroupState.wSdP.code = 4 ∧
       GroupState.wManual.code = 5 ∧ GroupState.pForce.code = 6 ∧ GroupState.pSf.code = 7 ∧ GroupState.pSd.code = 8 ∧
       GroupState.pManual.code = 9 ∧ GroupState.pWtr.code = 10 ∧ GroupState.pIdle.code = 11) ∧
     Selection.working.code = 0 ∧ Selection.protect.code = 1) ∧
  (∀ (s : State) (ch : ChannelId) (r : Request) (group : Byte) (k : RequestKind),
     s.Waits ch r 0x22 [group, BitVec.ofNat 8 k.code] →
     (15 < group.toNat → exec (k.command ch group) s = .next (s.finish ch r .badField [] .none)) ∧
     ∀ g : GroupId, g.val = group.toNat →
       (ch = .ch1 → k = .lockout ∨ k = .force →
         exec (k.command ch group) s = .next
           ((s.guardFault ch r .supervisor (.group g)).finish ch r .supervisorOnly [] .none)) ∧
       (¬ (ch = .ch1 ∧ (k = .lockout ∨ k = .force)) →
         (s.group g = none → exec (k.command ch group) s = .next (s.finish ch r .notConfigured [] .none)) ∧
         ∀ x, s.group g = some x →
           let body (y : Group) : List Byte :=
             [group, BitVec.ofNat 8 y.state.code, BitVec.ofNat 8 y.selected.code, BitVec.ofNat 8 y.topRank]
           let foreign : Prop := ch = .ch1 ∧ ∃ q, x.standing = some ⟨q, .channel .ch0⟩
           (ch = .ch1 → x.operatorAccess = false →
             exec (k.command ch group) s = .next
               ((s.guardFault ch r .groupAccess (.group g)).finish ch r .notPermitted [] .none)) ∧
           (¬ (ch = .ch1 ∧ x.operatorAccess = false) →
             (x.outranks k = true → exec (k.command ch group) s = .next (s.finish ch r .outranked (body x) .none)) ∧
             (x.outranks k = false → foreign →
               exec (k.command ch group) s = .next
                 ((s.guardFault ch r .origin (.group g)).finish ch r .notPermitted [] .none)) ∧
             (x.outranks k = false → ¬ foreign →
               let y := { x with standing := some ⟨k, .channel ch⟩ }.redecide
               y.standing = some ⟨k, .channel ch⟩ ∧
               exec (k.command ch group) s = .next
                 ((s.redecide g { x with standing := some ⟨k, .channel ch⟩ }).finish ch r .ok (body y) .none))))) ∧
  (∀ (s : State) (ch : ChannelId) (r : Request) (group kind : Byte), s.Waits ch r 0x22 [group, kind] →
     kind.toNat = 0 ∨ 5 < kind.toNat →
     exec (.groupRequestClear ch group) s = .next (s.finish ch r .badField [] .none)) ∧
  (∀ (s : State) (ch : ChannelId) (r : Request) (group : Byte), s.Waits ch r 0x22 [group, 5] →
     (15 < group.toNat → exec (.groupRequestClear ch group) s = .next (s.finish ch r .badField [] .none)) ∧
     ∀ g : GroupId, g.val = group.toNat →
       (s.group g = none → exec (.groupRequestClear ch group) s = .next (s.finish ch r .notConfigured [] .none)) ∧
       ∀ x, s.group g = some x →
         let body (y : Group) : List Byte :=
           [group, BitVec.ofNat 8 y.state.code, BitVec.ofNat 8 y.selected.code, BitVec.ofNat 8 y.topRank]
         let foreign : Prop := ch = .ch1 ∧ ∃ q, x.standing = some ⟨q, .channel .ch0⟩
         (ch = .ch1 → x.operatorAccess = false →
           exec (.groupRequestClear ch group) s = .next
             ((s.guardFault ch r .groupAccess (.group g)).finish ch r .notPermitted [] .none)) ∧
         (¬ (ch = .ch1 ∧ x.operatorAccess = false) →
           (foreign →
             exec (.groupRequestClear ch group) s = .next
               ((s.guardFault ch r .origin (.group g)).finish ch r .notPermitted [] .none)) ∧
           (¬ foreign → x.standing = none →
             exec (.groupRequestClear ch group) s = .next (s.finish ch r .ok (body x) .none)) ∧
           (¬ foreign → x.standing ≠ none →
             exec (.groupRequestClear ch group) s = .next
               ((s.redecide g { x with standing := none }).finish ch r .ok
                 (body { x with standing := none }.redecide) .none))))

/-- CONFIG_GROUP: its checks in order, the configuring of an OFF group with its first decision, and the change of a
configured one (R108 to R110). DELETE_GROUP: its checks in order, and the group put in OFF with no event (R111). -/
def Obligations.GroupConfiguration : Prop :=
  (∀ (s : State) (r : Request) (group w p rev ho wtr acc spare : Byte),
     s.Waits .ch0 r 0x20 [group, w, p, rev, ho, wtr, acc, spare] →
     let i : Instr := .configGroup group w p rev ho wtr acc
     let period : Nat := if wtr = 0 then 30 else wtr.toNat
     let body (y : Group) : List Byte :=
       [group, BitVec.ofNat 8 y.state.code, BitVec.ofNat 8 y.selected.code, BitVec.ofNat 8 y.topRank]
     ((15 < group.toNat ∨ 7 < w.toNat ∨ 7 < p.toNat ∨ w = p ∨ 1 < rev.toNat ∨ 1 < acc.toNat ∨ 31 < ho.toNat) →
       exec i s = .next (s.finish .ch0 r .badField [] .none)) ∧
     ∀ (g : GroupId) (wl pl : LaneId), g.val = group.toNat → wl.val = w.toNat → pl.val = p.toNat → w ≠ p →
       rev.toNat ≤ 1 → acc.toNat ≤ 1 → ho.toNat ≤ 31 →
       (∀ x, s.group g = some x →
         (x.workingLane ≠ wl ∨ x.protectLane ≠ pl → exec i s = .next (s.finish .ch0 r .badField [] .none)) ∧
         (x.workingLane = wl → x.protectLane = pl → ∃ y : Group,
           exec i s = .next ((s.setGroup g (some y)).finish .ch0 r .ok (body y) .none) ∧
           (x.state = .pWtr → rev = 0 → y.state = .pIdle ∧ y.wtrRemaining = none) ∧
           (x.state = .pIdle → rev = 1 → y.state = .pWtr ∧ y.wtrRemaining = some period) ∧
           (¬ (x.state = .pWtr ∧ rev = 0) → ¬ (x.state = .pIdle ∧ rev = 1) →
             y.state = x.state ∧ y.wtrRemaining = x.wtrRemaining) ∧
           y = { x with
             revertive := decide (rev = 1), holdOff := ho.toNat, wtrPeriod := period
             operatorAccess := decide (acc = 1), state := y.state, wtrRemaining := y.wtrRemaining })) ∧
       (s.group g = none →
         ((∃ n d k f, (s.map.bank n).get d = .protect g k f ∧ (s.Reserved ⟨wl, k⟩ ∨ s.Reserved ⟨pl, k⟩)) →
           exec i s = .next (s.finish .ch0 r .inUse [] .none)) ∧
         ((∀ n d k f, (s.map.bank n).get d = .protect g k f → ¬ s.Reserved ⟨wl, k⟩ ∧ ¬ s.Reserved ⟨pl, k⟩) →
           let x : Group := ⟨wl, pl, decide (rev = 1), ho.toNat, period, decide (acc = 1), none, false,
             ⟨!(s.lane wl).isAligned, !(s.lane pl).isAligned, (s.lane wl).isDegraded, (s.lane pl).isDegraded⟩,
             .wIdle, .working, none, none, 0⟩
           exec i s = .next ((s.redecide g x).finish .ch0 r .ok (body x.redecide) .none)))) ∧
  (∀ (s : State) (r : Request) (group spare : Byte), s.Waits .ch0 r 0x21 [group, spare] →
     (15 < group.toNat → exec (.deleteGroup group) s = .next (s.finish .ch0 r .badField [] .none)) ∧
     ∀ g : GroupId, g.val = group.toNat →
       (s.group g = none → exec (.deleteGroup group) s = .next (s.finish .ch0 r .notConfigured [] .none)) ∧
       (s.group g ≠ none →
         ((∃ n d k f, (s.map.bank n).get d = .protect g k f) ∨ (∃ i, (s.input i).mode.bound = some g) →
           exec (.deleteGroup group) s = .next (s.finish .ch0 r .inUse [] .none)) ∧
         ((∀ n d k f, (s.map.bank n).get d ≠ .protect g k f) → (∀ i, (s.input i).mode.bound ≠ some g) →
           exec (.deleteGroup group) s = .next ((s.setGroup g none).finish .ch0 r .ok [] .none))))

/-- A group's timers: the hold-off at every frame start, the wait-to-restore at every superframe boundary, each once, and
the switch of each where it ends (R94, R96). HOLD_OFF_EXPIRY ends the hold-off that is due at the frame start whose edge
has come with a switch to PROTECT, WTR_EXPIRY the wait that is due at the boundary whose edge has come with a switch to
WORKING (ahead of the other units: the model's choice, notes/assumptions/4.md and 10.md). -/
def Obligations.GroupTimersRun : Prop :=
  (∀ (s : State) (g : GroupId),
     (s.work.groupsTaken.get g = true ∨ s.group g = none → s.tickGroup g = s) ∧
     ∀ x, s.work.groupsTaken.get g = false → s.group g = some x →
       let done (y : Group) : State :=
         { s.setGroup g (some y) with
           work := { s.work with groupsTaken := s.work.groupsTaken.set g.val true g.isLt } }
       (∀ n, x.holdOffRemaining = some (n + 2) → (x.state = .pWtr → x.wtrRemaining = none ∨ s.efa.frameNo ≠ 0) →
         s.tickGroup g = done { x with holdOffRemaining := some (n + 1) }) ∧
       (∀ n, x.holdOffRemaining = none → x.state = .pWtr → x.wtrRemaining = some (n + 2) →
         s.tickGroup g =
           done (if s.efa.frameNo = 0 then { x with wtrRemaining := some (n + 1) } else x)) ∧
       (x.holdOffRemaining = none → x.state ≠ .pWtr ∨ x.wtrRemaining = none ∨ s.efa.frameNo ≠ 0 →
         s.tickGroup g = done x) ∧
       (∀ n, n ≤ 1 → x.holdOffRemaining = some n → s.tickGroup g = State.withEvents
         (done { x with
           state := if x.topItem = some .sdW then .pSd else .pSf, selected := .protect, holdOffRemaining := none
           wtrRemaining := none
           switchCount := if x.selected = .protect then x.switchCount else min 65535 (x.switchCount + 1) })
         (if x.selected = .working then [.groupToProtect g] else [])) ∧
       (∀ n, n ≤ 1 → x.holdOffRemaining = none → x.state = .pWtr → x.wtrRemaining = some n → s.efa.frameNo = 0 →
         s.tickGroup g = State.withEvents
           (done { x with
             state := .wIdle, selected := .working, holdOffRemaining := none, wtrRemaining := none
             switchCount := if x.selected = .working then x.switchCount else min 65535 (x.switchCount + 1) })
           (if x.selected = .protect then [.groupToWorking g] else []))) ∧
  (∀ (s : State) (g : GroupId) (x : Group), s.group g = some x → x.holdOffRemaining = some 1 → x.selected = .working →
     s.work.groupsTaken.get g = false → s.Startable →
     exec (.holdOffExpiry g) s = .next
       (State.withEventsAhead
         { s.setGroup g (some { x with
             state := if x.topItem = some .sdW then .pSd else .pSf, selected := .protect, holdOffRemaining := none
             wtrRemaining := none, switchCount := min 65535 (x.switchCount + 1) }) with
           work := { s.work with groupsTaken := s.work.groupsTaken.set g.val true g.isLt } }
         [.groupToProtect g])) ∧
  (∀ (s : State) (g : GroupId) (x : Group), s.group g = some x → x.state = .pWtr → x.wtrRemaining = some 1 →
     x.holdOffRemaining = none → x.selected = .protect → s.efa.frameNo = 15 →
     s.work.groupsTaken.get g = false → s.Startable →
     exec (.wtrExpiry g) s = .next
       (State.withEventsAhead
         { s.setGroup g (some { x with
             state := .wIdle, selected := .working, holdOffRemaining := none, wtrRemaining := none
             switchCount := min 65535 (x.switchCount + 1) }) with
           work := { s.work with groupsTaken := s.work.groupsTaken.set g.val true g.isLt } }
         [.groupToWorking g]))

/-! ### Event inputs -/

/-- R114: when an input is active, when it is bound, and that GROUP reads zero in the modes OFF and EVENT. -/
def Obligations.InputActiveAndBound : Prop :=
  ∀ (x : Input),
    (x.activeLow = false → (x.active = true ↔ x.accepted = true)) ∧
    (x.activeLow = true → (x.active = true ↔ x.accepted = false)) ∧
    (∀ g, x.mode.bound = some g ↔ x.mode = .edgeManual g ∨ x.mode = .levelLockout g) ∧
    (x.mode = .off ∨ x.mode = .event → x.mode.groupField = 0 ∧ x.mode.bound = none)

/-- A level seen at two frame starts running is accepted, with the effects of its mode (R115, R116). A MANUAL_P presented
by an input is judged by outranking alone (R105, R117); the lockout level of a group is true while some LEVEL_LOCKOUT
input bound to it is active, and only a change of it re-decides the group (R118). INPUT_EDGE joins the queues after as
many of the group's occurrences as the operand says, since R116 and R165 give them no order (notes/assumptions/20.md). -/
def Obligations.InputSampled : Prop :=
  (∀ (s : State) (i : InputId) (level : Bool) (place : Nat),
     let x := s.input i
     let y : Input :=
       { x with accepted := if level = x.lastSample then level else x.accepted, lastSample := level }
     let s1 := s.setInput i y
     let edge (es : List Event) : List Event := es.take place ++ [.inputEdge i] ++ es.drop place
     (y.accepted = x.accepted → s.sampleInput i level place = s1) ∧
     (y.accepted ≠ x.accepted →
       (x.mode = .off → s.sampleInput i level place = s1) ∧
       (x.mode = .event → s.sampleInput i level place =
         if y.active = true then s1.withEvents [.inputEdge i] else s1) ∧
       (∀ g, x.mode = .edgeManual g → s.sampleInput i level place =
         if y.active = true then s1.presentInput g i edge else s1) ∧
       (∀ g, x.mode = .levelLockout g → s.sampleInput i level place =
         if y.active = true then s1.reevaluateAmong g edge else s1.reevaluate g))) ∧
  (∀ (s : State) (g : GroupId) (among : List Event → List Event),
     (s.group g = none →
       (∀ i, s.presentInput g i among = s.withEvents (among [])) ∧
         s.reevaluateAmong g among = s.withEvents (among [])) ∧
     (s.lockoutLevel g = true ↔ ∃ i, (s.input i).mode = .levelLockout g ∧ (s.input i).active = true) ∧
     ∀ x, s.group g = some x →
       let redecided (y : Group) : State :=
         State.withEvents (s.setGroup g (some y.redecide))
           (among ((if y.mustDrop = true then [.requestDropped g] else []) ++
             (if y.selected = .working ∧ y.redecide.selected = .protect then [.groupToProtect g] else []) ++
             (if y.selected = .protect ∧ y.redecide.selected = .working then [.groupToWorking g] else [])))
       (∀ i, (x.outranks .manualP = true → s.presentInput g i among = s.withEvents (among [])) ∧
         (x.outranks .manualP = false →
           s.presentInput g i among = redecided { x with standing := some ⟨.manualP, .input i⟩ })) ∧
       (s.lockoutLevel g = x.inputLockout → s.reevaluateAmong g among = s.withEvents (among [])) ∧
       (s.lockoutLevel g ≠ x.inputLockout →
         s.reevaluateAmong g among = redecided { x with inputLockout := s.lockoutLevel g })) ∧
  (∀ (s : State) (g : GroupId), s.reevaluate g = s.reevaluateAmong g fun es => es)

/-- SET_INPUT: its checks in order, and the record with the groups whose lockout level it changes re-decided (R121).
The occurrences of those groups, REQUEST_DROPPED and then the switch of each (notes/assumptions/11.md), join the queues
group by group in an open order (R165, notes/assumptions/7.md); where it re-decides none, no queue changes. -/
def Obligations.SetInputDecided : Prop :=
  ∀ (s : State) (r : Request) (input polarity mode group : Byte),
    s.Waits .ch0 r 0x28 [input, polarity, mode, group] →
    let c : Instr := .setInput input polarity mode group
    ((3 < input.toNat ∨ 1 < polarity.toNat ∨ 3 < mode.toNat ∨ (2 ≤ mode.toNat ∧ 15 < group.toNat)) →
      exec c s = .next (s.finish .ch0 r .badField [] .none)) ∧
    ∀ (i : InputId) (m : InputMode), i.val = input.toNat → polarity.toNat ≤ 1 →
      (mode = 0 ∧ m = .off ∨ mode = 1 ∧ m = .event ∨
        ∃ g : GroupId, g.val = group.toNat ∧ (mode = 2 ∧ m = .edgeManual g ∨ mode = 3 ∧ m = .levelLockout g)) →
      ((∃ g, m.bound = some g ∧ s.group g = none) →
        exec c s = .next (s.finish .ch0 r .notConfigured [] .none)) ∧
      ((∀ g, m.bound = some g → s.group g ≠ none) → ∃ u : State,
        let y : Input := { s.input i with mode := m, activeLow := decide (polarity = 1) }
        let locked (g : GroupId) : Bool := (s.setInput i y).lockoutLevel g
        let changes (g : GroupId) (x : Group) : Prop :=
          ((s.input i).mode = .levelLockout g ∨ m = .levelLockout g) ∧ locked g ≠ x.inputLockout
        let occurrences (g : GroupId) : List Event :=
          match s.group g with
          | some x =>
            let z : Group := { x with inputLockout := locked g }
            (if z.mustDrop = true then [.requestDropped g] else []) ++
              (if z.selected = .working ∧ z.redecide.selected = .protect then [.groupToProtect g] else []) ++
              (if z.selected = .protect ∧ z.redecide.selected = .working then [.groupToWorking g] else [])
          | none => []
        exec c s = .next (u.finish .ch0 r .ok
          [input, polarity, mode, BitVec.ofNat 8 m.groupField,
            (0 : BitVec 5) ++ BitVec.ofBool y.active ++ BitVec.ofBool y.lastSample ++ BitVec.ofBool y.accepted, 0]
          .none) ∧
        u.inputs = (s.setInput i y).inputs ∧ u.map = s.map ∧ u.efa = s.efa ∧ u.lanes = s.lanes ∧ u.ch0 = s.ch0 ∧
        u.ch1 = s.ch1 ∧ u.guard = s.guard ∧ u.operatorPlace = s.operatorPlace ∧ u.strapLane = s.strapLane ∧
        u.work = s.work ∧ u.pending = s.pending ∧
        (∀ g, s.group g = none → u.group g = none) ∧
        (∀ g x, s.group g = some x →
          (changes g x → u.group g = some ({ x with inputLockout := locked g }.redecide)) ∧
          (¬ changes g x → u.group g = some x)) ∧
        (∃ gs : List GroupId, gs.Nodup ∧ (∀ g, g ∈ gs ↔ ∃ x, s.group g = some x ∧ changes g x) ∧
          ∀ ch, u.queue ch = s.queueAfter s.efa.superframes (gs.flatMap occurrences) ch) ∧
        ((∀ g x, s.group g = some x → ¬ changes g x) → ∀ ch, u.queue ch = s.queue ch))

/-! ### Management channels -/

/-- R135: the reply formed at completion, with the bytes of its body packed two to a word and its check (R128, R176), and
STATUS by the codes of 10.6. -/
def Obligations.ReplyFormed : Prop :=
  (Status.ok.code = 0 ∧ Status.badCommand.code = 1 ∧ Status.badLength.code = 2 ∧ Status.badField.code = 3 ∧
     Status.supervisorOnly.code = 4 ∧ Status.notPermitted.code = 5 ∧ Status.reservedSlot.code = 6 ∧
     Status.noLock.code = 7 ∧ Status.locked.code = 8 ∧ Status.invalidMap.code = 9 ∧ Status.cancelled.code = 10 ∧
     Status.notConfigured.code = 11 ∧ Status.inUse.code = 12 ∧ Status.outranked.code = 13) ∧
  (∀ (s : State) (ch : ChannelId) (r : Request) (status : Status) (bytes : List Byte) (effects : Deferred),
    s.finish ch r status bytes effects =
      s.setChannel ch { s.channel ch with
        phase := .replying 0
        stored := some
          { status := status, seq := r.seq, body := packBytes bytes
            check := checkOf ([BitVec.ofNat 8 status.code, r.seq.zeroExtend 8,
              BitVec.ofNat 8 (packBytes bytes).length] ++ bodyBytes (packBytes bytes))
            acked := false, effects := if status = .ok then effects else .none, resends := 0 } }) ∧
  (∀ bytes : List Byte, bytes.length % 2 = 0 →
    bodyBytes (packBytes bytes) = bytes ∧ 2 * (packBytes bytes).length = bytes.length) ∧
  (∀ body : List Half, packBytes (bodyBytes body) = body)

/-- Words taken in IDLE and AWAIT_ACK: a HEAD acknowledges implicitly and begins a request, a stray BODY or TAIL is
counted, and an IDLE word acknowledges the stored reply of its SEQ (R129, R131, R138). In EXECUTING and REPLYING all are
ignored, a HEAD counted (R132); in OFF there are none. -/
def Obligations.WordsBetweenRequests : Prop :=
  (∀ (s : State) (ch : ChannelId) (w : Word),
     ((s.channel ch).phase = .idle ∨ ∃ n, (s.channel ch).phase = .awaitAck n) →
     (∀ code seq len, decodeMgmtWord w = .head code seq len →
       ((∃ p, (s.channel ch).stored = some p ∧ p.acked = false ∧ p.seq ≠ seq) →
         s.takeWord ch w = (s.acknowledge ch).setPhase ch (.receiving ⟨code, seq, len, []⟩)) ∧
       ((∀ p, (s.channel ch).stored = some p → p.acked = true ∨ p.seq = seq) →
         s.takeWord ch w = s.setPhase ch (.receiving ⟨code, seq, len, []⟩))) ∧
     (∀ x, decodeMgmtWord w = .body x ∨ decodeMgmtWord w = .tail x →
       s.takeWord ch w = s.countChannel ch fun k => { k with malformed := min 65535 (k.malformed + 1) }) ∧
     (∀ valid seq, decodeMgmtWord w = .idle valid seq →
       ((∃ p, (s.channel ch).stored = some p ∧ p.seq = seq ∧ valid = true) →
         s.takeWord ch w = (s.acknowledge ch).setPhase ch .idle) ∧
       ((∀ p, (s.channel ch).stored = some p → p.seq ≠ seq ∨ valid = false) → s.takeWord ch w = s))) ∧
  (∀ (s : State) (ch : ChannelId) (w : Word),
     ((s.channel ch).phase = .off → s.takeWord ch w = s) ∧
     (((∃ r b, (s.channel ch).phase = .executing r b) ∨ ∃ k, (s.channel ch).phase = .replying k) →
       ((∃ code seq len, decodeMgmtWord w = .head code seq len) →
         s.takeWord ch w = s.countChannel ch fun k => { k with busyDiscards := min 65535 (k.busyDiscards + 1) }) ∧
       ((∀ code seq len, decodeMgmtWord w ≠ .head code seq len) → s.takeWord ch w = s)) ∧
     ((∀ r, (s.channel ch).phase ≠ .receiving r) → s.lostAlignment ch = s))

/-- Words taken in RECEIVING (R129 to R131): a body word joins or is one too many, a TAIL completes a request of the
right length and check or counts its fault, and a HEAD or an IDLE word truncates it. -/
def Obligations.WordsOfRequest : Prop :=
  ∀ (s : State) (ch : ChannelId) (w : Word) (r : Request), (s.channel ch).phase = .receiving r →
    let drop (f : ChannelCounters → ChannelCounters) : State := (s.countChannel ch f).setPhase ch .idle
    let truncated (k : ChannelCounters) : ChannelCounters := { k with truncated := min 65535 (k.truncated + 1) }
    (∀ x, decodeMgmtWord w = .body x →
      (r.body.length < r.len.toNat →
        s.takeWord ch w = s.setPhase ch (.receiving { r with body := r.body ++ [x] })) ∧
      (r.len.toNat ≤ r.body.length →
        s.takeWord ch w = drop fun k => { k with malformed := min 65535 (k.malformed + 1) })) ∧
    (∀ x, decodeMgmtWord w = .tail x →
      (r.body.length < r.len.toNat → s.takeWord ch w = drop truncated) ∧
      (r.len.toNat ≤ r.body.length →
        let check := checkOf ([r.code.zeroExtend 8, r.seq.zeroExtend 8, r.len.zeroExtend 8] ++ bodyBytes r.body)
        (x ≠ check → s.takeWord ch w =
          (drop fun k => { k with checkErrors := min 65535 (k.checkErrors + 1) }).withEvents [.checkError ch]) ∧
        (x = check → s.takeWord ch w = s.complete ch r))) ∧
    (∀ valid seq, decodeMgmtWord w = .idle valid seq → s.takeWord ch w = drop truncated) ∧
    (∀ code seq len, decodeMgmtWord w = .head code seq len →
      s.takeWord ch w = ((if ∃ p, (s.channel ch).stored = some p ∧ p.seq = seq then s else s.acknowledge ch).countChannel
        ch truncated).setPhase ch (.receiving ⟨code, seq, len, []⟩)) ∧
    s.lostAlignment ch = drop truncated

/-- R133: a complete request with the stored reply's SEQ is answered with the stored reply, which keeps its ACKED flag
and its deferred effects; it reaches nothing else of the part. One that completes while no reply, or a reply of another
SEQ, is stored is executed. -/
def Obligations.DuplicateAnswered : Prop :=
  ∀ (s : State) (ch : ChannelId) (r : Request),
    (∀ p, (s.channel ch).stored = some p → p.seq = r.seq →
      s.complete ch r = s.setChannel ch { s.channel ch with
        phase := .replying 0, stored := some { p with resends := 0 }
        counters := { (s.channel ch).counters with
          duplicates := min 65535 ((s.channel ch).counters.duplicates + 1) } }) ∧
    ((∀ p, (s.channel ch).stored = some p → p.seq ≠ r.seq) →
      s.complete ch r = State.execute { s with map := s.map.reload ch } ch r) ∧
    (∀ straps pins c, ((State.resetWith straps pins).channel c).stored = none) ∧
    (∀ phase, (s.restart phase).ch1.stored = none)

/-- The generic checks in order (R134, R150), after the idle timer is reloaded for the lock holder's channel (R29),
with the 29 commands of 10.6 and their LEN: what passes waits for its owner in EXECUTING. -/
def Obligations.GenericChecks : Prop :=
  (∀ code : BitVec 6, commandLength code =
     (([(0x01, 0), (0x02, 1), (0x03, 3), (0x04, 0), (0x05, 0), (0x08, 1), (0x09, 0), (0x0A, 0), (0x0B, 0), (0x0C, 0),
        (0x10, 4), (0x11, 2), (0x12, 2), (0x18, 2), (0x19, 1), (0x1A, 2), (0x1B, 0), (0x20, 4), (0x21, 1), (0x22, 1),
        (0x23, 1), (0x28, 2), (0x29, 0), (0x30, 4), (0x31, 0), (0x32, 0), (0x33, 0), (0x38, 2), (0x39, 1)] :
       List (BitVec 6 × Nat)).find? fun row => row.1 = code).map Prod.snd) ∧
  (∀ (s : State) (ch : ChannelId) (r : Request),
    (commandLength r.code = none → s.execute ch r = s.finish ch r .badCommand [] .none) ∧
    ∀ n, commandLength r.code = some n →
      (r.len.toNat ≠ n → s.execute ch r = s.finish ch r .badLength [] .none) ∧
      (r.len.toNat = n →
        (ch = .ch1 → r.code.toNat ∈ [0x03, 0x04, 0x05, 0x0B, 0x18, 0x1A, 0x20, 0x21, 0x28, 0x30, 0x31, 0x32, 0x33] →
          s.execute ch r = (s.guardFault ch r .supervisor .none).finish ch r .supervisorOnly [] .none) ∧
        (¬ (ch = .ch1 ∧ r.code.toNat ∈
            [0x03, 0x04, 0x05, 0x0B, 0x18, 0x1A, 0x20, 0x21, 0x28, 0x30, 0x31, 0x32, 0x33]) →
          s.execute ch r = s.setPhase ch (.executing r true)))) ∧
  (∀ (m : ConnectionMap) (ch : ChannelId),
    (∀ e, m.session = some e → e.holder = ch →
      m.reload ch = { m with session := some { e with idleRemaining := e.idleTimeout } }) ∧
    ((∀ e, m.session = some e → e.holder ≠ ch) → m.reload ch = m))

/-- The controller's event of a frame start by state (R136, R137, R139): the word it supplies, the reply position and
the hold timer, with retransmission and abandonment at its expiry; once, and for an enabled channel alone.
REPLY_HOLD_EXPIRY takes the expiry that is due at the frame start whose edge has come, ahead of the other units (the
model's choice, notes/assumptions/4.md and 10.md). The word of the boundary frame of a swap's committer is
notes/assumptions/9.md's. -/
def Obligations.ControllerAtFrameStart : Prop :=
  (∀ (s : State) (ch : ChannelId),
     (s.enabled ch = false ∨ s.work.word ch ≠ none → s.mccEvent ch = s) ∧
     (s.enabled ch = true → s.work.word ch = none →
       (((s.channel ch).phase = .idle ∨ (∃ r, (s.channel ch).phase = .receiving r) ∨
           ∃ r b, (s.channel ch).phase = .executing r b) →
         s.mccEvent ch = s.supply ch (s.idleWordOf ch (s.channel ch).phase.code)) ∧
       (∀ k p, (s.channel ch).phase = .replying k → (s.channel ch).stored = some p → s.work.swapped ≠ some ch →
         (k ≤ p.body.length → s.mccEvent ch = (s.supply ch (p.word k)).setPhase ch (.replying (k + 1))) ∧
         (p.body.length < k →
           s.mccEvent ch = (s.supply ch (p.word k)).setPhase ch (.awaitAck (s.channel ch).replyHold))) ∧
       ((s.channel ch).phase = .replying 0 → s.work.swapped = some ch →
         s.mccEvent ch = s.supply ch (s.idleWordOf ch 3)) ∧
       (∀ n p, (s.channel ch).phase = .awaitAck n → (s.channel ch).stored = some p →
         let s1 := s.supply ch (s.idleWordOf ch 5)
         (1 < n → s.mccEvent ch = s1.setPhase ch (.awaitAck (n - 1))) ∧
         (n ≤ 1 → p.resends < 3 →
           s.mccEvent ch = s1.setChannel ch { s.channel ch with
             phase := .replying 0, stored := some { p with resends := p.resends + 1 }
             counters := { (s.channel ch).counters with
               retransmits := min 65535 ((s.channel ch).counters.retransmits + 1) } }) ∧
         (n ≤ 1 → 3 ≤ p.resends →
           s.mccEvent ch = (s1.setChannel ch { s.channel ch with
             phase := .idle
             counters := { (s.channel ch).counters with
               abandoned := min 65535 ((s.channel ch).counters.abandoned + 1) } }).withEvents [.replyAbandoned ch])))) ∧
  (∀ (s : State) (ch : ChannelId) (p : StoredReply), (s.channel ch).phase = .awaitAck 1 →
     (s.channel ch).stored = some p → s.enabled ch = true → s.work.word ch = none →
     (s.efa.frameNo ≠ 15 ∨ s.map.scheduled = none ∨ s.work.mapTaken = true) → s.Startable →
     let s1 := s.supply ch (s.idleWordOf ch 5)
     (p.resends < 3 → exec (.replyHoldExpiry ch) s = .next
       (s1.setChannel ch { s.channel ch with
         phase := .replying 0, stored := some { p with resends := p.resends + 1 }
         counters := { (s.channel ch).counters with
           retransmits := min 65535 ((s.channel ch).counters.retransmits + 1) } })) ∧
     (3 ≤ p.resends → exec (.replyHoldExpiry ch) s = .next
       ((s1.setChannel ch { s.channel ch with
         phase := .idle
         counters := { (s.channel ch).counters with
           abandoned := min 65535 ((s.channel ch).counters.abandoned + 1) } }).withEventsAhead [.replyAbandoned ch])))

/-- The management word in the frame: the word that the channel's controller supplied stands in its location's slot
(R54, R136), for a reply being sent its next word, and otherwise an IDLE word with the state that the channel held when
the frame start came and the map generation after any swap taken at it (R137). The channel is no committer of a swap
still to come: a committer stays EXECUTING (R37). -/
def Obligations.ReplyWordSent : Prop :=
  ∀ (s : State) (e : FrameEdge) (ch : ChannelId) (d : Place),
    (∀ c r, (s.channel c).phase ≠ .executing r true) → s.place ch = some d → s.place .ch0 ≠ s.place .ch1 →
    s.efa.enables.getLsbD d.lane.val = true → s.work.word ch = none → s.work.swapped ≠ some ch →
    s.map.scheduled ≠ some ch →
    (∀ (k : Nat) (p : StoredReply), (s.channel ch).phase = .replying k → (s.channel ch).stored = some p →
      ∃ t, exec (.egressFrameStart e) s = .next t ∧ t.sentWord d = some (p.word k) ∧
        (t.channel ch).stored = some p ∧
        (t.channel ch).phase = if k ≤ p.body.length then .replying (k + 1) else .awaitAck (s.channel ch).replyHold) ∧
    ((∀ k, (s.channel ch).phase ≠ .replying k) →
      ∃ t w, exec (.egressFrameStart e) s = .next t ∧ t.sentWord d = some w ∧ w.extractLsb' 22 2 = 0 ∧
        (w.extractLsb' 19 3).toNat = (s.channel ch).phase.code ∧ w.extractLsb' 8 7 = 0 ∧
        w.extractLsb' 0 8 = t.map.generation)

/-- SET_CHANNEL: its checks in order, and the effect on channel 1 by what it was and what is asked (R143, R144). Where
it would restart channel 1 while a complete request of channel 1 waits, the row of that request is taken first, so that
its effects on the owner stand, and the SET_CHANNEL is judged against what it leaves (R145; notes/assumptions/22.md). -/
def Obligations.SetChannelDecided : Prop :=
  ∀ (s : State) (r : Request) (c enable l k hold spare : Byte), s.Waits .ch0 r 0x03 [c, enable, l, k, hold, spare] →
    let i : Instr := .setChannel c enable l k hold
    let H : Nat := if hold = 0 then 48 else hold.toNat
    let free (p : Place) : Prop :=
      ∀ n d, ¬ (((s.map.bank n).get d ≠ .unused ∧ d = p) ∨ s.Draws ((s.map.bank n).get d) p)
    (∀ (q : Request) (j : Instr), s.ch1.phase = .executing q true →
      decodeCommand .ch1 q.code (bodyBytes q.body) = some j →
      (c = 1 ∧ (hold = 0 ∨ 8 ≤ hold.toNat) ∧ (enable = 0 ∧ s.operatorPlace ≠ none ∨
        enable = 1 ∧ ∃ p : Place, p.lane.val = l.toNat ∧ p.slot.val = k.toNat ∧ p ≠ ⟨s.strapLane, 23⟩ ∧
          s.operatorPlace ≠ some p ∧ free p)) →
      ∃ t, exec j s = .next t ∧ t.Waits .ch0 r 0x03 [c, enable, l, k, hold, spare] ∧
        (∀ q, t.ch1.phase ≠ .executing q true) ∧ exec i s = exec i t) ∧
    ((1 < c.toNat ∨ (1 ≤ hold.toNat ∧ hold.toNat ≤ 7) ∨
        (c = 1 ∧ (1 < enable.toNat ∨ (enable = 1 ∧ (7 < l.toNat ∨ 23 < k.toNat ∨
          (l.toNat = s.strapLane.val ∧ k.toNat = 23)))))) →
      exec i s = .next (s.finish .ch0 r .badField [] .none)) ∧
    ((hold = 0 ∨ 8 ≤ hold.toNat) →
      (c = 0 → exec i s = .next
        (State.finish { s with ch0 := { s.ch0 with replyHold := H } } .ch0 r .ok
          [0, 1, BitVec.ofNat 8 s.strapLane.val, 23, BitVec.ofNat 8 H, 0] .none)) ∧
      (c = 1 → enable = 0 → s.operatorPlace = none → exec i s = .next
        (State.finish { s with ch1 := { s.ch1 with replyHold := H } } .ch0 r .ok
          [1, 0, 0, 0, BitVec.ofNat 8 H, 0] .none)) ∧
      (c = 1 → enable = 0 → s.operatorPlace ≠ none → (∀ q, s.ch1.phase ≠ .executing q true) → exec i s = .next
        ((State.restart { s with ch1 := { s.ch1 with replyHold := H }, operatorPlace := none } .off).finish .ch0 r .ok
          [1, 0, 0, 0, BitVec.ofNat 8 H, 0] .none)) ∧
      (c = 1 → enable = 1 → ∀ p : Place, p.lane.val = l.toNat → p.slot.val = k.toNat → p ≠ ⟨s.strapLane, 23⟩ →
        (s.operatorPlace = some p → exec i s = .next
          (State.finish { s with ch1 := { s.ch1 with replyHold := H } } .ch0 r .ok
            [1, 1, l, k, BitVec.ofNat 8 H, 0] .none)) ∧
        (s.operatorPlace ≠ some p →
          ((∃ n d, ((s.map.bank n).get d ≠ .unused ∧ d = p) ∨ s.Draws ((s.map.bank n).get d) p) →
            exec i s = .next (s.finish .ch0 r .inUse [] .none)) ∧
          (free p → (∀ q, s.ch1.phase ≠ .executing q true) → ∃ u : State,
            u = State.restart { s with ch1 := { s.ch1 with replyHold := H }, operatorPlace := some p } .idle ∧
            exec i s = .next
              (State.finish
                { u.setLane p.lane { u.lane p.lane with
                    alignment := if (s.lane p.lane).alignment = .off then .hunt else (s.lane p.lane).alignment } with
                  efa := { u.efa with enables := s.efa.enables ||| BitVec.twoPow 8 p.lane.val } } .ch0 r .ok
                [1, 1, l, k, BitVec.ofNat 8 H, 0] .none)))))

/-- A channel restart of channel 1 begins its record and its queue anew, with REPLY_HOLD and the masks kept, and breaks
a lock that it held, with LOCK_BROKEN offered to channel 0's queue alone (R43, R145, R174). RESTART_CHANNEL restarts an
enabled channel 1 to IDLE and reports its former state, or refuses BAD_FIELD (R146). Where a complete request of channel
1 waits, its row is taken before the restart, so that its effects on the owner stand (R145; the moment is the model's
reading, notes/assumptions/22.md). -/
def Obligations.ChannelRestarted : Prop :=
  (∀ (s : State) (phase : Phase),
     let q : Queue :=
       { records := [], overflow := false, lostCount := 0, subscription := s.queue1.subscription
         alarmMask := s.queue1.alarmMask, alarm := false }
     let c : Channel := { phase := phase, replyHold := s.ch1.replyHold, stored := none, counters := ⟨0, 0, 0, 0, 0, 0, 0⟩ }
     let work : FrameWork :=
       { s.work with word1 := none, swapped := if s.work.swapped = some .ch1 then none else s.work.swapped }
     (s.map.holder ≠ some .ch1 → s.restart phase = { s with ch1 := c, queue1 := q, work := work }) ∧
     (s.map.holder = some .ch1 → s.restart phase =
       { s with
         ch1 := c, queue1 := q, work := work, map := s.map.restore.release
         queue0 := s.queueAfter s.efa.superframes [.lockBroken .ch1] .ch0 })) ∧
  (∀ (s : State) (r : Request), s.Waits .ch0 r 0x04 [] →
     (s.operatorPlace = none → exec .restartChannel s = .next (s.finish .ch0 r .badField [] .none)) ∧
     (s.operatorPlace ≠ none → (∀ q, s.ch1.phase ≠ .executing q true) → exec .restartChannel s = .next
       ((s.restart .idle).finish .ch0 r .ok [BitVec.ofNat 8 s.ch1.phase.code, 0] .none)) ∧
     (∀ (q : Request) (j : Instr), s.operatorPlace ≠ none → s.ch1.phase = .executing q true →
       decodeCommand .ch1 q.code (bodyBytes q.body) = some j →
       ∃ t, exec j s = .next t ∧ t.Waits .ch0 r 0x04 [] ∧ t.operatorPlace = s.operatorPlace ∧
         (∀ q, t.ch1.phase ≠ .executing q true) ∧ exec .restartChannel s = exec .restartChannel t))

/-- DATAPATH_RESET clears the map, held state, lane counters, groups and bindings in one event, breaks a held lock and
cancels a scheduled commit of channel 1, and reaches nothing else (R23, R42, R62, R85, R113, R123, R147). -/
def Obligations.DatapathResetEffect : Prop :=
  ∀ (s : State) (r : Request), s.Waits .ch0 r 0x05 [] →
    ∃ (m : ConnectionMap) (held : Grid HeldState) (lanes : Vector Lane 8) (inputs : Vector Input 4),
      (∀ n d, (m.bank n).get d = .unused) ∧ m.active = s.map.active ∧ m.generation = 0 ∧ m.session = none ∧
      m.scheduled = none ∧ (∀ d, held.get d = ⟨0, s.efa.holdLimit⟩) ∧
      (∀ l : LaneId, lanes.get l = { s.lane l with counters := ⟨0, 0, 0, 0⟩ }) ∧
      (∀ i : InputId, inputs.get i =
        { s.input i with mode := if (s.input i).mode = .off then .off else .event }) ∧
      let s1 : State :=
        { s with
          map := m, efa := { s.efa with held := held }, lanes := lanes, inputs := inputs
          groups := Vector.replicate 16 none }
      (s.map.scheduled = none → s.map.holder = none →
        exec .datapathReset s = .next (s1.finish .ch0 r .ok [] .none)) ∧
      (∀ h, s.map.scheduled = none → s.map.holder = some h →
        exec .datapathReset s = .next ((s1.withEvents [.lockBroken h]).finish .ch0 r .ok [] .none)) ∧
      (∀ q, s.map.scheduled = some .ch1 → s.map.holder = some .ch1 → s.ch1.phase = .executing q false →
        exec .datapathReset s = .next
          (((s1.finish .ch1 q .cancelled [] .none).withEvents [.lockBroken .ch1]).finish .ch0 r .ok [] .none))

/-- READ_IDENTITY, READ_EDIT_STATE, READ_EGRESS, READ_INPUTS and READ_GROUP report what stands and change nothing but
the channel that asked (R33, R61, R112, R122, R141). Input MODE by the codes of 10.5. -/
def Obligations.ReadsReportWhatStands : Prop :=
  (InputMode.off.code = 0 ∧ InputMode.event.code = 1 ∧
     ∀ g : GroupId, (InputMode.edgeManual g).code = 2 ∧ (InputMode.levelLockout g).code = 3 ∧
       (InputMode.edgeManual g).groupField = g.val ∧ (InputMode.levelLockout g).groupField = g.val) ∧
  (∀ (s : State) (ch : ChannelId) (r : Request),
     (s.Waits ch r 0x01 [] → exec (.readIdentity ch) s = .next
       (s.finish ch r .ok
         ([0x08, 0x24, 1, 8, 24, 16, 8, 32, BitVec.ofNat 8 s.strapLane.val] ++ halfBytes s.efa.superframes ++ [0])
         .none)) ∧
     (s.Waits ch r 0x0C [] →
       let session : List Byte :=
         match s.map.session with
         | some e => [if e.holder = .ch0 then 1 else 2, BitVec.ofNat 8 e.idleTimeout, BitVec.ofNat 8 e.idleRemaining]
         | none => [0, 0, 0]
       exec (.readEditState ch) s = .next
         (s.finish ch r .ok
           (session ++
             [if s.map.scheduled = none then 0 else 1, s.map.generation, if s.map.active = .a then 0 else 1,
               BitVec.ofNat 8 (Place.all.countP fun d =>
                 decide (s.map.pendingBank.get d ≠ s.map.activeBank.get d)), 0])
           .none)) ∧
     (s.Waits ch r 0x1B [] → exec (.readEgress ch) s = .next
       (s.finish ch r .ok
         ([s.efa.enables] ++ halfBytes (BitVec.ofNat 16 s.efa.holdLimit) ++
           [s.efa.frameNo.zeroExtend 8, if s.efa.started then 1 else 0] ++ halfBytes s.efa.superframes ++ [0])
         .none)) ∧
     (s.Waits ch r 0x29 [] → exec (.readInputs ch) s = .next
       (s.finish ch r .ok
         ((List.finRange 4).flatMap fun i =>
           [if (s.input i).activeLow then 1 else 0, BitVec.ofNat 8 (s.input i).mode.code,
             BitVec.ofNat 8 (s.input i).mode.groupField,
             (0 : BitVec 5) ++ BitVec.ofBool (s.input i).active ++ BitVec.ofBool (s.input i).lastSample ++
               BitVec.ofBool (s.input i).accepted])
         .none))) ∧
  (∀ (s : State) (ch : ChannelId) (r : Request) (group spare : Byte), s.Waits ch r 0x23 [group, spare] →
     (15 < group.toNat → exec (.readGroup ch group) s = .next (s.finish ch r .badField [] .none)) ∧
     ∀ g : GroupId, g.val = group.toNat →
       (s.group g = none → exec (.readGroup ch group) s = .next
         (s.finish ch r .ok [group, 0, 0, 0, 0, 0, 0, 0, 0, 0, 0, 0, 0, 0, 0, 0, 0, 0, 0, 0] .none)) ∧
       (∀ x, s.group g = some x → exec (.readGroup ch group) s = .next
         (s.finish ch r .ok
           ([group, 1, BitVec.ofNat 8 x.workingLane.val, BitVec.ofNat 8 x.protectLane.val,
             if x.revertive then 1 else 0, BitVec.ofNat 8 x.holdOff, BitVec.ofNat 8 x.wtrPeriod,
             if x.operatorAccess then 1 else 0,
             (match x.standing with
               | none => 0
               | some ⟨.lockout, _⟩ => 1
               | some ⟨.force, _⟩ => 2
               | some ⟨.manualP, _⟩ => 3
               | some ⟨.manualW, _⟩ => 4),
             (match x.standing with
               | none => 0
               | some ⟨_, .channel .ch0⟩ => 1
               | some ⟨_, .channel .ch1⟩ => 2
               | some ⟨_, .input n⟩ => BitVec.ofNat 8 (3 + n.val)),
             if x.inputLockout then 1 else 0,
             (0 : BitVec 4) ++ BitVec.ofBool x.conditions.sdP ++ BitVec.ofBool x.conditions.sdW ++
               BitVec.ofBool x.conditions.sfP ++ BitVec.ofBool x.conditions.sfW,
             BitVec.ofNat 8 x.state.code, if x.selected = .protect then 1 else 0, BitVec.ofNat 8 x.topRank,
             BitVec.ofNat 8 (x.holdOffRemaining.getD 0), BitVec.ofNat 8 (x.wtrRemaining.getD 0)] ++
             halfBytes (BitVec.ofNat 16 x.switchCount) ++ [0]) .none)))

/-! ### The access guard -/

/-- R157: a guard fault fills an empty record from the refused request, or counts an overrun, and raises GUARD_FAULT. -/
def Obligations.GuardFaultTaken : Prop :=
  ∀ (s : State) (ch : ChannelId) (r : Request) (reason : FaultReason) (target : Target),
    (s.guard.fault = none → s.guardFault ch r reason target =
      State.withEvents
        { s with guard := { s.guard with
            fault := some ⟨ch, r.code, r.seq, reason, target, s.efa.superframes⟩ } } [.guardFault ch]) ∧
    (∀ f, s.guard.fault = some f → s.guardFault ch r reason target =
      State.withEvents
        { s with guard := { s.guard with overruns := min 255 (s.guard.overruns + 1) } } [.guardFault ch])

/-- SET_REGION: BAD_FIELD, a region made absent, or a region replaced, every other one kept (R159). READ_REGIONS,
READ_FAULT and CLEAR_FAULT: the 56 bytes of the regions, the twelve bytes of the fault record, and the record emptied
with the overrun count (R160 to R162). -/
def Obligations.GuardCommands : Prop :=
  (∀ (s : State) (r : Request) (n present lf ll sf sl rd md : Byte),
     s.Waits .ch0 r 0x30 [n, present, lf, ll, sf, sl, rd, md] →
     let i : Instr := .setRegion n present lf ll sf sl rd md
     ((7 < n.toNat ∨ 1 < present.toNat ∨ (present = 1 ∧
         (7 < lf.toNat ∨ 7 < ll.toNat ∨ 23 < sf.toNat ∨ 23 < sl.toNat ∨ 1 < rd.toNat ∨ 1 < md.toNat ∨
           ll.toNat < lf.toNat ∨ sl.toNat < sf.toNat))) →
       exec i s = .next (s.finish .ch0 r .badField [] .none)) ∧
     ∀ m : RegionId, m.val = n.toNat →
       let put (x : Option Region) : State :=
         { s with guard := { s.guard with regions := s.guard.regions.set m.val x m.isLt } }
       (present = 0 → exec i s = .next ((put none).finish .ch0 r .ok [n, 0, 0, 0, 0, 0, 0, 0] .none)) ∧
       (∀ a b : Place, present = 1 → a.lane.val = lf.toNat → b.lane.val = ll.toNat → a.slot.val = sf.toNat →
         b.slot.val = sl.toNat → a.lane ≤ b.lane → a.slot ≤ b.slot → rd.toNat ≤ 1 → md.toNat ≤ 1 →
         exec i s = .next
           ((put (some ⟨a.lane, b.lane, a.slot, b.slot, decide (rd = 1), decide (md = 1)⟩)).finish .ch0 r .ok
             [n, 1, lf, ll, sf, sl, rd, md] .none))) ∧
  (∀ (s : State) (r : Request),
     let faultBytes : List Byte :=
       (match s.guard.fault with
         | none => [0, 0, 0, 0, 0, 0, 0, 0, 0, 0]
         | some f =>
           [1, if f.channel = .ch0 then 0 else 1, f.code.zeroExtend 8, f.seq.zeroExtend 8,
               (match f.reason with
                 | .supervisor => 1
                 | .region => 2
                 | .groupAccess => 3
                 | .origin => 4)] ++
             (match f.target with
               | .none => [0, 0, 0]
               | .destination p => [1, BitVec.ofNat 8 p.lane.val, BitVec.ofNat 8 p.slot.val]
               | .group g => [2, BitVec.ofNat 8 g.val, 0]) ++ halfBytes f.stamp) ++
         [BitVec.ofNat 8 s.guard.overruns, 0]
     (s.Waits .ch0 r 0x31 [] → exec .readRegions s = .next
       (s.finish .ch0 r .ok
         ((List.finRange 8).flatMap fun n =>
           match s.guard.regions.get n with
           | none => [0, 0, 0, 0, 0, 0, 0]
           | some x =>
             [1, BitVec.ofNat 8 x.laneFirst.val, BitVec.ofNat 8 x.laneLast.val, BitVec.ofNat 8 x.slotFirst.val,
               BitVec.ofNat 8 x.slotLast.val, if x.readPermit then 1 else 0, if x.modifyPermit then 1 else 0])
         .none)) ∧
     (s.Waits .ch0 r 0x32 [] → exec .readFault s = .next (s.finish .ch0 r .ok faultBytes .none)) ∧
     (s.Waits .ch0 r 0x33 [] → exec .clearFault s = .next
       (State.finish { s with guard := { s.guard with fault := none, overruns := 0 } } .ch0 r .ok faultBytes .none)))
end

