-- ==== Sys2Proof/Laws/Operands.lean ====
section
/-! SUPPORT. The operand forms and the numbers behind names, once each: what a range check answers, and the flag bytes by
their bits. -/

namespace Sys2Proof.Machine

theorem finOf_of_val {n : Nat} (f : Fin n) (k : Nat) (h : f.val = k) : finOf n k = some f := by
  subst h
  simp [finOf]

theorem finOf_eq_none {n k : Nat} (h : n ≤ k) : finOf n k = none := by
  simp only [finOf, dite_eq_right_iff, reduceCtorEq, imp_false]
  omega

theorem finOf_eq_some {n k : Nat} {f : Fin n} : finOf n k = some f ↔ f.val = k := by
  constructor
  · intro h
    unfold finOf at h
    split at h
    · exact (congrArg Fin.val (Option.some.inj h)).symm
    · exact absurd h (by simp)
  · exact finOf_of_val f k

/-- A number that came from a byte goes back to it. -/
theorem byteOf_of_val {n : Nat} (f : Fin n) (b : Byte) (h : f.val = b.toNat) : byteOf f.val = b := by
  rw [byteOf, h]
  simp

@[simp] theorem byteOf_toNat (b : Byte) : byteOf b.toNat = b := by
  simp [byteOf]

/-- A two-byte field is its two bytes, most significant first (R176). -/
theorem halfBytes_append (a b : Byte) : halfBytes (a ++ b : Half) = [a, b] := by
  have h1 : (a ++ b : Half).extractLsb' 8 8 = a := by
    apply BitVec.eq_of_getLsbD_eq
    intro i hi
    rw [BitVec.getLsbD_extractLsb', BitVec.getLsbD_append]
    simp [hi]
  have h2 : (a ++ b : Half).extractLsb' 0 8 = b := by
    apply BitVec.eq_of_getLsbD_eq
    intro i hi
    rw [BitVec.getLsbD_extractLsb', BitVec.getLsbD_append]
    simp [hi]
  unfold halfBytes payloadBytes
  rw [h1, h2]

theorem append_of_bytes (h : Half) : (h.extractLsb' 8 8 ++ h.extractLsb' 0 8 : Half) = h := by
  apply BitVec.eq_of_getLsbD_eq
  intro i hi
  rw [BitVec.getLsbD_append, BitVec.getLsbD_extractLsb', BitVec.getLsbD_extractLsb']
  by_cases h8 : i < 8
  · simp [h8]
  · simp [h8, show i - 8 < 8 by omega, show 8 + (i - 8) = i by omega]

theorem flagOf_cases (b : Byte) :
    (b = 0 ∧ flagOf b = some false) ∨ (b = 1 ∧ flagOf b = some true) ∨ (1 < b.toNat ∧ flagOf b = none) := by
  revert b
  decide +kernel

theorem channelOf_cases (b : Byte) :
    (b = 0 ∧ channelOf b = some .ch0) ∨ (b = 1 ∧ channelOf b = some .ch1) ∨ (1 < b.toNat ∧ channelOf b = none) := by
  revert b
  decide +kernel

/-- LEVEL by its bits (10.5). -/
theorem Input.levelByte_eq (i : Input) :
    i.levelByte = (0 : BitVec 5) ++ BitVec.ofBool i.active ++ BitVec.ofBool i.lastSample ++ BitVec.ofBool i.accepted := by
  unfold Input.levelByte byteOf
  generalize i.active = a
  generalize i.lastSample = b
  generalize i.accepted = c
  revert a b c
  decide

/-- CONDITIONS by its bits (10.5). -/
theorem Conditions.byte_eq (x : Conditions) :
    x.byte = (0 : BitVec 4) ++ BitVec.ofBool x.sdP ++ BitVec.ofBool x.sdW ++ BitVec.ofBool x.sfP ++
      BitVec.ofBool x.sfW := by
  unfold Conditions.byte byteOf
  generalize x.sfW = a
  generalize x.sfP = b
  generalize x.sdW = c
  generalize x.sdP = d
  revert a b c d
  decide

/-- A vector's list is its entries in order. -/
theorem toList_eq_map_get {α : Type} {n : Nat} (v : Vector α n) : v.toList = (List.finRange n).map v.get := by
  apply List.ext_getElem
  · simp
  · intro i h1 h2
    simp [Vector.get_eq_getElem]

/-- Some entry of a vector satisfies a test. -/
theorem any_toList_iff {α : Type} {n : Nat} (v : Vector α n) (f : α → Bool) :
    v.toList.any f = true ↔ ∃ i, f (v.get i) = true := by
  rw [toList_eq_map_get]
  simp

/-- Some entry of either bank satisfies a test. -/
theorem ConnectionMap.anyEntry_iff (m : ConnectionMap) (f : Place → Entry → Bool) :
    m.anyEntry f = true ↔ ∃ n d, f d ((m.bank n).get d) = true := by
  unfold ConnectionMap.anyEntry
  rw [List.any_eq_true]
  constructor
  · rintro ⟨d, -, hd⟩
    rcases Bool.or_eq_true_iff.mp hd with h | h
    · exact ⟨.a, d, h⟩
    · exact ⟨.b, d, h⟩
  · rintro ⟨n, d, hd⟩
    refine ⟨d, by simp [Place.all], ?_⟩
    cases n
    · exact Bool.or_eq_true_iff.mpr (.inl hd)
    · exact Bool.or_eq_true_iff.mpr (.inr hd)

/-- The guard's answer is the declarative one (R152). -/
theorem Guard.mayModify_iff (g : Guard) (p : Place) : g.mayModify p = true ↔ g.Grants Region.modifyPermit p := by
  unfold Guard.mayModify Guard.Grants
  rw [any_toList_iff]
  refine exists_congr fun n => ?_
  cases g.regions.get n with
  | none => simp
  | some x => simp [Region.covers, and_assoc]

theorem Guard.mayRead_iff (g : Guard) (p : Place) : g.mayRead p = true ↔ g.Grants Region.readPermit p := by
  unfold Guard.mayRead Guard.Grants
  rw [any_toList_iff]
  refine exists_congr fun n => ?_
  cases g.regions.get n with
  | none => simp
  | some x => simp [Region.covers, and_assoc]

/-- A place is managed exactly when it is the location of some enabled channel (R11). -/
theorem State.managed_iff (s : State) (p : Place) : s.managed p = true ↔ s.Reserved p := by
  simp only [State.managed, State.Reserved, Bool.or_eq_true, beq_iff_eq]
  constructor
  · rintro (h | h)
    · exact ⟨_, h⟩
    · exact ⟨_, h⟩
  · rintro ⟨c, h⟩
    cases c
    · exact .inl h
    · exact .inr h

/-- The sources of an entry are what it draws from (R9). -/
theorem Entry.mem_sources_iff (s : State) (e : Entry) (p : Place) : p ∈ e.sources s.groups ↔ s.Draws e p := by
  obtain ⟨l, k⟩ := p
  unfold State.Draws State.group
  cases e with
  | unused => simp [Entry.sources]
  | fixed c => simp [Entry.sources]
  | direct q f => simp [Entry.sources, eq_comm]
  | protect g j f =>
    cases h : s.groups.get g with
    | none => simp [Entry.sources, h]
    | some x =>
      simp only [Entry.sources, h, List.mem_cons, List.not_mem_nil, or_false, reduceCtorEq, exists_false, false_or,
        Entry.protect.injEq, Place.mk.injEq]
      constructor
      · rintro (⟨rfl, rfl⟩ | ⟨rfl, rfl⟩)
        · exact ⟨g, f, x, ⟨rfl, rfl, rfl⟩, h, .inl rfl⟩
        · exact ⟨g, f, x, ⟨rfl, rfl, rfl⟩, h, .inr rfl⟩
      · rintro ⟨g', f', x', ⟨rfl, rfl, rfl⟩, hx, hl⟩
        rw [h] at hx
        cases hx
        rcases hl with rfl | rfl
        · exact .inl ⟨rfl, rfl⟩
        · exact .inr ⟨rfl, rfl⟩

end Sys2Proof.Machine
end

