-- ==== Sys2Proof/Laws/State.lean ====
section
/-! SUPPORT. The small lemmas of State's named updates: one for each field an update leaves, true by `rfl`, so that no
proof unfolds a record update. -/

namespace Sys2Proof.Machine

variable (s : State) (ch c : ChannelId) (l m : LaneId) (g h : GroupId) (i j : InputId)


/-! ### One record replaced -/

@[simp] theorem State.setLane_strapLane (x : Lane) :
    (s.setLane l x).strapLane = s.strapLane := rfl
@[simp] theorem State.setLane_operatorPlace (x : Lane) :
    (s.setLane l x).operatorPlace = s.operatorPlace := rfl
@[simp] theorem State.setLane_map (x : Lane) :
    (s.setLane l x).map = s.map := rfl
@[simp] theorem State.setLane_efa (x : Lane) :
    (s.setLane l x).efa = s.efa := rfl
@[simp] theorem State.setLane_groups (x : Lane) :
    (s.setLane l x).groups = s.groups := rfl
@[simp] theorem State.setLane_inputs (x : Lane) :
    (s.setLane l x).inputs = s.inputs := rfl
@[simp] theorem State.setLane_ch0 (x : Lane) :
    (s.setLane l x).ch0 = s.ch0 := rfl
@[simp] theorem State.setLane_ch1 (x : Lane) :
    (s.setLane l x).ch1 = s.ch1 := rfl
@[simp] theorem State.setLane_guard (x : Lane) :
    (s.setLane l x).guard = s.guard := rfl
@[simp] theorem State.setLane_queue0 (x : Lane) :
    (s.setLane l x).queue0 = s.queue0 := rfl
@[simp] theorem State.setLane_queue1 (x : Lane) :
    (s.setLane l x).queue1 = s.queue1 := rfl
@[simp] theorem State.setLane_work (x : Lane) :
    (s.setLane l x).work = s.work := rfl
@[simp] theorem State.setLane_free (x : Lane) :
    (s.setLane l x).free = s.free := rfl
@[simp] theorem State.setLane_pending (x : Lane) :
    (s.setLane l x).pending = s.pending := rfl
@[simp] theorem State.setGroup_strapLane (x : Option Group) :
    (s.setGroup g x).strapLane = s.strapLane := rfl
@[simp] theorem State.setGroup_operatorPlace (x : Option Group) :
    (s.setGroup g x).operatorPlace = s.operatorPlace := rfl
@[simp] theorem State.setGroup_map (x : Option Group) :
    (s.setGroup g x).map = s.map := rfl
@[simp] theorem State.setGroup_efa (x : Option Group) :
    (s.setGroup g x).efa = s.efa := rfl
@[simp] theorem State.setGroup_lanes (x : Option Group) :
    (s.setGroup g x).lanes = s.lanes := rfl
@[simp] theorem State.setGroup_inputs (x : Option Group) :
    (s.setGroup g x).inputs = s.inputs := rfl
@[simp] theorem State.setGroup_ch0 (x : Option Group) :
    (s.setGroup g x).ch0 = s.ch0 := rfl
@[simp] theorem State.setGroup_ch1 (x : Option Group) :
    (s.setGroup g x).ch1 = s.ch1 := rfl
@[simp] theorem State.setGroup_guard (x : Option Group) :
    (s.setGroup g x).guard = s.guard := rfl
@[simp] theorem State.setGroup_queue0 (x : Option Group) :
    (s.setGroup g x).queue0 = s.queue0 := rfl
@[simp] theorem State.setGroup_queue1 (x : Option Group) :
    (s.setGroup g x).queue1 = s.queue1 := rfl
@[simp] theorem State.setGroup_work (x : Option Group) :
    (s.setGroup g x).work = s.work := rfl
@[simp] theorem State.setGroup_free (x : Option Group) :
    (s.setGroup g x).free = s.free := rfl
@[simp] theorem State.setGroup_pending (x : Option Group) :
    (s.setGroup g x).pending = s.pending := rfl
@[simp] theorem State.setInput_strapLane (x : Input) :
    (s.setInput i x).strapLane = s.strapLane := rfl
@[simp] theorem State.setInput_operatorPlace (x : Input) :
    (s.setInput i x).operatorPlace = s.operatorPlace := rfl
@[simp] theorem State.setInput_map (x : Input) :
    (s.setInput i x).map = s.map := rfl
@[simp] theorem State.setInput_efa (x : Input) :
    (s.setInput i x).efa = s.efa := rfl
@[simp] theorem State.setInput_lanes (x : Input) :
    (s.setInput i x).lanes = s.lanes := rfl
@[simp] theorem State.setInput_groups (x : Input) :
    (s.setInput i x).groups = s.groups := rfl
@[simp] theorem State.setInput_ch0 (x : Input) :
    (s.setInput i x).ch0 = s.ch0 := rfl
@[simp] theorem State.setInput_ch1 (x : Input) :
    (s.setInput i x).ch1 = s.ch1 := rfl
@[simp] theorem State.setInput_guard (x : Input) :
    (s.setInput i x).guard = s.guard := rfl
@[simp] theorem State.setInput_queue0 (x : Input) :
    (s.setInput i x).queue0 = s.queue0 := rfl
@[simp] theorem State.setInput_queue1 (x : Input) :
    (s.setInput i x).queue1 = s.queue1 := rfl
@[simp] theorem State.setInput_work (x : Input) :
    (s.setInput i x).work = s.work := rfl
@[simp] theorem State.setInput_free (x : Input) :
    (s.setInput i x).free = s.free := rfl
@[simp] theorem State.setInput_pending (x : Input) :
    (s.setInput i x).pending = s.pending := rfl
@[simp] theorem State.setChannel_strapLane (x : Channel) :
    (s.setChannel ch x).strapLane = s.strapLane := by
  cases ch <;> rfl
@[simp] theorem State.setChannel_operatorPlace (x : Channel) :
    (s.setChannel ch x).operatorPlace = s.operatorPlace := by
  cases ch <;> rfl
@[simp] theorem State.setChannel_map (x : Channel) :
    (s.setChannel ch x).map = s.map := by
  cases ch <;> rfl
@[simp] theorem State.setChannel_efa (x : Channel) :
    (s.setChannel ch x).efa = s.efa := by
  cases ch <;> rfl
@[simp] theorem State.setChannel_lanes (x : Channel) :
    (s.setChannel ch x).lanes = s.lanes := by
  cases ch <;> rfl
@[simp] theorem State.setChannel_groups (x : Channel) :
    (s.setChannel ch x).groups = s.groups := by
  cases ch <;> rfl
@[simp] theorem State.setChannel_inputs (x : Channel) :
    (s.setChannel ch x).inputs = s.inputs := by
  cases ch <;> rfl
@[simp] theorem State.setChannel_guard (x : Channel) :
    (s.setChannel ch x).guard = s.guard := by
  cases ch <;> rfl
@[simp] theorem State.setChannel_queue0 (x : Channel) :
    (s.setChannel ch x).queue0 = s.queue0 := by
  cases ch <;> rfl
@[simp] theorem State.setChannel_queue1 (x : Channel) :
    (s.setChannel ch x).queue1 = s.queue1 := by
  cases ch <;> rfl
@[simp] theorem State.setChannel_work (x : Channel) :
    (s.setChannel ch x).work = s.work := by
  cases ch <;> rfl
@[simp] theorem State.setChannel_free (x : Channel) :
    (s.setChannel ch x).free = s.free := by
  cases ch <;> rfl
@[simp] theorem State.setChannel_pending (x : Channel) :
    (s.setChannel ch x).pending = s.pending := by
  cases ch <;> rfl
@[simp] theorem State.setQueue_strapLane (q : Queue) :
    (s.setQueue ch q).strapLane = s.strapLane := by
  cases ch <;> rfl
@[simp] theorem State.setQueue_operatorPlace (q : Queue) :
    (s.setQueue ch q).operatorPlace = s.operatorPlace := by
  cases ch <;> rfl
@[simp] theorem State.setQueue_map (q : Queue) :
    (s.setQueue ch q).map = s.map := by
  cases ch <;> rfl
@[simp] theorem State.setQueue_efa (q : Queue) :
    (s.setQueue ch q).efa = s.efa := by
  cases ch <;> rfl
@[simp] theorem State.setQueue_lanes (q : Queue) :
    (s.setQueue ch q).lanes = s.lanes := by
  cases ch <;> rfl
@[simp] theorem State.setQueue_groups (q : Queue) :
    (s.setQueue ch q).groups = s.groups := by
  cases ch <;> rfl
@[simp] theorem State.setQueue_inputs (q : Queue) :
    (s.setQueue ch q).inputs = s.inputs := by
  cases ch <;> rfl
@[simp] theorem State.setQueue_ch0 (q : Queue) :
    (s.setQueue ch q).ch0 = s.ch0 := by
  cases ch <;> rfl
@[simp] theorem State.setQueue_ch1 (q : Queue) :
    (s.setQueue ch q).ch1 = s.ch1 := by
  cases ch <;> rfl
@[simp] theorem State.setQueue_guard (q : Queue) :
    (s.setQueue ch q).guard = s.guard := by
  cases ch <;> rfl
@[simp] theorem State.setQueue_work (q : Queue) :
    (s.setQueue ch q).work = s.work := by
  cases ch <;> rfl
@[simp] theorem State.setQueue_free (q : Queue) :
    (s.setQueue ch q).free = s.free := by
  cases ch <;> rfl
@[simp] theorem State.setQueue_pending (q : Queue) :
    (s.setQueue ch q).pending = s.pending := by
  cases ch <;> rfl
@[simp] theorem State.supply_strapLane (w : Word) :
    (s.supply ch w).strapLane = s.strapLane := by
  cases ch <;> rfl
@[simp] theorem State.supply_operatorPlace (w : Word) :
    (s.supply ch w).operatorPlace = s.operatorPlace := by
  cases ch <;> rfl
@[simp] theorem State.supply_map (w : Word) :
    (s.supply ch w).map = s.map := by
  cases ch <;> rfl
@[simp] theorem State.supply_efa (w : Word) :
    (s.supply ch w).efa = s.efa := by
  cases ch <;> rfl
@[simp] theorem State.supply_lanes (w : Word) :
    (s.supply ch w).lanes = s.lanes := by
  cases ch <;> rfl
@[simp] theorem State.supply_groups (w : Word) :
    (s.supply ch w).groups = s.groups := by
  cases ch <;> rfl
@[simp] theorem State.supply_inputs (w : Word) :
    (s.supply ch w).inputs = s.inputs := by
  cases ch <;> rfl
@[simp] theorem State.supply_ch0 (w : Word) :
    (s.supply ch w).ch0 = s.ch0 := by
  cases ch <;> rfl
@[simp] theorem State.supply_ch1 (w : Word) :
    (s.supply ch w).ch1 = s.ch1 := by
  cases ch <;> rfl
@[simp] theorem State.supply_guard (w : Word) :
    (s.supply ch w).guard = s.guard := by
  cases ch <;> rfl
@[simp] theorem State.supply_queue0 (w : Word) :
    (s.supply ch w).queue0 = s.queue0 := by
  cases ch <;> rfl
@[simp] theorem State.supply_queue1 (w : Word) :
    (s.supply ch w).queue1 = s.queue1 := by
  cases ch <;> rfl
@[simp] theorem State.supply_free (w : Word) :
    (s.supply ch w).free = s.free := by
  cases ch <;> rfl
@[simp] theorem State.supply_pending (w : Word) :
    (s.supply ch w).pending = s.pending := by
  cases ch <;> rfl
@[simp] theorem State.withEvents_strapLane (es : List Event) :
    (s.withEvents es).strapLane = s.strapLane := rfl
@[simp] theorem State.withEvents_operatorPlace (es : List Event) :
    (s.withEvents es).operatorPlace = s.operatorPlace := rfl
@[simp] theorem State.withEvents_map (es : List Event) :
    (s.withEvents es).map = s.map := rfl
@[simp] theorem State.withEvents_efa (es : List Event) :
    (s.withEvents es).efa = s.efa := rfl
@[simp] theorem State.withEvents_lanes (es : List Event) :
    (s.withEvents es).lanes = s.lanes := rfl
@[simp] theorem State.withEvents_groups (es : List Event) :
    (s.withEvents es).groups = s.groups := rfl
@[simp] theorem State.withEvents_inputs (es : List Event) :
    (s.withEvents es).inputs = s.inputs := rfl
@[simp] theorem State.withEvents_ch0 (es : List Event) :
    (s.withEvents es).ch0 = s.ch0 := rfl
@[simp] theorem State.withEvents_ch1 (es : List Event) :
    (s.withEvents es).ch1 = s.ch1 := rfl
@[simp] theorem State.withEvents_guard (es : List Event) :
    (s.withEvents es).guard = s.guard := rfl
@[simp] theorem State.withEvents_work (es : List Event) :
    (s.withEvents es).work = s.work := rfl
@[simp] theorem State.withEvents_free (es : List Event) :
    (s.withEvents es).free = s.free := rfl
@[simp] theorem State.withEvents_pending (es : List Event) :
    (s.withEvents es).pending = s.pending := rfl


/-! ### Records read back -/

@[simp] theorem State.channel_ch0 : s.channel .ch0 = s.ch0 := rfl
@[simp] theorem State.channel_ch1 : s.channel .ch1 = s.ch1 := rfl
@[simp] theorem State.queue_ch0 : s.queue .ch0 = s.queue0 := rfl
@[simp] theorem State.queue_ch1 : s.queue .ch1 = s.queue1 := rfl
@[simp] theorem State.setChannel_of_ch0 (x : Channel) : s.setChannel .ch0 x = { s with ch0 := x } := rfl
@[simp] theorem State.setChannel_of_ch1 (x : Channel) : s.setChannel .ch1 x = { s with ch1 := x } := rfl
@[simp] theorem State.setQueue_of_ch0 (q : Queue) : s.setQueue .ch0 q = { s with queue0 := q } := rfl
@[simp] theorem State.setQueue_of_ch1 (q : Queue) : s.setQueue .ch1 q = { s with queue1 := q } := rfl
@[simp] theorem State.channel_setChannel (x : Channel) : (s.setChannel ch x).channel ch = x := by
  cases ch <;> rfl

theorem State.channel_setChannel_of_ne (x : Channel) (hne : c ≠ ch) : (s.setChannel ch x).channel c = s.channel c := by
  cases ch <;> cases c <;> first | rfl | exact absurd rfl hne
@[simp] theorem State.channel_setQueue (q : Queue) : (s.setQueue c q).channel ch = s.channel ch := by
  cases ch <;> cases c <;> rfl
@[simp] theorem State.queue_setQueue (q : Queue) : (s.setQueue ch q).queue ch = q := by
  cases ch <;> rfl

theorem State.queue_setQueue_of_ne (q : Queue) (hne : c ≠ ch) : (s.setQueue ch q).queue c = s.queue c := by
  cases ch <;> cases c <;> first | rfl | exact absurd rfl hne
@[simp] theorem State.queue_setChannel (x : Channel) : (s.setChannel c x).queue ch = s.queue ch := by
  cases ch <;> cases c <;> rfl
@[simp] theorem State.lane_setLane (x : Lane) : (s.setLane l x).lane l = x := by
  simp [State.setLane, State.lane, Vector.get_eq_getElem]

theorem State.lane_setLane_of_ne (x : Lane) (hne : m ≠ l) : (s.setLane l x).lane m = s.lane m := by
  simp [State.setLane, State.lane, Vector.get_eq_getElem, Fin.val_ne_of_ne hne.symm]
@[simp] theorem State.group_setGroup (x : Option Group) : (s.setGroup g x).group g = x := by
  simp [State.setGroup, State.group, Vector.get_eq_getElem]

theorem State.group_setGroup_of_ne (x : Option Group) (hne : h ≠ g) : (s.setGroup g x).group h = s.group h := by
  simp [State.setGroup, State.group, Vector.get_eq_getElem, Fin.val_ne_of_ne hne.symm]
@[simp] theorem State.input_setInput (x : Input) : (s.setInput i x).input i = x := by
  simp [State.setInput, State.input, Vector.get_eq_getElem]

theorem State.input_setInput_of_ne (x : Input) (hne : j ≠ i) : (s.setInput i x).input j = s.input j := by
  simp [State.setInput, State.input, Vector.get_eq_getElem, Fin.val_ne_of_ne hne.symm]

/-! ### Derived reads depend on their own fields -/

theorem State.place_congr (t : State) (h0 : t.strapLane = s.strapLane) (h1 : t.operatorPlace = s.operatorPlace) :
    t.place ch = s.place ch := by
  cases ch <;> simp [State.place, h0, h1]

theorem State.enabled_congr (t : State) (h1 : t.operatorPlace = s.operatorPlace) : t.enabled ch = s.enabled ch := by
  cases ch <;> simp [State.enabled, State.place, h1]

theorem State.lane_congr (t : State) (hl : t.lanes = s.lanes) : t.lane l = s.lane l := by
  simp [State.lane, hl]

theorem State.group_congr (t : State) (hg : t.groups = s.groups) : t.group g = s.group g := by
  simp [State.group, hg]

theorem State.input_congr (t : State) (hi : t.inputs = s.inputs) : t.input i = s.input i := by
  simp [State.input, hi]

end Sys2Proof.Machine
end

