-- ==== Sys2Proof/Laws/Occurrences.lean ====
section
/-! SUPPORT. What an occurrence does to a queue (R165, R166) and to the state, and the queue law through each of the queue's
operations. -/

namespace Sys2Proof.Machine

/-! ### Raising -/

theorem State.queueAfter_nil (s : State) (n : Half) (ch : ChannelId) : s.queueAfter n [] ch = s.queue ch := rfl

@[simp] theorem State.withEvents_nil (s : State) : s.withEvents [] = s := rfl

theorem State.offer_eq (s : State) (ch : ChannelId) (e : Event) :
    s.offer ch e = s.setQueue ch (s.queueAfter s.efa.superframes [e] ch) := by
  unfold State.offer State.queueAfter
  cases ch <;> simp only [List.foldl_cons, List.foldl_nil] <;> split <;> rfl

theorem State.raise_eq (s : State) (e : Event) : s.raise e = s.withEvents [e] := by
  unfold State.raise
  rw [State.offer_eq, State.offer_eq]
  rfl

/-- Occurrences offered one after another are the occurrences of the joined list. -/
theorem State.withEvents_append (s : State) (es fs : List Event) :
    (s.withEvents es).withEvents fs = s.withEvents (es ++ fs) := by
  simp only [State.withEvents, State.queueAfter, List.foldl_append]
  rfl

theorem State.raiseAll_eq (s : State) (es : List Event) : s.raiseAll es = s.withEvents es := by
  induction es generalizing s with
  | nil => rfl
  | cons e es ih =>
    have step : s.raiseAll (e :: es) = (s.raise e).raiseAll es := rfl
    rw [step, ih, State.raise_eq, State.withEvents_append]
    rfl

@[simp] theorem State.queue_withEvents (s : State) (es : List Event) (ch : ChannelId) :
    (s.withEvents es).queue ch = s.queueAfter s.efa.superframes es ch := by
  cases ch <;> rfl

@[simp] theorem State.channel_withEvents (s : State) (es : List Event) (ch : ChannelId) :
    (s.withEvents es).channel ch = s.channel ch := by
  cases ch <;> rfl

@[simp] theorem State.place_withEvents (s : State) (es : List Event) (ch : ChannelId) :
    (s.withEvents es).place ch = s.place ch := by
  cases ch <;> rfl

@[simp] theorem State.lane_withEvents (s : State) (es : List Event) (l : LaneId) :
    (s.withEvents es).lane l = s.lane l := rfl

@[simp] theorem State.group_withEvents (s : State) (es : List Event) (g : GroupId) :
    (s.withEvents es).group g = s.group g := rfl

@[simp] theorem State.input_withEvents (s : State) (es : List Event) (i : InputId) :
    (s.withEvents es).input i = s.input i := rfl

/-! ### One occurrence at one queue -/

/-- Case 1 of R166 applies to the first record of the kind and subject that is not in flight. -/
theorem coalesce_found (e : Event) (before after : List EventRecord) (r : EventRecord) (he : r.event = e)
    (hf : r.inFlight = false) (hb : ∀ x ∈ before, ¬ (x.event = e ∧ x.inFlight = false)) :
    coalesce e (before ++ r :: after) =
      some (before ++ { r with count := satInc Config.byteLimit r.count } :: after) := by
  induction before with
  | nil => simp [coalesce, he, hf]
  | cons x before ih =>
    have hx := hb x (by simp)
    have ih := ih fun y hy => hb y (by simp [hy])
    simp [coalesce, hx, ih]

theorem coalesce_eq_none (e : Event) (records : List EventRecord) :
    coalesce e records = none ↔ ∀ x ∈ records, ¬ (x.event = e ∧ x.inFlight = false) := by
  induction records with
  | nil => simp [coalesce]
  | cons r rest ih =>
    by_cases h : r.event = e ∧ r.inFlight = false
    · simp [coalesce, h]
    · have h' : r.event = e → r.inFlight = true := by simpa using h
      simp [coalesce, h, ih]
      exact fun _ => h'

/-- What case 1 of R166 leaves: one record of the list with its COUNT raised. -/
theorem coalesce_eq_some (e : Event) (records out : List EventRecord) (h : coalesce e records = some out) :
    ∃ before r after, records = before ++ r :: after ∧ r.event = e ∧ r.inFlight = false ∧
      out = before ++ { r with count := satInc Config.byteLimit r.count } :: after := by
  induction records generalizing out with
  | nil => simp [coalesce] at h
  | cons r rest ih =>
    unfold coalesce at h
    split at h
    · rename_i hr
      exact ⟨[], r, rest, rfl, hr.1, hr.2, (Option.some.inj h).symm⟩
    · obtain ⟨out', ho, rfl⟩ := Option.map_eq_some_iff.mp h
      obtain ⟨b, x, a, rfl, hx, hf, rfl⟩ := ih out' ho
      exact ⟨r :: b, x, a, rfl, hx, hf, rfl⟩

/-- The three outcomes of an occurrence offered to a queue (R166). -/
theorem Queue.arrive_cases (q : Queue) (e : Event) (n : Half) :
    (∃ before r after, q.records = before ++ r :: after ∧ r.event = e ∧ r.inFlight = false ∧
      q.arrive e n = Queue.judge
        { q with records := before ++ { r with count := satInc Config.byteLimit r.count } :: after }) ∨
    ((∀ x ∈ q.records, ¬ (x.event = e ∧ x.inFlight = false)) ∧ q.records.length < 32 ∧
      q.arrive e n = Queue.judge { q with records := q.records ++ [⟨e, 1, n, false⟩] }) ∨
    ((∀ x ∈ q.records, ¬ (x.event = e ∧ x.inFlight = false)) ∧ 32 ≤ q.records.length ∧
      q.arrive e n = Queue.judge { q with overflow := true, lostCount := satInc Config.byteLimit q.lostCount }) := by
  unfold Queue.arrive
  split
  · rename_i out h
    obtain ⟨b, r, a, hq, he, hf, rfl⟩ := coalesce_eq_some _ _ _ h
    exact .inl ⟨b, r, a, hq, he, hf, rfl⟩
  · rename_i h
    have h := (coalesce_eq_none _ _).mp h
    split
    · rename_i hl
      exact .inr (.inl ⟨h, hl, rfl⟩)
    · rename_i hl
      exact .inr (.inr ⟨h, by simpa [Config.queueRecords] using hl, rfl⟩)

@[simp] theorem Queue.judge_records (q : Queue) : q.judge.records = q.records := rfl
@[simp] theorem Queue.judge_overflow (q : Queue) : q.judge.overflow = q.overflow := rfl
@[simp] theorem Queue.judge_lostCount (q : Queue) : q.judge.lostCount = q.lostCount := rfl
@[simp] theorem Queue.judge_subscription (q : Queue) : q.judge.subscription = q.subscription := rfl
@[simp] theorem Queue.judge_alarmMask (q : Queue) : q.judge.alarmMask = q.alarmMask := rfl
theorem Queue.judge_alarm (q : Queue) : q.judge.alarm = q.judge.alarmCondition := rfl

theorem Queue.alarmCondition_iff (q : Queue) :
    q.alarmCondition = true ↔ (∃ r ∈ q.records, q.alarmMask.getLsbD r.event.code = true) ∨
      (q.overflow = true ∧ q.alarmMask.getLsbD 15 = true) := by
  simp [Queue.alarmCondition, maskHolds, overflowItem]

/-! ### The queue law -/

/-- An occurrence keeps the queue law (R164, R166, R167, R124). -/
theorem Queue.Lawful.arrive {q : Queue} (h : q.Lawful) (e : Event) (n : Half) : (q.arrive e n).Lawful := by
  rcases q.arrive_cases e n with ⟨b, r, a, hq, he, hf, hr⟩ | ⟨hno, hlen, hr⟩ | ⟨hno, hlen, hr⟩
  · rw [hr]
    have hc := h.count_range
    have hp := h.inFlight_first
    have hd := h.waiting_distinct
    have hl := h.length_le
    rw [hq] at hc hp hd hl
    have hcr := hc r (by simp)
    refine ⟨by simpa using hl, ?_, ?_, ?_, h.overflow_iff, h.lost_le, Queue.judge_alarm _, h.spare_clear⟩
    · intro x hx
      simp only [Queue.judge_records, List.mem_append, List.mem_cons] at hx
      rcases hx with hx | rfl | hx
      · exact hc x (by simp [hx])
      · simp only [satInc, Config.byteLimit]; omega
      · exact hc x (by simp [hx])
    · simp only [Queue.judge_records, List.pairwise_append, List.pairwise_cons, List.mem_cons] at hp ⊢
      refine ⟨hp.1, ⟨hp.2.1.1, hp.2.1.2⟩, ?_⟩
      intro x hx y hy
      rcases hy with rfl | hy
      · exact hp.2.2 x hx r (.inl rfl)
      · exact hp.2.2 x hx y (.inr hy)
    · simpa [hf, List.filter_cons] using hd
  · rw [hr]
    refine ⟨by simp; omega, ?_, ?_, ?_, h.overflow_iff, h.lost_le, Queue.judge_alarm _, h.spare_clear⟩
    · intro x hx
      simp only [Queue.judge_records, List.mem_append, List.mem_singleton] at hx
      rcases hx with hx | rfl
      · exact h.count_range x hx
      · simp
    · simp only [Queue.judge_records, List.pairwise_append]
      refine ⟨h.inFlight_first, by simp, ?_⟩
      intro x _ y hy
      simp only [List.mem_singleton] at hy
      subst hy
      simp
    · simp only [Queue.judge_records, List.filter_append, List.map_append]
      refine List.nodup_append.mpr ⟨h.waiting_distinct, by simp, ?_⟩
      intro x hx y hy
      simp only [List.mem_map, List.mem_filter] at hx
      obtain ⟨r, ⟨hr1, hr2⟩, rfl⟩ := hx
      simp only [Bool.not_false, List.filter_cons_of_pos, List.filter_nil, List.map_cons, List.map_nil,
        List.mem_singleton] at hy
      subst hy
      exact fun hev => hno r hr1 ⟨hev, by simpa using hr2⟩
  · rw [hr]
    refine ⟨h.length_le, h.count_range, h.inFlight_first, h.waiting_distinct, ?_, ?_, Queue.judge_alarm _, h.spare_clear⟩
    · simp [satInc, Config.byteLimit]
    · simp [satInc, Config.byteLimit]

/-- An occurrence leaves the number of records in flight (R166: a record in flight is never counted into). -/
theorem Queue.inFlightCount_arrive (q : Queue) (e : Event) (n : Half) :
    (q.arrive e n).inFlightCount = q.inFlightCount := by
  rcases q.arrive_cases e n with ⟨b, r, a, hq, -, hf, hr⟩ | ⟨-, -, hr⟩ | ⟨-, -, hr⟩ <;> rw [hr]
  · simp [Queue.inFlightCount, hq, hf, List.countP_append]
  · simp [Queue.inFlightCount, List.countP_append]
  · rfl

/-- The queue law through any occurrences. -/
theorem State.queueAfter_lawful (s : State) (n : Half) (es : List Event) (ch : ChannelId) (h : (s.queue ch).Lawful) :
    (s.queueAfter n es ch).Lawful := by
  have key : ∀ (es : List Event) (q : Queue), q.Lawful → (es.foldl (fun q e =>
      if s.enabled ch && maskHolds q.subscription e then q.arrive e n else q) q).Lawful := by
    intro es
    induction es with
    | nil => exact fun q h => h
    | cons e es ih =>
      intro q h
      rw [List.foldl_cons]
      refine ih _ ?_
      split
      · exact h.arrive e n
      · exact h
  exact key es _ h

theorem State.queueAfter_inFlightCount (s : State) (n : Half) (es : List Event) (ch : ChannelId) :
    (s.queueAfter n es ch).inFlightCount = (s.queue ch).inFlightCount := by
  have key : ∀ (es : List Event) (q : Queue), (es.foldl (fun q e =>
      if s.enabled ch && maskHolds q.subscription e then q.arrive e n else q) q).inFlightCount = q.inFlightCount := by
    intro es
    induction es with
    | nil => exact fun q => rfl
    | cons e es ih =>
      intro q
      rw [List.foldl_cons, ih]
      split
      · exact Queue.inFlightCount_arrive q e n
      · rfl
  exact key es _

end Sys2Proof.Machine
end

