-- ==== Sys2Proof/Laws/Requests.lean ====
section
/-! SUPPORT. A request row and the request that waits for it: what `State.whenAsked` answers, in both directions. -/

namespace Sys2Proof.Machine

theorem State.waiting_eq_some (s : State) (ch : ChannelId) (r : Request) :
    s.waiting ch = some r ↔ (s.channel ch).phase = .executing r true := by
  unfold State.waiting
  split
  · rename_i r' h
    simp [h]
  · rename_i h
    constructor
    · intro e; exact absurd e (by simp)
    · intro e; exact absurd e (h r)

theorem State.waiting_eq_none (s : State) (ch : ChannelId) :
    s.waiting ch = none ↔ ∀ r, (s.channel ch).phase ≠ .executing r true := by
  rw [Option.eq_none_iff_forall_ne_some]
  exact forall_congr' fun r => not_congr (s.waiting_eq_some ch r)

/-- A channel asks for a command exactly when its waiting request decodes to it. -/
theorem State.asks_eq_some (s : State) (ch : ChannelId) (i : Instr) (r : Request) :
    s.asks ch i = some r ↔
      (s.channel ch).phase = .executing r true ∧ decodeCommand ch r.code (bodyBytes r.body) = some i := by
  unfold State.asks
  split
  · rename_i r' h
    have h' := (s.waiting_eq_some ch r').mp h
    constructor
    · intro e
      split at e
      · cases e
        exact ⟨h', ‹_›⟩
      · exact absurd e (by simp)
    · rintro ⟨hp, hd⟩
      rw [h'] at hp
      cases hp
      rw [if_pos hd]
  · rename_i h
    have h' := (s.waiting_eq_none ch).mp h
    simp [h' r]

theorem State.asks_eq_none (s : State) (ch : ChannelId) (i : Instr) :
    s.asks ch i = none ↔
      ∀ r, (s.channel ch).phase = .executing r true → decodeCommand ch r.code (bodyBytes r.body) ≠ some i := by
  rw [Option.eq_none_iff_forall_ne_some]
  refine forall_congr' fun r => ?_
  rw [Ne, s.asks_eq_some ch i r, not_and]

/-- The owner takes the request that waits. -/
theorem State.whenAsked_of_asks (s : State) (ch : ChannelId) (i : Instr) (take : Request → State) (r : Request)
    (h : s.asks ch i = some r) : s.whenAsked ch i take = .next (take r) := by
  simp [State.whenAsked, h]

/-- A request that waits, by its CODE and bytes, is taken by the row it decodes to. -/
theorem State.Waits.taken {s : State} {ch : ChannelId} {r : Request} {code : BitVec 6} {bytes : List Byte}
    (h : s.Waits ch r code bytes) {i : Instr} (hd : decodeCommand ch code bytes = some i) (take : Request → State) :
    s.whenAsked ch i take = .next (take r) :=
  s.whenAsked_of_asks ch i take r ((s.asks_eq_some ch i r).mpr ⟨h.phase, by rw [h.code_eq, h.bytes_eq]; exact hd⟩)

/-- A row is the taking of a request that waits, or changes nothing. -/
theorem State.whenAsked_cases (s : State) (ch : ChannelId) (i : Instr) (take : Request → State) :
    s.whenAsked ch i take = .next s ∨
      ∃ r, s.asks ch i = some r ∧ s.whenAsked ch i take = .next (take r) := by
  cases h : s.asks ch i with
  | none => exact .inl (by simp [State.whenAsked, h])
  | some r => exact .inr ⟨r, rfl, by simp [State.whenAsked, h]⟩

end Sys2Proof.Machine
end

