-- ==== Sys2Proof/Laws/Groups.lean ====
section
/-! SUPPORT. The groups: the top item, a re-decision's record and occurrences, items done in an open order, and what the
reports of lanes and inputs leave unchanged. -/

namespace Sys2Proof.Machine

/-! ### Items -/

/-- The top item is the present item of lowest rank number (R88). -/
theorem Group.topItem_eq_some (x : Group) (i : Item) :
    x.topItem = some i ↔ x.present i = true ∧ ∀ j, x.present j = true → i.rank ≤ j.rank := by
  have key : ∀ p : Item → Bool, ([Item.lockout, .sfP, .force, .sfW, .sdP, .sdW, .manual].find? p = some i ↔
      p i = true ∧ ∀ j, p j = true → i.rank ≤ j.rank) := by
    intro p
    rw [List.find?_eq_some_iff_append]
    constructor
    · rintro ⟨hp, as, bs, e, hb⟩
      refine ⟨hp, fun j hj => ?_⟩
      have hs : ([Item.lockout, .sfP, .force, .sfW, .sdP, .sdW, .manual]).Pairwise fun a b => a.rank ≤ b.rank := by
        decide
      have hm : j ∈ [Item.lockout, .sfP, .force, .sfW, .sdP, .sdW, .manual] := by cases j <;> decide
      rw [e, List.pairwise_append] at hs
      rw [e, List.mem_append, List.mem_cons] at hm
      rcases hm with hm | rfl | hm
      · have := hb j hm
        simp [hj] at this
      · exact le_rfl
      · exact (List.pairwise_cons.mp hs.2.1).1 j hm
    · rintro ⟨hi, hm⟩
      refine ⟨hi, ?_⟩
      have no : ∀ j : Item, j.rank < i.rank → (!p j) = true := fun j hj => by
        cases hp : p j with
        | false => rfl
        | true => exact absurd (hm j hp) (Nat.not_le_of_lt hj)
      cases i
      · exact ⟨[], _, rfl, by simp⟩
      · exact ⟨[.lockout], _, rfl, fun j hj => no j (by simp at hj; subst hj; decide)⟩
      · exact ⟨[.lockout, .sfP], _, rfl, fun j hj => no j (by simp at hj; rcases hj with rfl | rfl <;> decide)⟩
      all_goals
        first
          | exact ⟨[.lockout, .sfP, .force], _, rfl, fun j hj => no j (by
              simp at hj; rcases hj with rfl | rfl | rfl <;> decide)⟩
          | exact ⟨[.lockout, .sfP, .force, .sfW], _, rfl, fun j hj => no j (by
              simp at hj; rcases hj with rfl | rfl | rfl | rfl <;> decide)⟩
          | exact ⟨[.lockout, .sfP, .force, .sfW, .sdP], _, rfl, fun j hj => no j (by
              simp at hj; rcases hj with rfl | rfl | rfl | rfl | rfl <;> decide)⟩
          | exact ⟨[.lockout, .sfP, .force, .sfW, .sdP, .sdW], _, rfl, fun j hj => no j (by
              simp at hj; rcases hj with rfl | rfl | rfl | rfl | rfl | rfl <;> decide)⟩
  exact key x.present

theorem Group.topItem_eq_none (x : Group) : x.topItem = none ↔ ∀ j, x.present j = false := by
  unfold Group.topItem
  rw [List.find?_eq_none]
  constructor
  · intro h j
    have := h j (by cases j <;> simp)
    simpa using this
  · intro h j _
    simp [h j]

/-- A request is outranked exactly by a present item of a lower rank number (R101). -/
theorem Group.outranks_iff (x : Group) (k : RequestKind) :
    x.outranks k = true ↔ ∃ i, x.present i = true ∧ i.rank < k.rank := by
  unfold Group.outranks
  cases h : x.topItem with
  | none =>
    have := x.topItem_eq_none.mp h
    simp [this]
  | some i =>
    obtain ⟨hp, hm⟩ := (x.topItem_eq_some i).mp h
    simp only [decide_eq_true_eq]
    constructor
    · intro hr
      exact ⟨i, hp, hr⟩
    · rintro ⟨j, hj, hr⟩
      exact lt_of_le_of_lt (hm j hj) hr

/-! ### A re-decision -/

@[simp] theorem Group.enter_state (x : Group) (st : GroupState) (h w : Option Nat) : (x.enter st h w).state = st := rfl
@[simp] theorem Group.enter_selected (x : Group) (st : GroupState) (h w : Option Nat) :
    (x.enter st h w).selected = st.selection := rfl
@[simp] theorem Group.enter_holdOffRemaining (x : Group) (st : GroupState) (h w : Option Nat) :
    (x.enter st h w).holdOffRemaining = h := rfl
@[simp] theorem Group.enter_wtrRemaining (x : Group) (st : GroupState) (h w : Option Nat) :
    (x.enter st h w).wtrRemaining = w := rfl

/-- Every settling is an entering of some state with some timers (R89 step 3). -/
theorem Group.settle_eq_enter (x : Group) : ∃ st h w, x.settle = x.enter st h w := by
  unfold Group.settle Group.workingFault Group.noItem
  repeat' split
  all_goals exact ⟨_, _, _, rfl⟩

theorem Group.redecide_of_kept (x : Group) (h : x.mustDrop = false) : x.redecide = x.settle := by
  simp [Group.redecide, Group.dropManual, h]

theorem Group.mustDrop_without (x : Group) : ({ x with standing := none } : Group).mustDrop = false := by
  simp [Group.mustDrop, Group.present, Group.standingKind]

theorem Group.redecide_of_dropped (x : Group) (h : x.mustDrop = true) :
    x.redecide = { x with standing := none }.redecide := by
  rw [Group.redecide_of_kept _ x.mustDrop_without]
  simp [Group.redecide, Group.dropManual, h]

/-- A re-decision changes only the state, the selection, the timers and the switch count, and drops at most the standing
request (R89). -/
theorem Group.redecide_eq (x : Group) : ∃ q st h w, (q = x.standing ∧ x.mustDrop = false ∨ q = none ∧ x.mustDrop = true) ∧
    x.redecide = { x with standing := q }.enter st h w := by
  cases hd : x.mustDrop with
  | false =>
    obtain ⟨st, h, w, e⟩ := x.settle_eq_enter
    exact ⟨x.standing, st, h, w, .inl ⟨rfl, rfl⟩, by rw [x.redecide_of_kept hd, e]⟩
  | true =>
    obtain ⟨st, h, w, e⟩ := ({ x with standing := none } : Group).settle_eq_enter
    exact ⟨none, st, h, w, .inr ⟨rfl, rfl⟩, by
      rw [x.redecide_of_dropped hd, Group.redecide_of_kept _ x.mustDrop_without, e]⟩

/-- The record replaced and the occurrences raised among the event's own (R89, R91, R104, R165). -/
theorem State.redecideAmong_eq (s : State) (g : GroupId) (x : Group) (among : List Event → List Event) :
    s.redecideAmong g x among =
      State.withEvents (s.setGroup g (some x.redecide)) (among (x.redecideEvents g)) := by
  unfold State.redecideAmong
  rw [State.raiseAll_eq]

/-- The record replaced and the occurrences raised, REQUEST_DROPPED first (R89, R91, R104, R165). -/
theorem State.redecide_eq (s : State) (g : GroupId) (x : Group) :
    s.redecide g x = State.withEvents (s.setGroup g (some x.redecide)) (x.redecideEvents g) :=
  s.redecideAmong_eq g x id

@[simp] theorem State.group_redecideAmong (s : State) (g : GroupId) (x : Group) (among : List Event → List Event) :
    (s.redecideAmong g x among).group g = some x.redecide := by
  rw [State.redecideAmong_eq]
  simp

theorem State.group_redecideAmong_of_ne (s : State) (g h : GroupId) (x : Group) (among : List Event → List Event)
    (hne : h ≠ g) : (s.redecideAmong g x among).group h = s.group h := by
  rw [State.redecideAmong_eq, State.group_withEvents, State.group_setGroup_of_ne _ _ _ _ hne]

@[simp] theorem State.group_redecide (s : State) (g : GroupId) (x : Group) :
    (s.redecide g x).group g = some x.redecide :=
  s.group_redecideAmong g x id

theorem State.group_redecide_of_ne (s : State) (g h : GroupId) (x : Group) (hne : h ≠ g) :
    (s.redecide g x).group h = s.group h :=
  s.group_redecideAmong_of_ne g h x id hne

/-! ### What stays -/

/-- The second state differs from the first in group records, queues and the draw counter alone. -/
def State.OnlyGroups (s t : State) : Prop :=
  ∃ gs q0 q1 n, t = { s with groups := gs, queue0 := q0, queue1 := q1, free := n }

theorem State.OnlyGroups.refl (s : State) : s.OnlyGroups s :=
  ⟨s.groups, s.queue0, s.queue1, s.free, rfl⟩

theorem State.OnlyGroups.trans {s t u : State} (h : s.OnlyGroups t) (k : t.OnlyGroups u) : s.OnlyGroups u := by
  obtain ⟨gs, q0, q1, n, rfl⟩ := h
  obtain ⟨gs', q0', q1', n', rfl⟩ := k
  exact ⟨gs', q0', q1', n', rfl⟩

theorem State.OnlyGroups.foldl {α : Type} (f : State → α → State) (hf : ∀ (t : State) a, t.OnlyGroups (f t a)) (xs : List α)
    (s : State) : s.OnlyGroups (xs.foldl f s) := by
  induction xs generalizing s with
  | nil => exact .refl s
  | cons a xs ih => exact (hf s a).trans (ih (f s a))

theorem State.onlyGroups_withEvents (s : State) (es : List Event) : s.OnlyGroups (s.withEvents es) :=
  ⟨_, _, _, _, rfl⟩

theorem State.onlyGroups_raise (s : State) (e : Event) : s.OnlyGroups (s.raise e) := by
  rw [State.raise_eq]
  exact s.onlyGroups_withEvents _

theorem State.onlyGroups_raiseAll (s : State) (es : List Event) : s.OnlyGroups (s.raiseAll es) := by
  rw [State.raiseAll_eq]
  exact s.onlyGroups_withEvents _

theorem State.onlyGroups_redecideAmong (s : State) (g : GroupId) (x : Group) (among : List Event → List Event) :
    s.OnlyGroups (s.redecideAmong g x among) := by
  rw [State.redecideAmong_eq]
  exact ⟨_, _, _, _, rfl⟩

theorem State.onlyGroups_redecide (s : State) (g : GroupId) (x : Group) : s.OnlyGroups (s.redecide g x) :=
  s.onlyGroups_redecideAmong g x id

theorem State.OnlyGroups.forEach {n : Nat} (s : State) (xs : List (Fin n)) (f : State → Fin n → State)
    (hf : ∀ (t : State) a, t.OnlyGroups (f t a)) : s.OnlyGroups (s.forEach xs f) := by
  refine State.OnlyGroups.trans ?_ (.foldl f hf _ _)
  exact ⟨_, _, _, _, rfl⟩

theorem State.onlyGroups_refreshGroup (s : State) (g : GroupId) : s.OnlyGroups (s.refreshGroup g) := by
  unfold State.refreshGroup
  split
  · exact s.onlyGroups_redecide _ _
  · exact .refl s

theorem State.onlyGroups_reportLanes (s : State) : s.OnlyGroups s.reportLanes :=
  .forEach s _ _ State.onlyGroups_refreshGroup

theorem State.onlyGroups_presentInput (s : State) (g : GroupId) (i : InputId) (among : List Event → List Event) :
    s.OnlyGroups (s.presentInput g i among) := by
  unfold State.presentInput
  split
  · split
    · exact s.onlyGroups_raiseAll _
    · exact s.onlyGroups_redecideAmong _ _ _
  · exact s.onlyGroups_raiseAll _

theorem State.onlyGroups_reevaluateAmong (s : State) (g : GroupId) (among : List Event → List Event) :
    s.OnlyGroups (s.reevaluateAmong g among) := by
  unfold State.reevaluateAmong
  split
  · split
    · exact s.onlyGroups_raiseAll _
    · exact s.onlyGroups_redecideAmong _ _ _
  · exact s.onlyGroups_raiseAll _

theorem State.onlyGroups_reevaluate (s : State) (g : GroupId) : s.OnlyGroups (s.reevaluate g) :=
  s.onlyGroups_reevaluateAmong g id

/-! ### Items in an open order -/

theorem mem_openOrder {n : Nat} (draw : Nat) (xs : List (Fin n)) (a : Fin n) : a ∈ openOrder draw xs ↔ a ∈ xs := by
  unfold openOrder
  split
  · rfl
  · exact (List.perm_insertionSort _ xs).mem_iff

theorem nodup_openOrder {n : Nat} (draw : Nat) (xs : List (Fin n)) (h : xs.Nodup) : (openOrder draw xs).Nodup := by
  unfold openOrder
  split
  · exact h
  · exact (List.perm_insertionSort _ xs).nodup_iff.mpr h

/-- Steps that each touch one group leave group `g` to its own step, whatever the order. -/
theorem State.group_foldl (f : State → GroupId → State) (hother : ∀ t a g, g ≠ a → (f t a).group g = t.group g)
    (xs : List GroupId) (hx : xs.Nodup) (s : State) (g : GroupId) (P : State → Prop) (h0 : P s)
    (hstep : ∀ t a, P t → P (f t a)) (y : Option Group) (hown : ∀ t, P t → t.group g = s.group g → (f t g).group g = y) :
    (xs.foldl f s).group g = if g ∈ xs then y else s.group g := by
  have key : ∀ (xs : List GroupId) (t : State), xs.Nodup → P t → t.group g = s.group g →
      (xs.foldl f t).group g = if g ∈ xs then y else s.group g := by
    intro xs
    induction xs with
    | nil => intro t _ _ ht; simpa using ht
    | cons a xs ih =>
      intro t hn hP ht
      rw [List.nodup_cons] at hn
      rw [List.foldl_cons]
      by_cases ha : g = a
      · subst ha
        have skip : ∀ (ys : List GroupId) (u : State), g ∉ ys → (ys.foldl f u).group g = u.group g := by
          intro ys
          induction ys with
          | nil => intro u _; rfl
          | cons b ys ihy =>
            intro u hb
            rw [List.mem_cons, not_or] at hb
            rw [List.foldl_cons, ihy _ hb.2, hother _ _ _ hb.1]
        rw [skip xs _ hn.1, hown t hP ht]
        simp
      · rw [ih _ hn.2 (hstep t a hP) (by rw [hother _ _ _ ha, ht])]
        simp [ha]
  exact key xs s hx h0 rfl

theorem State.group_refreshGroup_of_ne (s : State) (g h : GroupId) (hne : h ≠ g) :
    (s.refreshGroup g).group h = s.group h := by
  unfold State.refreshGroup
  split
  · exact s.group_redecide_of_ne _ _ _ hne
  · rfl

theorem State.nodup_staleGroups (s : State) : s.staleGroups.Nodup :=
  List.Nodup.filter _ (List.nodup_finRange 16)

/-- Steps that each re-decide one group raise their occurrences in the order of the steps. -/
theorem State.queue_foldl (f : State → GroupId → State) (occurrences : GroupId → List Event)
    (hf : ∀ t a, State.OnlyGroups t (f t a)) (hother : ∀ t a g, g ≠ a → (f t a).group g = t.group g) (s : State)
    (ch : ChannelId)
    (hown : ∀ t g, s.OnlyGroups t → t.group g = s.group g →
      (f t g).queue ch = t.queueAfter s.efa.superframes (occurrences g) ch)
    (xs : List GroupId) (hx : xs.Nodup) :
    (xs.foldl f s).queue ch = s.queueAfter s.efa.superframes (xs.flatMap occurrences) ch := by
  have key : ∀ (xs : List GroupId) (t : State), xs.Nodup → s.OnlyGroups t → (∀ g ∈ xs, t.group g = s.group g) →
      (xs.foldl f t).queue ch = t.queueAfter s.efa.superframes (xs.flatMap occurrences) ch := by
    intro xs
    induction xs with
    | nil => intro t _ _ _; rfl
    | cons a xs ih =>
      intro t hn ht hg
      rw [List.nodup_cons] at hn
      rw [List.foldl_cons, ih _ hn.2 (ht.trans (hf t a)), List.flatMap_cons]
      · have hq := hown t a ht (hg a List.mem_cons_self)
        have he : (f t a).enabled ch = t.enabled ch := by
          obtain ⟨gs, q0, q1, n, e⟩ := hf t a
          rw [e]
          rfl
        unfold State.queueAfter at hq ⊢
        rw [hq, he, List.foldl_append]
      · intro g hm
        rw [hother t a g (fun h => hn.1 (h ▸ hm))]
        exact hg g (List.mem_cons_of_mem _ hm)
  exact key xs s hx (.refl s) fun _ _ => rfl

/-- What the report of the lanes leaves of a group: re-decided with its new conditions where they changed (R87). -/
theorem State.group_reportLanes (s : State) (g : GroupId) :
    s.reportLanes.group g =
      match s.group g with
      | none => none
      | some x =>
        if x.conditions = s.conditionsOf x.workingLane x.protectLane then some x
        else some ({ x with conditions := s.conditionsOf x.workingLane x.protectLane }.redecide) := by
  have hmem : g ∈ s.staleGroups ↔
      ∃ x, s.group g = some x ∧ x.conditions ≠ s.conditionsOf x.workingLane x.protectLane := by
    simp only [State.staleGroups, List.mem_filter, List.mem_finRange, true_and]
    cases s.group g <;> simp
  have h := State.group_foldl State.refreshGroup (fun t a g => t.group_refreshGroup_of_ne a g) (openOrder s.free s.staleGroups)
    (nodup_openOrder _ _ s.nodup_staleGroups)
    { s with free := s.free + 1 } g (fun t => t.lanes = s.lanes) rfl
    (fun t a ht => by
      obtain ⟨gs, q0, q1, n, e⟩ := t.onlyGroups_refreshGroup a
      rw [e]
      exact ht)
    (match s.group g with
      | none => none
      | some x => some ({ x with conditions := s.conditionsOf x.workingLane x.protectLane }.redecide))
    (fun t ht hg => by
      have hg : t.group g = s.group g := hg
      unfold State.refreshGroup
      rw [hg]
      cases h : s.group g with
      | none => simpa [h] using hg
      | some x =>
        simp only
        rw [State.group_redecide, show t.conditionsOf = s.conditionsOf by
          unfold State.conditionsOf State.lane; rw [ht]])
  show ((openOrder s.free s.staleGroups).foldl State.refreshGroup { s with free := s.free + 1 }).group g = _
  rw [h]
  simp only [mem_openOrder, hmem]
  show (if _ then _ else s.group g) = _
  cases hs : s.group g with
  | none => simp
  | some x =>
    by_cases hc : x.conditions = s.conditionsOf x.workingLane x.protectLane
    · simp [hc]
    · simp [hc]

/-- The occurrences that a report of the lanes raises: those of each group whose conditions changed, in the open order
of the groups (R91, R104, R165). -/
theorem State.queue_reportLanes (s : State) (ch : ChannelId) :
    let occurrences (g : GroupId) : List Event :=
      match s.group g with
      | some x => { x with conditions := s.conditionsOf x.workingLane x.protectLane }.redecideEvents g
      | none => []
    s.reportLanes.queue ch =
      s.queueAfter s.efa.superframes ((openOrder s.free s.staleGroups).flatMap occurrences) ch := by
  intro occurrences
  have h := State.queue_foldl State.refreshGroup occurrences State.onlyGroups_refreshGroup
    (fun t a g => t.group_refreshGroup_of_ne a g) { s with free := s.free + 1 } ch
    (fun t g ht hg => by
      have hg : t.group g = s.group g := hg
      obtain ⟨gs, q0, q1, n, rfl⟩ := ht
      unfold State.refreshGroup
      simp only [occurrences, hg]
      cases s.group g with
      | none => rfl
      | some x =>
        simp only [State.redecide_eq]
        cases ch <;> rfl)
    (openOrder s.free s.staleGroups) (nodup_openOrder _ _ s.nodup_staleGroups)
  exact h.trans (by cases ch <;> rfl)

end Sys2Proof.Machine
end

