-- ==== Sys2Proof/Laws/Lanes.lean ====
section
/-! SUPPORT. The lanes: markers by their fields, a lane record replaced, the hand-off of a word, and what leaves with
ALIGNED. -/

namespace Sys2Proof.Machine

variable (s : State) (l : LaneId)

theorem matchesMarker_iff (w : Word) : matchesMarker w = true ↔ w.extractLsb' 8 16 = 0x2F71 := by
  simp [matchesMarker, alignField, Config.alignPattern]

/-- A good position by the two fields an ILR judges (R63, R177). -/
theorem goodMarker_iff (n : BitVec 4) (w : Word) :
    goodMarker n w = true ↔ w.extractLsb' 8 16 = 0x2F71 ∧ w.extractLsb' 4 4 = n := by
  simp [goodMarker, matchesMarker_iff, frameField]

theorem goodMarker_eq_false (n : BitVec 4) (w : Word) :
    goodMarker n w = false ↔ ¬ (w.extractLsb' 8 16 = 0x2F71 ∧ w.extractLsb' 4 4 = n) := by
  rw [Bool.eq_false_iff, Ne, goodMarker_iff]

@[simp] theorem State.setLane_setLane (a b : Lane) : (s.setLane l a).setLane l b = s.setLane l b := by
  unfold State.setLane
  simp

theorem State.setLane_self (x : Lane) (h : s.lane l = x) : s.setLane l x = s := by
  subst h
  unfold State.setLane State.lane
  congr 1
  apply Vector.ext
  intro i hi
  by_cases h : l.val = i
  · subst h
    simp [Vector.get_eq_getElem]
  · simp [h]

/-- A lane is managed when some enabled channel's location lies on it (R11, R80). -/
theorem State.managedLane_iff : s.managedLane l = true ↔ ∃ ch p, s.place ch = some p ∧ p.lane = l := by
  simp only [State.managedLane, Bool.or_eq_true, beq_iff_eq]
  constructor
  · rintro (h | h)
    · exact ⟨.ch0, _, rfl, h⟩
    · obtain ⟨p, hp, rfl⟩ := Option.map_eq_some_iff.mp h
      exact ⟨.ch1, p, hp, rfl⟩
  · rintro ⟨ch, p, hp, rfl⟩
    cases ch
    · cases hp
      exact .inl rfl
    · right
      simp only [State.place] at hp
      simp [hp]

/-! ### The hand-off of a management word (R77) -/

theorem State.handOff_of_place (p : Place) (w : Word) (ch : ChannelId) (h : s.place ch = some p)
    (ho : ∀ c, c ≠ ch → s.place c ≠ some p) : s.handOff p w = s.takeWord ch w := by
  unfold State.handOff
  cases ch
  · rw [if_pos h, if_neg (ho .ch1 (by decide))]
  · rw [if_neg (ho .ch0 (by decide)), if_pos h]

theorem State.handOff_of_none (p : Place) (w : Word) (h : ∀ c, s.place c ≠ some p) : s.handOff p w = s := by
  unfold State.handOff
  rw [if_neg (h .ch1), if_neg (h .ch0)]

/-- A frame's completion touches its lane and the queues alone (R73, R74). -/
theorem State.completeFrame_eq (f : Frame) :
    s.completeFrame l f = (s.setLane l ((s.lane l).push f)).withEvents
      (if (s.lane l).unread.length < 2 then [] else [.laneSlip l]) := by
  unfold State.completeFrame
  simp only
  split
  · rfl
  · rw [State.raise_eq]

@[simp] theorem State.place_completeFrame (f : Frame) (ch : ChannelId) : (s.completeFrame l f).place ch = s.place ch := by
  rw [State.completeFrame_eq]
  cases ch <;> rfl

/-! ### Leaving ALIGNED (R69, R131) -/

/-- The loss of a channel's lane touches that channel's record alone. -/
theorem State.lostAlignment_eq (ch : ChannelId) : ∃ c, s.lostAlignment ch = s.setChannel ch c := by
  unfold State.lostAlignment
  split
  · cases ch <;> exact ⟨_, rfl⟩
  · exact ⟨s.channel ch, by cases ch <;> rfl⟩

theorem State.reportLost_eq : ∃ c0 c1, s.reportLost l = { s with ch0 := c0, ch1 := c1 } := by
  have key : ∀ (t : State) (p : Prop) [Decidable p] (ch : ChannelId),
      ∃ c, (if p then t.lostAlignment ch else t) = t.setChannel ch c := by
    intro t p _ ch
    split
    · exact t.lostAlignment_eq ch
    · exact ⟨t.channel ch, by cases ch <;> rfl⟩
  unfold State.reportLost
  obtain ⟨c0, e0⟩ := key s ((s.place .ch0).map Place.lane = some l) .ch0
  obtain ⟨c1, e1⟩ := key (s.setChannel .ch0 c0) ((s.place .ch1).map Place.lane = some l) .ch1
  exact ⟨c0, c1, by rw [e0, e1]; rfl⟩

/-- No channel hears of a lane that carries no location. -/
theorem State.reportLost_of_unmanaged (h : ∀ ch p, s.place ch = some p → p.lane ≠ l) : s.reportLost l = s := by
  have no : ∀ ch, (s.place ch).map Place.lane ≠ some l := by
    intro ch e
    obtain ⟨p, hp, hl⟩ := Option.map_eq_some_iff.mp e
    exact h ch p hp hl
  unfold State.reportLost
  rw [if_neg (no .ch1), if_neg (no .ch0)]

end Sys2Proof.Machine
end

