-- ==== Sys2Proof/Laws/Replies.lean ====
section
/-! SUPPORT. Replies and refusals: what forming a reply, a guard fault and the taking of a request leave as they were, and
the request rows as one. -/

namespace Sys2Proof.Machine

variable (s : State) (ch c : ChannelId) (r : Request)

/-! ### Replies -/

@[simp] theorem State.finish_strapLane (st : Status) (b : List Byte) (e : Deferred) :
    (s.finish ch r st b e).strapLane = s.strapLane := by
  cases ch <;> rfl

@[simp] theorem State.finish_operatorPlace (st : Status) (b : List Byte) (e : Deferred) :
    (s.finish ch r st b e).operatorPlace = s.operatorPlace := by
  cases ch <;> rfl

@[simp] theorem State.finish_map (st : Status) (b : List Byte) (e : Deferred) :
    (s.finish ch r st b e).map = s.map := by
  cases ch <;> rfl

@[simp] theorem State.finish_efa (st : Status) (b : List Byte) (e : Deferred) :
    (s.finish ch r st b e).efa = s.efa := by
  cases ch <;> rfl

@[simp] theorem State.finish_lanes (st : Status) (b : List Byte) (e : Deferred) :
    (s.finish ch r st b e).lanes = s.lanes := by
  cases ch <;> rfl

@[simp] theorem State.finish_groups (st : Status) (b : List Byte) (e : Deferred) :
    (s.finish ch r st b e).groups = s.groups := by
  cases ch <;> rfl

@[simp] theorem State.finish_inputs (st : Status) (b : List Byte) (e : Deferred) :
    (s.finish ch r st b e).inputs = s.inputs := by
  cases ch <;> rfl

@[simp] theorem State.finish_guard (st : Status) (b : List Byte) (e : Deferred) :
    (s.finish ch r st b e).guard = s.guard := by
  cases ch <;> rfl

@[simp] theorem State.finish_queue0 (st : Status) (b : List Byte) (e : Deferred) :
    (s.finish ch r st b e).queue0 = s.queue0 := by
  cases ch <;> rfl

@[simp] theorem State.finish_queue1 (st : Status) (b : List Byte) (e : Deferred) :
    (s.finish ch r st b e).queue1 = s.queue1 := by
  cases ch <;> rfl

@[simp] theorem State.finish_work (st : Status) (b : List Byte) (e : Deferred) :
    (s.finish ch r st b e).work = s.work := by
  cases ch <;> rfl

@[simp] theorem State.finish_free (st : Status) (b : List Byte) (e : Deferred) :
    (s.finish ch r st b e).free = s.free := by
  cases ch <;> rfl

@[simp] theorem State.finish_pending (st : Status) (b : List Byte) (e : Deferred) :
    (s.finish ch r st b e).pending = s.pending := by
  cases ch <;> rfl

@[simp] theorem State.reply_strapLane (b : List Byte) : (s.reply ch r b).strapLane = s.strapLane := by
  cases ch <;> rfl

@[simp] theorem State.reply_operatorPlace (b : List Byte) : (s.reply ch r b).operatorPlace = s.operatorPlace := by
  cases ch <;> rfl

@[simp] theorem State.reply_map (b : List Byte) : (s.reply ch r b).map = s.map := by
  cases ch <;> rfl

@[simp] theorem State.reply_efa (b : List Byte) : (s.reply ch r b).efa = s.efa := by
  cases ch <;> rfl

@[simp] theorem State.reply_lanes (b : List Byte) : (s.reply ch r b).lanes = s.lanes := by
  cases ch <;> rfl

@[simp] theorem State.reply_groups (b : List Byte) : (s.reply ch r b).groups = s.groups := by
  cases ch <;> rfl

@[simp] theorem State.reply_inputs (b : List Byte) : (s.reply ch r b).inputs = s.inputs := by
  cases ch <;> rfl

@[simp] theorem State.reply_guard (b : List Byte) : (s.reply ch r b).guard = s.guard := by
  cases ch <;> rfl

@[simp] theorem State.reply_queue0 (b : List Byte) : (s.reply ch r b).queue0 = s.queue0 := by
  cases ch <;> rfl

@[simp] theorem State.reply_queue1 (b : List Byte) : (s.reply ch r b).queue1 = s.queue1 := by
  cases ch <;> rfl

@[simp] theorem State.reply_work (b : List Byte) : (s.reply ch r b).work = s.work := by
  cases ch <;> rfl

@[simp] theorem State.reply_free (b : List Byte) : (s.reply ch r b).free = s.free := by
  cases ch <;> rfl

@[simp] theorem State.reply_pending (b : List Byte) : (s.reply ch r b).pending = s.pending := by
  cases ch <;> rfl

@[simp] theorem State.refuse_strapLane (st : Status) : (s.refuse ch r st).strapLane = s.strapLane := by
  cases ch <;> rfl

@[simp] theorem State.refuse_operatorPlace (st : Status) : (s.refuse ch r st).operatorPlace = s.operatorPlace := by
  cases ch <;> rfl

@[simp] theorem State.refuse_map (st : Status) : (s.refuse ch r st).map = s.map := by
  cases ch <;> rfl

@[simp] theorem State.refuse_efa (st : Status) : (s.refuse ch r st).efa = s.efa := by
  cases ch <;> rfl

@[simp] theorem State.refuse_lanes (st : Status) : (s.refuse ch r st).lanes = s.lanes := by
  cases ch <;> rfl

@[simp] theorem State.refuse_groups (st : Status) : (s.refuse ch r st).groups = s.groups := by
  cases ch <;> rfl

@[simp] theorem State.refuse_inputs (st : Status) : (s.refuse ch r st).inputs = s.inputs := by
  cases ch <;> rfl

@[simp] theorem State.refuse_guard (st : Status) : (s.refuse ch r st).guard = s.guard := by
  cases ch <;> rfl

@[simp] theorem State.refuse_queue0 (st : Status) : (s.refuse ch r st).queue0 = s.queue0 := by
  cases ch <;> rfl

@[simp] theorem State.refuse_queue1 (st : Status) : (s.refuse ch r st).queue1 = s.queue1 := by
  cases ch <;> rfl

@[simp] theorem State.refuse_work (st : Status) : (s.refuse ch r st).work = s.work := by
  cases ch <;> rfl

@[simp] theorem State.refuse_free (st : Status) : (s.refuse ch r st).free = s.free := by
  cases ch <;> rfl

@[simp] theorem State.refuse_pending (st : Status) : (s.refuse ch r st).pending = s.pending := by
  cases ch <;> rfl

/-- Completion replaces the channel's state and stored reply (R135). -/
@[simp] theorem State.channel_finish (st : Status) (b : List Byte) (e : Deferred) :
    (s.finish ch r st b e).channel ch =
      { s.channel ch with phase := .replying 0, stored := some (formReply r st b e) } := by
  simp [State.finish]

theorem State.channel_finish_of_ne (hne : c ≠ ch) (st : Status) (b : List Byte) (e : Deferred) :
    (s.finish ch r st b e).channel c = s.channel c := by
  unfold State.finish
  rw [State.channel_setChannel_of_ne _ _ _ _ hne]

/-! ### Guard faults -/

/-- A guard fault changes the guard's record and the queues alone (R157). -/
theorem State.guardFault_eq (reason : FaultReason) (target : Target) :
    s.guardFault ch r reason target =
      State.withEvents
        { s with guard :=
          match s.guard.fault with
          | none => { s.guard with fault := some ⟨ch, r.code, r.seq, reason, target, s.efa.superframes⟩ }
          | some _ => { s.guard with overruns := satInc Config.byteLimit s.guard.overruns } } [.guardFault ch] := by
  unfold State.guardFault
  simp only
  refine (State.raise_eq _ _).trans ?_
  cases s.guard.fault <;> rfl

@[simp] theorem State.guardFault_strapLane (reason : FaultReason) (target : Target) :
    (s.guardFault ch r reason target).strapLane = s.strapLane := by
  rw [State.guardFault_eq]
  rfl

@[simp] theorem State.guardFault_operatorPlace (reason : FaultReason) (target : Target) :
    (s.guardFault ch r reason target).operatorPlace = s.operatorPlace := by
  rw [State.guardFault_eq]
  rfl

@[simp] theorem State.guardFault_map (reason : FaultReason) (target : Target) :
    (s.guardFault ch r reason target).map = s.map := by
  rw [State.guardFault_eq]
  rfl

@[simp] theorem State.guardFault_efa (reason : FaultReason) (target : Target) :
    (s.guardFault ch r reason target).efa = s.efa := by
  rw [State.guardFault_eq]
  rfl

@[simp] theorem State.guardFault_lanes (reason : FaultReason) (target : Target) :
    (s.guardFault ch r reason target).lanes = s.lanes := by
  rw [State.guardFault_eq]
  rfl

@[simp] theorem State.guardFault_groups (reason : FaultReason) (target : Target) :
    (s.guardFault ch r reason target).groups = s.groups := by
  rw [State.guardFault_eq]
  rfl

@[simp] theorem State.guardFault_inputs (reason : FaultReason) (target : Target) :
    (s.guardFault ch r reason target).inputs = s.inputs := by
  rw [State.guardFault_eq]
  rfl

@[simp] theorem State.guardFault_ch0 (reason : FaultReason) (target : Target) :
    (s.guardFault ch r reason target).ch0 = s.ch0 := by
  rw [State.guardFault_eq]
  rfl

@[simp] theorem State.guardFault_ch1 (reason : FaultReason) (target : Target) :
    (s.guardFault ch r reason target).ch1 = s.ch1 := by
  rw [State.guardFault_eq]
  rfl

@[simp] theorem State.guardFault_work (reason : FaultReason) (target : Target) :
    (s.guardFault ch r reason target).work = s.work := by
  rw [State.guardFault_eq]
  rfl

@[simp] theorem State.guardFault_free (reason : FaultReason) (target : Target) :
    (s.guardFault ch r reason target).free = s.free := by
  rw [State.guardFault_eq]
  rfl

@[simp] theorem State.guardFault_pending (reason : FaultReason) (target : Target) :
    (s.guardFault ch r reason target).pending = s.pending := by
  rw [State.guardFault_eq]
  rfl

@[simp] theorem State.guardRefuse_strapLane (st : Status) (reason : FaultReason) (target : Target) :
    (s.guardRefuse ch r st reason target).strapLane = s.strapLane := by
  unfold State.guardRefuse
  simp

@[simp] theorem State.guardRefuse_operatorPlace (st : Status) (reason : FaultReason) (target : Target) :
    (s.guardRefuse ch r st reason target).operatorPlace = s.operatorPlace := by
  unfold State.guardRefuse
  simp

@[simp] theorem State.guardRefuse_map (st : Status) (reason : FaultReason) (target : Target) :
    (s.guardRefuse ch r st reason target).map = s.map := by
  unfold State.guardRefuse
  simp

@[simp] theorem State.guardRefuse_efa (st : Status) (reason : FaultReason) (target : Target) :
    (s.guardRefuse ch r st reason target).efa = s.efa := by
  unfold State.guardRefuse
  simp

@[simp] theorem State.guardRefuse_lanes (st : Status) (reason : FaultReason) (target : Target) :
    (s.guardRefuse ch r st reason target).lanes = s.lanes := by
  unfold State.guardRefuse
  simp

@[simp] theorem State.guardRefuse_groups (st : Status) (reason : FaultReason) (target : Target) :
    (s.guardRefuse ch r st reason target).groups = s.groups := by
  unfold State.guardRefuse
  simp

@[simp] theorem State.guardRefuse_inputs (st : Status) (reason : FaultReason) (target : Target) :
    (s.guardRefuse ch r st reason target).inputs = s.inputs := by
  unfold State.guardRefuse
  simp

@[simp] theorem State.guardRefuse_work (st : Status) (reason : FaultReason) (target : Target) :
    (s.guardRefuse ch r st reason target).work = s.work := by
  unfold State.guardRefuse
  simp

@[simp] theorem State.guardRefuse_free (st : Status) (reason : FaultReason) (target : Target) :
    (s.guardRefuse ch r st reason target).free = s.free := by
  unfold State.guardRefuse
  simp

@[simp] theorem State.guardRefuse_pending (st : Status) (reason : FaultReason) (target : Target) :
    (s.guardRefuse ch r st reason target).pending = s.pending := by
  unfold State.guardRefuse
  simp

@[simp] theorem State.channel_guardFault (reason : FaultReason) (target : Target) :
    (s.guardFault ch r reason target).channel c = s.channel c := by
  rw [State.guardFault_eq, State.channel_withEvents]
  cases c <;> rfl

/-- A guard fault leaves the regions (R157). -/
@[simp] theorem State.guardFault_regions (reason : FaultReason) (target : Target) :
    (s.guardFault ch r reason target).guard.regions = s.guard.regions := by
  rw [State.guardFault_eq, State.withEvents_guard]
  simp only
  split <;> rfl

@[simp] theorem State.guardRefuse_regions (st : Status) (reason : FaultReason) (target : Target) :
    (s.guardRefuse ch r st reason target).guard.regions = s.guard.regions := by
  unfold State.guardRefuse
  simp

/-! ### The request rows as one -/

/-- A request row takes the request that asks for it, or changes nothing. -/
theorem exec_request (i : Instr) (h : i.sender = some ch) :
    exec i s = .next (match s.asks ch i with
      | some r => (s.beforeRestart i).takeCommand r i
      | none => s) := by
  cases i <;> simp only [Instr.sender, reduceCtorEq, Option.some.injEq] at h <;> subst h <;> rfl

/-- The command that a request decodes to is a row of its own channel. -/
theorem sender_of_decodeCommand (code : BitVec 6) (bytes : List Byte) (i : Instr)
    (h : decodeCommand ch code bytes = some i) : i.sender = some ch := by
  unfold decodeCommand at h
  split at h
  · cases h
  · rename_i hs
    unfold supervisorOnly at hs
    unfold commandOf at h
    generalize code.toNat = n at h hs
    have h0 : ∀ k : Nat, n = k → k ∈ [0x03, 0x04, 0x05, 0x0B, 0x18, 0x1A, 0x20, 0x21, 0x28, 0x30, 0x31, 0x32, 0x33] →
        ch = .ch0 := by
      intro k e hk
      cases ch
      · rfl
      · exact absurd ⟨rfl, by rw [e]; simpa using hk⟩ hs
    split at h
    all_goals
      first
        | contradiction
        | (split at h <;> first
            | contradiction
            | (cases h; first | rfl | exact congrArg some (h0 _ rfl (by decide)).symm)
            | (unfold decodeGroupRequest at h; split at h <;> first | contradiction | (cases h; rfl)))

/-- A waiting request is taken by the row it decodes to (R134). -/
theorem State.takeBy_eq (before : State → Instr → State) : s.takeBy ch before = s ∨
    ∃ r i, (s.channel ch).phase = .executing r true ∧ i.sender = some ch ∧ s.asks ch i = some r ∧
      s.takeBy ch before = (before s i).takeCommand r i := by
  unfold State.takeBy
  split
  · rename_i r h
    split
    · rename_i i hd
      have hp := (s.waiting_eq_some ch r).mp h
      exact .inr ⟨r, i, hp, sender_of_decodeCommand ch _ _ _ hd, (s.asks_eq_some ch i r).mpr ⟨hp, hd⟩, rfl⟩
    · exact .inl rfl
  · exact .inl rfl

/-- Only a restart of channel 1 with a request of channel 1 waiting has something to take before it (R145). -/
theorem State.beforeRestart_eq (i : Instr) : s.beforeRestart i = s ∨
    ∃ r j, s.restarts i = true ∧ s.asks .ch1 j = some r ∧ j.sender = some .ch1 ∧
      s.beforeRestart i = s.takeCommand r j := by
  unfold State.beforeRestart
  split
  · rename_i hr
    rcases s.takeBy_eq .ch1 (fun t _ => t) with h | ⟨r, j, -, hj, ha, h⟩
    · exact .inl h
    · exact .inr ⟨r, j, hr, ha, hj, h⟩
  · exact .inl rfl

theorem State.beforeRestart_of_none (i : Instr) (h : ∀ r, s.ch1.phase ≠ .executing r true) :
    s.beforeRestart i = s := by
  unfold State.beforeRestart State.takeBy
  rw [(s.waiting_eq_none .ch1).mpr h]
  split <;> rfl

/-- A request of channel 1 restarts nothing: the commands that do are the supervisor's (R134). -/
theorem State.restarts_of_sender (i : Instr) (h : i.sender = some .ch1) : s.restarts i = false := by
  cases i <;> first | rfl | cases h

end Sys2Proof.Machine
end

