-- ==== Sys2Proof/Laws/Timebase.lean ====
section
/-! SUPPORT. What only a frame start and a device reset change: the egress timebase and the frames on the lines (R45, R48); and
what no command changes: the queue of waiting commands and, device reset apart, the strap lane. -/

namespace Sys2Proof.Machine

/-- The two states have the same waiting commands, strap lane, timebase and frames on the lines. -/
structure State.SameTimebase (s t : State) : Prop where
  pending : t.pending = s.pending
  strapLane : t.strapLane = s.strapLane
  frameNo : t.efa.frameNo = s.efa.frameNo
  started : t.efa.started = s.efa.started
  superframes : t.efa.superframes = s.efa.superframes
  lines : t.efa.lines = s.efa.lines
  sent : t.efa.sent = s.efa.sent

namespace State.SameTimebase

theorem refl (s : State) : s.SameTimebase s :=
  ⟨rfl, rfl, rfl, rfl, rfl, rfl, rfl⟩

theorem trans {s t u : State} (h : s.SameTimebase t) (k : t.SameTimebase u) : s.SameTimebase u :=
  ⟨k.pending.trans h.pending, k.strapLane.trans h.strapLane, k.frameNo.trans h.frameNo, k.started.trans h.started,
    k.superframes.trans h.superframes, k.lines.trans h.lines, k.sent.trans h.sent⟩

/-- The timebase stays where `efa`, the waiting commands and the strap lane do. -/
theorem of_efa {s t : State} (h0 : t.pending = s.pending) (h1 : t.strapLane = s.strapLane) (h2 : t.efa = s.efa) :
    s.SameTimebase t :=
  ⟨h0, h1, by rw [h2], by rw [h2], by rw [h2], by rw [h2], by rw [h2]⟩

theorem of_onlyGroups {s t : State} (h : s.OnlyGroups t) : s.SameTimebase t := by
  obtain ⟨gs, q0, q1, n, rfl⟩ := h
  exact .of_efa rfl rfl rfl

variable {s t : State} (h : s.SameTimebase t)
include h

theorem setChannel (ch : ChannelId) (c : Channel) : s.SameTimebase (t.setChannel ch c) :=
  h.trans (.of_efa (by simp) (by simp) (by simp))

theorem setQueue (ch : ChannelId) (q : Queue) : s.SameTimebase (t.setQueue ch q) :=
  h.trans (.of_efa (by simp) (by simp) (by simp))

theorem setLane (l : LaneId) (x : Lane) : s.SameTimebase (t.setLane l x) :=
  h.trans (.of_efa rfl rfl rfl)

theorem setGroup (g : GroupId) (x : Option Group) : s.SameTimebase (t.setGroup g x) :=
  h.trans (.of_efa rfl rfl rfl)

theorem finish (ch : ChannelId) (r : Request) (st : Status) (b : List Byte) (e : Deferred) :
    s.SameTimebase (t.finish ch r st b e) :=
  h.setChannel ch _

theorem withEvents (es : List Event) : s.SameTimebase (t.withEvents es) :=
  h.trans (.of_efa rfl rfl rfl)

theorem raise (e : Event) : s.SameTimebase (t.raise e) := by
  rw [State.raise_eq]
  exact h.withEvents _

theorem offer (ch : ChannelId) (e : Event) : s.SameTimebase (t.offer ch e) := by
  rw [State.offer_eq]
  exact h.setQueue _ _

theorem guardFault (ch : ChannelId) (r : Request) (a : FaultReason) (b : Target) :
    s.SameTimebase (t.guardFault ch r a b) :=
  h.trans (.of_efa (by simp) (by simp) (by simp))

theorem guardRefuse (ch : ChannelId) (r : Request) (st : Status) (a : FaultReason) (b : Target) :
    s.SameTimebase (t.guardRefuse ch r st a b) :=
  (h.guardFault ch r a b).finish ch r st [] .none

theorem redecide (g : GroupId) (x : Group) : s.SameTimebase (t.redecide g x) :=
  h.trans (.of_onlyGroups (t.onlyGroups_redecide g x))

theorem reportLanes : s.SameTimebase t.reportLanes :=
  h.trans (.of_onlyGroups t.onlyGroups_reportLanes)

theorem reportLost (l : LaneId) : s.SameTimebase (t.reportLost l) := by
  obtain ⟨c0, c1, e⟩ := t.reportLost_eq l
  rw [e]
  exact h.trans (.of_efa rfl rfl rfl)

theorem leaveAligned (l : LaneId) (a : Alignment) (f : LaneCounters → LaneCounters) :
    s.SameTimebase (t.leaveAligned l a f) :=
  (((h.setLane l _).raise _).reportLost l).reportLanes

end State.SameTimebase

variable (s : State) (r : Request)

theorem State.sameTimebase_completeCommit (ch : ChannelId) (st : Status) (b : List Byte) :
    s.SameTimebase (s.completeCommit ch st b) := by
  unfold State.completeCommit
  split
  · exact (SameTimebase.refl s).finish ..
  · exact .refl s

theorem State.sameTimebase_cancelCommit : s.SameTimebase s.cancelCommit := by
  unfold State.cancelCommit
  split
  · exact s.sameTimebase_completeCommit ..
  · exact .refl s

theorem State.sameTimebase_restart (p : Phase) : s.SameTimebase (s.restart p) := by
  have h : s.SameTimebase s.restartLock := by
    unfold State.restartLock
    split
    · exact SameTimebase.offer (t := s.endSession) (by exact .of_efa rfl rfl rfl) _ _
    · exact .refl s
  exact h.trans (.of_efa rfl rfl rfl)

theorem State.sameTimebase_replyGroup (ch : ChannelId) (g : GroupId) : s.SameTimebase (s.replyGroup ch r g) := by
  unfold State.replyGroup
  split <;> exact (SameTimebase.refl s).finish ..

theorem State.sameTimebase_requestGroup (ch : ChannelId) (g : GroupId) (x : Group) (k : RequestKind) :
    s.SameTimebase (s.requestGroup ch r g x k) := by
  unfold State.requestGroup
  split
  · exact (SameTimebase.refl s).finish ..
  · split
    · exact (SameTimebase.refl s).guardRefuse ..
    · exact ((SameTimebase.refl s).redecide g _).trans (State.sameTimebase_replyGroup _ r ch g)

theorem State.sameTimebase_clearGroup (ch : ChannelId) (g : GroupId) (x : Group) :
    s.SameTimebase (s.clearGroup ch r g x) := by
  unfold State.clearGroup
  split
  · exact (SameTimebase.refl s).guardRefuse ..
  · split
    · exact ((SameTimebase.refl s).redecide g _).trans (State.sameTimebase_replyGroup _ r ch g)
    · exact State.sameTimebase_replyGroup s r ch g

theorem State.sameTimebase_groupRequest (ch : ChannelId) (group : Byte) (k : Bool) (go : GroupId → Group → State)
    (hgo : ∀ g x, s.SameTimebase (go g x)) : s.SameTimebase (s.groupRequest ch r group k go) := by
  unfold State.groupRequest
  repeat' split
  all_goals
    first
      | exact (SameTimebase.refl s).guardRefuse ..
      | exact (SameTimebase.refl s).finish ..
      | exact hgo _ _

theorem State.sameTimebase_enableLane (l : LaneId) : s.SameTimebase (s.enableLane l) := by
  unfold State.enableLane
  split
  · exact (SameTimebase.refl s).setLane l _
  · exact .refl s

theorem State.sameTimebase_disableLane (l : LaneId) : s.SameTimebase (s.disableLane l) := by
  unfold State.disableLane
  split
  · exact (SameTimebase.refl s).leaveAligned ..
  · exact (SameTimebase.refl s).setLane l _

theorem State.sameTimebase_setThreshold (l : LaneId) (n : Nat) : s.SameTimebase (s.setThreshold l n) := by
  unfold State.setThreshold
  simp only
  repeat' split
  · exact (((SameTimebase.refl s).setLane l _).raise _).reportLanes
  all_goals exact (SameTimebase.refl s).setLane l _

theorem State.sameTimebase_forEach {n : Nat} (xs : List (Fin n)) (f : State → Fin n → State)
    (hf : ∀ (t : State) a, t.SameTimebase (f t a)) : s.SameTimebase (s.forEach xs f) := by
  have key : ∀ (xs : List (Fin n)) (t : State), t.SameTimebase (xs.foldl f t) := by
    intro xs
    induction xs with
    | nil => exact fun t => .refl t
    | cons a xs ih => exact fun t => (hf t a).trans (ih _)
  exact SameTimebase.trans (t := { s with free := s.free + 1 }) (.of_efa rfl rfl rfl) (key _ _)

/-- No request changes the timebase or the frames on the lines. -/
theorem State.sameTimebase_takeCommand (i : Instr) : s.SameTimebase (s.takeCommand r i) := by
  have R : ∀ t : State, t.SameTimebase t := SameTimebase.refl
  cases i <;> simp only [State.takeCommand]
  case deviceReset => exact R s
  case egressFrameStart => exact R s
  case holdOffExpiry => exact R s
  case wtrExpiry => exact R s
  case idleExpiry => exact R s
  case bankSwap => exact R s
  case replyHoldExpiry => exact R s
  case ingressWordArrival => exact R s
  case lossOfAlignment => exact R s
  case degradeWindowEnd => exact R s
  case readIdentity => exact (R s).finish ..
  case readChannel =>
    unfold State.takeReadChannel
    repeat' split
    all_goals first | exact (R s).guardRefuse .. | exact (R s).finish ..
  case setChannel =>
    have hold : ∀ c n, s.SameTimebase (s.setReplyHold c n) := fun c n => (R s).setChannel c _
    have rest : ∀ (t : State) p q, s.SameTimebase t →
        s.SameTimebase (State.restart { t with operatorPlace := q } p) := fun t p q ht =>
      (ht.trans (by exact .of_efa rfl rfl rfl)).trans (State.sameTimebase_restart { t with operatorPlace := q } p)
    unfold State.takeSetChannel State.replyChannel State.removeOperator State.placeOperator State.enableLanes
    split
    all_goals
      first
        | exact (R s).finish ..
        | exact (hold _ _).finish ..
        | exact (rest _ _ _ (hold _ _)).finish ..
        | exact SameTimebase.finish
            (((rest _ _ _ (hold _ _)).trans (State.sameTimebase_enableLane _ _)).trans
              (by exact ⟨rfl, rfl, rfl, rfl, rfl, rfl, rfl⟩))
            ..
  case restartChannel =>
    unfold State.takeRestartChannel
    split
    · exact (R s).finish ..
    · exact (s.sameTimebase_restart .idle).finish ..
  case datapathReset =>
    unfold State.takeDatapathReset
    have h : s.SameTimebase s.cancelCommit.clearDatapath :=
      s.sameTimebase_cancelCommit.trans ⟨rfl, rfl, rfl, rfl, rfl, rfl, rfl⟩
    simp only
    split
    · exact (h.raise _).finish ..
    · exact h.finish ..
  case openEdit =>
    unfold State.takeOpenEdit
    repeat' split
    all_goals first | exact (R s).finish .. | exact SameTimebase.finish (by exact .of_efa rfl rfl rfl) ..
  case commit =>
    unfold State.takeCommit
    split
    · exact (R s).finish ..
    · split
      · simp only
        split
        · exact ((R s).guardFault ..).finish ..
        · exact (R s).finish ..
      · exact SameTimebase.setChannel (by exact .of_efa rfl rfl rfl) ..
  case abandonEdit =>
    unfold State.takeAbandonEdit State.endSession
    split
    · exact SameTimebase.finish (by exact .of_efa rfl rfl rfl) ..
    · exact (R s).finish ..
  case breakLock =>
    unfold State.takeBreakLock State.endSession
    split
    · exact (R s).finish ..
    · exact ((s.sameTimebase_cancelCommit.trans (by exact .of_efa rfl rfl rfl)).raise _).finish ..
  case readEditState => exact (R s).finish ..
  case setEntry =>
    unfold State.takeSetEntry
    repeat' split
    all_goals
      first
        | exact (R s).guardRefuse ..
        | exact (R s).finish ..
        | exact SameTimebase.finish (by exact .of_efa rfl rfl rfl) ..
  case clearEntries =>
    unfold State.takeClearEntries
    repeat' split
    all_goals
      first
        | exact (R s).guardRefuse ..
        | exact (R s).finish ..
        | exact SameTimebase.finish (by exact .of_efa rfl rfl rfl) ..
  case readEntries =>
    unfold State.takeReadEntries
    repeat' split
    all_goals first | exact (R s).guardRefuse .. | exact (R s).finish ..
  case setLane =>
    unfold State.takeSetLane
    repeat' split
    all_goals first | exact (R s).finish .. | skip
    · exact ((s.sameTimebase_enableLane _).trans (State.sameTimebase_setThreshold _ _ _)).finish ..
    · exact ((s.sameTimebase_disableLane _).trans (State.sameTimebase_setThreshold _ _ _)).finish ..
  case readLane =>
    unfold State.takeReadLane
    repeat' split
    all_goals first | exact (R s).guardRefuse .. | exact (R s).finish ..
  case setEgress =>
    unfold State.takeSetEgress
    repeat' split
    all_goals first | exact (R s).finish .. | exact SameTimebase.finish (by exact ⟨rfl, rfl, rfl, rfl, rfl, rfl, rfl⟩) ..
  case readEgress => exact (R s).finish ..
  case configGroup =>
    unfold State.takeConfigGroup
    repeat' split
    all_goals
      first
        | exact (R s).finish ..
        | exact ((R s).setGroup _ _).trans (State.sameTimebase_replyGroup _ r _ _)
        | exact ((R s).redecide _ _).trans (State.sameTimebase_replyGroup _ r _ _)
  case deleteGroup =>
    unfold State.takeDeleteGroup
    repeat' split
    all_goals first | exact (R s).finish .. | exact ((R s).setGroup _ _).finish ..
  case groupRequestLockout =>
    exact s.sameTimebase_groupRequest r _ _ _ _ fun g x => s.sameTimebase_requestGroup r _ g x _
  case groupRequestForce =>
    exact s.sameTimebase_groupRequest r _ _ _ _ fun g x => s.sameTimebase_requestGroup r _ g x _
  case groupRequestManualP =>
    exact s.sameTimebase_groupRequest r _ _ _ _ fun g x => s.sameTimebase_requestGroup r _ g x _
  case groupRequestManualW =>
    exact s.sameTimebase_groupRequest r _ _ _ _ fun g x => s.sameTimebase_requestGroup r _ g x _
  case groupRequestClear =>
    unfold State.takeClear
    split
    all_goals first | exact (R s).finish .. | skip
    exact s.sameTimebase_groupRequest r _ _ _ _ fun g x => s.sameTimebase_clearGroup r _ g x
  case readGroup =>
    unfold State.takeReadGroup
    split <;> exact (R s).finish ..
  case setInput =>
    unfold State.takeSetInput
    repeat' split
    all_goals first | exact (R s).finish .. | skip
    · simp only
      refine SameTimebase.finish ?_ ..
      refine SameTimebase.trans (by exact .of_efa rfl rfl rfl) (State.sameTimebase_forEach (s.setInput _ _) _ _ ?_)
      exact fun t a => .of_onlyGroups (t.onlyGroups_reevaluate a)
  case readInputs => exact (R s).finish ..
  case setRegion =>
    unfold State.takeSetRegion
    split
    · exact SameTimebase.finish (by exact .of_efa rfl rfl rfl) ..
    · exact (R s).finish ..
  case readRegions =>
    unfold State.takeReadRegions
    exact (R s).finish ..
  case readFault =>
    unfold State.takeReadFault
    exact (R s).finish ..
  case clearFault =>
    unfold State.takeClearFault
    exact SameTimebase.finish (by exact .of_efa rfl rfl rfl) ..
  case setSubscription => exact ((R s).setQueue _ _).finish ..
  case readEvents =>
    unfold State.takeReadEvents
    split
    · exact ((R s).setQueue _ _).finish ..
    · exact (R s).finish ..

theorem State.sameTimebase_beforeRestart (i : Instr) : s.SameTimebase (s.beforeRestart i) := by
  rcases s.beforeRestart_eq i with h | ⟨r, j, -, -, -, h⟩
  · rw [h]
    exact .refl s
  · rw [h]
    exact s.sameTimebase_takeCommand r j

theorem State.sameTimebase_takeWaiting (ch : ChannelId) : s.SameTimebase (s.takeWaiting ch) := by
  rcases s.takeBy_eq ch State.beforeRestart with h | ⟨r, i, -, -, -, h⟩
  · rw [State.takeWaiting, h]
    exact .refl s
  · rw [State.takeWaiting, h]
    exact (s.sameTimebase_beforeRestart i).trans (State.sameTimebase_takeCommand _ r i)

theorem State.sameTimebase_takeAllWaiting (e : FrameEdge) : s.SameTimebase (s.takeAllWaiting e) := by
  unfold State.takeAllWaiting
  split <;> exact (s.sameTimebase_takeWaiting _).trans (State.sameTimebase_takeWaiting _ _)

end Sys2Proof.Machine
end

