-- ==== Sys2Proof/Laws/Frames.lean ====
section
/-! SUPPORT. The frame start: what each unit's event of it can change, the schedule of the units, and the state without a
waiting request. -/

namespace Sys2Proof.Machine

variable (s : State)

/-! ### Without a waiting request -/

/-- The rows that take a unit's event ahead, and then an EGRESS_FRAME_START (R47). -/
theorem edgeComes_iff (cs : List Instr) : edgeComes cs = true ↔
    ∃ ahead e rest, cs = ahead ++ .egressFrameStart e :: rest ∧ ∀ c ∈ ahead, c.TakenAhead := by
  constructor
  · intro h
    induction cs with
    | nil => cases h
    | cons c cs ih =>
      cases c <;> first | (cases h; done) | skip
      case egressFrameStart e => exact ⟨[], e, cs, rfl, by simp⟩
      all_goals
        obtain ⟨ahead, e, rest, rfl, ha⟩ := ih h
        refine ⟨_ :: ahead, e, rest, rfl, fun c hc => ?_⟩
        rcases List.mem_cons.mp hc with rfl | hc
        · trivial
        · exact ha c hc
  · rintro ⟨ahead, e, rest, rfl, ha⟩
    induction ahead with
    | nil => rfl
    | cons c cs ih =>
      have hc := ha c (by simp)
      have := ih fun d hd => ha d (by simp [hd])
      cases c <;> first | exact this | exact absurd hc id

theorem State.ready_iff : s.ready = true ↔ s.Startable := by
  unfold State.ready State.Startable State.EdgeComes
  rw [Bool.and_eq_true, Bool.and_eq_true, Option.isNone_iff_eq_none, Option.isNone_iff_eq_none, s.waiting_eq_none,
    s.waiting_eq_none, edgeComes_iff, and_assoc]
  constructor
  · rintro ⟨he, h0, h1⟩
    refine ⟨he, fun ch => ?_⟩
    cases ch
    · exact h0
    · exact h1
  · exact fun ⟨he, h⟩ => ⟨he, h .ch0, h .ch1⟩

theorem State.takeAllWaiting_of_none (e : FrameEdge) (h : ∀ ch r, (s.channel ch).phase ≠ .executing r true) :
    s.takeAllWaiting e = s := by
  have hw : ∀ ch, s.takeWaiting ch = s := by
    intro ch
    unfold State.takeWaiting State.takeBy
    rw [(s.waiting_eq_none ch).mpr (h ch)]
  unfold State.takeAllWaiting
  split <;> simp only [hw]

/-! ### The units' events -/

/-- The MAP's event touches the map, held state, the committer's channel, the queues and its own marks (R30, R39, R57). -/
theorem State.mapEvent_eq : ∃ m h c0 c1 q0 q1 b w,
    s.mapEvent = { s with
      map := m, efa := { s.efa with held := h }, ch0 := c0, ch1 := c1, queue0 := q0, queue1 := q1
      work := { s.work with mapTaken := b, swapped := w } } := by
  unfold State.mapEvent
  split
  · exact ⟨_, _, _, _, _, _, _, _, rfl⟩
  · simp only
    split
    · rename_i c hc
      unfold State.bankSwap State.completeCommit State.finish
      simp only [State.raise_eq]
      split <;> cases c <;> exact ⟨_, _, _, _, _, _, _, _, rfl⟩
    · unfold State.idleTick
      split
      · split
        · rw [State.raise_eq]
          exact ⟨_, s.efa.held, _, _, _, _, _, _, rfl⟩
        · exact ⟨_, s.efa.held, _, _, _, _, _, _, rfl⟩
      · exact ⟨_, s.efa.held, _, _, _, _, _, _, rfl⟩

/-- Raising occurrences for items in an open order touches the queues and the draw counter. -/
theorem State.forEach_raise {n : Nat} (xs : List (Fin n)) (f : Fin n → Event) : ∃ q0 q1 k,
    (s.forEach xs fun s a => s.raise (f a)) = { s with queue0 := q0, queue1 := q1, free := k } := by
  have key : ∀ (xs : List (Fin n)) (t : State), ∃ q0 q1,
      xs.foldl (fun s a => s.raise (f a)) t = { t with queue0 := q0, queue1 := q1 } := by
    intro xs
    induction xs with
    | nil => exact fun t => ⟨_, _, rfl⟩
    | cons a xs ih =>
      intro t
      obtain ⟨q0, q1, e⟩ := ih (t.raise (f a))
      rw [List.foldl_cons, e, State.raise_eq]
      exact ⟨q0, q1, rfl⟩
  obtain ⟨q0, q1, e⟩ := key (openOrder s.free xs) { s with free := s.free + 1 }
  exact ⟨q0, q1, s.free + 1, e⟩

/-- The EFA's event: the take from every store and the group snapshot, with the occurrences of repeat slips (R49, R50,
R75). -/
theorem State.efaEvent_eq : ∃ q0 q1 n,
    s.efaEvent = { s with
      lanes := s.lanes.map fun x => x.take.2
      work := { s.work with
        taken := s.lanes.map fun x => x.take.1
        snapshot := s.groups.map fun g => g.map fun x =>
          if x.selected = .working then x.workingLane else x.protectLane }
      queue0 := q0, queue1 := q1, free := n } := by
  unfold State.efaEvent
  simp only
  obtain ⟨q0, q1, n, e⟩ := State.forEach_raise
    { s with
      lanes := s.lanes.map fun x => x.take.2
      work := { s.work with
        taken := s.lanes.map fun x => x.take.1
        snapshot := s.groups.map fun g =>
          match g with
          | some x =>
            match x.selected with
            | .working => some x.workingLane
            | .protect => some x.protectLane
          | none => none } }
    ((List.finRange 8).filter fun l => (s.lane l).repeats) Event.laneSlip
  refine ⟨q0, q1, n, e.trans ?_⟩
  have hg : (fun g : Option Group =>
      match g with
      | some x =>
        match x.selected with
        | .working => some x.workingLane
        | .protect => some x.protectLane
      | none => none) = fun g => g.map fun x => if x.selected = .working then x.workingLane else x.protectLane := by
    funext g
    cases g with
    | none => rfl
    | some x => cases h : x.selected <;> simp [h]
  rw [hg]

/-- One group's timers touch its record, its mark and the queues (R92, R94, R96). -/
theorem State.tickGroup_of_some (g : GroupId) (x : Group) (h : s.work.groupsTaken.get g = false)
    (hx : s.group g = some x) :
    s.tickGroup g = State.withEvents
      { s.setGroup g (some (x.tick s.boundary)) with
        work := { s.work with groupsTaken := s.work.groupsTaken.set g.val true g.isLt } }
      (switchEvents g x.selected (x.tick s.boundary).selected) := by
  unfold State.tickGroup
  rw [h, hx]
  simp only
  rw [State.raiseAll_eq]
  rfl

theorem switchEvents_self (g : GroupId) (x : Selection) : switchEvents g x x = [] := by
  cases x <;> rfl

/-- A step of the timers keeps the two lanes of every group, and which groups are configured. -/
def State.SameGroupLanes (s t : State) : Prop :=
  ∀ g, (t.group g).map (fun x => (x.workingLane, x.protectLane)) =
    (s.group g).map fun x => (x.workingLane, x.protectLane)

theorem Group.tick_lanes (x : Group) (b : Bool) :
    (x.tick b).workingLane = x.workingLane ∧ (x.tick b).protectLane = x.protectLane := by
  unfold Group.tick Group.tickHoldOff Group.tickWtr
  repeat' split
  all_goals exact ⟨rfl, rfl⟩

theorem State.tickGroup_eq (g : GroupId) : ∃ gs q0 q1 w,
    s.tickGroup g = { s with groups := gs, queue0 := q0, queue1 := q1, work := { s.work with groupsTaken := w } } ∧
      s.SameGroupLanes (s.tickGroup g) := by
  cases h : s.work.groupsTaken.get g with
  | true =>
    have e : s.tickGroup g = s := by unfold State.tickGroup; rw [h]
    rw [e]
    exact ⟨_, _, _, _, rfl, fun _ => rfl⟩
  | false =>
    cases hx : s.group g with
    | none =>
      have e : s.tickGroup g = s := by unfold State.tickGroup; rw [h, hx]
      rw [e]
      exact ⟨_, _, _, _, rfl, fun _ => rfl⟩
    | some x =>
      rw [s.tickGroup_of_some g x h hx]
      refine ⟨_, _, _, _, rfl, fun k => ?_⟩
      show ((s.setGroup g _).group k).map _ = _
      by_cases hk : k = g
      · subst hk
        rw [State.group_setGroup, hx]
        simp [x.tick_lanes s.boundary]
      · rw [State.group_setGroup_of_ne _ _ _ _ hk]

theorem State.SameGroupLanes.trans {s t u : State} (h : s.SameGroupLanes t) (k : t.SameGroupLanes u) :
    s.SameGroupLanes u :=
  fun g => (k g).trans (h g)

theorem State.foldl_tickGroup (xs : List GroupId) : ∃ gs q0 q1 w,
    xs.foldl State.tickGroup s =
      { s with groups := gs, queue0 := q0, queue1 := q1, work := { s.work with groupsTaken := w } } ∧
      s.SameGroupLanes (xs.foldl State.tickGroup s) := by
  induction xs generalizing s with
  | nil => exact ⟨_, _, _, _, rfl, fun _ => rfl⟩
  | cons a xs ih =>
    obtain ⟨gs, q0, q1, w, e, hl⟩ := s.tickGroup_eq a
    obtain ⟨gs', q0', q1', w', e', hl'⟩ := ih (s.tickGroup a)
    rw [List.foldl_cons]
    refine ⟨gs', q0', q1', w', ?_, hl.trans hl'⟩
    rw [e', e]

/-- The PSC's event touches group records, its marks, the queues and the draw counter, and keeps every group's lanes (R92
to R97). -/
theorem State.pscEvent_eq : ∃ gs q0 q1 w n,
    s.pscEvent = { s with groups := gs, queue0 := q0, queue1 := q1, work := { s.work with groupsTaken := w }, free := n } ∧
      s.SameGroupLanes s.pscEvent := by
  unfold State.pscEvent State.forEach
  obtain ⟨gs, q0, q1, w, e, hl⟩ :=
    ({ s with free := s.free + 1 } : State).foldl_tickGroup (openOrder s.free s.expiringGroups)
  obtain ⟨gs', q0', q1', w', e', hl'⟩ := State.foldl_tickGroup
    ((openOrder s.free s.expiringGroups).foldl State.tickGroup { s with free := s.free + 1 }) (List.finRange 16)
  refine ⟨gs', q0', q1', w', s.free + 1, ?_, ?_⟩
  · rw [e', e]
  · exact State.SameGroupLanes.trans (t := (openOrder s.free s.expiringGroups).foldl State.tickGroup
      { s with free := s.free + 1 }) hl hl'

theorem Group.redecide_lanes (x : Group) :
    x.redecide.workingLane = x.workingLane ∧ x.redecide.protectLane = x.protectLane := by
  obtain ⟨q, st, h, w, -, e⟩ := x.redecide_eq
  rw [e]
  exact ⟨rfl, rfl⟩

/-- A re-decision from a record with the group's lanes keeps every group's lanes. -/
theorem State.sameGroupLanes_redecideAmong (g : GroupId) (x y : Group) (among : List Event → List Event)
    (hx : s.group g = some x) (hw : y.workingLane = x.workingLane) (hp : y.protectLane = x.protectLane) :
    s.SameGroupLanes (s.redecideAmong g y among) := by
  intro k
  by_cases hk : k = g
  · subst hk
    rw [State.group_redecideAmong, hx]
    simp [y.redecide_lanes, hw, hp]
  · rw [State.group_redecideAmong_of_ne _ _ _ _ _ hk]

theorem State.sameGroupLanes_raiseAll (es : List Event) : s.SameGroupLanes (s.raiseAll es) := by
  intro k
  rw [State.raiseAll_eq]
  rfl

theorem State.sameGroupLanes_presentInput (g : GroupId) (i : InputId) (among : List Event → List Event) :
    s.SameGroupLanes (s.presentInput g i among) := by
  unfold State.presentInput
  split
  · rename_i x hx
    split
    · exact s.sameGroupLanes_raiseAll _
    · exact s.sameGroupLanes_redecideAmong g x _ _ hx rfl rfl
  · exact s.sameGroupLanes_raiseAll _

theorem State.sameGroupLanes_reevaluateAmong (g : GroupId) (among : List Event → List Event) :
    s.SameGroupLanes (s.reevaluateAmong g among) := by
  unfold State.reevaluateAmong
  split
  · rename_i x hx
    split
    · exact s.sameGroupLanes_raiseAll _
    · exact s.sameGroupLanes_redecideAmong g x _ _ hx rfl rfl
  · exact s.sameGroupLanes_raiseAll _

/-- An accepted change touches the groups, the queues and the draw counter, and keeps every group's lanes (R116 to
R118). -/
theorem State.acceptChange_kept (i : InputId) (place : Nat) :
    s.OnlyGroups (s.acceptChange i place) ∧ s.SameGroupLanes (s.acceptChange i place) := by
  unfold State.acceptChange
  simp only
  split
  · exact ⟨.refl s, fun _ => rfl⟩
  · exact ⟨s.onlyGroups_raiseAll _, s.sameGroupLanes_raiseAll _⟩
  · split
    · exact ⟨s.onlyGroups_presentInput _ _ _, s.sameGroupLanes_presentInput _ _ _⟩
    · exact ⟨.refl s, fun _ => rfl⟩
  · exact ⟨s.onlyGroups_reevaluateAmong _ _, s.sameGroupLanes_reevaluateAmong _ _⟩

/-- One input's sampling touches its record, the groups, the queues and the draw counter (R115 to R118). -/
theorem State.sampleInput_eq (i : InputId) (level : Bool) (place : Nat) : ∃ is gs q0 q1 n,
    s.sampleInput i level place = { s with inputs := is, groups := gs, queue0 := q0, queue1 := q1, free := n } ∧
      s.SameGroupLanes (s.sampleInput i level place) := by
  unfold State.sampleInput
  simp only
  split
  · exact ⟨_, _, _, _, _, rfl, fun _ => rfl⟩
  · obtain ⟨⟨gs, q0, q1, n, e⟩, hl⟩ := (s.setInput i ((s.input i).sample level)).acceptChange_kept i place
    refine ⟨_, _, _, _, _, e, ?_⟩
    exact State.SameGroupLanes.trans (t := s.setInput i ((s.input i).sample level)) (fun _ => rfl) hl

/-- The EIU's event touches input and group records, the queues and the draw counter, and keeps every group's lanes
(R115). -/
theorem State.eiuEvent_eq (pins : BitVec 4) (places : Vector (Fin 3) 4) : ∃ is gs q0 q1 n,
    s.eiuEvent pins places = { s with inputs := is, groups := gs, queue0 := q0, queue1 := q1, free := n } ∧
      s.SameGroupLanes (s.eiuEvent pins places) := by
  unfold State.eiuEvent
  generalize List.finRange 4 = xs
  induction xs generalizing s with
  | nil => exact ⟨_, _, _, _, _, rfl, fun _ => rfl⟩
  | cons a xs ih =>
    obtain ⟨is, gs, q0, q1, n, e, hl⟩ := s.sampleInput_eq a (pins.getLsbD a.val) (places.get a).val
    obtain ⟨is', gs', q0', q1', n', e', hl'⟩ := ih (s.sampleInput a (pins.getLsbD a.val) (places.get a).val)
    rw [List.foldl_cons]
    refine ⟨is', gs', q0', q1', n', ?_, hl.trans hl'⟩
    rw [e', e]

@[simp] theorem State.channel_supply (ch c : ChannelId) (w : Word) : (s.supply ch w).channel c = s.channel c := by
  cases ch <;> cases c <;> rfl

@[simp] theorem FrameWork.word_supply (ch : ChannelId) (w : Word) : (s.supply ch w).work.word ch = some w := by
  cases ch <;> rfl

theorem FrameWork.word_supply_of_ne (ch c : ChannelId) (w : Word) (h : c ≠ ch) :
    (s.supply ch w).work.word c = s.work.word c := by
  cases ch <;> cases c <;> first | rfl | exact absurd rfl h

/-- The controller's event, where it takes one (R136, R139). -/
theorem State.mccEvent_of_due (ch : ChannelId) (h1 : s.enabled ch = true) (h2 : s.work.word ch = none) :
    s.mccEvent ch =
      match (s.channel ch).phase with
      | .replying 0 => if s.work.swapped = some ch then s.supply ch (s.idleWordOf ch 3) else s.sendReplyWord ch 0
      | .replying k => s.sendReplyWord ch k
      | .awaitAck n =>
        if n ≤ 1 then (s.supply ch (s.idleWordOf ch 5)).expireHold ch
        else (s.supply ch (s.idleWordOf ch 5)).setPhase ch (.awaitAck (n - 1))
      | p => s.supply ch (s.idleWordOf ch p.code) := by
  unfold State.mccEvent
  refine (if_pos ⟨h1, h2⟩).trans ?_
  cases (s.channel ch).phase with
  | replying k => cases k <;> rfl
  | _ => rfl

/-- The controller's event touches its channel's record, the word it supplies and the queues (R136, R139). -/
theorem State.mccEvent_eq (ch : ChannelId) : ∃ c w es,
    s.mccEvent ch = ((s.setChannel ch c).withEvents es) ∨
      s.mccEvent ch = ((s.supply ch w).setChannel ch c).withEvents es := by
  have self : ∀ t : State, t = t.setChannel ch (t.channel ch) := fun t => by cases ch <;> rfl
  by_cases h : s.enabled ch = true ∧ s.work.word ch = none
  · rw [s.mccEvent_of_due ch h.1 h.2]
    have send : ∀ k, ∃ c w es, s.sendReplyWord ch k = ((s.setChannel ch c).withEvents es) ∨
        s.sendReplyWord ch k = ((s.supply ch w).setChannel ch c).withEvents es := by
      intro k
      unfold State.sendReplyWord
      split
      · rename_i p hp
        exact ⟨_, p.word k, [], .inr rfl⟩
      · exact ⟨s.channel ch, 0, [], .inl (self s)⟩
    split
    · split
      · exact ⟨s.channel ch, s.idleWordOf ch 3, [], .inr (by cases ch <;> rfl)⟩
      · exact send 0
    · exact send _
    · split
      · unfold State.expireHold
        split
        · split
          · exact ⟨_, _, [], .inr rfl⟩
          · rw [State.raise_eq]
            refine ⟨{ s.channel ch with phase := .idle, counters := (s.channel ch).counters.incAbandoned },
              s.idleWordOf ch 5, [.replyAbandoned ch], .inr ?_⟩
            cases ch <;> rfl
        · exact ⟨_, _, [], .inr rfl⟩
      · exact ⟨_, _, [], .inr rfl⟩
    · exact ⟨s.channel ch, s.idleWordOf ch (s.channel ch).phase.code, [], .inr (by cases ch <;> rfl)⟩
  · have e : s.mccEvent ch = s := by
      unfold State.mccEvent
      rw [if_neg h]
    rw [e]
    exact ⟨s.channel ch, 0, [], .inl (self s)⟩

/-! ### The schedule -/

/-- Every unit takes its event once, whatever the order given (R49, R92, R115, R136). -/
theorem frameSchedule_perm (e : FrameEdge) :
    (frameSchedule e).Perm [.map, .efa, .psc, .eiu, .mcc0, .mcc1] := by
  unfold frameSchedule
  induction e.order with
  | nil => exact .refl _
  | cons u rest ih =>
    rw [List.foldr_cons]
    refine ((ih.filter _).cons u).trans ?_
    cases u <;> decide

end Sys2Proof.Machine
end

