-- ==== Sys2Proof/Laws/Grid.lean ====
section
/-! SUPPORT. Tables by place, destination order and runs: reading after writing, and what the lists of places hold. -/

namespace Sys2Proof.Machine

variable {α : Type}

@[simp] theorem Grid.get_replicate (a : α) (p : Place) : (Grid.replicate a).get p = a := by
  simp [Grid.get, Grid.replicate, Vector.get_eq_getElem]

@[simp] theorem Grid.get_ofFn (f : Place → α) (p : Place) : (Grid.ofFn f).get p = f p := by
  simp [Grid.get, Grid.ofFn, Vector.get_eq_getElem]

@[simp] theorem Grid.get_set (g : Grid α) (p : Place) (a : α) : (g.set p a).get p = a := by
  simp [Grid.get, Grid.set, Vector.get_eq_getElem]

theorem Grid.get_set_of_ne (g : Grid α) {p q : Place} (a : α) (h : q ≠ p) : (g.set p a).get q = g.get q := by
  obtain ⟨l, k⟩ := p
  obtain ⟨l', k'⟩ := q
  by_cases hl : l' = l
  · subst hl
    have hk : k' ≠ k := fun e => h (by rw [e])
    simp [Grid.get, Grid.set, Vector.get_eq_getElem, Fin.val_ne_of_ne hk.symm]
  · simp [Grid.get, Grid.set, Vector.get_eq_getElem, Fin.val_ne_of_ne (Ne.symm hl)]

/-- Two tables with the same value at every place are equal. -/
theorem Grid.ext_get {g h : Grid α} (e : ∀ p, g.get p = h.get p) : g = h := by
  cases g with | mk g => cases h with | mk h =>
  congr 1
  apply Vector.ext
  intro l hl
  apply Vector.ext
  intro k hk
  simpa [Grid.get, Vector.get_eq_getElem] using e ⟨⟨l, hl⟩, ⟨k, hk⟩⟩

theorem Place.mem_all (p : Place) : p ∈ Place.all := by
  simp [Place.all]

/-- Destination order is strictly rising by lane and then by slot. -/
theorem Place.all_pairwise : Place.all.Pairwise fun a b => a.lane < b.lane ∨ (a.lane = b.lane ∧ a.slot < b.slot) := by
  decide +kernel

@[simp] theorem ConnectionMap.bank_setBank (m : ConnectionMap) (n : BankName) (b : Bank) :
    (m.setBank n b).bank n = b := by
  cases n <;> rfl

theorem ConnectionMap.bank_setBank_other (m : ConnectionMap) (n : BankName) (b : Bank) :
    (m.setBank n b).bank n.other = m.bank n.other := by
  cases n <;> rfl

@[simp] theorem BankName.other_other (n : BankName) : n.other.other = n := by
  cases n <;> rfl

@[simp] theorem ConnectionMap.setBank_active (m : ConnectionMap) (n : BankName) (b : Bank) :
    (m.setBank n b).active = m.active := by
  cases n <;> rfl

@[simp] theorem ConnectionMap.setPending_active (m : ConnectionMap) (b : Bank) : (m.setPending b).active = m.active := by
  simp [ConnectionMap.setPending]

@[simp] theorem ConnectionMap.setPending_generation (m : ConnectionMap) (b : Bank) :
    (m.setPending b).generation = m.generation := by
  unfold ConnectionMap.setPending ConnectionMap.setBank
  split <;> rfl

@[simp] theorem ConnectionMap.setPending_session (m : ConnectionMap) (b : Bank) :
    (m.setPending b).session = m.session := by
  unfold ConnectionMap.setPending ConnectionMap.setBank
  split <;> rfl

@[simp] theorem ConnectionMap.setPending_scheduled (m : ConnectionMap) (b : Bank) :
    (m.setPending b).scheduled = m.scheduled := by
  unfold ConnectionMap.setPending ConnectionMap.setBank
  split <;> rfl

@[simp] theorem ConnectionMap.pendingBank_setPending (m : ConnectionMap) (b : Bank) :
    (m.setPending b).pendingBank = b := by
  unfold ConnectionMap.pendingBank
  rw [ConnectionMap.setPending_active]
  simp [ConnectionMap.setPending]

@[simp] theorem ConnectionMap.activeBank_setPending (m : ConnectionMap) (b : Bank) :
    (m.setPending b).activeBank = m.activeBank := by
  unfold ConnectionMap.activeBank ConnectionMap.setPending
  rw [ConnectionMap.setBank_active]
  cases m.active <;> rfl

/-- The pending bank replaced is all that a map's change amounts to when its other bank and its fields stay. -/
theorem ConnectionMap.setPending_congr (m : ConnectionMap) {b c : Bank} (h : b = c) :
    m.setPending b = m.setPending c := by
  rw [h]

/-- Clearing a run leaves UNUSED in it and every other entry as it was (R19). -/
theorem clearRun_get (run : List Place) (b : Bank) (p : Place) :
    (clearRun run b).get p = if p ∈ run then Entry.unused else b.get p := by
  induction run generalizing b with
  | nil => simp [clearRun]
  | cons d rest ih =>
    have step : clearRun (d :: rest) b = clearRun rest (b.set d .unused) := rfl
    rw [step, ih]
    by_cases h : p = d
    · subst h; simp
    · simp [h, Grid.get_set_of_ne _ _ h]

/-- A run names its slots in slot order (R18, R20). -/
theorem slotRun_getElem? (lane : LaneId) (first count i : Nat) (h : first + count ≤ 24) (hi : i < count) :
    ∃ p, (slotRun lane first count)[i]? = some p ∧ p.lane = lane ∧ p.slot.val = first + i := by
  have key : ∀ first : Fin 25, ∀ count : Fin 25, first.val + count.val ≤ 24 →
      ((List.finRange 24).filter fun k => first.val ≤ k.val ∧ k.val < first.val + count.val).map Fin.val =
        (List.range count.val).map (first.val + ·) := by
    decide +kernel
  have hk := key ⟨first, by omega⟩ ⟨count, by omega⟩ h
  have hg := congrArg (fun xs : List Nat => xs[i]?) hk
  simp only [List.getElem?_map, List.getElem?_range hi, Option.map_some] at hg
  obtain ⟨k, hk1, hk2⟩ := Option.map_eq_some_iff.mp hg
  exact ⟨⟨lane, k⟩, by rw [slotRun, List.getElem?_map, hk1]; rfl, rfl, by simpa using hk2⟩

theorem mem_slotRun (lane : LaneId) (first count : Nat) (p : Place) :
    p ∈ slotRun lane first count ↔ p.lane = lane ∧ first ≤ p.slot.val ∧ p.slot.val < first + count := by
  obtain ⟨l, k⟩ := p
  simp only [slotRun, List.mem_map, List.mem_filter, List.mem_finRange, true_and, decide_eq_true_eq]
  constructor
  · rintro ⟨j, hj, e⟩
    cases e
    exact ⟨rfl, hj⟩
  · rintro ⟨e, hk⟩
    exact ⟨k, hk, congrArg (Place.mk · k) e.symm⟩

end Sys2Proof.Machine
end

