-- ==== Sys2Proof/Laws/Map.lean ====
section
/-! SUPPORT. The map's operand forms and checks, each once: runs, places, the guard's answer for a run, and the four tests of
a validation with their numbers (R13, R18, R20, R35, R153). -/

namespace Sys2Proof.Machine

variable (s : State) (ch : ChannelId)

/-! ### Places and runs -/

theorem placeOf_of_val (d : Place) (l k : Byte) (hl : d.lane.val = l.toNat) (hk : d.slot.val = k.toNat) :
    placeOf l k = some d := by
  unfold placeOf laneOf slotOf
  rw [finOf_of_val _ _ hl, finOf_of_val _ _ hk]

theorem placeOf_eq_none (l k : Byte) (h : 7 < l.toNat ∨ 23 < k.toNat) : placeOf l k = none := by
  unfold placeOf laneOf slotOf
  rcases h with h | h
  · rw [finOf_eq_none h]
  · rw [finOf_eq_none h]; split <;> simp_all

theorem runOf_of_val (most : Nat) (lane : LaneId) (l first count : Byte) (hl : lane.val = l.toNat)
    (h1 : first.toNat ≤ 23) (h2 : 1 ≤ count.toNat) (h3 : count.toNat ≤ most) (h4 : first.toNat + count.toNat ≤ 24) :
    runOf most l first count = some (slotRun lane first.toNat count.toNat) := by
  unfold runOf laneOf slotOf
  rw [finOf_of_val lane _ hl, finOf_of_val (n := 24) ⟨first.toNat, by omega⟩ _ rfl]
  simp only
  rw [if_pos ⟨h2, h3, h4⟩]
  rfl

theorem runOf_eq_none (most : Nat) (l first count : Byte)
    (h : 7 < l.toNat ∨ 23 < first.toNat ∨ count.toNat = 0 ∨ most < count.toNat ∨ 24 < first.toNat + count.toNat) :
    runOf most l first count = none := by
  unfold runOf laneOf slotOf
  rcases h with h | h | h
  · rw [finOf_eq_none h]
  · rw [finOf_eq_none h]; split <;> simp_all
  · split
    · rename_i a b ha hb
      have := finOf_eq_some.mp hb
      rw [if_neg]; omega
    · rfl

theorem slotRun_pairwise (lane : LaneId) (first count : Nat) : (slotRun lane first count).Pairwise Place.before := by
  unfold slotRun
  rw [List.pairwise_map]
  refine List.Pairwise.filter _ ?_
  have : (List.finRange 24).Pairwise (· < ·) := by decide
  exact this.imp fun h => .inr ⟨rfl, h⟩

/-! ### The guard's answer for a run (R152, R153) -/

/-- A search in destination order finds the first place that satisfies the test. -/
theorem find?_of_first (f : Place → Bool) (run : List Place) (hp : run.Pairwise Place.before) (p : Place)
    (hm : p ∈ run) (hf : f p = true) (hb : ∀ q ∈ run, q.before p → f q = false) : run.find? f = some p := by
  induction run with
  | nil => simp at hm
  | cons d rest ih =>
    rw [List.pairwise_cons] at hp
    rcases List.mem_cons.mp hm with rfl | hm'
    · simp [hf]
    · simp only [List.find?_cons, hb d (by simp) (hp.1 p hm')]
      exact ih hp.2 hm' fun q hq => hb q (by simp [hq])

theorem findSome?_of_first {β : Type} (f : Place → Option β) (run : List Place) (hp : run.Pairwise Place.before)
    (p : Place) (hm : p ∈ run) (v : β) (hf : f p = some v) (hb : ∀ q ∈ run, q.before p → f q = none) :
    run.findSome? f = some v := by
  induction run with
  | nil => simp at hm
  | cons d rest ih =>
    rw [List.pairwise_cons] at hp
    rcases List.mem_cons.mp hm with rfl | hm'
    · simp [hf]
    · simp only [List.findSome?_cons, hb d (by simp) (hp.1 p hm')]
      exact ih hp.2 hm' fun q hq => hb q (by simp [hq])

theorem State.unmodifiable_eq_none (run : List Place) :
    s.unmodifiable ch run = none ↔ ∀ p ∈ run, ¬ s.Denied ch Region.modifyPermit p := by
  cases ch
  · simp [State.unmodifiable, State.Denied]
  · simp [State.unmodifiable, State.Denied, Guard.mayModify_iff]

theorem State.unreadable_eq_none (run : List Place) :
    s.unreadable ch run = none ↔ ∀ p ∈ run, ¬ s.Denied ch Region.readPermit p := by
  cases ch
  · simp [State.unreadable, State.Denied]
  · simp [State.unreadable, State.Denied, Guard.mayRead_iff]

theorem State.unmodifiable_of_first (run : List Place) (hp : run.Pairwise Place.before) (p : Place)
    (h : s.FirstDenied ch Region.modifyPermit run p) : s.unmodifiable ch run = some p := by
  obtain ⟨hm, ⟨rfl, hd⟩, hb⟩ := h
  refine find?_of_first _ run hp p hm ?_ ?_
  · rw [Bool.not_eq_true', Bool.eq_false_iff, Ne, Guard.mayModify_iff]
    exact hd
  · intro q hq hqp
    rw [Bool.not_eq_false', ← Bool.not_eq_false]
    intro hx
    exact hb q hq hqp ⟨rfl, fun hg => by rw [(s.guard.mayModify_iff q).mpr hg] at hx; cases hx⟩

theorem State.unreadable_of_first (run : List Place) (hp : run.Pairwise Place.before) (p : Place)
    (h : s.FirstDenied ch Region.readPermit run p) : s.unreadable ch run = some p := by
  obtain ⟨hm, ⟨rfl, hd⟩, hb⟩ := h
  refine find?_of_first _ run hp p hm ?_ ?_
  · rw [Bool.not_eq_true', Bool.eq_false_iff, Ne, Guard.mayRead_iff]
    exact hd
  · intro q hq hqp
    rw [Bool.not_eq_false', ← Bool.not_eq_false]
    intro hx
    exact hb q hq hqp ⟨rfl, fun hg => by rw [(s.guard.mayRead_iff q).mpr hg] at hx; cases hx⟩

/-! ### The tests of R13 and R35 -/

theorem State.directReserved_iff (e : Entry) :
    s.directReserved e = true ↔ ∃ p f, e = .direct p f ∧ s.Reserved p := by
  cases e <;> simp [State.directReserved, State.managed_iff]

theorem State.namesOffGroup_iff (e : Entry) :
    s.namesOffGroup e = true ↔ ∃ g slot f, e = .protect g slot f ∧ s.group g = none := by
  cases e <;> simp [State.namesOffGroup]

theorem State.drawsReserved_iff (e : Entry) : s.drawsReserved e = true ↔ ∃ p, s.Draws e p ∧ s.Reserved p := by
  simp [State.drawsReserved, Entry.mem_sources_iff, State.managed_iff]

variable (d : Place)

theorem State.failsTest_one : s.FailsTest ch d 1 ↔ s.namesOffGroup (s.map.pendingBank.get d) = true :=
  (s.namesOffGroup_iff _).symm

theorem State.failsTest_two : s.FailsTest ch d 2 ↔ s.usesReserved d (s.map.pendingBank.get d) = true := by
  simp [State.usesReserved, State.FailsTest, State.managed_iff]

theorem State.failsTest_three : s.FailsTest ch d 3 ↔ s.drawsReserved (s.map.pendingBank.get d) = true :=
  (s.drawsReserved_iff _).symm

theorem State.failsTest_four :
    s.FailsTest ch d 4 ↔
      (s.map.pendingBank.get d ≠ s.map.activeBank.get d ∧ (s.unmodifiable ch [d]).isSome = true) := by
  unfold State.FailsTest
  refine and_congr_right fun _ => ?_
  rw [← Option.ne_none_iff_isSome, Ne, State.unmodifiable_eq_none]
  simp

theorem State.failsTest_cases (n : Nat) (h : s.FailsTest ch d n) : n = 1 ∨ n = 2 ∨ n = 3 ∨ n = 4 := by
  match n, h with
  | 1, _ => simp
  | 2, _ => simp
  | 3, _ => simp
  | 4, _ => simp

/-- The fault of the test of this number (R35). -/
def faultOfTest (test : Nat) : MapFault :=
  match test with
  | 1 => .groupNotConfigured
  | 4 => .guard
  | _ => .reserved

theorem State.entryFault_eq_none (h : ∀ n, ¬ s.FailsTest ch d n) : s.entryFault ch d = none := by
  have h1 := (s.failsTest_one ch d).not.mp (h 1)
  have h2 := (s.failsTest_two ch d).not.mp (h 2)
  have h3 := (s.failsTest_three ch d).not.mp (h 3)
  have h4 := (s.failsTest_four ch d).not.mp (h 4)
  unfold State.entryFault
  simp only
  rw [if_neg h1, if_neg h2, if_neg h3, if_neg h4]

theorem State.entryFault_of_first (n : Nat) (hn : s.FailsTest ch d n) (h : ∀ m, m < n → ¬ s.FailsTest ch d m) :
    s.entryFault ch d = some (faultOfTest n) := by
  have h1 : 1 < n → _ := fun hm => (s.failsTest_one ch d).not.mp (h 1 hm)
  have h2 : 2 < n → _ := fun hm => (s.failsTest_two ch d).not.mp (h 2 hm)
  have h3 : 3 < n → _ := fun hm => (s.failsTest_three ch d).not.mp (h 3 hm)
  unfold State.entryFault
  simp only
  rcases s.failsTest_cases ch d n hn with rfl | rfl | rfl | rfl
  · rw [if_pos ((s.failsTest_one ch d).mp hn)]; rfl
  · rw [if_neg (h1 (by omega)), if_pos ((s.failsTest_two ch d).mp hn)]; rfl
  · rw [if_neg (h1 (by omega)), if_neg (h2 (by omega)), if_pos ((s.failsTest_three ch d).mp hn)]; rfl
  · rw [if_neg (h1 (by omega)), if_neg (h2 (by omega)), if_neg (h3 (by omega)),
      if_pos ((s.failsTest_four ch d).mp hn)]
    rfl

/-- A validation that fails names the first failing entry and the first test it fails (R35). -/
theorem State.validate_of_first (n : Nat) (h : s.FirstFailure ch d n) : s.validate ch = some (d, faultOfTest n) := by
  obtain ⟨h1, h2, h3⟩ := h
  refine findSome?_of_first _ _ Place.all_pairwise d (Place.mem_all d) _ ?_ ?_
  · rw [s.entryFault_of_first ch d n h1 h2]; rfl
  · intro q _ hq
    rw [s.entryFault_eq_none ch q (h3 q hq)]; rfl

/-- A validation passes where no entry fails a test (R35, R37). -/
theorem State.validate_eq_none (h : ∀ d n, ¬ s.FailsTest ch d n) : s.validate ch = none := by
  unfold State.validate
  rw [List.findSome?_eq_none_iff]
  intro q _
  rw [s.entryFault_eq_none ch q (h q)]; rfl

end Sys2Proof.Machine
end

