-- ==== Sys2Proof/Laws/Queries.lean ====
section
/-! SUPPORT. What the yes-or-no questions of the owners' checks ask, as statements: places, groups and inputs in use, who
holds a group, which kinds of request name a command. -/

namespace Sys2Proof.Machine

variable (s : State)

/-! ### Places, groups and inputs in use -/

theorem State.egressInUse_iff (enables : Byte) :
    s.egressInUse enables = true ↔ ∃ ch p, s.place ch = some p ∧ enables.getLsbD p.lane.val = false := by
  unfold State.egressInUse
  simp only [List.any_eq_true, List.mem_finRange, true_and, Bool.and_eq_true, Bool.not_eq_true']
  constructor
  · rintro ⟨l, hm, hb⟩
    simp only [State.managedLane, Bool.or_eq_true, beq_iff_eq] at hm
    rcases hm with h | h
    · exact ⟨.ch0, _, rfl, by rw [show (⟨s.strapLane, 23⟩ : Place).lane = l from h]; exact hb⟩
    · obtain ⟨p, hp, rfl⟩ := Option.map_eq_some_iff.mp h
      exact ⟨.ch1, p, hp, hb⟩
  · rintro ⟨ch, p, hp, hb⟩
    refine ⟨p.lane, ?_, hb⟩
    cases ch
    · cases hp
      simp [State.managedLane]
    · simp only [State.place] at hp
      simp [State.managedLane, hp]

theorem State.placeInUse_iff (p : Place) : s.placeInUse p = true ↔
    ∃ n d, ((s.map.bank n).get d ≠ .unused ∧ d = p) ∨ s.Draws ((s.map.bank n).get d) p := by
  unfold State.placeInUse
  rw [ConnectionMap.anyEntry_iff]
  refine exists_congr fun n => exists_congr fun d => ?_
  simp [Entry.mem_sources_iff]

theorem State.groupInUse_iff (g : GroupId) (w p : LaneId) : s.groupInUse g w p = true ↔
    ∃ n d k f, (s.map.bank n).get d = .protect g k f ∧ (s.Reserved ⟨w, k⟩ ∨ s.Reserved ⟨p, k⟩) := by
  unfold State.groupInUse
  rw [ConnectionMap.anyEntry_iff]
  refine exists_congr fun n => exists_congr fun d => ?_
  cases (s.map.bank n).get d <;> simp [State.managed_iff]

theorem State.groupBound_iff (g : GroupId) : s.groupBound g = true ↔
    (∃ n d k f, (s.map.bank n).get d = .protect g k f) ∨ ∃ i, (s.input i).mode.bound = some g := by
  unfold State.groupBound
  rw [Bool.or_eq_true, ConnectionMap.anyEntry_iff, any_toList_iff]
  refine or_congr ?_ ?_
  · refine exists_congr fun n => exists_congr fun d => ?_
    cases (s.map.bank n).get d <;> simp [Entry.references]
  · exact exists_congr fun i => by simp [State.input]

theorem mem_lockoutGroups (a b : InputMode) (g : GroupId) :
    g ∈ lockoutGroups a b ↔ a = .levelLockout g ∨ b = .levelLockout g := by
  unfold lockoutGroups
  cases a <;> cases b <;> simp [InputMode.lockoutGroup, eq_comm]
  split <;> simp_all

theorem nodup_lockoutGroups (a b : InputMode) : (lockoutGroups a b).Nodup := by
  unfold lockoutGroups
  split
  · split <;> simp_all
  all_goals simp

theorem Input.unbind_eq (x : Input) : x.unbind = { x with mode := if x.mode = .off then .off else .event } := by
  unfold Input.unbind
  cases x with
  | mk m a b c => cases m <;> rfl

/-! ### Group requests -/

theorem Group.heldBySupervisor_iff (x : Group) :
    x.heldBySupervisor = true ↔ ∃ q, x.standing = some ⟨q, .channel .ch0⟩ := by
  unfold Group.heldBySupervisor
  cases x.standing with
  | none => simp
  | some q => cases q with
    | mk k o => simp

theorem Group.summary_eq (x : Group) (g : GroupId) (group : Byte) (h : g.val = group.toNat) :
    x.summary g =
      [group, BitVec.ofNat 8 x.state.code, BitVec.ofNat 8 x.selected.code, BitVec.ofNat 8 x.topRank] := by
  unfold Group.summary
  rw [byteOf_of_val g group h]
  rfl

theorem State.replyGroup_redecide (g : GroupId) (x : Group) (ch : ChannelId) (r : Request) :
    (s.redecide g x).replyGroup ch r g = (s.redecide g x).finish ch r .ok (x.redecide.summary g) .none := by
  unfold State.replyGroup
  rw [State.group_redecide]
  rfl

/-- A request that is not outranked is not dropped by the re-decision it causes (R102, R104). -/
theorem Group.mustDrop_of_not_outranks (x : Group) (k : RequestKind) (o : Origin) (h : x.outranks k = false) :
    ({ x with standing := some ⟨k, o⟩ } : Group).mustDrop = false := by
  rw [Bool.eq_false_iff] at h ⊢
  rw [Ne, x.outranks_iff] at h
  intro hd
  apply h
  unfold Group.mustDrop at hd
  simp only [Bool.and_eq_true, Bool.or_eq_true] at hd
  obtain ⟨hm, hd⟩ := hd
  have hk : k.rank = 7 := by cases k <;> simp [Group.present, Group.standingKind] at hm <;> rfl
  have hk2 : k ≠ .lockout ∧ k ≠ .force := by constructor <;> (rintro rfl; cases hk)
  rw [hk]
  rcases hd with ((((hd | hd) | hd) | hd) | hd) | hd
  · refine ⟨.lockout, ?_, by decide⟩
    simp [Group.present, Group.standingKind, hk2.1] at hd
    simp [Group.present, hd]
  · exact ⟨.sfP, hd, by decide⟩
  · simp [Group.present, Group.standingKind, hk2.2] at hd
  · exact ⟨.sfW, hd, by decide⟩
  · exact ⟨.sdP, hd, by decide⟩
  · exact ⟨.sdW, hd, by decide⟩

/-! ### Banks -/

theorem Entry.sameSource_iff (a b : Entry) : a.sameSource b = true ↔ a.KeepsSource b := by
  unfold Entry.KeepsSource
  cases a <;> cases b <;> simp [Entry.sameSource]
  constructor <;> (rintro ⟨rfl, rfl⟩; simp)

theorem ConnectionMap.activeBank_swap (m : ConnectionMap) : m.swap.activeBank = m.pendingBank := by
  unfold ConnectionMap.swap ConnectionMap.release
  show (ConnectionMap.restore _).activeBank = _
  unfold ConnectionMap.restore
  rw [ConnectionMap.activeBank_setPending]
  rfl

theorem ConnectionMap.pendingBank_swap (m : ConnectionMap) : m.swap.pendingBank = m.pendingBank := by
  unfold ConnectionMap.swap ConnectionMap.release
  show (ConnectionMap.restore _).pendingBank = _
  unfold ConnectionMap.restore
  rw [ConnectionMap.pendingBank_setPending]
  rfl

/-! ### Channels -/

theorem State.setChannel_self (ch : ChannelId) : s.setChannel ch (s.channel ch) = s := by
  cases ch <;> rfl

theorem State.acknowledge_of_acked (ch : ChannelId) (h : ∀ p, (s.channel ch).stored = some p → p.acked = true) :
    s.acknowledge ch = s := by
  unfold State.acknowledge
  split
  · rename_i p hp
    rw [if_pos (h p hp)]
  · rfl

theorem bodyBytes_length (b : List Half) : (bodyBytes b).length = 2 * b.length := by
  induction b with
  | nil => rfl
  | cons h t ih =>
    show (payloadBytes h ++ bodyBytes t).length = _
    simp [payloadBytes, ih]
    omega

/-- A body of the table's length names a command (10.6). -/
theorem commandOf_isSome (ch : ChannelId) (code : BitVec 6) (bytes : List Byte) (n : Nat)
    (h : commandLength code = some n) (hl : bytes.length = 2 * n) : ∃ i, commandOf ch code bytes = some i := by
  unfold commandLength at h
  unfold commandOf
  generalize code.toNat = c at h
  have len : ∀ m, n = m → bytes.length = 2 * m := fun m e => e ▸ hl
  split at h <;> first | (cases h; done) | skip
  all_goals
    have hn := (Option.some.inj h).symm
    have hb := len _ hn
    match bytes, hb with
    | [], hb => first | exact ⟨_, rfl⟩ | (exfalso; simp at hb)
    | [a, b], hb => first | exact ⟨_, rfl⟩ | (exfalso; simp at hb)
    | [a, b, c, d], hb => first | exact ⟨_, rfl⟩ | (exfalso; simp at hb)
    | [a, b, c, d, e, f], hb => first | exact ⟨_, rfl⟩ | (exfalso; simp at hb)
    | [a, b, c, d, e, f, g, h], hb => first | exact ⟨_, rfl⟩ | (exfalso; simp at hb)

end Sys2Proof.Machine
end

