-- ==== Sys2Proof/Laws/Units.lean ====
section
/-! SUPPORT. What the units' events of a frame start leave alone: the timebase and the locations by all of them, the taken
frames and the snapshot by all but the EFA's, and a channel that is no committer by all but its controller's. -/

namespace Sys2Proof.Machine

/-- The two states have the same timebase, sent words, enables, hold limit, waiting commands, locations and guard, and the
same lanes in every group. -/
structure State.SameFrame (s t : State) : Prop where
  frameNo : t.efa.frameNo = s.efa.frameNo
  started : t.efa.started = s.efa.started
  superframes : t.efa.superframes = s.efa.superframes
  lines : t.efa.lines = s.efa.lines
  sent : t.efa.sent = s.efa.sent
  enables : t.efa.enables = s.efa.enables
  holdLimit : t.efa.holdLimit = s.efa.holdLimit
  pending : t.pending = s.pending
  strapLane : t.strapLane = s.strapLane
  operatorPlace : t.operatorPlace = s.operatorPlace
  guard : t.guard = s.guard
  groupLanes : s.SameGroupLanes t

theorem State.SameFrame.refl (s : State) : s.SameFrame s :=
  ⟨rfl, rfl, rfl, rfl, rfl, rfl, rfl, rfl, rfl, rfl, rfl, fun _ => rfl⟩

theorem State.SameFrame.trans {s t u : State} (h : s.SameFrame t) (k : t.SameFrame u) : s.SameFrame u :=
  ⟨k.frameNo.trans h.frameNo, k.started.trans h.started, k.superframes.trans h.superframes, k.lines.trans h.lines,
    k.sent.trans h.sent, k.enables.trans h.enables, k.holdLimit.trans h.holdLimit, k.pending.trans h.pending,
    k.strapLane.trans h.strapLane, k.operatorPlace.trans h.operatorPlace, k.guard.trans h.guard,
    h.groupLanes.trans k.groupLanes⟩

theorem State.SameFrame.place {s t : State} (h : s.SameFrame t) (ch : ChannelId) : t.place ch = s.place ch := by
  cases ch
  · show some (⟨t.strapLane, 23⟩ : Place) = _
    rw [h.strapLane]
    rfl
  · exact h.operatorPlace

theorem State.sameFrame_mapEvent (s : State) : s.SameFrame s.mapEvent := by
  obtain ⟨m, h, c0, c1, q0, q1, b, w, e⟩ := s.mapEvent_eq
  rw [e]
  exact ⟨rfl, rfl, rfl, rfl, rfl, rfl, rfl, rfl, rfl, rfl, rfl, fun _ => rfl⟩

theorem State.sameFrame_swapFirst (s : State) : s.SameFrame s.swapFirst := by
  unfold State.swapFirst
  split
  · exact s.sameFrame_mapEvent
  · exact .refl s

theorem State.sameFrame_mccEvent (s : State) (ch : ChannelId) : s.SameFrame (s.mccEvent ch) := by
  obtain ⟨c, w, es, e | e⟩ := s.mccEvent_eq ch <;> rw [e] <;> cases ch <;>
    exact ⟨rfl, rfl, rfl, rfl, rfl, rfl, rfl, rfl, rfl, rfl, rfl, fun _ => rfl⟩

theorem State.sameFrame_unitEvent (s : State) (e : FrameEdge) (u : FrameUnit) : s.SameFrame (s.unitEvent e u) := by
  cases u
  · exact s.sameFrame_mapEvent
  · obtain ⟨q0, q1, n, h⟩ := s.efaEvent_eq
    show s.SameFrame s.efaEvent
    rw [h]
    exact ⟨rfl, rfl, rfl, rfl, rfl, rfl, rfl, rfl, rfl, rfl, rfl, fun _ => rfl⟩
  · obtain ⟨gs, q0, q1, w, n, h, hl⟩ := s.pscEvent_eq
    show s.SameFrame s.pscEvent
    refine ⟨?_, ?_, ?_, ?_, ?_, ?_, ?_, ?_, ?_, ?_, ?_, hl⟩ <;> rw [h]
  · obtain ⟨is, gs, q0, q1, n, h, hl⟩ := s.eiuEvent_eq e.pins e.edgePlace
    show s.SameFrame (s.eiuEvent e.pins e.edgePlace)
    refine ⟨?_, ?_, ?_, ?_, ?_, ?_, ?_, ?_, ?_, ?_, ?_, hl⟩ <;> rw [h]
  · exact s.sameFrame_swapFirst.trans (State.sameFrame_mccEvent _ _)
  · exact s.sameFrame_swapFirst.trans (State.sameFrame_mccEvent _ _)

theorem State.sameFrame_foldl (e : FrameEdge) (us : List FrameUnit) (s : State) :
    s.SameFrame (us.foldl (fun s u => s.unitEvent e u) s) := by
  induction us generalizing s with
  | nil => exact .refl s
  | cons u us ih => exact (s.sameFrame_unitEvent e u).trans (ih _)

theorem Lane.take_fst (x : Lane) : x.take.1 = x.answer := by
  unfold Lane.take Lane.answer
  cases x.unread <;> cases x.lastRead <;> split <;> rfl

/-- The two states have the same lanes, taken frames and group snapshot. -/
structure State.SameTaken (s t : State) : Prop where
  lanes : t.lanes = s.lanes
  taken : t.work.taken = s.work.taken
  snapshot : t.work.snapshot = s.work.snapshot

/-- Every unit's event but the EFA's leaves the lanes, the taken frames and the group snapshot alone. -/
theorem State.sameTaken_unitEvent (s : State) (e : FrameEdge) (u : FrameUnit) (hu : u ≠ .efa) :
    s.SameTaken (s.unitEvent e u) := by
  have map : s.SameTaken s.mapEvent := by
    obtain ⟨m, h, c0, c1, q0, q1, b, w, h⟩ := s.mapEvent_eq
    rw [h]
    exact ⟨rfl, rfl, rfl⟩
  have swap : s.SameTaken s.swapFirst := by
    unfold State.swapFirst
    split
    · exact map
    · exact ⟨rfl, rfl, rfl⟩
  have mcc : ∀ ch, s.SameTaken (s.swapFirst.mccEvent ch) := by
    intro ch
    obtain ⟨c, w, es, h | h⟩ := s.swapFirst.mccEvent_eq ch <;> rw [h] <;> cases ch <;>
      exact ⟨swap.lanes, swap.taken, swap.snapshot⟩
  cases u
  · exact map
  · exact absurd rfl hu
  · obtain ⟨gs, q0, q1, w, n, h, -⟩ := s.pscEvent_eq
    show s.SameTaken s.pscEvent
    rw [h]
    exact ⟨rfl, rfl, rfl⟩
  · obtain ⟨is, gs, q0, q1, n, h, -⟩ := s.eiuEvent_eq e.pins e.edgePlace
    show s.SameTaken (s.eiuEvent e.pins e.edgePlace)
    rw [h]
    exact ⟨rfl, rfl, rfl⟩
  · exact mcc .ch0
  · exact mcc .ch1

theorem State.sameTaken_foldl (e : FrameEdge) (us : List FrameUnit) (h : FrameUnit.efa ∉ us) (s : State) :
    s.SameTaken (us.foldl (fun s u => s.unitEvent e u) s) := by
  induction us generalizing s with
  | nil => exact ⟨rfl, rfl, rfl⟩
  | cons u us ih =>
    rw [List.mem_cons, not_or] at h
    have a := s.sameTaken_unitEvent e u (Ne.symm h.1)
    have b := ih h.2 (s.unitEvent e u)
    exact ⟨b.lanes.trans a.lanes, b.taken.trans a.taken, b.snapshot.trans a.snapshot⟩

/-- A unit stands once in the schedule. -/
theorem frameSchedule_split (e : FrameEdge) (u : FrameUnit) :
    ∃ pre post, frameSchedule e = pre ++ u :: post ∧ u ∉ pre ∧ u ∉ post := by
  have hp := frameSchedule_perm e
  have hm : u ∈ frameSchedule e := hp.mem_iff.mpr (by cases u <;> decide)
  obtain ⟨pre, post, h⟩ := List.append_of_mem hm
  have hn : (frameSchedule e).Nodup := hp.nodup_iff.mpr (by decide)
  rw [h, List.nodup_append] at hn
  obtain ⟨-, h2, h3⟩ := hn
  exact ⟨pre, post, h, fun hx => h3 _ hx _ (by simp) rfl, (List.nodup_cons.mp h2).1⟩

/-! ### A channel that is no committer -/

/-- The unit of a channel's controller. -/
def controllerOf : ChannelId → FrameUnit
  | .ch0 => .mcc0
  | .ch1 => .mcc1

/-- Channel `ch` is as it was, and so is the word it supplied; and it is still no committer if it was none. -/
structure State.SameChannel (s t : State) (ch : ChannelId) : Prop where
  channel : t.channel ch = s.channel ch
  word : t.work.word ch = s.work.word ch
  idle : s.work.swapped ≠ some ch → s.map.scheduled ≠ some ch →
    t.work.swapped ≠ some ch ∧ t.map.scheduled ≠ some ch

theorem State.SameChannel.refl (s : State) (ch : ChannelId) : s.SameChannel s ch :=
  ⟨rfl, rfl, fun a b => ⟨a, b⟩⟩

theorem State.sameChannel_bankSwap (s : State) (c ch : ChannelId) (hne : ch ≠ c) : s.SameChannel (s.bankSwap c) ch := by
  unfold State.bankSwap State.completeCommit
  rw [State.raise_eq]
  have hs : s.map.swap.scheduled ≠ some ch := by
    unfold ConnectionMap.swap ConnectionMap.release
    simp
  have hw : some c ≠ some ch := fun hx => hne (Option.some.inj hx).symm
  simp only
  split
  · have hc : ∀ (t : State) es, (t.withEvents es).channel ch = t.channel ch := fun t es => by cases ch <;> rfl
    refine ⟨?_, ?_, fun _ _ => ⟨?_, ?_⟩⟩
    · rw [hc, State.channel_finish_of_ne _ _ _ _ hne]
      cases ch <;> rfl
    · show (State.finish _ _ _ _ _ _).work.word ch = _
      rw [State.finish_work]
      cases ch <;> rfl
    · show (State.finish _ _ _ _ _ _).work.swapped ≠ _
      rw [State.finish_work]
      exact hw
    · show (State.finish _ _ _ _ _ _).map.scheduled ≠ _
      rw [State.finish_map]
      exact hs
  · refine ⟨?_, ?_, fun _ _ => ⟨hw, hs⟩⟩ <;> cases ch <;> rfl

theorem State.sameChannel_mapEvent (s : State) (ch : ChannelId) (h : s.map.scheduled ≠ some ch) :
    s.SameChannel s.mapEvent ch := by
  unfold State.mapEvent
  split
  · exact .refl s ch
  · simp only
    split
    · rename_i c hc
      have hne : ch ≠ c := by
        rintro rfl
        exact h hc
      obtain ⟨a, b, d⟩ := State.sameChannel_bankSwap { s with work := { s.work with mapTaken := true } } c ch hne
      exact ⟨a.trans (by cases ch <;> rfl), b.trans (by cases ch <;> rfl), d⟩
    · unfold State.idleTick
      split
      · split
        · rw [State.raise_eq]
          refine ⟨?_, ?_, fun a _ => ⟨a, fun hx => by cases hx⟩⟩ <;> cases ch <;> rfl
        · refine ⟨?_, ?_, fun a b => ⟨a, b⟩⟩ <;> cases ch <;> rfl
      · refine ⟨?_, ?_, fun a b => ⟨a, b⟩⟩ <;> cases ch <;> rfl

theorem State.SameChannel.trans {s t u : State} {ch : ChannelId} (h : s.SameChannel t ch) (k : t.SameChannel u ch) :
    s.SameChannel u ch :=
  ⟨k.channel.trans h.channel, k.word.trans h.word, fun a b => k.idle (h.idle a b).1 (h.idle a b).2⟩

theorem State.sameChannel_swapFirst (s : State) (ch : ChannelId) (h : s.map.scheduled ≠ some ch) :
    s.SameChannel s.swapFirst ch := by
  unfold State.swapFirst
  split
  · exact s.sameChannel_mapEvent ch h
  · exact .refl s ch

/-- Every unit's event but the channel's own controller's leaves a channel that is no committer alone. -/
theorem State.sameChannel_unitEvent (s : State) (e : FrameEdge) (u : FrameUnit) (ch : ChannelId) (hu : u ≠ controllerOf ch)
    (h : s.map.scheduled ≠ some ch) : s.SameChannel (s.unitEvent e u) ch := by
  have mcc : ∀ c d, c ≠ d → s.map.scheduled ≠ some d → s.SameChannel (s.swapFirst.mccEvent c) d := by
    intro c d hne hd
    refine (s.sameChannel_swapFirst d hd).trans ?_
    obtain ⟨x, w, es, e' | e'⟩ := s.swapFirst.mccEvent_eq c <;> rw [e'] <;> cases c <;> cases d <;>
      first | exact absurd rfl hne | exact ⟨rfl, rfl, fun a b => ⟨a, b⟩⟩
  cases u
  · exact s.sameChannel_mapEvent ch h
  · obtain ⟨q0, q1, n, e'⟩ := s.efaEvent_eq
    show s.SameChannel s.efaEvent ch
    rw [e']
    refine ⟨?_, ?_, fun a b => ⟨a, b⟩⟩ <;> cases ch <;> rfl
  · obtain ⟨gs, q0, q1, w, n, e', -⟩ := s.pscEvent_eq
    show s.SameChannel s.pscEvent ch
    rw [e']
    refine ⟨?_, ?_, fun a b => ⟨a, b⟩⟩ <;> cases ch <;> rfl
  · obtain ⟨is, gs, q0, q1, n, e', -⟩ := s.eiuEvent_eq e.pins e.edgePlace
    show s.SameChannel (s.eiuEvent e.pins e.edgePlace) ch
    rw [e']
    refine ⟨?_, ?_, fun a b => ⟨a, b⟩⟩ <;> cases ch <;> rfl
  · cases ch
    · exact absurd rfl hu
    · exact mcc .ch0 .ch1 (by decide) h
  · cases ch
    · exact mcc .ch1 .ch0 (by decide) h
    · exact absurd rfl hu

theorem State.sameChannel_foldl (e : FrameEdge) (ch : ChannelId) (us : List FrameUnit) (hu : controllerOf ch ∉ us) (s : State)
    (h1 : s.work.swapped ≠ some ch) (h2 : s.map.scheduled ≠ some ch) :
    s.SameChannel (us.foldl (fun s u => s.unitEvent e u) s) ch := by
  induction us generalizing s with
  | nil => exact .refl s ch
  | cons u us ih =>
    rw [List.mem_cons, not_or] at hu
    have a := s.sameChannel_unitEvent e u ch (Ne.symm hu.1) h2
    obtain ⟨x1, x2⟩ := a.idle h1 h2
    have b := ih hu.2 (s.unitEvent e u) x1 x2
    exact ⟨b.channel.trans a.channel, b.word.trans a.word, fun _ _ => b.idle x1 x2⟩

end Sys2Proof.Machine
end

