-- ==== Sys2Proof/WellFormed.lean ====
section
/-! DEFINITION. Which commands the surroundings of the part can send: the operands of a frame start are the only ones
whose types admit more than the part can meet. -/

namespace Sys2Proof

/-- A frame start's operands: a frame has 25 words, so at most 25 of them have left (R48), and each unit takes its
event of the frame start once (R49, R92, R115, R136). -/
def FrameEdge.wellFormed (e : FrameEdge) : Bool :=
  decide (e.sent ≤ 25) && decide e.order.Nodup &&
    [FrameUnit.map, .efa, .psc, .eiu, .mcc0, .mcc1].all fun u => e.order.contains u

/-- Every other operand fills its field exactly (R127, R176), so every value of it can be sent. -/
def Instr.wellFormed : Instr → Bool
  | .egressFrameStart e => e.wellFormed
  | _ => true

end Sys2Proof
end

