-- ==== Sys2Proof/Tests/Slice0.lean ====
section
/-! SUPPORT. Tests of single steps against values read off the manual, words decoded as the manual writes them, ill-formed
terms refused, and for each statement with hypotheses a state and operands that meet them. -/

namespace Sys2Proof.Tests

open Sys2Proof.Machine

/-! ### Small states -/

/-- What a function reads of the next state. -/
def after {α : Type} (o : Host.Outcome State Fault Refusal) (f : State → α) : Option α :=
  match o with
  | .next t => some (f t)
  | _ => none

/-- A request with SEQ 3, this CODE and these body bytes. -/
def request (code : BitVec 6) (bytes : List Byte) : Request :=
  ⟨code, 3, BitVec.ofNat 5 (bytes.length / 2), packBytes bytes⟩

/-- The state in which the request waits for its owner. -/
def asking (s : State) (ch : ChannelId) (code : BitVec 6) (bytes : List Byte) : State :=
  s.setPhase ch (.executing (request code bytes) true)

/-- STATUS and body bytes of a channel's stored reply. -/
def stored (ch : ChannelId) (s : State) : Option (Status × List Byte) :=
  (s.channel ch).stored.map fun p => (p.status, bodyBytes p.body)

/-- The reply to a request that the row takes. -/
def answer (i : Instr) (s : State) (ch : ChannelId) (code : BitVec 6) (bytes : List Byte) :
    Option (Status × List Byte) :=
  (after (exec i (asking s ch code bytes)) (stored ch)).join

/-- A state whose lane is ALIGNED with this tracking. -/
def aligned (s : State) (l : LaneId) (t : Tracking) : State :=
  s.setLane l { s.lane l with alignment := .aligned t }

/-- Tracking at the start of a frame, the next marker to carry 5. -/
def fresh : Tracking :=
  ⟨5, 0, ⟨0, 0⟩, false, []⟩

/-- Tracking after 24 slot words: the next word is at the marker position. -/
def atMarker (run length bad : Nat) (degraded : Bool) : Tracking :=
  ⟨5, run, ⟨length, bad⟩, degraded, List.replicate 24 0⟩

/-- Channel 1 enabled at (7, 0). -/
def operated : State :=
  { State.reset with
    operatorPlace := some ⟨7, 0⟩, ch1 := Channel.reset .idle
    efa := { State.reset.efa with enables := 0x81 } }

/-- Channel 1 enabled, and a region that lets it modify and read (2, 4) to (2, 6). -/
def permitted : State :=
  { operated with guard := { operated.guard with
      regions := operated.guard.regions.set 0 (some ⟨2, 2, 4, 6, true, true⟩) } }

/-- The channel holds the edit lock with three boundaries left. -/
def locked (s : State) (ch : ChannelId) : State :=
  { s with map := { s.map with session := some ⟨ch, 4, 3⟩ } }

/-- A commit of the channel is scheduled. -/
def scheduled (s : State) (ch : ChannelId) : State :=
  let t := (locked s ch).setPhase ch (.executing (request 0x09 []) false)
  { t with map := { t.map with scheduled := some ch } }

/-- Another entry in the pending bank, bank B after reset. -/
def pendingEntry (s : State) (d : Place) (e : Entry) : State :=
  { s with map := { s.map with bankB := s.map.bankB.set d e } }

/-- Another entry in the active bank, bank A after reset. -/
def activeEntry (s : State) (d : Place) (e : Entry) : State :=
  { s with map := { s.map with bankA := s.map.bankA.set d e } }

/-- Group 3 on lanes 1 and 2, at rest on WORKING, both lanes well. -/
def quiet : Group :=
  ⟨1, 2, true, 5, 30, true, none, false, ⟨false, false, false, false⟩, .wIdle, .working, none, none, 0⟩

/-- A state with this record for group 3 and lanes 1 and 2 ALIGNED. -/
def grouped (s : State) (x : Group) : State :=
  (aligned (aligned s 1 fresh) 2 fresh).setGroup 3 (some x)

/-- A reply with SEQ 3 of one body word, not acknowledged. -/
def reply (effects : Deferred) : StoredReply :=
  ⟨.ok, 3, [0x0102], 0xABCD, false, effects, 0⟩

/-- Channel 0 in this state, with this stored reply. -/
def holding (p : Phase) (r : StoredReply) : State :=
  { State.reset with ch0 := { State.reset.ch0 with phase := p, stored := some r } }

/-- A frame start that finds every level LOW and cuts nothing short. -/
def edge : FrameEdge :=
  ⟨0, 25, [.map, .efa, .psc, .eiu, .mcc0, .mcc1], Vector.replicate 4 0⟩

/-- The state in which an edge on FREF has come, with a row ahead of it. -/
def edged (s : State) : State :=
  { s with pending := [.wtrExpiry 15, .egressFrameStart edge] }

/-! ### Well-formed commands -/

theorem test_wellFormed_edge : (Instr.egressFrameStart edge).wellFormed = true := by decide

theorem test_illFormed_sent : (Instr.egressFrameStart { edge with sent := 26 }).wellFormed = false := by decide

theorem test_illFormed_twice :
    (Instr.egressFrameStart { edge with order := .map :: edge.order }).wellFormed = false := by decide

theorem test_illFormed_missing :
    (Instr.egressFrameStart { edge with order := [.map, .efa, .psc, .eiu, .mcc0] }).wellFormed = false := by decide

/-! ### Words and bytes as the manual writes them (10.2 to 10.4) -/

/-- No row of the table has bits. -/
theorem test_decodeTableWord_none : decodeTableWord 24 0x413000 = none := rfl

/-- HEAD of a READ_IDENTITY with SEQ 3: 01, 000001, 0011, 00000 and seven spare bits. -/
theorem test_decode_head : decodeMgmtWord 0b010000010011000000000000#24 = .head 0x01 3 0 := by decide

/-- HEAD of a SET_ENTRY with SEQ 2 and four body words. -/
theorem test_decode_head_setEntry : decodeMgmtWord 0b010100000010001000000000#24 = .head 0x10 2 4 := by decide

theorem test_decode_body : decodeMgmtWord 0b100000000000010100001100#24 = .body 0x050C := by decide

theorem test_decode_tail : decodeMgmtWord 0b110000001010111011111111#24 = .tail 0xAEFF := by decide

/-- IDLE with ACK_VALID 1 and ACK_SEQ 9; the spare bits are ignored. -/
theorem test_decode_idle : decodeMgmtWord 0b001100111111111111111111#24 = .idle true 9 := by decide

/-- The check of the READ_IDENTITY request of 10.3: bytes 01, 03 and 00. -/
theorem test_check_readIdentity : (request 0x01 []).check = 0xAEFF := by decide +kernel

/-- The marker of frame number 9 at generation 7 (R177). -/
theorem test_markerWord : markerWord 9 7 = 0x2F7197 := by decide

/-- DIRECT from lane 6, slot 0 with PATTERN 0x00004D, as six bytes (R179). -/
theorem test_entryRecord :
    entryOf (decodeEntryRecord 0x16 0x00 0x40 0x00 0x00 0x4D) = some (.direct ⟨6, 0⟩ (.pattern 0x00004D)) := by decide

/-- One request of each family of the table of 10.6, by its CODE and body bytes. -/
theorem test_decode_requests :
    decodeCommand .ch1 0x01 [] = some (.readIdentity .ch1) ∧
      decodeCommand .ch0 0x08 [4, 9] = some (.openEdit .ch0 4) ∧
      decodeCommand .ch0 0x11 [2, 5, 3, 0] = some (.clearEntries .ch0 2 5 3) ∧
      decodeCommand .ch0 0x1A [0xFF, 0x03, 0xFF, 0] = some (.setEgress 0xFF 0x03FF) ∧
      decodeCommand .ch1 0x19 [7, 0] = some (.readLane .ch1 7 0) ∧
      decodeCommand .ch1 0x22 [3, 4] = some (.groupRequestManualW .ch1 3) ∧
      decodeCommand .ch0 0x28 [1, 0, 2, 3] = some (.setInput 1 0 2 3) ∧
      decodeCommand .ch0 0x32 [] = some .readFault ∧
      decodeCommand .ch1 0x38 [0x12, 0x34, 0x80, 0x01] = some (.setSubscription .ch1 0x1234 0x8001) ∧
      decodeCommand .ch1 0x32 [] = none ∧ decodeCommand .ch0 0x22 [3, 6] = some (.groupRequestClear .ch0 3) := by decide

/-! ### One step of each command -/

/-- Straps 5 and EVI1 HIGH: lane 5 hunts, EVI1 is accepted HIGH, EVI0 LOW (R85, R120, R126). -/
theorem test_deviceReset :
    ∃ t, exec (.deviceReset 5 0b0010) operated = .next t ∧
      t.strapLane = 5 ∧
      (t.lane 5).alignment = .hunt ∧
      (t.input 1).accepted = true ∧
      (t.input 0).lastSample = false ∧
      t.operatorPlace = none :=
  ⟨_, rfl, by decide⟩

/-- The first frame start: FRAME_NO 0, SUPERFRAME_COUNT still 0, the marker, the IDLE word of channel 0 (R45, R53,
R137). -/
theorem test_egressFrameStart :
    ∃ t, exec (.egressFrameStart edge) State.reset = .next t ∧
      t.efa.frameNo = 0 ∧
      t.efa.superframes = 0 ∧
      (t.efa.lines.get 0).map EgressFrame.marker = some 0x2F7100 ∧
      t.sentWord ⟨0, 23⟩ = some 0x080000 ∧
      t.sentWord ⟨1, 0⟩ = none :=
  ⟨_, rfl, by decide +kernel⟩

/-- The sixteenth frame start after the first: a superframe boundary (R45). -/
theorem test_egressFrameStart_boundary :
    ∃ t, exec (.egressFrameStart edge) { State.reset with efa := { State.reset.efa with started := true } } = .next t ∧
      t.efa.frameNo = 0 ∧ t.efa.superframes = 1 :=
  ⟨_, rfl, by decide +kernel⟩

/-- The hold-off ends with a switch to PROTECT in P_SF (R94). -/
theorem test_holdOffExpiry :
    ∃ t, exec (.holdOffExpiry 3) (edged (grouped State.reset
        { quiet with conditions := ⟨true, false, false, false⟩, holdOffRemaining := some 1 })) = .next t ∧
      ((t.group 3).map fun x => (x.state, x.selected, x.holdOffRemaining, x.switchCount)) = some (.pSf, .protect, none, 1) ∧
      t.queue0.records.map EventRecord.event = [.groupToProtect 3] :=
  ⟨_, rfl, by decide⟩

/-- The wait ends at the superframe boundary with a switch to WORKING in W_IDLE (R96). -/
theorem test_wtrExpiry :
    ∃ t, exec (.wtrExpiry 3) (edged (grouped State.reset
        { quiet with state := .pWtr, selected := .protect, wtrRemaining := some 1 })) = .next t ∧
      ((t.group 3).map fun x => (x.state, x.selected, x.wtrRemaining)) = some (.wIdle, .working, none) ∧
      t.queue0.records.map EventRecord.event = [.groupToWorking 3] :=
  ⟨_, rfl, by decide⟩

/-- The lock expires: released, the pending bank restored, LOCK_EXPIRED raised (R30). -/
theorem test_idleExpiry :
    ∃ t, exec .idleExpiry (edged { pendingEntry State.reset ⟨2, 4⟩ (.fixed 9) with
        map := { (pendingEntry State.reset ⟨2, 4⟩ (.fixed 9)).map with session := some ⟨.ch0, 4, 1⟩ } }) = .next t ∧
      t.map.session = none ∧
      t.map.pendingBank.get ⟨2, 4⟩ = .unused ∧
      t.queue0.records.map EventRecord.event = [.lockExpired .ch0] :=
  ⟨_, rfl, by decide⟩

/-- The swap: generation 1, bank B active, CHANGED 1 in the reply, COMMIT_DONE (R39). -/
theorem test_bankSwap :
    ∃ t, exec .bankSwap (edged (pendingEntry (scheduled State.reset .ch0) ⟨2, 4⟩ (.fixed 9))) = .next t ∧
      t.map.generation = 1 ∧
      t.map.active = .b ∧
      t.map.activeBank.get ⟨2, 4⟩ = .fixed 9 ∧
      stored .ch0 t = some (.ok, [1, 1, 1, 0]) ∧
      t.queue0.records.map EventRecord.event = [.commitDone .ch0] :=
  ⟨_, rfl, by decide⟩

/-- While FREF is absent a scheduled commit stays scheduled (R47). -/
theorem test_bankSwap_no_edge :
    ∃ t, exec .bankSwap (scheduled State.reset .ch0) = .next t ∧ t.map.scheduled = some .ch0 ∧ t.map.generation = 0 :=
  ⟨_, rfl, by decide⟩

/-- After three retransmissions the reply is abandoned, and it stays stored (R139). -/
theorem test_replyHoldExpiry :
    ∃ t, exec (.replyHoldExpiry .ch0) (edged (holding (.awaitAck 1) { reply .none with resends := 3 })) = .next t ∧
      t.ch0.phase = .idle ∧
      t.ch0.counters.abandoned = 1 ∧
      t.ch0.stored.isSome = true ∧
      t.queue0.records.map EventRecord.event = [.replyAbandoned .ch0] :=
  ⟨_, rfl, by decide⟩

/-- A matching word in HUNT: CONFIRM, the next marker to carry 10 (R65). -/
theorem test_ingressWordArrival_hunt :
    ∃ t, exec (.ingressWordArrival 0 0x2F7197) State.reset = .next t ∧
      (t.lane 0).alignment = (.confirm 0 10 false) :=
  ⟨_, rfl, by decide⟩

/-- The TAIL of the READ_IDENTITY request of 10.3 at channel 0's location: the request waits for its owner (R77, R134). -/
theorem test_ingressWordArrival_tail :
    ∃ t, exec (.ingressWordArrival 0 0xC0AEFF) (aligned
        (State.reset.setPhase .ch0 (.receiving (request 0x01 []))) 0 { fresh with slots := List.replicate 23 0 }) = .next t ∧
      t.ch0.phase = .executing (request 0x01 []) true ∧ (t.lane 0).unread.length = 1 :=
  ⟨_, rfl, by decide +kernel⟩

/-- The fourth bad position in a row (R68, R69). -/
theorem test_lossOfAlignment :
    ∃ t, exec (.lossOfAlignment 1 0) (aligned State.reset 1 (atMarker 3 10 3 false)) = .next t ∧
      (t.lane 1).alignment = .hunt ∧
      (t.lane 1).counters.badMarkers = 1 ∧
      (t.lane 1).counters.alignLosses = 1 ∧
      t.queue0.records.map EventRecord.event = [.laneLost 1] :=
  ⟨_, rfl, by decide⟩

/-- The 256th position is the eighth bad one of the window: DEGRADED at threshold 8 (R71). -/
theorem test_degradeWindowEnd :
    ∃ t, exec (.degradeWindowEnd 1 0) (aligned State.reset 1 (atMarker 0 255 7 false)) = .next t ∧
      (t.lane 1).isDegraded = true ∧ t.queue0.records.map EventRecord.event = [.laneDegradeSet 1] :=
  ⟨_, rfl, by decide⟩

/-- A bad count equal to half the threshold clears DEGRADED (R71). -/
theorem test_degradeWindowEnd_clear :
    ∃ t, exec (.degradeWindowEnd 1 0x2F7150) (aligned State.reset 1 (atMarker 0 255 4 true)) = .next t ∧
      (t.lane 1).isDegraded = false ∧ t.queue0.records.map EventRecord.event = [.laneDegradeClear 1] :=
  ⟨_, rfl, by decide⟩

theorem test_readIdentity :
    answer (.readIdentity .ch0) State.reset .ch0 0x01 [] =
      some (.ok, [0x08, 0x24, 1, 8, 24, 16, 8, 32, 0, 0, 0, 0]) := by
  decide

/-- Channel 0 of lane 0, REPLY_HOLD 48, EXECUTING, no reply stored, counters 0 (R142). -/
theorem test_readChannel :
    answer (.readChannel .ch0 0 0) State.reset .ch0 0x02 [0, 0] =
      some (.ok, [0, 1, 0, 23, 48, 3, 0, 0, 0, 0, 0, 0, 0, 0, 0, 0, 0, 0, 0, 0, 0, 0]) := by
  decide

theorem test_setChannel :
    answer (.setChannel 1 1 7 0 8) State.reset .ch0 0x03 [1, 1, 7, 0, 8, 0] = some (.ok, [1, 1, 7, 0, 8, 0]) ∧
      (∃ t, exec (.setChannel 1 1 7 0 8) (asking State.reset .ch0 0x03 [1, 1, 7, 0, 8, 0]) = .next t ∧
      t.operatorPlace = some ⟨7, 0⟩ ∧
      t.ch1.phase = .idle ∧
      (t.lane 7).alignment = .hunt ∧
      t.efa.enables = 0x81) :=
  ⟨by decide, ⟨_, rfl, by decide⟩⟩

theorem test_restartChannel :
    answer .restartChannel operated .ch0 0x04 [] = some (.ok, [1, 0]) := by
  decide

/-- A complete request of channel 1 that its owner has not taken when channel 1 is restarted. -/
def meeting : State :=
  asking (asking operated .ch1 0x38 [0x40, 0x01, 0, 0]) .ch0 0x04 []

/-- R145, "Channel 1's TAIL first": the effect of its SET_SUBSCRIPTION stands, and its reply is discarded. -/
theorem test_restartChannel_waiting :
    ∃ t, exec .restartChannel meeting = .next t ∧ t.queue1.subscription = 0x4001 ∧ t.ch1.stored = none ∧
      t.ch1.phase = .idle :=
  ⟨_, rfl, by decide⟩

theorem test_datapathReset :
    ∃ t, exec .datapathReset (asking (activeEntry (locked operated .ch1) ⟨2, 4⟩ (.fixed 9)) .ch0 0x05 []) = .next t ∧
      t.map.activeBank.get ⟨2, 4⟩ = .unused ∧
      t.map.session = none ∧
      stored .ch0 t = some (.ok, []) ∧
      t.queue0.records.map EventRecord.event = [.lockBroken .ch1] :=
  ⟨_, rfl, by decide⟩

/-- TIMEOUT 0 is accepted as 32 (R27). -/
theorem test_openEdit :
    answer (.openEdit .ch0 0) State.reset .ch0 0x08 [0, 0] = some (.ok, [0, 0, 32, 0]) ∧
      answer (.openEdit .ch1 0) (locked operated .ch0) .ch1 0x08 [0, 0] = some (.locked, [1, 0]) :=
  ⟨by decide, by decide⟩

theorem test_commit_guard :
    answer (.commit .ch1) (pendingEntry (locked permitted .ch1) ⟨2, 7⟩ (.fixed 9)) .ch1 0x09 [] =
      some (.invalidMap, [3, 2, 7, 0]) := by
  decide

theorem test_commit :
    ∃ t, exec (.commit .ch1) (asking (pendingEntry (locked permitted .ch1) ⟨2, 6⟩ (.fixed 9)) .ch1 0x09 []) = .next t ∧
      t.map.scheduled = some .ch1 ∧ t.ch1.phase = .executing (request 0x09 []) false :=
  ⟨_, rfl, by decide⟩

theorem test_abandonEdit :
    answer (.abandonEdit .ch0) (pendingEntry (locked State.reset .ch0) ⟨2, 7⟩ (.fixed 9)) .ch0 0x0A [] =
      some (.ok, [1, 0]) := by
  decide

theorem test_breakLock :
    answer .breakLock (scheduled operated .ch1) .ch0 0x0B [] = some (.ok, [2, 1]) ∧
      (∃ t, exec .breakLock (asking (scheduled operated .ch1) .ch0 0x0B []) = .next t ∧
      stored .ch1 t = (some (.cancelled, []))) :=
  ⟨by decide, ⟨_, rfl, by decide⟩⟩

theorem test_readEditState :
    answer (.readEditState .ch0) (pendingEntry (locked State.reset .ch0) ⟨2, 7⟩ (.fixed 9)) .ch0 0x0C [] =
      some (.ok, [1, 4, 3, 0, 0, 0, 1, 0]) := by
  decide

/-- The SET_ENTRY of 10.3: destination (5, 12) DIRECT from (6, 0) with PATTERN 0x00004D. -/
theorem test_setEntry :
    answer (.setEntry .ch0 5 12 (decodeEntryRecord 0x16 0 0x40 0 0 0x4D)) (locked State.reset .ch0) .ch0 0x10
        [5, 12, 0x16, 0, 0x40, 0, 0, 0x4D] = some (.ok, [0x16, 0, 0x40, 0, 0, 0x4D]) ∧
      answer (.setEntry .ch0 0 23 (decodeEntryRecord 0x30 0 0 0 0 9)) (locked State.reset .ch0) .ch0 0x10
        [0, 23, 0x30, 0, 0, 0, 0, 9] = some (.reservedSlot, []) :=
  ⟨by decide, by decide⟩

/-- A run that ends in the last slot; one entry of it was in use (R18, R19). -/
theorem test_clearEntries :
    answer (.clearEntries .ch0 2 22 2) (pendingEntry (locked State.reset .ch0) ⟨2, 23⟩ (.fixed 9)) .ch0 0x11
        [2, 22, 2, 0] = some (.ok, [1, 0]) ∧
      answer (.clearEntries .ch0 2 22 3) (locked State.reset .ch0) .ch0 0x11 [2, 22, 3, 0] =
        some (.badField, []) :=
  ⟨by decide, by decide⟩

theorem test_readEntries :
    answer (.readEntries .ch0 1 2 7 1) (pendingEntry State.reset ⟨2, 7⟩ (.fixed 0x010203)) .ch0 0x12 [1, 2, 7, 1] =
      some (.ok, [1, 0, 2, 7, 0x30, 0, 0, 1, 2, 3]) := by
  decide

/-- The strap lane's ILR is never disabled; another one is (R80, R81). -/
theorem test_setLane :
    answer (.setLane 0 0 8) State.reset .ch0 0x18 [0, 0, 8, 0] = some (.inUse, []) ∧
      answer (.setLane 3 1 63) State.reset .ch0 0x18 [3, 1, 63, 0] = some (.ok, [3, 1, 63, 1]) :=
  ⟨by decide, by decide⟩

theorem test_readLane :
    answer (.readLane .ch0 0 1) State.reset .ch0 0x19 [0, 1] = some (.ok, [0, 1, 0, 8, 0, 0, 0, 0, 0, 0, 0, 0, 0, 0]) ∧
      answer (.readLane .ch1 0 1) operated .ch1 0x19 [0, 1] = some (.supervisorOnly, []) :=
  ⟨by decide, by decide⟩

/-- A hold limit of 1023 takes the spent hold counts with it (R58, R60). -/
theorem test_setEgress :
    answer (.setEgress 0x01 0x03FF) State.reset .ch0 0x1A [0x01, 0x03, 0xFF, 0] = some (.ok, [0x01, 0x03, 0xFF, 0]) ∧
      (∃ t, exec (.setEgress 0x01 0x03FF) (asking State.reset .ch0 0x1A [0x01, 0x03, 0xFF, 0]) = .next t ∧
      (t.efa.held.get ⟨4, 4⟩).count = 1023) :=
  ⟨by decide, ⟨_, rfl, by decide⟩⟩

theorem test_readEgress :
    answer (.readEgress .ch1) operated .ch1 0x1B [] = some (.ok, [0x81, 0, 96, 15, 0, 0, 0, 0]) := by
  decide

/-- Configured on two lanes that are not ALIGNED: W_SF_P, top rank 2 (R109). -/
theorem test_configGroup :
    answer (.configGroup 3 1 2 1 5 0 1) State.reset .ch0 0x20 [3, 1, 2, 1, 5, 0, 1, 0] = some (.ok, [3, 3, 0, 2]) := by
  decide

theorem test_deleteGroup :
    answer (.deleteGroup 3) (grouped State.reset quiet) .ch0 0x21 [3, 0] = some (.ok, []) ∧
      answer (.deleteGroup 3) (activeEntry (grouped State.reset quiet) ⟨2, 4⟩ (.protect 3 0 .silence)) .ch0 0x21 [3, 0] =
        some (.inUse, []) :=
  ⟨by decide, by decide⟩

theorem test_groupRequestLockout :
    answer (.groupRequestLockout .ch0 3) (grouped State.reset quiet) .ch0 0x22 [3, 1] = some (.ok, [3, 2, 0, 1]) ∧
      answer (.groupRequestLockout .ch1 3) (grouped operated quiet) .ch1 0x22 [3, 1] = some (.supervisorOnly, []) :=
  ⟨by decide, by decide⟩

theorem test_groupRequestForce :
    answer (.groupRequestForce .ch0 3) (grouped State.reset quiet) .ch0 0x22 [3, 2] = some (.ok, [3, 6, 1, 3]) := by
  decide

theorem test_groupRequestManualP :
    answer (.groupRequestManualP .ch1 3) (grouped operated quiet) .ch1 0x22 [3, 3] = some (.ok, [3, 9, 1, 7]) := by
  decide

theorem test_groupRequestManualW :
    answer (.groupRequestManualW .ch1 3) (grouped operated { quiet with
        standing := some ⟨.force, .channel .ch0⟩, state := .pForce, selected := .protect }) .ch1 0x22 [3, 4] = some (.outranked, [3, 6, 1, 3]) := by
  decide

/-- A group that does not revert rests on PROTECT when its FORCE is cleared: P_IDLE, top rank 9 (R90, R103). -/
theorem test_groupRequestClear :
    answer (.groupRequestClear .ch0 3) (grouped State.reset { quiet with
        revertive := false, standing := some ⟨.force, .channel .ch0⟩, state := .pForce, selected := .protect }) .ch0 0x22 [3, 5] =
      some (.ok, [3, 11, 1, 9]) := by
  decide

/-- A KIND that names no kind waits for the PSC, which refuses it (R100, R134). -/
theorem test_groupRequest_unnamed :
    answer (.groupRequestClear .ch0 3) (grouped State.reset quiet) .ch0 0x22 [3, 6] = some (.badField, []) := by
  decide

theorem test_readGroup :
    answer (.readGroup .ch0 3) (grouped State.reset quiet) .ch0 0x23 [3, 0] =
      some (.ok, [3, 1, 1, 2, 1, 5, 30, 1, 0, 0, 0, 0, 1, 0, 10, 0, 0, 0, 0, 0]) := by
  decide

/-- ACTIVE_LOW makes the accepted LOW level active at once (R114, R121). -/
theorem test_setInput :
    answer (.setInput 1 1 3 3) (grouped State.reset quiet) .ch0 0x28 [1, 1, 3, 3] = some (.ok, [1, 1, 3, 3, 4, 0]) ∧
      (∃ t, exec (.setInput 1 1 3 3) (asking (grouped State.reset quiet) .ch0 0x28 [1, 1, 3, 3]) = .next t ∧
      ((t.group 3).map fun x => (x.inputLockout, x.state)) = some (true, .wLockout)) :=
  ⟨by decide, ⟨_, rfl, by decide⟩⟩

theorem test_readInputs :
    answer (.readInputs .ch0) State.reset .ch0 0x29 [] =
      some (.ok, [0, 0, 0, 0, 0, 0, 0, 0, 0, 0, 0, 0, 0, 0, 0, 0]) := by
  decide

theorem test_setRegion :
    answer (.setRegion 7 1 2 3 4 6 1 0) State.reset .ch0 0x30 [7, 1, 2, 3, 4, 6, 1, 0] =
        some (.ok, [7, 1, 2, 3, 4, 6, 1, 0]) ∧
      answer (.setRegion 7 1 3 2 4 6 1 0) State.reset .ch0 0x30 [7, 1, 3, 2, 4, 6, 1, 0] = some (.badField, []) :=
  ⟨by decide, by decide⟩

theorem test_readRegions :
    (answer .readRegions permitted .ch0 0x31 []).map (fun x => (x.2.length, x.2.take 8)) =
      some (56, [1, 2, 2, 4, 6, 1, 1, 0]) := by
  decide

/-- A FORCE that channel 1 asked for: channel 1, CODE 0x22, SEQ 3, SUPERVISOR, group 3 (R150, R157, R161). -/
def faulted : State :=
  { State.reset with guard := { State.reset.guard with
      fault := some ⟨.ch1, 0x22, 3, .supervisor, .group 3, 0x0102⟩, overruns := 5 } }

theorem test_readFault :
    answer .readFault faulted .ch0 0x32 [] = some (.ok, [1, 1, 0x22, 3, 1, 2, 3, 0, 1, 2, 5, 0]) := by
  decide

theorem test_clearFault :
    ∃ t, exec .clearFault (asking faulted .ch0 0x33 []) = .next t ∧
      t.guard.fault = none ∧
      t.guard.overruns = 0 ∧
      stored .ch0 t = some (.ok, [1, 1, 0x22, 3, 1, 2, 3, 0, 1, 2, 5, 0]) :=
  ⟨_, rfl, by decide⟩

/-- Bit 15 of the subscription mask is stored as 0 (R169, R180). -/
theorem test_setSubscription :
    answer (.setSubscription .ch1 0xFFFF 0x8001) operated .ch1 0x38 [0xFF, 0xFF, 0x80, 0x01] =
      some (.ok, [0x7F, 0xFF, 0x80, 0x01]) := by
  decide

/-- A queue with two records, stamped 0x0102. -/
def twoRecords : State :=
  { State.reset with queue0 := { State.reset.queue0 with
      records := [⟨.laneLost 1, 2, 0x0102, false⟩, ⟨.inputEdge 3, 1, 0x0103, false⟩] } }

theorem test_readEvents :
    answer (.readEvents .ch0 1) twoRecords .ch0 0x39 [1, 0] = some (.ok, [0, 0, 1, 0, 1, 1, 2, 1, 2, 0]) ∧
      (∃ t, exec (.readEvents .ch0 1) (asking twoRecords .ch0 0x39 [1, 0]) = .next t ∧
      t.queue0.records.map EventRecord.inFlight = [true, false]) :=
  ⟨by decide, ⟨_, rfl, by decide⟩⟩

/-! ### For each statement with hypotheses, states and operands that meet them -/

theorem waits (s : State) (ch : ChannelId) (code : BitVec 6) (bytes : List Byte)
    (h : bodyBytes (packBytes bytes) = bytes) : (asking s ch code bytes).Waits ch (request code bytes) code bytes :=
  ⟨by cases ch <;> rfl, rfl, h⟩

theorem none_waits (s : State) (h : (s.waiting .ch0).isNone = true ∧ (s.waiting .ch1).isNone = true) :
    ∀ ch r, (s.channel ch).phase ≠ .executing r true := by
  intro ch
  refine (s.waiting_eq_none ch).mp ?_
  cases ch
  · exact Option.isNone_iff_eq_none.mp h.1
  · exact Option.isNone_iff_eq_none.mp h.2

theorem startable (s : State) (h : s.ready = true) : s.Startable :=
  s.ready_iff.mp h

theorem not_startable (s : State) (h : s.ready = false) : ¬ s.Startable := fun hs => by
  rw [s.ready_iff.mpr hs] at h
  cases h

theorem denied_modify (s : State) (p : Place) (h : s.guard.mayModify p = false) :
    s.Denied .ch1 Region.modifyPermit p :=
  ⟨rfl, fun hg => by
    rw [(s.guard.mayModify_iff p).mpr hg] at h
    cases h⟩

theorem granted_modify (s : State) (ch : ChannelId) (p : Place) (h : s.guard.mayModify p = true) :
    ¬ s.Denied ch Region.modifyPermit p :=
  fun hd => hd.2 ((s.guard.mayModify_iff p).mp h)

theorem denied_read (s : State) (p : Place) (h : s.guard.mayRead p = false) : s.Denied .ch1 Region.readPermit p :=
  ⟨rfl, fun hg => by
    rw [(s.guard.mayRead_iff p).mpr hg] at h
    cases h⟩

theorem granted_read (s : State) (ch : ChannelId) (p : Place) (h : s.guard.mayRead p = true) :
    ¬ s.Denied ch Region.readPermit p :=
  fun hd => hd.2 ((s.guard.mayRead_iff p).mp h)

/-- A frame start that is no boundary, of an edge that has come. -/
def midway (s : State) : State :=
  { edged s with efa := { s.efa with frameNo := 14 } }

theorem witness_UnaskedChangesNothing :
    (∀ r, (State.reset.channel .ch1).phase = .executing r true →
        decodeCommand .ch1 r.code (bodyBytes r.body) ≠ some (.commit .ch1)) ∧
      ¬ State.reset.Startable ∧ ¬ (edged (asking State.reset .ch0 0x01 [])).Startable ∧
      ((midway (scheduled State.reset .ch0)).Startable ∧ (midway (scheduled State.reset .ch0)).efa.frameNo ≠ 15) ∧
      ((edged State.reset).group 15 = none ∧ (edged State.reset).map.session = none ∧
        (edged State.reset).map.scheduled = none ∧ (edged State.reset).ch0.phase ≠ .awaitAck 1 ∧
        (edged State.reset).enabled .ch1 = false) ∧
      ((aligned State.reset 1 (atMarker 2 254 3 false)).lane 1).alignment = .aligned (atMarker 2 254 3 false) ∧
      ¬ 3 ≤ (atMarker 2 254 3 false).consecutiveBad ∧ ¬ 255 ≤ (atMarker 2 254 3 false).window.length :=
  ⟨fun _ h => (by cases h), not_startable _ (by decide), not_startable _ (by decide),
    ⟨startable _ (by decide), by decide⟩, by decide, rfl, by decide, by decide⟩

/-- Reset with a frame start waiting. -/
def starting : State :=
  { State.reset with pending := [.egressFrameStart edge] }

theorem queue_reset_lawful : Queue.reset.Lawful :=
  ⟨by decide, by decide, by decide, by decide, by decide, by decide, rfl, by decide⟩

theorem witness_StepKeepsEventLaw : starting.EventLaw ∧ ∃ t, step starting = .next t :=
  ⟨⟨⟨queue_reset_lawful, queue_reset_lawful⟩,
    ⟨rfl, fun _ _ h => (by cases h), fun _ _ _ h => (by cases h)⟩,
    ⟨rfl, fun _ _ h => (by cases h), fun _ _ _ h => (by cases h)⟩⟩, _, rfl⟩

theorem witness_StepKeepsMapLaw : starting.MapLaw ∧ ∃ t, step starting = .next t := by
  have unused : ∀ d, starting.map.activeBank.get d = .unused := fun d => Grid.get_replicate _ d
  refine ⟨⟨⟨fun _ => rfl, fun _ h => ?_, fun _ h => ?_, fun _ h => ?_⟩, ⟨fun d _ => unused d, fun d p h => ?_, fun d => ?_⟩,
    fun h => ?_⟩, _, rfl⟩
  · cases h
  · cases h
  · cases h
  · rw [unused d] at h
    cases h
  · rw [unused d]
    rfl
  · cases h

theorem witness_StepKeepsGroupLaw : starting.GroupLaw ∧ ∃ t, step starting = .next t := by
  have off : ∀ g, starting.group g = none := by decide
  have free : ∀ i, (starting.input i).mode.bound = none := by decide
  refine ⟨⟨fun g x h => ?_, fun g x h => ?_, fun g x h => ?_, fun i g h => ?_⟩, _, rfl⟩
  · rw [off] at h
    cases h
  · rw [off] at h
    cases h
  · rw [off] at h
    cases h
  · rw [free] at h
    cases h

theorem witness_StepKeepsLaneLaw : starting.LaneLaw ∧ ∃ t, step starting = .next t := by
  have ends : ∀ l, (starting.lane l).alignment = .hunt ∨ (starting.lane l).alignment = .off := by decide
  refine ⟨⟨fun l => ⟨?_, ?_, ?_, fun n e g h => ?_, fun t h => ?_, ?_⟩, ?_, ?_, by decide, fun d => ?_⟩, _, rfl⟩
  · revert l
    decide
  · revert l
    decide
  · revert l
    decide
  · rcases ends l with e' | e' <;> rw [e'] at h <;> cases h
  · rcases ends l with e' | e' <;> rw [e'] at h <;> cases h
  · revert l
    decide
  · decide
  · decide
  · show ((Grid.replicate (⟨0, 96⟩ : HeldState)).get d).count ≤ 96
    rw [Grid.get_replicate]

theorem channel_reset_lawful (p : Phase) (hp : p = .idle ∨ p = .off) : (Channel.reset p).Lawful := by
  refine ⟨⟨by show 8 ≤ 48; decide, by show 48 ≤ 255; decide⟩, fun _ h => ?_, fun _ _ h => ?_, fun _ h => ?_, fun _ h => ?_,
    fun _ h => (by cases h)⟩ <;>
    rcases hp with rfl | rfl <;> cases h

theorem witness_StepKeepsChannelLaw : starting.ChannelLaw ∧ ∃ t, step starting = .next t := by
  have absent : ∀ n, starting.guard.regions.get n = none := by decide
  refine ⟨⟨channel_reset_lawful _ (.inl rfl), channel_reset_lawful _ (.inr rfl), by decide, ⟨fun _ => rfl, fun _ => rfl⟩,
    by decide, by decide, by decide, fun _ h => (by cases h), fun n x h => ?_⟩, _, rfl⟩
  rw [absent] at h
  cases h

theorem witness_OperatorCannotReshape :
    (Instr.groupRequestManualP .ch1 3).sender = some .ch1 ∧
      (∃ t, exec (.groupRequestManualP .ch1 3) (asking (grouped operated quiet) .ch1 0x22 [3, 3]) = .next t) ∧
      (grouped operated quiet).group 4 = none ∧ (grouped operated quiet).group 3 = some quiet ∧
      (grouped operated { quiet with operatorAccess := false }).group 3 = some { quiet with operatorAccess := false } :=
  ⟨rfl, ⟨_, rfl⟩, by decide, by decide, by decide⟩

theorem witness_FaultRecordKept :
    faulted.guard.fault = some ⟨.ch1, 0x22, 3, .supervisor, .group 3, 0x0102⟩ ∧
      ∃ t, exec .clearFault (asking faulted .ch0 0x33 []) = .next t :=
  ⟨rfl, _, rfl⟩

theorem witness_GenerationFollowsSwap :
    (∃ t, exec .bankSwap (scheduled State.reset .ch0) = .next t) ∧
      (∀ straps pins, Instr.bankSwap ≠ .deviceReset straps pins) ∧
      ∀ r, (scheduled State.reset .ch0).ch0.phase = .executing r true → r.code ≠ 0x05 :=
  ⟨⟨_, rfl⟩, fun _ _ h => (by cases h), fun _ h => (by cases h)⟩

theorem witness_MarkerWordFields :
    ∃ f g, operated.laneFrame 0 = some f ∧ operated.laneFrame 7 = some g :=
  ⟨_, _, rfl, rfl⟩

theorem witness_ManagementWordFields :
    ({ reply .none with body := List.replicate 31 0 } : StoredReply).body.length ≤ 31 ∧
      (reply .none).body[0]? = some 0x0102 ∧ 7 < 8 := by decide

theorem witness_EntryRecordNormalForm :
    entryOf (decodeEntryRecord 0x17 0xFF 0x57 0 0 0x4D) = some (.direct ⟨7, 23⟩ (.pattern 0x00004D)) ∧
      entryOf (decodeEntryRecord 0x2F 0x0F 0x97 0 0 0x4D) = some (.protect 15 23 .hold) := by decide

/-- A queue of this many records of LANE_LOST on lane 1. -/
def crowded (n : Nat) : Queue :=
  { Queue.reset with records := List.replicate n ⟨.laneLost 1, 255, 7, false⟩ }

theorem witness_OccurrencesJoinQueues :
    ((crowded 1).records = [] ++ ⟨.laneLost 1, 255, 7, false⟩ :: [] ∧
        ∀ x ∈ ([] : List EventRecord), ¬ (x.event = .laneLost 1 ∧ x.inFlight = false)) ∧
      ((∀ x ∈ (crowded 31).records, ¬ (x.event = .laneLost 2 ∧ x.inFlight = false)) ∧
        (crowded 31).records.length < 32) ∧
      ((∀ x ∈ (crowded 32).records, ¬ (x.event = .laneLost 2 ∧ x.inFlight = false)) ∧
        32 ≤ (crowded 32).records.length) := by decide

theorem witness_DeferredEffectsOnce :
    ((holding .idle { reply .none with acked := true }).channel .ch0).stored =
        some { reply .none with acked := true } ∧
      ((holding .idle (reply (.events 1 0))).channel .ch0).stored = some (reply (.events 1 0)) ∧
      (reply (.events 1 0)).acked = false ∧
      ((holding .idle (reply (.lane 7 ⟨1, 0, 0, 0⟩))).channel .ch0).stored =
        some (reply (.lane 7 ⟨1, 0, 0, 0⟩)) ∧
      ((holding .idle (reply (.channel .ch0 ⟨1, 0, 0, 0, 0, 0, 2⟩))).channel .ch0).stored =
        some (reply (.channel .ch0 ⟨1, 0, 0, 0, 0, 0, 2⟩)) ∧
      (((holding .idle (reply .none)).channel .ch0).stored = some (reply .none) ∧ (reply .none).acked = false) ∧
      (State.reset.channel .ch0).stored = none := by decide

theorem witness_QueueCommands :
    (asking operated .ch1 0x38 [0xFF, 0xFF, 0x80, 0x01]).Waits .ch1 (request 0x38 [0xFF, 0xFF, 0x80, 0x01]) 0x38
        [0xFF, 0xFF, 0x80, 0x01] ∧
      (∀ n : Byte, n = 0 ∨ n = 1 ∨ n = 8 ∨ n = 9 →
        (asking twoRecords .ch0 0x39 [n, 0]).Waits .ch0 (request 0x39 [n, 0]) 0x39 [n, 0]) ∧
      ((asking twoRecords .ch0 0x39 [1, 0]).queue .ch0).records =
        [⟨.laneLost 1, 2, 0x0102, false⟩] ++ [⟨.inputEdge 3, 1, 0x0103, false⟩] :=
  ⟨waits _ _ _ _ rfl, by rintro n (rfl | rfl | rfl | rfl) <;> exact waits _ _ _ _ rfl, rfl⟩

theorem witness_SetEntryDecided :
    (∀ s ch, (asking s ch 0x10 [7, 23, 0x30, 0, 0, 0, 0, 9]).Waits ch (request 0x10 [7, 23, 0x30, 0, 0, 0, 0, 9]) 0x10
        [7, 23, 0x30, 0, 0, 0, 0, 9]) ∧
      (7 < (8 : Byte).toNat ∧ 23 < (24 : Byte).toNat ∧ entryOf (decodeEntryRecord 0x40 0 0 0 0 0) = none) ∧
      ((locked operated .ch1).map.holder ≠ some .ch0 ∧ (locked operated .ch1).map.holder = some .ch1) ∧
      ((Entry.fixed 9 ≠ .unused ∧ operated.Reserved ⟨7, 0⟩) ∧
        ∃ p f, Entry.direct ⟨0, 23⟩ .silence = .direct p f ∧ operated.Reserved p) ∧
      permitted.Denied .ch1 Region.modifyPermit ⟨2, 7⟩ ∧ ¬ permitted.Denied .ch1 Region.modifyPermit ⟨2, 6⟩ ∧
      ¬ (Entry.fixed 9 ≠ .unused ∧ permitted.managed ⟨2, 6⟩ = true) :=
  ⟨fun s ch => waits s ch _ _ rfl, by decide, by decide,
    ⟨⟨by decide, .ch1, rfl⟩, _, _, rfl, .ch0, rfl⟩, denied_modify _ _ (by decide),
    granted_modify _ _ _ (by decide), by decide⟩

theorem witness_ClearEntriesDecided :
    (∀ s ch, (asking s ch 0x11 [7, 23, 1, 0]).Waits ch (request 0x11 [7, 23, 1, 0]) 0x11 [7, 23, 1, 0]) ∧
      (7 < (8 : Byte).toNat ∧ 24 < (23 : Byte).toNat + (2 : Byte).toNat ∧ 24 < (25 : Byte).toNat) ∧
      ((7 : LaneId).val = (7 : Byte).toNat ∧ (23 : Byte).toNat ≤ 23 ∧ 1 ≤ (1 : Byte).toNat ∧
        (23 : Byte).toNat + (1 : Byte).toNat ≤ 24) ∧
      ((locked operated .ch1).map.holder ≠ some .ch0 ∧ (locked operated .ch1).map.holder = some .ch1) ∧
      permitted.FirstDenied .ch1 Region.modifyPermit (slotRun 2 6 2) ⟨2, 7⟩ ∧
      ∀ p ∈ slotRun 2 4 3, ¬ permitted.Denied .ch1 Region.modifyPermit p := by
  refine ⟨fun s ch => waits s ch _ _ rfl, by decide, by decide, by decide,
    ⟨by decide, denied_modify _ _ (by decide), fun q hq hb => ?_⟩, fun p hp => ?_⟩
  · have h : slotRun 2 6 2 = [⟨2, 6⟩, ⟨2, 7⟩] := by decide
    rw [h] at hq
    rcases List.mem_cons.mp hq with rfl | hq
    · exact granted_modify _ _ _ (by decide)
    · rcases List.mem_singleton.mp hq with rfl
      rcases hb with hb | hb <;> exact absurd hb (by decide)
  · have h : slotRun 2 4 3 = [⟨2, 4⟩, ⟨2, 5⟩, ⟨2, 6⟩] := by decide
    rw [h] at hp
    refine granted_modify _ _ _ ?_
    revert p
    decide

theorem witness_ReadEntriesDecided :
    (∀ s ch, (asking s ch 0x12 [1, 7, 16, 8]).Waits ch (request 0x12 [1, 7, 16, 8]) 0x12 [1, 7, 16, 8]) ∧
      (1 < (2 : Byte).toNat ∧ 8 < (9 : Byte).toNat ∧ 24 < (17 : Byte).toNat + (8 : Byte).toNat) ∧
      ((7 : LaneId).val = (7 : Byte).toNat ∧ (1 : Byte).toNat ≤ 1 ∧ (16 : Byte).toNat ≤ 23 ∧ (8 : Byte).toNat ≤ 8 ∧
        (16 : Byte).toNat + (8 : Byte).toNat ≤ 24) ∧
      permitted.FirstDenied .ch1 Region.readPermit (slotRun 2 3 2) ⟨2, 3⟩ ∧
      ∀ p ∈ slotRun 2 6 1, ¬ permitted.Denied .ch1 Region.readPermit p := by
  refine ⟨fun s ch => waits s ch _ _ rfl, by decide, by decide,
    ⟨by decide, denied_read _ _ (by decide), fun q hq hb => ?_⟩, fun p hp => ?_⟩
  · have h : slotRun 2 3 2 = [⟨2, 3⟩, ⟨2, 4⟩] := by decide
    rw [h] at hq
    rcases List.mem_cons.mp hq with rfl | hq
    · rcases hb with hb | hb <;> exact absurd hb (by decide)
    · rcases List.mem_singleton.mp hq with rfl
      exact granted_read _ _ _ (by decide)
  · have h : slotRun 2 6 1 = [⟨2, 6⟩] := by decide
    rw [h] at hp
    refine granted_read _ _ _ ?_
    revert p
    decide

theorem witness_SessionsEnded :
    (∀ s, (asking s .ch1 0x0A []).Waits .ch1 (request 0x0A []) 0x0A [] ∧
        (asking s .ch0 0x0B []).Waits .ch0 (request 0x0B []) 0x0B []) ∧
      operated.map.holder = none ∧ (locked operated .ch1).map.holder = some .ch1 ∧
      (locked operated .ch1).map.scheduled = none ∧ (scheduled operated .ch1).map.scheduled = some .ch1 ∧
      (scheduled operated .ch1).map.holder = some .ch1 ∧
      (scheduled operated .ch1).ch1.phase = .executing (request 0x09 []) false :=
  ⟨fun s => ⟨waits s _ _ _ rfl, waits s _ _ _ rfl⟩, rfl, rfl, rfl, rfl, rfl, rfl⟩

theorem witness_OpenEditDecided :
    (∀ s ch, (asking s ch 0x08 [4, 0]).Waits ch (request 0x08 [4, 0]) 0x08 [4, 0]) ∧
      (1 ≤ (1 : Byte).toNat ∧ (3 : Byte).toNat ≤ 3) ∧
      (((0 : Byte).toNat = 0 ∧ 32 = 32) ∧ 4 ≤ (4 : Byte).toNat ∧ 4 ≤ (255 : Byte).toNat) ∧
      operated.map.session = none ∧ (locked operated .ch1).map.session = some ⟨.ch1, 4, 3⟩ ∧
      ChannelId.ch1 ≠ .ch0 :=
  ⟨fun s ch => waits s ch _ _ rfl, by decide, by decide, rfl, rfl, by decide⟩

/-- Where both banks have UNUSED, no test of R35 fails. -/
theorem unused_passes (s : State) (ch : ChannelId) (d : Place) (hp : s.map.pendingBank.get d = .unused)
    (ha : s.map.activeBank.get d = .unused) (n : Nat) : ¬ s.FailsTest ch d n := by
  intro h
  rcases s.failsTest_cases ch d n h with rfl | rfl | rfl | rfl
  · obtain ⟨_, _, _, e, -⟩ := h
    rw [hp] at e
    cases e
  · exact h.1 hp
  · obtain ⟨_, h, -⟩ := h
    rw [hp] at h
    rcases h with ⟨_, e⟩ | ⟨_, _, _, e, -⟩ <;> cases e
  · exact h.1 (hp.trans ha.symm)

/-- An entry that fails a test, in an otherwise empty pending bank: the first failure. -/
theorem firstFailure_alone (s : State) (ch : ChannelId) (d : Place) (e : Entry) (n : Nat)
    (ha : s.map.bankA = Grid.replicate .unused) (hb : s.map.bankB = Grid.replicate .unused) (hact : s.map.active = .a)
    (h : (pendingEntry s d e).FailsTest ch d n) (hn : ∀ m, m < n → ¬ (pendingEntry s d e).FailsTest ch d m) :
    (pendingEntry s d e).FirstFailure ch d n := by
  refine ⟨h, hn, fun q hq => unused_passes _ ch q ?_ ?_⟩
  · have hne : q ≠ d := by
      rintro rfl
      rcases hq with hq | hq
      · exact lt_irrefl _ hq
      · exact lt_irrefl _ hq.2
    show ((pendingEntry s d e).map.bank (pendingEntry s d e).map.active.other).get q = _
    rw [show (pendingEntry s d e).map.active = .a from hact]
    show (s.map.bankB.set d e).get q = _
    rw [Grid.get_set_of_ne _ _ hne, hb, Grid.get_replicate]
  · show ((pendingEntry s d e).map.bank (pendingEntry s d e).map.active).get q = _
    rw [show (pendingEntry s d e).map.active = .a from hact]
    show s.map.bankA.get q = _
    rw [ha, Grid.get_replicate]

theorem witness_CommitDecided :
    (∀ s ch, (asking s ch 0x09 []).Waits ch (request 0x09 []) 0x09 []) ∧
      ((locked permitted .ch1).map.holder ≠ some .ch0 ∧ (locked permitted .ch1).map.holder = some .ch1) ∧
      (pendingEntry (locked permitted .ch1) ⟨2, 5⟩ (.protect 15 0 .hold)).FirstFailure .ch1 ⟨2, 5⟩ 1 ∧
      (pendingEntry (locked permitted .ch1) ⟨7, 0⟩ (.fixed 9)).FirstFailure .ch1 ⟨7, 0⟩ 2 ∧
      (pendingEntry (locked permitted .ch1) ⟨2, 5⟩ (.direct ⟨7, 0⟩ .hold)).FirstFailure .ch1 ⟨2, 5⟩ 3 ∧
      (pendingEntry (locked permitted .ch1) ⟨2, 7⟩ (.fixed 9)).FirstFailure .ch1 ⟨2, 7⟩ 4 ∧
      ∀ d n, ¬ (locked permitted .ch1).FailsTest .ch1 d n := by
  have pass1 : ∀ d e, (∀ g k f, e ≠ .protect g k f) →
      ¬ (pendingEntry (locked permitted .ch1) d e).FailsTest .ch1 d 1 := by
    rintro d e he ⟨g, k, f, h, -⟩
    exact he g k f ((Grid.get_set _ d e).symm.trans h)
  refine ⟨fun s ch => waits s ch _ _ rfl, by decide, ?_, ?_, ?_, ?_, fun d n => ?_⟩
  · refine firstFailure_alone _ _ _ _ _ rfl rfl rfl ⟨15, 0, .hold, Grid.get_set _ _ _, by decide⟩ fun m hm => ?_
    interval_cases m
    exact id
  · refine firstFailure_alone _ _ _ _ _ rfl rfl rfl ⟨?_, .ch1, rfl⟩ fun m hm => ?_
    · exact fun h => by
        have := (Grid.get_set _ _ _).symm.trans h
        cases this
    · interval_cases m
      · exact id
      · exact pass1 _ _ (by simp)
  · refine firstFailure_alone _ _ _ _ _ rfl rfl rfl ⟨⟨7, 0⟩, .inl ⟨.hold, Grid.get_set _ _ _⟩, .ch1, rfl⟩ fun m hm => ?_
    interval_cases m
    · exact id
    · exact pass1 _ _ (by simp)
    · rw [State.failsTest_two]
      decide
  · refine firstFailure_alone _ _ _ _ _ rfl rfl rfl ⟨by decide, denied_modify _ _ (by decide)⟩ fun m hm => ?_
    interval_cases m
    · exact id
    · exact pass1 _ _ (by simp)
    · rw [State.failsTest_two]
      decide
    · rw [State.failsTest_three]
      decide
  · exact unused_passes (locked permitted .ch1) .ch1 d (Grid.get_replicate Entry.unused d)
      (Grid.get_replicate Entry.unused d) n

theorem witness_BankSwapTaken :
    ((scheduled operated .ch1).channel .ch1).phase = .executing (request 0x09 []) false ∧
      (scheduled operated .ch1).efa.frameNo = 15 ∧ (scheduled operated .ch1).map.scheduled = some .ch1 ∧
      ((edged (scheduled operated .ch1)).Startable ∧ (edged (scheduled operated .ch1)).map.scheduled = some .ch1) ∧
      ((scheduled operated .ch1).work.mapTaken = false ∧ edge.order = .map :: [.efa, .psc, .eiu, .mcc0, .mcc1]) ∧
      (Entry.direct ⟨1, 2⟩ .hold).KeepsSource (.direct ⟨1, 2⟩ .silence) ∧
      (Entry.unused ≠ .fixed 9 ∧ ¬ Entry.unused.KeepsSource (.fixed 9)) :=
  ⟨rfl, rfl, rfl, ⟨startable _ (by decide), rfl⟩, ⟨rfl, rfl⟩, .inl ⟨_, _, _, rfl, rfl⟩, by decide, by
    rintro (⟨_, _, _, h, -⟩ | ⟨_, _, _, _, h, -⟩) <;> cases h⟩

/-- FRAME_NO 0: a superframe boundary is being taken. -/
def atBoundary (s : State) : State :=
  { s with efa := { s.efa with frameNo := 0 } }

theorem witness_BoundaryTakenByMap :
    State.reset.efa.frameNo ≠ 0 ∧
      ((atBoundary (scheduled State.reset .ch0)).work.mapTaken = false ∧
        (atBoundary (scheduled State.reset .ch0)).efa.frameNo = 0 ∧
        (atBoundary (scheduled State.reset .ch0)).map.scheduled = some .ch0) ∧
      (atBoundary State.reset).map.scheduled = none ∧
      ((locked State.reset .ch0).map.session = some ⟨.ch0, 4, 3⟩ ∧ 1 < 3 ∧ 1 ≤ 1) ∧ State.reset.map.session = none ∧
      ∃ s : State, s.efa.frameNo = 15 ∧ s.map.session = some ⟨.ch0, 4, 1⟩ ∧ s.map.scheduled = none ∧
        s.Startable ∧ s.work.mapTaken = false :=
  ⟨by decide, by decide, rfl, by decide, rfl,
    edged { State.reset with map := { State.reset.map with session := some ⟨.ch0, 4, 1⟩ } }, rfl, rfl, rfl,
    startable _ (by decide), rfl⟩

/-- The state after the first frame start. -/
def begun : State :=
  State.reset.frameStart edge

theorem witness_FrameStartTimebase :
    ((∃ f, begun.efa.lines.get 0 = some f) ∧ begun.efa.lines.get 1 = none ∧ begun.efa.enables.getLsbD 0 = true ∧
      begun.efa.enables.getLsbD 1 = false) ∧
      (∀ ch r, (State.reset.channel ch).phase ≠ .executing r true) ∧ edge.order.Nodup ∧
      ((asking State.reset .ch0 0x01 []).ch0.phase = .executing (request 0x01 []) true ∧
        decodeCommand .ch0 (request 0x01 []).code (bodyBytes (request 0x01 []).body) = some (.readIdentity .ch0) ∧
        ∀ other q, other ≠ .ch0 → ((asking State.reset .ch0 0x01 []).channel other).phase ≠ .executing q true) ∧
      (((asking (asking operated .ch0 0x01 []) .ch1 0x01 []).channel .ch0).phase = .executing (request 0x01 []) true ∧
          ((asking (asking operated .ch0 0x01 []) .ch1 0x01 []).channel .ch1).phase =
            .executing (request 0x01 []) true ∧
          decodeCommand .ch1 (request 0x01 []).code (bodyBytes (request 0x01 []).body) = some (.readIdentity .ch1)) ∧
      ([FrameUnit.efa, .mcc1, .mcc0] = [.efa] ++ .mcc1 :: [.mcc0] ∧ FrameUnit.mcc0 ∉ [FrameUnit.efa]) :=
  ⟨⟨Option.isSome_iff_exists.mp (by decide +kernel), by decide +kernel, by decide +kernel, by decide +kernel⟩,
    none_waits _ (by decide), by decide, ⟨rfl, by decide, fun c q hc h => by cases c <;> first | exact hc rfl | cases h⟩,
    ⟨rfl, rfl, by decide⟩, by decide⟩

/-- Destinations of lane 0 with one entry of each kind; lane 1 is ALIGNED with one unread frame. -/
def composed : State :=
  let s := activeEntry (activeEntry (activeEntry (activeEntry (grouped State.reset quiet) ⟨0, 1⟩ (.fixed 9)) ⟨0, 2⟩
    (.direct ⟨1, 4⟩ .silence)) ⟨0, 3⟩ (.protect 3 5 .silence)) ⟨0, 4⟩ (.direct ⟨6, 0⟩ .hold)
  s.setLane 1 { s.lane 1 with unread := [Vector.replicate 24 0x010203] }

theorem witness_FrameComposedWhole :
    (∀ ch r, (composed.channel ch).phase ≠ .executing r true) ∧ composed.group 3 = some quiet ∧
      ((composed.frameStart edge).sentWord ⟨0, 0⟩ = some 0 ∧ (composed.frameStart edge).sentWord ⟨0, 1⟩ = some 9 ∧
        (composed.frameStart edge).sentWord ⟨0, 2⟩ = some 0x010203 ∧
        (composed.frameStart edge).sentWord ⟨0, 3⟩ = some 0x010203 ∧
        (composed.frameStart edge).sentWord ⟨0, 4⟩ = some 0) ∧
      (∀ ch, (composed.frameStart edge).place ch ≠ some ⟨0, 2⟩) ∧
      (composed.lane 1).answer = some (Vector.replicate 24 0x010203) ∧ (composed.lane 6).answer = none := by
  refine ⟨none_waits _ (by decide), by decide, by decide +kernel, fun ch => ?_, by decide, by decide⟩
  cases ch <;> decide +kernel

theorem witness_TakeAndSlotWords :
    ((composed.lane 6).isAligned = false ∧ (composed.lane 1).isAligned = true ∧
        (composed.lane 1).unread = [Vector.replicate 24 0x010203]) ∧
      ((composed.lane 2).isAligned = true ∧ (composed.lane 2).unread = [] ∧ (composed.lane 2).lastRead = none) ∧
      (∃ w, (composed.supply .ch0 5).work.word .ch0 = some w ∧ composed.place .ch0 = some ⟨0, 23⟩ ∧
        ∀ c, c ≠ .ch0 → composed.place c ≠ some ⟨0, 23⟩) ∧
      (∀ ch, composed.place ch ≠ some ⟨0, 2⟩) ∧
      (composed.map.activeBank.get ⟨0, 0⟩ = .unused ∧ composed.map.activeBank.get ⟨0, 1⟩ = .fixed 9 ∧
        composed.map.activeBank.get ⟨0, 2⟩ = .direct ⟨1, 4⟩ .silence ∧
        composed.map.activeBank.get ⟨0, 3⟩ = .protect 3 5 .silence) ∧
      composed.efaEvent.work.snapshot.get 3 = some 1 ∧
      composed.efaEvent.work.taken.get 1 = some (Vector.replicate 24 0x010203) ∧
      composed.efaEvent.work.taken.get 6 = none ∧
      (95 < State.reset.efa.holdLimit ∧ State.reset.efa.holdLimit ≤ (State.reset.efa.held.get ⟨0, 4⟩).count) ∧
      (composed.efa.enables.getLsbD 0 = true ∧ composed.efa.enables.getLsbD 1 = false) := by
  refine ⟨by decide, by decide, ⟨_, rfl, rfl, fun c hc => ?_⟩, fun ch => ?_, by decide, by decide +kernel,
    by decide +kernel, by decide +kernel, by decide, by decide⟩
  · cases c <;> first | exact absurd rfl hc | decide
  · cases ch <;> decide

theorem witness_SetEgressDecided :
    (∀ b : Byte, b = 0 ∨ b = 1 → (asking operated .ch0 0x1A [b, 3, 0xFF, 0]).Waits .ch0
        (request 0x1A [b, 3, 0xFF, 0]) 0x1A [b, 3, 0xFF, 0]) ∧
      (((0 : Byte) ++ (0 : Byte) : Half).toNat = 0 ∧ 1023 < ((4 : Byte) ++ (0 : Byte) : Half).toNat) ∧
      (1 ≤ ((0 : Byte) ++ (1 : Byte) : Half).toNat ∧ ((3 : Byte) ++ (0xFF : Byte) : Half).toNat ≤ 1023) ∧
      (∃ ch p, operated.place ch = some p ∧ (0x01 : Byte).getLsbD p.lane.val = false) ∧
      (∀ ch p, operated.place ch = some p → (0x81 : Byte).getLsbD p.lane.val = true) := by
  refine ⟨?_, by decide, by decide, ⟨.ch1, ⟨7, 0⟩, rfl, by decide⟩, fun ch p h => ?_⟩
  · rintro b (rfl | rfl) <;> exact waits _ _ _ _ rfl
  · cases ch <;> cases h <;> decide

theorem witness_AcquisitionWords :
    (State.reset.lane 1).alignment = .off ∧ (State.reset.lane 0).alignment = .hunt ∧
      (∀ n b, ((State.reset.setLane 0 { State.reset.lane 0 with alignment := .confirm n 5 b }).lane 0).alignment =
        .confirm n 5 b) ∧
      (23 < 24 ∧ 24 ≤ 24) ∧ ((0x2F7150 : Word).extractLsb' 8 16 = 0x2F71 ∧ (0x2F7150 : Word).extractLsb' 4 4 = 5) ∧
      ¬ ((0x2F7160 : Word).extractLsb' 8 16 = 0x2F71 ∧ (0x2F7160 : Word).extractLsb' 4 4 = 5) :=
  ⟨by decide, by decide, fun _ _ => rfl, by decide, by decide, by decide⟩

theorem witness_MarkerPositionJudged :
    (∀ run length bad b, ((aligned State.reset 1 (atMarker run length bad b)).lane 1).alignment =
        .aligned (atMarker run length bad b)) ∧
      (24 ≤ (atMarker 3 0 0 false).slots.length ∧ 3 ≤ (atMarker 3 0 0 false).consecutiveBad ∧
        (atMarker 2 0 0 false).consecutiveBad < 3 ∧ (atMarker 0 254 0 false).window.length + 1 < 256 ∧
        255 ≤ (atMarker 0 255 0 false).window.length) ∧
      (State.reset.lane 1).threshold = 8 := by
  refine ⟨fun run length bad b => ?_, by decide, by decide⟩
  show ((State.reset.setLane 1 _).lane 1).alignment = _
  rw [State.lane_setLane]

/-- Lane 0 in ALIGNED with this many slot words since the marker. -/
def midFrame (n : Nat) : State :=
  aligned State.reset 0 { fresh with slots := List.replicate n 0 }

theorem witness_SlotWordHandedOff :
    (∀ n, ((midFrame n).lane 0).alignment = .aligned { fresh with slots := List.replicate n 0 }) ∧
      ((List.replicate 22 (0 : Word)).length = (22 : SlotId).val ∧ (22 : SlotId).val < 23) ∧
      ((List.replicate 23 (0 : Word)).length = (23 : SlotId).val ∧ (23 : SlotId).val = 23) ∧
      ((midFrame 23).place .ch0 = some ⟨0, 23⟩ ∧ ∀ c, c ≠ .ch0 → (midFrame 23).place c ≠ some ⟨0, 23⟩) ∧
      ((∀ ch, (midFrame 22).place ch ≠ some ⟨0, 22⟩) ∧ ∀ ch, operated.place ch ≠ some ⟨1, 23⟩) ∧
      (operated.place .ch1 = some ⟨7, 0⟩ ∧ ∀ c, c ≠ .ch1 → operated.place c ≠ some ⟨7, 0⟩) := by
  refine ⟨fun n => ?_, by decide, by decide, ⟨rfl, fun c hc => ?_⟩, ⟨fun ch => ?_, fun ch => ?_⟩, rfl, fun c hc => ?_⟩
  · show ((State.reset.setLane 0 _).lane 0).alignment = _
    rw [State.lane_setLane]
  · cases c <;> first | exact absurd rfl hc | decide
  · cases ch <;> decide
  · cases ch <;> decide
  · cases c <;> first | exact absurd rfl hc | decide

theorem witness_CompletedFrameStored :
    (composed.lane 1).unread.length < 2 ∧
      ∃ s : State, (s.lane 1).unread = [Vector.replicate 24 1, Vector.replicate 24 2] :=
  ⟨by decide, State.reset.setLane 1 { State.reset.lane 1 with
    unread := [Vector.replicate 24 1, Vector.replicate 24 2] }, rfl⟩

theorem witness_LaneReportsReachGroups :
    State.reset.group 3 = none ∧ (grouped State.reset quiet).group 3 = some quiet ∧
      (quiet.conditions = ⟨false, false, false, false⟩ ∧
        ((grouped State.reset quiet).lane 1).isAligned = true ∧ ((grouped State.reset quiet).lane 2).isAligned = true ∧
        ((grouped State.reset quiet).lane 1).isDegraded = false ∧
        ((grouped State.reset quiet).lane 2).isDegraded = false) ∧
      ((State.reset.setGroup 3 (some quiet)).group 3 = some quiet ∧
        ((State.reset.setGroup 3 (some quiet)).lane 1).isAligned = false) := by decide

theorem witness_SetLaneDecided :
    (∀ s b, b = 0 ∨ b = 1 → (asking s .ch0 0x18 [7, b, 63, 0]).Waits .ch0 (request 0x18 [7, b, 63, 0]) 0x18
        [7, b, 63, 0]) ∧
      (7 < (8 : Byte).toNat ∧ 1 < (2 : Byte).toNat ∧ 63 < (64 : Byte).toNat) ∧
      ((7 : LaneId).val = (7 : Byte).toNat ∧ (1 : Byte).toNat ≤ 1 ∧ (63 : Byte).toNat ≤ 63) ∧
      (∃ ch p, operated.place ch = some p ∧ p.lane = 7) ∧
      (∀ ch p, operated.place ch = some p → p.lane ≠ 3) ∧
      ((aligned operated 3 fresh).lane 3).alignment = .aligned fresh ∧
      ∀ t, (operated.lane 3).alignment ≠ .aligned t := by
  refine ⟨?_, by decide, by decide, ⟨.ch1, ⟨7, 0⟩, rfl, rfl⟩, fun ch p h => ?_, rfl, fun t h => (by cases h)⟩
  · rintro s b (rfl | rfl) <;> exact waits _ _ _ _ rfl
  · cases ch <;> cases h <;> decide

theorem witness_ReadAndClearDecided :
    (∀ s ch, (asking s ch 0x19 [7, 1]).Waits ch (request 0x19 [7, 1]) 0x19 [7, 1] ∧
        (asking s ch 0x02 [0, 1]).Waits ch (request 0x02 [0, 1]) 0x02 [0, 1] ∧
        (asking s ch 0x02 [1, 0]).Waits ch (request 0x02 [1, 0]) 0x02 [1, 0]) ∧
      (7 < (8 : Byte).toNat ∧ 1 < (2 : Byte).toNat ∧ (7 : LaneId).val = (7 : Byte).toNat) ∧
      (¬ ((1 : Byte) = 1 ∧ ChannelId.ch0 = .ch1) ∧ ¬ (ChannelId.ch1 = .ch1 ∧ (1 : Byte) = 0 ∧ (0 : Byte) = 1)) :=
  ⟨fun s ch => ⟨waits _ _ _ _ rfl, waits _ _ _ _ rfl, waits _ _ _ _ rfl⟩, by decide, by decide⟩

theorem witness_OutrankedByItems :
    ({ quiet with state := .pWtr, selected := .protect } : Group).topItem = none ∧
      ({ quiet with state := .pWtr, selected := .protect } : Group).state = .pWtr ∧
      ({ quiet with state := .pWtr, selected := .protect } : Group).selected = .protect := by decide

theorem witness_RedecisionTable :
    (({ quiet with standing := some ⟨.manualW, .channel .ch1⟩, inputLockout := true } : Group).mustDrop = true ∧
        quiet.mustDrop = false ∧ quiet.topItem = none ∧ quiet.state.selection = .working) ∧
      (({ quiet with inputLockout := true } : Group).topItem = some .lockout ∧
        ({ quiet with conditions := ⟨true, true, true, true⟩ } : Group).topItem = some .sfP ∧
        ({ quiet with standing := some ⟨.force, .channel .ch0⟩ } : Group).topItem = some .force ∧
        ({ quiet with conditions := ⟨true, false, true, true⟩ } : Group).topItem = some .sfW ∧
        ({ quiet with conditions := ⟨false, false, true, true⟩ } : Group).topItem = some .sdP ∧
        ({ quiet with conditions := ⟨false, false, true, false⟩ } : Group).topItem = some .sdW ∧
        ({ quiet with standing := some ⟨.manualP, .input 3⟩ } : Group).topItem = some .manual ∧
        ({ quiet with standing := some ⟨.manualW, .channel .ch1⟩ } : Group).topItem = some .manual) ∧
      (∀ st sel, ({ quiet with state := st, selected := sel } : Group).mustDrop = false ∧
        ({ quiet with state := st, selected := sel } : Group).topItem = none) := by
  refine ⟨by decide, by decide, fun st sel => ⟨?_, ?_⟩⟩
  · rfl
  · rfl

theorem witness_GroupRequestDecided :
    (∀ s ch (k : RequestKind), (asking s ch 0x22 [3, BitVec.ofNat 8 k.code]).Waits ch
        (request 0x22 [3, BitVec.ofNat 8 k.code]) 0x22 [3, BitVec.ofNat 8 k.code]) ∧
      (∀ s ch, (asking s ch 0x22 [3, 5]).Waits ch (request 0x22 [3, 5]) 0x22 [3, 5] ∧
        (asking s ch 0x22 [3, 6]).Waits ch (request 0x22 [3, 6]) 0x22 [3, 6] ∧
        (asking s ch 0x22 [3, 0]).Waits ch (request 0x22 [3, 0]) 0x22 [3, 0] ∧ 5 < (6 : Byte).toNat ∧
        (0 : Byte).toNat = 0) ∧
      (15 < (16 : Byte).toNat ∧ (15 : GroupId).val = (15 : Byte).toNat) ∧
      (operated.group 3 = none ∧ (grouped operated quiet).group 3 = some quiet ∧
        (grouped operated { quiet with operatorAccess := false }).group 3 =
          some { quiet with operatorAccess := false }) ∧
      (({ quiet with inputLockout := true } : Group).outranks .force = true ∧ quiet.outranks .force = false) ∧
      ∃ q, ({ quiet with standing := some ⟨.manualW, .channel .ch0⟩ } : Group).standing =
        some ⟨q, .channel .ch0⟩ :=
  ⟨fun s ch k => by cases k <;> exact waits _ _ _ _ rfl,
    fun s ch => ⟨waits _ _ _ _ rfl, waits _ _ _ _ rfl, waits _ _ _ _ rfl, by decide, rfl⟩, by decide, by decide, by decide,
    _, rfl⟩

theorem witness_GroupConfiguration :
    (∀ s, (asking s .ch0 0x20 [3, 1, 2, 1, 31, 255, 1, 0]).Waits .ch0 (request 0x20 [3, 1, 2, 1, 31, 255, 1, 0]) 0x20
        [3, 1, 2, 1, 31, 255, 1, 0] ∧
        (asking s .ch0 0x21 [3, 0]).Waits .ch0 (request 0x21 [3, 0]) 0x21 [3, 0]) ∧
      (15 < (16 : Byte).toNat ∧ 7 < (8 : Byte).toNat ∧ 31 < (32 : Byte).toNat ∧ (2 : Byte) = 2) ∧
      ((3 : GroupId).val = (3 : Byte).toNat ∧ (1 : LaneId).val = (1 : Byte).toNat ∧
        (2 : LaneId).val = (2 : Byte).toNat ∧ (1 : Byte) ≠ 2 ∧ (31 : Byte).toNat ≤ 31) ∧
      ((grouped State.reset quiet).group 3 = some quiet ∧ quiet.workingLane = 1 ∧ quiet.workingLane ≠ 2) ∧
      State.reset.group 3 = none ∧
      (∃ n d k f, ((activeEntry State.reset ⟨2, 4⟩ (.protect 3 23 .hold)).map.bank n).get d = .protect 3 k f ∧
        State.reset.Reserved ⟨0, k⟩) ∧
      (∀ n d k f, (State.reset.map.bank n).get d ≠ .protect 3 k f) ∧
      ∀ i, (State.reset.input i).mode.bound ≠ some 3 := by
  refine ⟨fun s => ⟨waits _ _ _ _ rfl, waits _ _ _ _ rfl⟩, by decide, by decide, by decide, by decide,
    ⟨.a, ⟨2, 4⟩, 23, .hold, Grid.get_set _ _ _, .ch0, rfl⟩, fun n d k f h => ?_, by decide⟩
  cases n <;> cases (Grid.get_replicate Entry.unused d).symm.trans h

theorem witness_GroupTimersRun :
    ((grouped State.reset quiet).work.groupsTaken.get 3 = false ∧ State.reset.group 3 = none) ∧
      ((grouped State.reset { quiet with holdOffRemaining := some 1 }).group 3 =
          some { quiet with holdOffRemaining := some 1 } ∧ quiet.selected = .working) ∧
      ((grouped State.reset { quiet with state := .pWtr, selected := .protect, wtrRemaining := some 1 }).group 3 =
          some { quiet with state := .pWtr, selected := .protect, wtrRemaining := some 1 } ∧
        State.reset.efa.frameNo = 15) ∧
      ((edged (grouped State.reset quiet)).Startable ∧ (atBoundary (grouped State.reset quiet)).efa.frameNo = 0) :=
  ⟨by decide, by decide, by decide, startable _ (by decide), rfl⟩

theorem witness_InputActiveAndBound :
    (⟨.event, false, false, true⟩ : Input).activeLow = false ∧ (⟨.off, true, false, true⟩ : Input).activeLow = true ∧
      (⟨.event, false, false, true⟩ : Input).mode = .event ∧ (⟨.off, true, false, true⟩ : Input).mode = .off := by decide

/-- EVI1 in this mode, its last sample HIGH and its accepted level LOW. -/
def sampled (m : InputMode) : State :=
  (grouped State.reset quiet).setInput 1 ⟨m, false, true, false⟩

/-- INPUT_EDGE between REQUEST_DROPPED and the switch of one re-decision (R116, R165). -/
theorem test_edgeAmong :
    ((((grouped State.reset { quiet with
        standing := some ⟨.manualP, .channel .ch0⟩, state := .pManual, selected := .protect }).setInput 1
          ⟨.levelLockout 3, false, true, false⟩).sampleInput 1 true 1).queue0.records.map EventRecord.event) =
      [.requestDropped 3, .inputEdge 1, .groupToWorking 3] := by decide

theorem witness_InputSampled :
    (∀ m, ((sampled m).input 1).mode = m) ∧
      (true = ((sampled .event).input 1).lastSample ∧ true ≠ ((sampled .event).input 1).accepted) ∧
      (⟨.event, true, true, false⟩ : Input).active = true ∧
      ((sampled .event).group 4 = none ∧ (sampled .event).group 3 = some quiet) ∧
      (({ quiet with inputLockout := true } : Group).outranks .manualP = true ∧ quiet.outranks .manualP = false) ∧
      ((sampled .event).lockoutLevel 3 = quiet.inputLockout ∧
        ((sampled .event).setInput 0 ⟨.levelLockout 3, true, false, false⟩).lockoutLevel 3 ≠ quiet.inputLockout) :=
  ⟨fun _ => rfl, by decide, by decide, by decide, by decide, by decide⟩

theorem witness_SetInputDecided :
    (∀ s, (asking s .ch0 0x28 [3, 1, 3, 3]).Waits .ch0 (request 0x28 [3, 1, 3, 3]) 0x28 [3, 1, 3, 3]) ∧
      (3 < (4 : Byte).toNat ∧ 1 < (2 : Byte).toNat ∧ 2 ≤ (2 : Byte).toNat ∧ 15 < (16 : Byte).toNat) ∧
      ((3 : InputId).val = (3 : Byte).toNat ∧ (3 : GroupId).val = (3 : Byte).toNat ∧
        InputMode.levelLockout 3 = .levelLockout 3) ∧
      (∃ g, (InputMode.levelLockout 3).bound = some g ∧ State.reset.group g = none) ∧
      (∀ g, (InputMode.levelLockout 3).bound = some g → (grouped State.reset quiet).group g ≠ none) ∧
      (((grouped State.reset quiet).setInput 3 ⟨.levelLockout 3, true, false, false⟩).lockoutLevel 3 ≠
          quiet.inputLockout ∧
        ((grouped State.reset quiet).setInput 3 ⟨.levelLockout 3, false, false, false⟩).lockoutLevel 3 =
          quiet.inputLockout) :=
  ⟨fun s => waits _ _ _ _ rfl, by decide, by decide, ⟨3, rfl, by decide⟩, fun g h => by cases h; decide, by decide⟩

theorem witness_ReplyFormed : ([1, 2] : List Byte).length % 2 = 0 := by decide

theorem witness_WordsBetweenRequests :
    ((State.reset.channel .ch0).phase = .idle ∧ ((holding (.awaitAck 1) (reply .none)).channel .ch0).phase =
        .awaitAck 1) ∧
      (decodeMgmtWord 0x413000 = .head 0x01 3 0 ∧ decodeMgmtWord 0x80050C = .body 0x050C ∧
        decodeMgmtWord 0xC0AEFF = .tail 0xAEFF ∧ decodeMgmtWord 0x260000 = .idle true 3) ∧
      (((holding (.awaitAck 1) (reply .none)).channel .ch0).stored = some (reply .none) ∧
        (reply .none).acked = false ∧ (reply .none).seq = 3) ∧
      (State.reset.channel .ch1).phase = .off ∧
      ((holding (.replying 0) (reply .none)).channel .ch0).phase = .replying 0 ∧
      ((asking State.reset .ch0 0x01 []).channel .ch0).phase = .executing (request 0x01 []) true := by decide

/-- Channel 0 receiving a request of two body words, of which it has this many. -/
def receiving (n : Nat) : State :=
  State.reset.setPhase .ch0 (.receiving ⟨0x08, 3, 2, List.replicate n 0x0102⟩)

theorem witness_WordsOfRequest :
    (∀ n, ((receiving n).channel .ch0).phase = .receiving ⟨0x08, 3, 2, List.replicate n 0x0102⟩) ∧
      ((List.replicate 1 (0x0102 : Half)).length < (2 : BitVec 5).toNat ∧
        (2 : BitVec 5).toNat ≤ (List.replicate 2 (0x0102 : Half)).length) ∧
      (decodeMgmtWord 0x413000 = .head 0x01 3 0 ∧ decodeMgmtWord 0x80050C = .body 0x050C ∧
        decodeMgmtWord 0xC0AEFF = .tail 0xAEFF ∧ decodeMgmtWord 0x260000 = .idle true 3) :=
  ⟨fun _ => rfl, by decide, by decide⟩

theorem witness_DuplicateAnswered :
    ((holding (.receiving (request 0x01 [])) (reply .none)).channel .ch0).stored = some (reply .none) ∧
      (reply .none).seq = (request 0x01 []).seq ∧
      ∀ p, ((holding .idle (reply .none)).channel .ch0).stored = some p → p.seq ≠ 4 :=
  ⟨rfl, rfl, fun _ h => by cases h; decide⟩

theorem witness_GenericChecks :
    (commandLength 0x3F = none ∧ commandLength 0x08 = some 1 ∧ (2 : BitVec 5).toNat ≠ 1) ∧
      ((0x33 : BitVec 6).toNat ∈ [0x03, 0x04, 0x05, 0x0B, 0x18, 0x1A, 0x20, 0x21, 0x28, 0x30, 0x31, 0x32, 0x33] ∧
        (0x22 : BitVec 6).toNat ∉ [0x03, 0x04, 0x05, 0x0B, 0x18, 0x1A, 0x20, 0x21, 0x28, 0x30, 0x31, 0x32, 0x33]) ∧
      (locked operated .ch1).map.session = some ⟨.ch1, 4, 3⟩ ∧ ChannelId.ch1 ≠ .ch0 := by decide

theorem witness_ControllerAtFrameStart :
    (operated.enabled .ch1 = true ∧ State.reset.enabled .ch1 = false ∧ operated.work.word .ch1 = none) ∧
      ((holding (.replying 1) (reply .none)).ch0.phase = .replying 1 ∧ 1 ≤ (reply .none).body.length ∧
        (reply .none).body.length < 2) ∧
      ((holding (.replying 0) (reply .none)).work.swapped ≠ some .ch0 ∧
        (∃ s : State, s.ch0.phase = .replying 0 ∧ s.work.swapped = some .ch0)) ∧
      ((holding (.awaitAck 1) (reply .none)).ch0.phase = .awaitAck 1 ∧ 1 < 2 ∧
        (holding (.awaitAck 1) (reply .none)).ch0.stored = some (reply .none) ∧ (reply .none).resends < 3 ∧
        3 ≤ ({ reply .none with resends := 3 } : StoredReply).resends) ∧
      (holding (.awaitAck 1) (reply .none)).map.scheduled = none ∧
      (edged (holding (.awaitAck 1) (reply .none))).Startable :=
  ⟨by decide, by decide, ⟨by decide, { holding (.replying 0) (reply .none) with
    work := { FrameWork.empty with swapped := some .ch0 } }, rfl, rfl⟩, by decide, rfl, startable _ (by decide)⟩

theorem witness_ReplyWordSent :
    (∀ c r, ((holding (.replying 1) (reply .none)).channel c).phase ≠ .executing r true) ∧
      ((holding (.replying 1) (reply .none)).place .ch0 = some ⟨0, 23⟩ ∧
        (holding (.replying 1) (reply .none)).place .ch0 ≠ (holding (.replying 1) (reply .none)).place .ch1 ∧
        (holding (.replying 1) (reply .none)).efa.enables.getLsbD 0 = true) ∧
      ((holding (.replying 1) (reply .none)).work.word .ch0 = none ∧
        (holding (.replying 1) (reply .none)).work.swapped ≠ some .ch0 ∧
        (holding (.replying 1) (reply .none)).map.scheduled ≠ some .ch0) ∧
      ((holding (.replying 1) (reply .none)).channel .ch0).phase = .replying 1 ∧
      ((holding (.replying 1) (reply .none)).channel .ch0).stored = some (reply .none) ∧
      (∀ k, ((holding (.awaitAck 1) (reply .none)).channel .ch0).phase ≠ .replying k) ∧
      ∀ c r, ((holding (.awaitAck 1) (reply .none)).channel c).phase ≠ .executing r true :=
  ⟨none_waits _ (by decide), by decide, by decide, rfl, rfl, fun _ h => (by cases h), none_waits _ (by decide)⟩

theorem witness_SetChannelDecided :
    (∀ s, (asking s .ch0 0x03 [1, 1, 7, 0, 8, 0]).Waits .ch0 (request 0x03 [1, 1, 7, 0, 8, 0]) 0x03 [1, 1, 7, 0, 8, 0] ∧
        (asking s .ch0 0x03 [1, 0, 0, 0, 0, 0]).Waits .ch0 (request 0x03 [1, 0, 0, 0, 0, 0]) 0x03 [1, 0, 0, 0, 0, 0]) ∧
      (1 < (2 : Byte).toNat ∧ 1 ≤ (1 : Byte).toNat ∧ (7 : Byte).toNat ≤ 7 ∧ 23 < (24 : Byte).toNat ∧
        (0 : Byte).toNat = State.reset.strapLane.val ∧ (23 : Byte).toNat = 23) ∧
      (8 ≤ (8 : Byte).toNat ∧ (0 : Byte) = 0) ∧
      (State.reset.operatorPlace = none ∧ operated.operatorPlace = some ⟨7, 0⟩) ∧
      ((⟨7, 0⟩ : Place).lane.val = (7 : Byte).toNat ∧ (⟨7, 0⟩ : Place).slot.val = (0 : Byte).toNat ∧
        (⟨7, 0⟩ : Place) ≠ ⟨State.reset.strapLane, 23⟩) ∧
      (∃ n d, ((activeEntry State.reset ⟨7, 0⟩ (.fixed 9)).map.bank n).get d ≠ .unused ∧ d = ⟨7, 0⟩) ∧
      (∃ n d, (grouped State.reset quiet).Draws
        (((activeEntry (grouped State.reset quiet) ⟨0, 0⟩ (.protect 3 4 .hold)).map.bank n).get d) ⟨2, 4⟩) ∧
      ((asking operated .ch1 0x01 []).ch1.phase = .executing (request 0x01 []) true ∧
        decodeCommand .ch1 (request 0x01 []).code (bodyBytes (request 0x01 []).body) = some (.readIdentity .ch1) ∧
        ∀ q, operated.ch1.phase ≠ .executing q true) ∧
      ∀ n d, ¬ (((State.reset.map.bank n).get d ≠ .unused ∧ d = ⟨7, 0⟩) ∨
        State.reset.Draws ((State.reset.map.bank n).get d) ⟨7, 0⟩) := by
  refine ⟨fun s => ⟨waits _ _ _ _ rfl, waits _ _ _ _ rfl⟩, by decide, by decide, by decide, by decide,
    ⟨.a, ⟨7, 0⟩, by decide, rfl⟩,
    ⟨.a, ⟨0, 0⟩, .inr ⟨3, .hold, quiet, Grid.get_set _ _ _, by decide, .inr rfl⟩⟩,
    ⟨rfl, rfl, fun q h => by cases h⟩, fun n d => ?_⟩
  have h : (State.reset.map.bank n).get d = .unused := by
    cases n <;> exact Grid.get_replicate Entry.unused d
  rw [h]
  rintro (⟨h, -⟩ | ⟨_, h⟩ | ⟨_, _, _, h, -⟩)
  · exact h rfl
  · cases h
  · cases h

theorem witness_ChannelRestarted :
    operated.map.holder ≠ some .ch1 ∧ (locked operated .ch1).map.holder = some .ch1 ∧
      (∀ s, (asking s .ch0 0x04 []).Waits .ch0 (request 0x04 []) 0x04 []) ∧ State.reset.operatorPlace = none ∧
      operated.operatorPlace ≠ none ∧ (∀ q, operated.ch1.phase ≠ .executing q true) ∧
      (meeting.Waits .ch0 (request 0x04 []) 0x04 [] ∧ meeting.operatorPlace ≠ none ∧
        meeting.ch1.phase = .executing (request 0x38 [0x40, 0x01, 0, 0]) true ∧
        decodeCommand .ch1 0x38 [0x40, 0x01, 0, 0] = some (.setSubscription .ch1 0x4001 0)) :=
  ⟨by decide, rfl, fun s => waits _ _ _ _ rfl, rfl, by decide, fun q h => (by cases h),
    waits _ _ _ _ rfl, by decide, rfl, rfl⟩

theorem witness_DatapathResetEffect :
    (∀ s, (asking s .ch0 0x05 []).Waits .ch0 (request 0x05 []) 0x05 []) ∧
      (operated.map.scheduled = none ∧ operated.map.holder = none ∧ (locked operated .ch1).map.holder = some .ch1) ∧
      ((scheduled operated .ch1).map.scheduled = some .ch1 ∧
        (scheduled operated .ch1).ch1.phase = .executing (request 0x09 []) false) :=
  ⟨fun s => waits _ _ _ _ rfl, by decide, rfl, rfl⟩

theorem witness_ReadsReportWhatStands :
    (∀ s ch (c : BitVec 6), (asking s ch c []).Waits ch (request c []) c []) ∧
      (∀ s ch, (asking s ch 0x23 [15, 0]).Waits ch (request 0x23 [15, 0]) 0x23 [15, 0]) ∧
      (15 < (16 : Byte).toNat ∧ (15 : GroupId).val = (15 : Byte).toNat) ∧ State.reset.group 15 = none ∧
      (grouped State.reset quiet).group 3 = some quiet :=
  ⟨fun s ch c => waits _ _ _ _ rfl, fun s ch => waits _ _ _ _ rfl, by decide, by decide, by decide⟩

theorem witness_GuardFaultTaken : State.reset.guard.fault = none ∧ ∃ f, faulted.guard.fault = some f :=
  ⟨rfl, _, rfl⟩

theorem witness_GuardCommands :
    (∀ s, (asking s .ch0 0x30 [7, 1, 2, 2, 4, 4, 0, 1]).Waits .ch0 (request 0x30 [7, 1, 2, 2, 4, 4, 0, 1]) 0x30
        [7, 1, 2, 2, 4, 4, 0, 1]) ∧
      (7 < (8 : Byte).toNat ∧ 1 < (2 : Byte).toNat ∧ (2 : Byte).toNat < (3 : Byte).toNat) ∧
      ((7 : RegionId).val = (7 : Byte).toNat ∧ (2 : LaneId).val = (2 : Byte).toNat ∧
        (4 : SlotId).val = (4 : Byte).toNat ∧ (2 : LaneId) ≤ 2 ∧ (4 : SlotId) ≤ 4 ∧ (1 : Byte).toNat ≤ 1) ∧
      ∀ s (c : BitVec 6), (asking s .ch0 c []).Waits .ch0 (request c []) c [] :=
  ⟨fun s => waits _ _ _ _ rfl, by decide, by decide, fun s c => waits _ _ _ _ rfl⟩

end Sys2Proof.Tests
end

/-! The store of an ingress lane: what a completed frame does to it (R73, R74). -/

namespace Sys2Proof.Proofs

open Sys2Proof.Machine

/-- R73: below two unread frames there is room. -/
theorem push_of_room (x : Lane) (f : Frame) (h : x.unread.length < 2) :
    x.push f = { x with unread := x.unread ++ [f] } :=
  if_pos h

/-- R74: at two unread frames the oldest is discarded, which counts as a drop slip. -/
theorem push_of_full (x : Lane) (oldest kept f : Frame) (h : x.unread = [oldest, kept]) :
    x.push f = { x with
      unread := [kept, f]
      counters := { x.counters with dropSlips := min 65535 (x.counters.dropSlips + 1) } } := by
  have full : ¬ x.unread.length < 2 := by simp [h]
  have joined : x.unread.tail ++ [f] = [kept, f] := by simp [h]
  rw [Lane.push, if_neg full, joined]
  rfl

/-- Settles O36, by the two cases of the store: room for the frame, and two unread frames. -/
theorem completedFrameStored : Obligations.CompletedFrameStored := by
  unfold Obligations.CompletedFrameStored
  intro s l f
  constructor
  · intro room
    rw [State.completeFrame_eq, if_pos room, State.withEvents_nil, push_of_room _ f room]
  · intro oldest kept full
    have noRoom : ¬ (s.lane l).unread.length < 2 := by simp [full]
    rw [State.completeFrame_eq, if_neg noRoom, push_of_full _ oldest kept f full]

end Sys2Proof.Proofs

/-! The items of a protection group, its top rank, and the requests that its items outrank (R88, R101). -/

namespace Sys2Proof.Proofs

open Sys2Proof.Machine

/-! ### Which items are present (R88) -/

theorem standingKind_eq_some (x : Group) (k : RequestKind) :
    x.standingKind = some k ↔ ∃ o, x.standing = some ⟨k, o⟩ := by
  unfold Group.standingKind
  rw [Option.map_eq_some_iff]
  constructor
  · rintro ⟨⟨_, o⟩, standing, rfl⟩
    exact ⟨o, standing⟩
  · rintro ⟨o, standing⟩
    exact ⟨⟨k, o⟩, standing, rfl⟩

theorem present_lockout (x : Group) :
    x.present .lockout = true ↔ (∃ o, x.standing = some ⟨.lockout, o⟩) ∨ x.inputLockout = true := by
  rw [Group.present, Bool.or_eq_true, beq_iff_eq, standingKind_eq_some]

theorem present_force (x : Group) : x.present .force = true ↔ ∃ o, x.standing = some ⟨.force, o⟩ := by
  rw [Group.present, beq_iff_eq, standingKind_eq_some]

theorem present_manual (x : Group) :
    x.present .manual = true ↔ ∃ o, x.standing = some ⟨.manualP, o⟩ ∨ x.standing = some ⟨.manualW, o⟩ := by
  rw [Group.present, Bool.or_eq_true, beq_iff_eq, beq_iff_eq, standingKind_eq_some, standingKind_eq_some, exists_or]

/-! ### The top rank (R88) -/

theorem topRank_of_item (x : Group) (i : Item) (top : x.topItem = some i) : x.topRank = i.rank := by
  rw [Group.topRank, top]

/-- Ranks 8 to 10 name what holds the selection of a group without items. -/
theorem topRank_of_noItem (x : Group) (top : x.topItem = none) :
    x.topRank = if x.state = .pWtr then 8 else if x.state = .pIdle then 9 else 10 := by
  rw [Group.topRank, top]
  cases x.state <;> rfl

/-! ### What outranks a request (R101) -/

/-- A group without items outranks no request: ranks 8 to 10 are not items. -/
theorem outranks_of_noItem (x : Group) (k : RequestKind) (top : x.topItem = none) : x.outranks k = false := by
  rw [Group.outranks, top]

/-- No item has a rank number below LOCKOUT's. -/
theorem outranks_lockout (x : Group) : x.outranks .lockout = false := by
  rw [Bool.eq_false_iff, Ne, x.outranks_iff]
  rintro ⟨i, -, below⟩
  cases i <;> exact absurd below (by decide)

theorem outranks_force (x : Group) :
    x.outranks .force = true ↔ x.present .lockout = true ∨ x.present .sfP = true := by
  rw [x.outranks_iff]
  constructor
  · rintro ⟨i, present, below⟩
    cases i with
    | lockout => exact .inl present
    | sfP => exact .inr present
    | force | sfW | sdP | sdW | manual => exact absurd below (by decide)
  · rintro (present | present) <;> exact ⟨_, present, by decide⟩

/-- The items of ranks 1 to 6 are all items but MANUAL. -/
theorem outranks_of_rank_seven (x : Group) (k : RequestKind) (seven : k.rank = 7) :
    x.outranks k = true ↔ x.present .lockout = true ∨ x.present .sfP = true ∨ x.present .force = true ∨
      x.present .sfW = true ∨ x.present .sdP = true ∨ x.present .sdW = true := by
  rw [x.outranks_iff, seven]
  constructor
  · rintro ⟨i, present, below⟩
    cases i with
    | manual => exact absurd below (by decide)
    | lockout | sfP | force | sfW | sdP | sdW => simp [present]
  · rintro (present | present | present | present | present | present) <;> exact ⟨_, present, by decide⟩

/-! ### A MANUAL_P taken by a group without items (R88, R89, R102) -/

/-- A MANUAL_P that comes to stand brings in no item but MANUAL. -/
theorem present_of_standing_manualP (x : Group) (o : Origin) (i : Item)
    (present : ({ x with standing := some ⟨.manualP, o⟩ } : Group).present i = true) :
    x.present i = true ∨ i = .manual := by
  cases i with
  | lockout =>
    rw [present_lockout] at present
    obtain ⟨_, standing⟩ | level := present
    · cases standing
    · exact .inl ((present_lockout x).mpr (.inr level))
  | force =>
    obtain ⟨_, standing⟩ := (present_force _).mp present
    cases standing
  | manual => exact .inr rfl
  | sfP | sfW | sdP | sdW => exact .inl present

theorem topItem_of_standing_manualP (x : Group) (o : Origin) (top : x.topItem = none) :
    ({ x with standing := some ⟨.manualP, o⟩ } : Group).topItem = some .manual := by
  rw [Group.topItem_eq_some]
  refine ⟨(present_manual _).mpr ⟨o, .inl rfl⟩, fun i present => ?_⟩
  obtain present | rfl := present_of_standing_manualP x o i present
  · rw [x.topItem_eq_none.mp top i] at present
    cases present
  · exact le_rfl

/-- A group without items that takes a MANUAL_P enters P_MANUAL. -/
theorem redecide_of_standing_manualP (x : Group) (o : Origin) (top : x.topItem = none) :
    ({ x with standing := some ⟨.manualP, o⟩ } : Group).redecide =
      ({ x with standing := some ⟨.manualP, o⟩ } : Group).enter .pManual none none := by
  have kept := x.mustDrop_of_not_outranks .manualP o (outranks_of_noItem x .manualP top)
  rw [Group.redecide_of_kept _ kept, Group.settle, topItem_of_standing_manualP x o top]
  rfl

/-- Entering a state that holds the present selection is no switch (R91). -/
theorem enter_switchCount_of_held (x : Group) (st : GroupState) (holdOff wtr : Option Nat)
    (held : st.selection = x.selected) : (x.enter st holdOff wtr).switchCount = x.switchCount :=
  if_pos held

/-- Settles O40: the presence of each item, the top item and its rank, and each kind of request by the items of lower
rank number than its own. -/
theorem outrankedByItems : Obligations.OutrankedByItems := by
  unfold Obligations.OutrankedByItems
  intro x
  refine ⟨⟨present_lockout x, present_force x, present_manual x, rfl, rfl, rfl, rfl⟩,
    x.topItem_eq_some, x.topItem_eq_none, by decide, by decide, ⟨topRank_of_item x, topRank_of_noItem x⟩,
    x.outranks_iff, outranks_lockout x, outranks_force x, ?manual, ?withoutSwitch⟩
  case manual =>
    rintro k (rfl | rfl)
    · exact outranks_of_rank_seven x .manualP rfl
    · exact outranks_of_rank_seven x .manualW rfl
  case withoutSwitch =>
    intro o top _ selected
    rw [redecide_of_standing_manualP x o top]
    exact ⟨outranks_of_noItem x .manualP top, rfl, rfl, enter_switchCount_of_held _ _ _ _ selected.symm, rfl⟩

end Sys2Proof.Proofs

/-! Event inputs: the active level, and the group that a mode binds (R114). -/

namespace Sys2Proof.Proofs

open Sys2Proof.Machine

/-- R114: the active level is HIGH under ACTIVE_HIGH and LOW under ACTIVE_LOW, so it is the one POLARITY's bit is not. -/
theorem active_iff_accepted_ne (x : Input) : x.active = true ↔ x.accepted ≠ x.activeLow :=
  bne_iff_ne

theorem active_of_activeHigh (x : Input) (high : x.activeLow = false) : x.active = true ↔ x.accepted = true := by
  rw [active_iff_accepted_ne, high, ne_eq, Bool.not_eq_false]

theorem active_of_activeLow (x : Input) (low : x.activeLow = true) : x.active = true ↔ x.accepted = false := by
  rw [active_iff_accepted_ne, low, ne_eq, Bool.not_eq_true]

/-- R114: EDGE_MANUAL and LEVEL_LOCKOUT alone bind a group, the one they carry. -/
theorem bound_eq_some (m : InputMode) (g : GroupId) :
    m.bound = some g ↔ m = .edgeManual g ∨ m = .levelLockout g := by
  cases m with
  | off | event | edgeManual | levelLockout => simp [InputMode.bound]

/-- R114: in OFF and EVENT the GROUP is absent and reads as zero. -/
theorem group_absent (m : InputMode) (absent : m = .off ∨ m = .event) : m.groupField = 0 ∧ m.bound = none := by
  rcases absent with rfl | rfl
  · exact ⟨rfl, rfl⟩
  · exact ⟨rfl, rfl⟩

/-- Settles O45: the active level of each polarity, the modes that bind a group, and the modes without one. -/
theorem inputActiveAndBound : Obligations.InputActiveAndBound := by
  unfold Obligations.InputActiveAndBound
  exact fun x => ⟨active_of_activeHigh x, active_of_activeLow x, bound_eq_some x.mode, group_absent x.mode⟩

end Sys2Proof.Proofs

/-! Complete requests: a duplicate of the stored reply's request, or one to execute (R133). -/

namespace Sys2Proof.Proofs

open Sys2Proof.Machine

/-- R133: the reply goes out again from its head. RESEND_COUNT is all that changes of it. -/
theorem duplicate_eq (s : State) (ch : ChannelId) (p : StoredReply) :
    s.duplicate ch p = s.setChannel ch { s.channel ch with
      phase := .replying 0, stored := some { p with resends := 0 }
      counters := { (s.channel ch).counters with
        duplicates := min 65535 ((s.channel ch).counters.duplicates + 1) } } :=
  rfl

/-- SEQ alone decides: CODE, LEN and body of the request play no part. -/
theorem complete_of_seq_eq (s : State) (ch : ChannelId) (r : Request) (p : StoredReply)
    (stored : (s.channel ch).stored = some p) (same : p.seq = r.seq) : s.complete ch r = s.duplicate ch p := by
  simp only [State.complete, stored, if_pos same]

/-- A request that is no duplicate reloads the idle timer (R29) and goes to the generic checks (R134). -/
theorem complete_of_seq_ne (s : State) (ch : ChannelId) (r : Request)
    (other : ∀ p, (s.channel ch).stored = some p → p.seq ≠ r.seq) :
    s.complete ch r = State.execute { s with map := s.map.reload ch } ch r := by
  cases stored : (s.channel ch).stored with
  | none => simp only [State.complete, stored]
  | some p => simp only [State.complete, stored, if_neg (other p stored)]

/-- R148: device reset leaves no channel a stored reply. -/
theorem stored_resetWith (straps : BitVec 3) (pins : BitVec 4) (c : ChannelId) :
    ((State.resetWith straps pins).channel c).stored = none := by
  cases c with
  | ch0 | ch1 => rfl

/-- R145: a restart of channel 1 forgets its stored reply. -/
theorem stored_restart (s : State) (phase : Phase) : (s.restart phase).ch1.stored = none :=
  rfl

/-- Settles O51, by whether the stored reply has the request's SEQ, and by the two events after which none is stored. -/
theorem duplicateAnswered : Obligations.DuplicateAnswered := by
  unfold Obligations.DuplicateAnswered
  intro s ch r
  refine ⟨fun p stored same => ?_, complete_of_seq_ne s ch r, stored_resetWith, stored_restart s⟩
  rw [complete_of_seq_eq s ch r p stored same, duplicate_eq]

end Sys2Proof.Proofs

/-! Occurrences at the event queues: what one does to a queue (R124, R166, R167), and which queues it is offered to
(R165). -/

namespace Sys2Proof.Proofs

open Sys2Proof.Machine

/-! ### The three outcomes of an occurrence at a queue (R166, R167) -/

/-- R166: coalescing does not ask for the queue's length. -/
theorem arrive_of_match (q : Queue) (e : Event) (stamp : Half) (before after : List EventRecord) (r : EventRecord)
    (records : q.records = before ++ r :: after) (same : r.event = e) (waiting : r.inFlight = false)
    (earliest : ∀ x ∈ before, ¬ (x.event = e ∧ x.inFlight = false)) :
    q.arrive e stamp =
      Queue.judge { q with records := before ++ { r with count := min 255 (r.count + 1) } :: after } := by
  have counted := coalesce_found e before after r same waiting earliest
  rw [← records] at counted
  simp only [Queue.arrive, counted]
  rfl

theorem arrive_of_room (q : Queue) (e : Event) (stamp : Half)
    (noMatch : ∀ x ∈ q.records, ¬ (x.event = e ∧ x.inFlight = false)) (room : q.records.length < 32) :
    q.arrive e stamp = Queue.judge { q with records := q.records ++ [⟨e, 1, stamp, false⟩] } := by
  simp only [Queue.arrive, (coalesce_eq_none e q.records).mpr noMatch]
  exact if_pos room

theorem arrive_of_full (q : Queue) (e : Event) (stamp : Half)
    (noMatch : ∀ x ∈ q.records, ¬ (x.event = e ∧ x.inFlight = false)) (full : 32 ≤ q.records.length) :
    q.arrive e stamp = Queue.judge { q with overflow := true, lostCount := min 255 (q.lostCount + 1) } := by
  simp only [Queue.arrive, (coalesce_eq_none e q.records).mpr noMatch]
  exact if_neg (Nat.not_lt.mpr full)

/-! ### What every outcome keeps, and the alarm line (R124) -/

/-- Whatever the outcome, the masks stay and the alarm line is judged last. -/
theorem arrive_eq_judge (q : Queue) (e : Event) (stamp : Half) :
    ∃ p : Queue, q.arrive e stamp = p.judge ∧ p.subscription = q.subscription ∧ p.alarmMask = q.alarmMask := by
  obtain ⟨_, _, _, _, _, _, counted⟩ | ⟨_, _, appended⟩ | ⟨_, _, lost⟩ := q.arrive_cases e stamp
  · exact ⟨_, counted, rfl, rfl⟩
  · exact ⟨_, appended, rfl, rfl⟩
  · exact ⟨_, lost, rfl, rfl⟩

theorem arrive_subscription (q : Queue) (e : Event) (stamp : Half) :
    (q.arrive e stamp).subscription = q.subscription := by
  obtain ⟨p, judged, subscription, _⟩ := arrive_eq_judge q e stamp
  rw [judged, Queue.judge_subscription, subscription]

theorem arrive_alarmMask (q : Queue) (e : Event) (stamp : Half) : (q.arrive e stamp).alarmMask = q.alarmMask := by
  obtain ⟨p, judged, _, alarmMask⟩ := arrive_eq_judge q e stamp
  rw [judged, Queue.judge_alarmMask, alarmMask]

theorem arrive_alarm (q : Queue) (e : Event) (stamp : Half) :
    (q.arrive e stamp).alarm = (q.arrive e stamp).alarmCondition := by
  obtain ⟨p, judged, _⟩ := arrive_eq_judge q e stamp
  rw [judged, Queue.judge_alarm]

theorem arrive_alarm_iff (q : Queue) (e : Event) (stamp : Half) :
    (q.arrive e stamp).alarm = true ↔
      (∃ r ∈ (q.arrive e stamp).records, q.alarmMask.getLsbD r.event.code = true) ∨
        ((q.arrive e stamp).overflow = true ∧ q.alarmMask.getLsbD 15 = true) := by
  rw [arrive_alarm, Queue.alarmCondition_iff, arrive_alarmMask]

/-! ### The queues that an occurrence is offered to (R165) -/

/-- Channel 0 is always enabled, so its subscription alone decides. -/
theorem queueAfter_ch0 (s : State) (stamp : Half) (e : Event) :
    s.queueAfter stamp [e] .ch0 =
      if s.queue0.subscription.getLsbD e.code then s.queue0.arrive e stamp else s.queue0 :=
  rfl

theorem enabled_ch1_iff (s : State) : s.enabled .ch1 = true ↔ s.operatorPlace ≠ none :=
  Option.isSome_iff_ne_none

theorem queueAfter_ch1 (s : State) (stamp : Half) (e : Event) :
    s.queueAfter stamp [e] .ch1 =
      if s.operatorPlace ≠ none ∧ s.queue1.subscription.getLsbD e.code then s.queue1.arrive e stamp
      else s.queue1 := by
  have offered : (s.enabled .ch1 && maskHolds s.queue1.subscription e) = true ↔
      s.operatorPlace ≠ none ∧ s.queue1.subscription.getLsbD e.code = true := by
    rw [Bool.and_eq_true, enabled_ch1_iff, maskHolds]
  exact if_congr offered rfl rfl

/-- Settles O18, by the three outcomes at a queue, the alarm line judged after each, and the offer to each channel. -/
theorem occurrencesJoinQueues : Obligations.OccurrencesJoinQueues := by
  unfold Obligations.OccurrencesJoinQueues
  refine ⟨fun q e stamp => ⟨?counted, fun noMatch => ⟨fun room => ?appended, fun full => ?lost⟩,
    arrive_subscription q e stamp, arrive_alarmMask q e stamp, arrive_alarm_iff q e stamp⟩, fun s e => ?offered⟩
  case counted =>
    intro before r after records same waiting earliest
    rw [arrive_of_match q e stamp before after r records same waiting earliest]
    exact ⟨rfl, rfl, rfl⟩
  case appended =>
    rw [arrive_of_room q e stamp noMatch room]
    exact ⟨rfl, rfl, rfl⟩
  case lost =>
    rw [arrive_of_full q e stamp noMatch full]
    exact ⟨rfl, rfl, rfl⟩
  case offered =>
    rw [State.raise_eq, State.withEvents, queueAfter_ch0, queueAfter_ch1]

end Sys2Proof.Proofs

/-! The fields of the marker word, and the one marker of a frame start (R53, R177). -/

namespace Sys2Proof.Proofs

open Sys2Proof.Machine

theorem markerWord_alignPattern (n : BitVec 4) (gen : BitVec 8) :
    (markerWord n gen).extractLsb' 8 16 = 0x2F71 :=
  calc (markerWord n gen).extractLsb' 8 16
    _ = (Config.alignPattern ++ n).extractLsb' 4 16 := BitVec.extractLsb'_append_eq_of_le (by decide)
    _ = Config.alignPattern := BitVec.extractLsb'_append_eq_left

theorem markerWord_frameNo (n : BitVec 4) (gen : BitVec 8) : (markerWord n gen).extractLsb' 4 4 = n :=
  calc (markerWord n gen).extractLsb' 4 4
    _ = (Config.alignPattern ++ n).extractLsb' 0 4 := BitVec.extractLsb'_append_eq_of_le (by decide)
    _ = n := BitVec.extractLsb'_append_eq_right

/-- Of the generation the marker carries the four low bits. -/
theorem markerWord_generation (n : BitVec 4) (gen : BitVec 8) :
    (markerWord n gen).extractLsb' 0 4 = gen.extractLsb' 0 4 :=
  BitVec.extractLsb'_append_eq_right (a := Config.alignPattern ++ n)

/-- R53: the marker of an enabled egress lane is made of device-wide state, so the lane plays no part in it. -/
theorem marker_of_laneFrame (s : State) (l : LaneId) (f : EgressFrame) (composed : s.laneFrame l = some f) :
    f.marker = markerWord s.efa.frameNo s.map.generation := by
  unfold State.laneFrame at composed
  split at composed
  case isTrue => exact congrArg EgressFrame.marker (Option.some.inj composed).symm
  case isFalse => exact nomatch composed

/-- Settles O14, by the three fields of the marker sent, the two that an ILR judges, and the one marker of all lanes. -/
theorem markerWordFields : Obligations.MarkerWordFields := by
  unfold Obligations.MarkerWordFields
  refine ⟨fun n gen => ⟨markerWord_alignPattern n gen, markerWord_frameNo n gen, markerWord_generation n gen⟩,
    matchesMarker_iff, fun w expected => goodMarker_iff expected w, by decide, fun s l m f g onL onM => ?sameMarker⟩
  case sameMarker => rw [marker_of_laneFrame s l f onL, marker_of_laneFrame s m g onM]

end Sys2Proof.Proofs

/-! What the owner of a request does to the part before the reply is formed (R134, R135): one case for each effect that a
command can have, with what its checks have established. -/

namespace Sys2Proof.Proofs

open Sys2Proof.Machine

/-- The command `i` of channel `ch`, taken on `s` for the request `r`, leaves `u` before its reply is formed, and the
reply keeps the deferred effects `e`. Refusals and reads without a deferred effect are `nothing`. -/
inductive Served (s : State) (ch : ChannelId) (r : Request) (i : Instr) : State → Deferred → Prop
  | nothing : Served s ch r i s .none
  | laneRead (l : LaneId) (k : LaneCounters) : Served s ch r i s (.lane l k)
  | channelRead (c : ChannelId) (k : ChannelCounters) : Served s ch r i s (.channel c k)
  | faulted (reason : FaultReason) (target : Target) (operator : ch = .ch1) :
    Served s ch r i (s.guardFault ch r reason target) .none
  | subscribed (subscription alarm : Half) :
    Served s ch r i (s.setQueue ch ((s.queue ch).subscribe subscription alarm)) .none
  | eventsRead (n : Nat) (present : n ≤ (s.queue ch).records.length) :
    Served s ch r i (s.setQueue ch ((s.queue ch).mark n)) (.events n (s.queue ch).lostCount)
  | holdSet (c : ChannelId) (n : Nat) (supervisor : ch = .ch0) (range : 8 ≤ n ∧ n ≤ 255) :
    Served s ch r i (s.setReplyHold c n) .none
  | placed (p : Place) (n : Nat) (supervisor : ch = .ch0) (range : 8 ≤ n ∧ n ≤ 255) (other : s.place .ch0 ≠ some p)
    (free : s.placeInUse p = false) : Served s ch r i ((s.setReplyHold .ch1 n).placeOperator p) .none
  | removed (n : Nat) (supervisor : ch = .ch0) (range : 8 ≤ n ∧ n ≤ 255) :
    Served s ch r i (s.setReplyHold .ch1 n).removeOperator .none
  | restarted (supervisor : ch = .ch0) (enabled : s.operatorPlace ≠ none) : Served s ch r i (s.restart .idle) .none
  | datapathReset (es : List Event) (supervisor : ch = .ch0) (row : i = .datapathReset) :
    Served s ch r i (s.cancelCommit.clearDatapath.withEvents es) .none
  | opened (t : Nat) (free : s.map.session = none) (range : 4 ≤ t ∧ t ≤ 255) :
    Served s ch r i { s with map := { s.map.restore with session := some ⟨ch, t, t⟩ } } .none
  | reopened (t : Nat) (held : s.map.holder = some ch) (range : 4 ≤ t ∧ t ≤ 255) :
    Served s ch r i { s with map := { s.map with session := some ⟨ch, t, t⟩ } } .none
  | abandoned (held : s.map.holder = some ch) : Served s ch r i s.endSession .none
  | broken (h : ChannelId) (supervisor : ch = .ch0) (held : s.map.holder = some h) :
    Served s ch r i (s.cancelCommit.endSession.withEvents [.lockBroken h]) .none
  | wrote (f : Bank → Bank) (held : s.map.holder = some ch)
    (permitted : ∀ b q, (f b).get q = b.get q ∨ ¬ s.Denied ch Region.modifyPermit q) :
    Served s ch r i (s.writePending f) .none
  | laneSet (l : LaneId) (on : Bool) (n : Nat) (supervisor : ch = .ch0) (range : n ≤ 63)
    (free : on = false → s.managedLane l = false) :
    Served s ch r i ((if on then s.enableLane l else s.disableLane l).setThreshold l n) .none
  | egressSet (enables : Byte) (limit : Nat) (supervisor : ch = .ch0) (range : 1 ≤ limit ∧ limit ≤ 1023)
    (free : s.egressInUse enables = false) :
    Served s ch r i
      { s with efa := { s.efa with
          enables := enables, holdLimit := limit, held := clampHeld s.efa.holdLimit limit s.efa.held } } .none
  | configured (f : GroupFields) (supervisor : ch = .ch0) (off : s.group f.group = none)
    (free : s.groupInUse f.group f.working f.protect = false) (lanes : f.working ≠ f.protect)
    (range : f.holdOff ≤ 31 ∧ 1 ≤ f.wtrPeriod ∧ f.wtrPeriod ≤ 255) :
    Served s ch r i (s.redecide f.group (s.freshGroup f)) .none
  | reconfigured (f : GroupFields) (x : Group) (supervisor : ch = .ch0) (on : s.group f.group = some x)
    (range : f.holdOff ≤ 31 ∧ 1 ≤ f.wtrPeriod ∧ f.wtrPeriod ≤ 255) :
    Served s ch r i (s.setGroup f.group (some (x.reconfigure f))) .none
  | deleted (g : GroupId) (supervisor : ch = .ch0) (unbound : s.groupBound g = false) :
    Served s ch r i (s.setGroup g none) .none
  | requested (g : GroupId) (x : Group) (q : Option Standing) (on : s.group g = some x)
    (operator : ch = .ch1 → x.operatorAccess = true ∧
      ∀ k, q = some k → k.origin = .channel .ch1 ∧ (k.kind = .manualP ∨ k.kind = .manualW)) :
    Served s ch r i (s.redecide g { x with standing := q }) .none
  | inputSet (n : InputId) (m : InputMode) (low : Bool) (supervisor : ch = .ch0)
    (bound : ∀ g, m.bound = some g → s.group g ≠ none) :
    Served s ch r i
      ((s.setInput n { s.input n with mode := m, activeLow := low }).forEach
        ((s.setInput n { s.input n with mode := m, activeLow := low }).changedLockouts
          (lockoutGroups (s.input n).mode m)) State.reevaluate) .none
  | regionSet (n : RegionId) (x : Option Region) (supervisor : ch = .ch0)
    (ordered : ∀ y, x = some y → y.laneFirst ≤ y.laneLast ∧ y.slotFirst ≤ y.slotLast) :
    Served s ch r i (s.setRegion n x) .none
  | faultCleared (supervisor : ch = .ch0) (row : i = .clearFault) :
    Served s ch r i { s with guard := { s.guard with fault := none, overruns := 0 } } .none

/-- The outcome of a command is the reply to what it does: its body fits the 31 body words of a reply (R178), and only
an OK reply keeps deferred effects (R135). -/
def Answered (s : State) (ch : ChannelId) (r : Request) (i : Instr) (t : State) : Prop :=
  ∃ u e st b, Served s ch r i u e ∧ b.length ≤ 62 ∧ (e ≠ .none → st = .ok) ∧ t = u.finish ch r st b e

/-- The outcome of a COMMIT that passes its validation (R36, R37). -/
def Scheduled (s : State) (ch : ChannelId) (r : Request) (t : State) : Prop :=
  s.map.holder = some ch ∧ s.validate ch = none ∧
    t = State.setPhase { s with map := { s.map with scheduled := some ch } } ch (.executing r false)

section

variable {s : State} {ch : ChannelId} {r : Request} {i : Instr}

theorem Served.answers {u : State} (served : Served s ch r i u .none) (st : Status) (b : List Byte)
    (short : b.length ≤ 62) : Answered s ch r i (u.finish ch r st b .none) :=
  ⟨u, .none, st, b, served, short, fun h => absurd rfl h, rfl⟩

theorem Served.refuses {u : State} (served : Served s ch r i u .none) (st : Status) :
    Answered s ch r i (u.refuse ch r st) :=
  served.answers st [] (Nat.zero_le _)

theorem Served.replies {u : State} (served : Served s ch r i u .none) (b : List Byte) (short : b.length ≤ 62) :
    Answered s ch r i (u.reply ch r b) :=
  served.answers .ok b short

/-- A refusal changes nothing before its reply. -/
theorem answered_refuse (st : Status) : Answered s ch r i (s.refuse ch r st) :=
  Served.nothing.refuses st

/-- A refusal that is a guard fault is one of channel 1 (R149). -/
theorem answered_guardRefuse (st : Status) (reason : FaultReason) (target : Target) (operator : ch = .ch1) :
    Answered s ch r i (s.guardRefuse ch r st reason target) :=
  (Served.faulted reason target operator).refuses st

theorem answered_reply (b : List Byte) (short : b.length ≤ 62) : Answered s ch r i (s.reply ch r b) :=
  Served.nothing.replies b short

/-! ### The lengths of bodies -/

@[simp] theorem length_halfBytes (h : Half) : (halfBytes h).length = 2 := rfl

@[simp] theorem length_counterBytes (n : Nat) : (counterBytes n).length = 2 := rfl

@[simp] theorem length_entryBytes (e : Entry) : e.bytes.length = 6 := rfl

@[simp] theorem length_summary (x : Group) (g : GroupId) : (x.summary g).length = 4 := rfl

theorem length_groupBytes (g : GroupId) (x : Option Group) : (groupBytes g x).length = 20 := by
  cases x <;> rfl

theorem length_regionBytes (x : Option Region) : (regionBytes x).length = 7 := by
  cases x <;> rfl

theorem length_targetBytes (x : Target) : x.bytes.length = 3 := by
  cases x <;> rfl

theorem length_faultBytes (g : Guard) : g.faultBytes.length = 12 := by
  unfold Guard.faultBytes
  split
  · rfl
  · simp [length_targetBytes]

/-- A body of equal records is as long as they are together. -/
theorem length_flatMap_of_length {α : Type} (f : α → List Byte) (n : Nat) (h : ∀ a, (f a).length = n) (xs : List α) :
    (xs.flatMap f).length = xs.length * n := by
  simp [List.length_flatMap, h]

theorem length_slotRun_le (lane : LaneId) (first count : Nat) : (slotRun lane first count).length ≤ count := by
  have sub : ((List.finRange 24).filter fun k => first ≤ k.val ∧ k.val < first + count).map Fin.val ⊆
      List.range' first count := by
    intro k hk
    obtain ⟨a, ha, rfl⟩ := List.mem_map.mp hk
    simpa [List.mem_range'_1] using (List.mem_filter.mp ha).2
  have nodup := ((List.nodup_finRange 24).filter fun k => first ≤ k.val ∧ k.val < first + count).map Fin.val_injective
  simpa [slotRun] using (List.subperm_of_subset nodup sub).length_le

/-- A run in range is one of `slotRun`. -/
theorem runOf_eq_some (most : Nat) (lane first count : Byte) (run : List Place)
    (h : runOf most lane first count = some run) :
    count.toNat ≤ most ∧ ∃ l, run = slotRun l first.toNat count.toNat := by
  unfold runOf at h
  split at h
  · rename_i l f _ hf
    split at h
    · rename_i range
      exact ⟨range.2.1, l, by rw [← (finOf_eq_some.mp hf : f.val = first.toNat)]; exact (Option.some.inj h).symm⟩
    · cases h
  · cases h

theorem length_run_le (most : Nat) (lane first count : Byte) (run : List Place)
    (h : runOf most lane first count = some run) : run.length ≤ most := by
  obtain ⟨le, l, rfl⟩ := runOf_eq_some most lane first count run h
  exact (length_slotRun_le l _ _).trans le

theorem length_readBytes (q : Queue) (n : Nat) (h : n ≤ q.records.length) : (q.readBytes n).length = 4 + n * 6 := by
  have six : ∀ x : EventRecord, x.bytes.length = 6 := fun _ => rfl
  simp [Queue.readBytes, length_flatMap_of_length _ 6 six, h]
  omega

/-! ### The owners' checks -/

theorem timeoutOf_range (b : Byte) (t : Nat) (h : timeoutOf b = some t) : 4 ≤ t ∧ t ≤ 255 := by
  have byte := b.isLt
  unfold timeoutOf at h
  split_ifs at h <;> cases h <;> omega

theorem replyHoldOf_range (b : Byte) (t : Nat) (h : replyHoldOf b = some t) : 8 ≤ t ∧ t ≤ 255 := by
  have byte := b.isLt
  unfold replyHoldOf at h
  split_ifs at h <;> cases h <;> omega

/-- What CONFIG_GROUP's fields are once they are in range (R108). -/
theorem groupFieldsOf_range (group w p rev ho wtr acc : Byte) (f : GroupFields)
    (h : groupFieldsOf group w p rev ho wtr acc = some f) :
    f.working ≠ f.protect ∧ f.holdOff ≤ 31 ∧ 1 ≤ f.wtrPeriod ∧ f.wtrPeriod ≤ 255 := by
  unfold groupFieldsOf at h
  split at h
  · split at h
    · rename_i range
      cases h
      have period : 1 ≤ wtrPeriodOf wtr ∧ wtrPeriodOf wtr ≤ 255 := by
        unfold wtrPeriodOf
        split <;> omega
      exact ⟨range.1, range.2, period⟩
    · cases h
  · cases h

/-- A present region's firsts are not above its lasts (R159). -/
theorem regionOf_ordered (p lf ll sf sl rd md : Byte) (x : Region) (h : regionOf p lf ll sf sl rd md = some (some x)) :
    x.laneFirst ≤ x.laneLast ∧ x.slotFirst ≤ x.slotLast := by
  unfold regionOf at h
  split at h
  · cases h
  · cases h
  · split at h
    · split at h
      · rename_i ordered
        cases h
        exact ordered
      · cases h
    · cases h

/-- The guard examines requests of channel 1 alone (R149). -/
theorem operator_of_unmodifiable (run : List Place) (p : Place) (h : s.unmodifiable ch run = some p) : ch = .ch1 := by
  cases ch
  · cases h
  · rfl

theorem operator_of_unreadable (run : List Place) (p : Place) (h : s.unreadable ch run = some p) : ch = .ch1 := by
  cases ch
  · cases h
  · rfl

/-- GUARD, test 4 of R35, is channel 1's. -/
theorem operator_of_guardFault (d : Place) (h : s.entryFault ch d = some .guard) : ch = .ch1 := by
  unfold State.entryFault at h
  dsimp only at h
  split_ifs at h with _ _ _ denied <;> cases h
  obtain ⟨p, hp⟩ := Option.isSome_iff_exists.mp denied.2
  exact operator_of_unmodifiable _ p hp

/-! ### The commands -/

theorem replyGroup_eq (u : State) (g : GroupId) : ∃ b, b.length ≤ 62 ∧ u.replyGroup ch r g = u.reply ch r b := by
  unfold State.replyGroup
  split
  · exact ⟨_, by simp, rfl⟩
  · exact ⟨[], by simp, rfl⟩

theorem Served.repliesGroup {u : State} (served : Served s ch r i u .none) (g : GroupId) :
    Answered s ch r i (u.replyGroup ch r g) := by
  obtain ⟨b, short, eq⟩ := replyGroup_eq (ch := ch) (r := r) u g
  exact eq ▸ served.replies b short

theorem answered_requestGroup (g : GroupId) (x : Group) (k : RequestKind) (on : s.group g = some x)
    (operator : ch = .ch1 → x.operatorAccess = true ∧ (k = .manualP ∨ k = .manualW)) :
    Answered s ch r i (s.requestGroup ch r g x k) := by
  unfold State.requestGroup
  split_ifs with outranked foreign
  · exact Served.nothing.answers _ _ (by simp)
  · exact answered_guardRefuse _ _ _ foreign.1
  · refine (Served.requested g x _ on fun h => ⟨(operator h).1, ?_⟩).repliesGroup g
    rintro q ⟨⟩
    exact ⟨by rw [h], (operator h).2⟩

theorem answered_clearGroup (g : GroupId) (x : Group) (on : s.group g = some x)
    (operator : ch = .ch1 → x.operatorAccess = true) : Answered s ch r i (s.clearGroup ch r g x) := by
  unfold State.clearGroup
  split_ifs with foreign standing
  · exact answered_guardRefuse _ _ _ foreign.1
  · exact (Served.requested g x none on fun h => ⟨operator h, nofun⟩).repliesGroup g
  · exact Served.nothing.repliesGroup g

/-- The first four checks of R100. -/
theorem answered_groupRequest (group : Byte) (supervisorKind : Bool) (go : GroupId → Group → State)
    (accepted : ∀ g x, s.group g = some x → (ch = .ch1 → x.operatorAccess = true ∧ supervisorKind = false) →
      Answered s ch r i (go g x)) :
    Answered s ch r i (s.groupRequest ch r group supervisorKind go) := by
  unfold State.groupRequest
  split
  · exact answered_refuse _
  · split_ifs with foreign
    · exact answered_guardRefuse _ _ _ foreign.1
    · split
      · exact answered_refuse _
      · rename_i x on
        split_ifs with closed
        · exact answered_guardRefuse _ _ _ closed.1
        · exact accepted _ x on fun h => ⟨by simpa using fun a => closed ⟨h, a⟩, by simpa using fun a => foreign ⟨h, a⟩⟩

/-- What a plan of SET_CHANNEL has established (R143). -/
def ChannelPlan.Sound (s : State) : ChannelPlan → Prop
  | .refused _ => True
  | .holdOnly _ n => 8 ≤ n ∧ n ≤ 255
  | .enabledAt p n => (8 ≤ n ∧ n ≤ 255) ∧ s.place .ch0 ≠ some p ∧ s.placeInUse p = false
  | .disabled n => 8 ≤ n ∧ n ≤ 255

theorem planEnable_sound (p : Place) (n : Nat) (range : 8 ≤ n ∧ n ≤ 255) :
    ChannelPlan.Sound s (s.planEnable p n) := by
  unfold State.planEnable
  split_ifs with other same used
  · trivial
  · exact range
  · trivial
  · exact ⟨range, other, by simpa using used⟩

theorem planChannel_sound (c enable lane slot hold : Byte) :
    ChannelPlan.Sound s (s.planChannel c enable lane slot hold) := by
  unfold State.planChannel
  split
  · exact replyHoldOf_range _ _ ‹_›
  · rename_i n _ hold
    have range := replyHoldOf_range _ _ hold
    split
    · trivial
    · split_ifs <;> exact range
    · split
      · trivial
      · exact planEnable_sound _ n range
  · trivial

theorem answered_takeSetChannel (supervisor : ch = .ch0) (c enable lane slot hold : Byte) :
    Answered s ch r i (s.takeSetChannel r c enable lane slot hold) := by
  have sound := planChannel_sound (s := s) c enable lane slot hold
  subst supervisor
  unfold State.takeSetChannel State.replyChannel
  have short : ∀ (u : State) (x : ChannelId), (u.placeBytes x ++ [byteOf (u.channel x).replyHold, 0]).length ≤ 62 := by
    simp [State.placeBytes]
  split <;> rename_i plan <;> rw [plan] at sound
  · exact answered_refuse _
  · exact (Served.holdSet _ _ rfl sound).replies _ (short _ _)
  · obtain ⟨range, other, free⟩ := sound
    exact (Served.placed _ _ rfl range other free).replies _ (short _ _)
  · exact (Served.removed _ rfl sound).replies _ (short _ _)

theorem answered_takeDatapathReset (supervisor : ch = .ch0) (row : i = .datapathReset) :
    Answered s ch r i (s.takeDatapathReset r) := by
  subst supervisor
  unfold State.takeDatapathReset
  dsimp only
  split
  · rw [State.raise_eq]
    exact (Served.datapathReset _ rfl row).replies [] (by simp)
  · rw [← State.withEvents_nil s.cancelCommit.clearDatapath]
    exact (Served.datapathReset [] rfl row).replies [] (by simp)

theorem answered_takeOpenEdit (timeout : Byte) : Answered s ch r i (s.takeOpenEdit ch r timeout) := by
  unfold State.takeOpenEdit
  split
  · exact answered_refuse _
  · rename_i t accepted
    have range := timeoutOf_range _ t accepted
    split
    · rename_i free
      exact (Served.opened t free range).replies _ (by simp)
    · rename_i e held
      split_ifs with own
      · exact (Served.reopened t (by simp [ConnectionMap.holder, held, own]) range).replies _ (by simp)
      · exact Served.nothing.answers _ _ (by simp)

theorem answered_takeCommit : Answered s ch r i (s.takeCommit ch r) ∨ Scheduled s ch r (s.takeCommit ch r) := by
  unfold State.takeCommit
  split_ifs with held
  · exact .inl (answered_refuse _)
  · split
    · rename_i d f failed
      refine .inl ?_
      dsimp only
      split_ifs with denied
      · obtain ⟨q, -, fault⟩ := List.exists_of_findSome?_eq_some failed
        obtain ⟨g, fault, eq⟩ := Option.map_eq_some_iff.mp fault
        cases eq
        exact (Served.faulted _ _ (operator_of_guardFault _ (denied ▸ fault))).answers _ _ (by simp)
      · exact Served.nothing.answers _ _ (by simp)
    · rename_i valid
      exact .inr ⟨not_not.mp held, valid, rfl⟩

theorem answered_takeBreakLock (supervisor : ch = .ch0) : Answered s ch r i (s.takeBreakLock r) := by
  subst supervisor
  unfold State.takeBreakLock
  split
  · exact answered_refuse _
  · rename_i h held
    rw [State.raise_eq]
    exact (Served.broken h rfl held).replies _ (by simp)

theorem answered_takeSetEntry (lane slot : Byte) (x : EntryRecord) :
    Answered s ch r i (s.takeSetEntry ch r lane slot x) := by
  unfold State.takeSetEntry
  split
  · rename_i d e _ _
    split_ifs with free
    · exact answered_refuse _
    · exact answered_refuse _
    · exact answered_refuse _
    · split
      · rename_i p denied
        exact answered_guardRefuse _ _ _ (operator_of_unmodifiable _ p denied)
      · rename_i permitted
        refine (Served.wrote _ (not_not.mp free) fun b q => ?_).replies _ (by simp)
        by_cases eq : q = d
        · exact .inr ((s.unmodifiable_eq_none ch [d]).mp permitted q (by simp [eq]))
        · exact .inl (Grid.get_set_of_ne b e eq)
  · exact answered_refuse _

theorem answered_takeClearEntries (lane first count : Byte) :
    Answered s ch r i (s.takeClearEntries ch r lane first count) := by
  unfold State.takeClearEntries
  split
  · exact answered_refuse _
  · rename_i run _
    split_ifs with free
    · exact answered_refuse _
    · split
      · rename_i p denied
        exact answered_guardRefuse _ _ _ (operator_of_unmodifiable _ p denied)
      · rename_i permitted
        refine (Served.wrote _ (not_not.mp free) fun b q => ?_).replies _ (by simp)
        rw [clearRun_get]
        by_cases mem : q ∈ run
        · exact .inr ((s.unmodifiable_eq_none ch run).mp permitted q mem)
        · exact .inl (if_neg mem)

theorem answered_takeReadEntries (bank lane first count : Byte) :
    Answered s ch r i (s.takeReadEntries ch r bank lane first count) := by
  unfold State.takeReadEntries
  split
  · rename_i run _ inRange
    split
    · rename_i p denied
      exact answered_guardRefuse _ _ _ (operator_of_unreadable _ p denied)
    · refine answered_reply _ ?_
      have le := length_run_le 8 lane first count run inRange
      simp only [List.length_append, List.length_cons, List.length_nil,
        length_flatMap_of_length _ 6 (fun d => length_entryBytes _)]
      omega
  · exact answered_refuse _

theorem answered_takeSetLane (supervisor : ch = .ch0) (lane enable threshold : Byte) :
    Answered s ch r i (s.takeSetLane r lane enable threshold) := by
  subst supervisor
  unfold State.takeSetLane
  split
  · rename_i l on _ _
    dsimp only
    split
    · exact answered_refuse _
    · rename_i range
      split
      · exact answered_refuse _
      · rename_i used
        refine (Served.laneSet l on _ rfl (not_lt.mp range) fun off => ?_).replies _ (by simp [State.laneSummary])
        simpa using fun h => used ⟨off, h⟩
  · exact answered_refuse _

theorem answered_takeSetEgress (supervisor : ch = .ch0) (enables : Byte) (limit : Half) :
    Answered s ch r i (s.takeSetEgress r enables limit) := by
  subst supervisor
  unfold State.takeSetEgress
  split_ifs with range used
  · exact answered_refuse _
  · exact answered_refuse _
  · exact (Served.egressSet enables limit.toNat rfl (by omega) (by simpa using used)).replies _ (by simp)

theorem answered_takeConfigGroup (supervisor : ch = .ch0) (group w p rev ho wtr acc : Byte) :
    Answered s ch r i (s.takeConfigGroup r group w p rev ho wtr acc) := by
  subst supervisor
  unfold State.takeConfigGroup
  split
  · exact answered_refuse _
  · rename_i f accepted
    obtain ⟨lanes, range⟩ := groupFieldsOf_range _ _ _ _ _ _ _ f accepted
    split
    · rename_i x on
      split_ifs
      · exact answered_refuse _
      · exact (Served.reconfigured f x rfl on range).repliesGroup _
    · rename_i off
      split_ifs with used
      · exact answered_refuse _
      · exact (Served.configured f rfl off (by simpa using used) lanes range).repliesGroup _

theorem answered_takeDeleteGroup (supervisor : ch = .ch0) (group : Byte) :
    Answered s ch r i (s.takeDeleteGroup r group) := by
  subst supervisor
  unfold State.takeDeleteGroup
  split
  · exact answered_refuse _
  · split_ifs with off bound
    · exact answered_refuse _
    · exact answered_refuse _
    · exact (Served.deleted _ rfl (by simpa using bound)).replies _ (by simp)

theorem answered_takeSetInput (supervisor : ch = .ch0) (input polarity mode group : Byte) :
    Answered s ch r i (s.takeSetInput r input polarity mode group) := by
  subst supervisor
  unfold State.takeSetInput
  split
  · rename_i n low m _ _ _
    split_ifs with unbound
    · exact answered_refuse _
    · refine (Served.inputSet n m low rfl fun g bound off => unbound ?_).replies _ (by simp [Input.bytes])
      simp [bound, off]
  · exact answered_refuse _

theorem answered_takeSetRegion (supervisor : ch = .ch0) (n p lf ll sf sl rd md : Byte) :
    Answered s ch r i (s.takeSetRegion r n p lf ll sf sl rd md) := by
  subst supervisor
  unfold State.takeSetRegion
  split
  · rename_i x _ region
    refine (Served.regionSet _ x rfl fun y some => ?_).replies _ (by simp [length_regionBytes])
    exact regionOf_ordered _ _ _ _ _ _ _ y (some ▸ region)
  · exact answered_refuse _

theorem answered_takeReadLane (lane clear : Byte) : Answered s ch r i (s.takeReadLane ch r lane clear) := by
  have short : ∀ l, (s.laneBytes l).length ≤ 62 := fun l => by simp [State.laneBytes, LaneCounters.bytes]
  unfold State.takeReadLane
  split
  · split_ifs with foreign clears
    · exact answered_guardRefuse _ _ _ foreign.2
    · exact ⟨s, _, .ok, _, .laneRead _ _, short _, fun _ => rfl, rfl⟩
    · exact ⟨s, _, .ok, _, .nothing, short _, fun _ => rfl, rfl⟩
  · exact answered_refuse _

theorem answered_takeReadChannel (c clear : Byte) : Answered s ch r i (s.takeReadChannel ch r c clear) := by
  have short : ∀ x, (s.channelBytes x).length ≤ 62 := fun x => by
    simp [State.channelBytes, State.placeBytes, ChannelCounters.bytes]
  unfold State.takeReadChannel
  split
  · split_ifs with foreign clears
    · exact answered_guardRefuse _ _ _ foreign.1
    · exact ⟨s, _, .ok, _, .channelRead _ _, short _, fun _ => rfl, rfl⟩
    · exact ⟨s, _, .ok, _, .nothing, short _, fun _ => rfl, rfl⟩
  · exact answered_refuse _

theorem answered_takeReadEvents (most : Byte) : Answered s ch r i (s.takeReadEvents ch r most) := by
  unfold State.takeReadEvents
  split_ifs with range
  · have present : min most.toNat (s.queue ch).records.length ≤ (s.queue ch).records.length := min_le_right _ _
    refine ⟨_, _, .ok, _, .eventsRead _ present, ?_, fun _ => rfl, rfl⟩
    rw [length_readBytes _ _ present]
    omega
  · exact answered_refuse _

/-- What the owner of a request does (R134): a COMMIT that passes its validation is scheduled, and every other command is
answered. -/
theorem takeCommand_cases (sender : i.sender = some ch) :
    Answered s ch r i (s.takeCommand r i) ∨ Scheduled s ch r (s.takeCommand r i) := by
  cases i <;> cases sender
  case commit => exact answered_takeCommit
  all_goals refine .inl ?_
  case readIdentity => exact answered_reply _ (by simp)
  case readChannel => exact answered_takeReadChannel ..
  case setChannel => exact answered_takeSetChannel rfl ..
  case restartChannel =>
    show Answered s .ch0 r _ (s.takeRestartChannel r)
    unfold State.takeRestartChannel
    split_ifs with off
    · exact answered_refuse _
    · exact (Served.restarted rfl off).replies _ (by simp)
  case datapathReset => exact answered_takeDatapathReset rfl rfl
  case openEdit => exact answered_takeOpenEdit ..
  case abandonEdit =>
    show Answered s ch r _ (s.takeAbandonEdit ch r)
    unfold State.takeAbandonEdit
    split_ifs with held
    · exact (Served.abandoned held).replies _ (by simp)
    · exact answered_refuse _
  case breakLock => exact answered_takeBreakLock rfl
  case readEditState => exact answered_reply _ (by simp)
  case setEntry => exact answered_takeSetEntry ..
  case clearEntries => exact answered_takeClearEntries ..
  case readEntries => exact answered_takeReadEntries ..
  case setLane => exact answered_takeSetLane rfl ..
  case readLane => exact answered_takeReadLane ..
  case setEgress => exact answered_takeSetEgress rfl ..
  case readEgress => exact answered_reply _ (by simp)
  case configGroup => exact answered_takeConfigGroup rfl ..
  case deleteGroup => exact answered_takeDeleteGroup rfl ..
  case groupRequestLockout =>
    exact answered_groupRequest _ _ _ fun g x on open_ => answered_requestGroup g x _ on fun h => nomatch (open_ h).2
  case groupRequestForce =>
    exact answered_groupRequest _ _ _ fun g x on open_ => answered_requestGroup g x _ on fun h => nomatch (open_ h).2
  case groupRequestManualP =>
    exact answered_groupRequest _ _ _ fun g x on open_ => answered_requestGroup g x _ on fun h => ⟨(open_ h).1, .inl rfl⟩
  case groupRequestManualW =>
    exact answered_groupRequest _ _ _ fun g x on open_ => answered_requestGroup g x _ on fun h => ⟨(open_ h).1, .inr rfl⟩
  case groupRequestClear =>
    show Answered s ch r _ (s.takeClear ch r _)
    unfold State.takeClear
    split_ifs
    · exact answered_groupRequest _ _ _ fun g x on open_ => answered_clearGroup g x on fun h => (open_ h).1
    · exact answered_refuse _
  case readGroup =>
    show Answered s ch r _ (s.takeReadGroup ch r _)
    unfold State.takeReadGroup
    split
    · exact answered_refuse _
    · exact answered_reply _ (by simp [length_groupBytes])
  case setInput => exact answered_takeSetInput rfl ..
  case readInputs =>
    exact answered_reply _ (by simp [length_flatMap_of_length Input.bytes 4 fun _ => rfl])
  case setRegion => exact answered_takeSetRegion rfl ..
  case readRegions =>
    exact answered_reply _ (by simp [length_flatMap_of_length regionBytes 7 length_regionBytes])
  case readFault => exact answered_reply _ (by simp [length_faultBytes])
  case clearFault => exact (Served.faultCleared rfl rfl).replies _ (by simp [length_faultBytes])
  case setSubscription => exact (Served.subscribed _ _).replies _ (by simp)
  case readEvents => exact answered_takeReadEvents _

end

end Sys2Proof.Proofs

/-! What the shared parts of the commands do: a commit answered, a lock ended, channel 1 restarted, lanes enabled and disabled;
and what a taken request leaves of both channels. -/

namespace Sys2Proof.Proofs

open Sys2Proof.Machine

section

variable (s : State)

/-! ### Commits answered and locks ended (R26, R32, R42) -/

theorem completeCommit_cases (c : ChannelId) (st : Status) (b : List Byte) : s.completeCommit c st b = s ∨
    ∃ q, (s.channel c).phase = .executing q false ∧ s.completeCommit c st b = s.finish c q st b .none := by
  unfold State.completeCommit
  split
  · rename_i q phase
    exact .inr ⟨q, phase, rfl⟩
  · exact .inl rfl

theorem completeCommit_of_executing (c : ChannelId) (st : Status) (b : List Byte) (q : Request)
    (executing : (s.channel c).phase = .executing q false) : s.completeCommit c st b = s.finish c q st b .none := by
  unfold State.completeCommit
  rw [executing]

theorem cancelCommit_of_none (free : s.map.scheduled = none) : s.cancelCommit = s := by
  unfold State.cancelCommit
  rw [free]

theorem cancelCommit_cases : s.cancelCommit = s ∨
    ∃ c q, s.map.scheduled = some c ∧ (s.channel c).phase = .executing q false ∧
      s.cancelCommit = s.finish c q .cancelled [] .none := by
  unfold State.cancelCommit
  split
  · rename_i c committer
    rcases completeCommit_cases s c .cancelled [] with same | ⟨q, executing, done⟩
    · exact .inl same
    · exact .inr ⟨c, q, committer, executing, done⟩
  · exact .inl rfl

/-- Cancelling a commit changes the record of the committer alone. -/
theorem cancelCommit_eq : ∃ c0 c1, s.cancelCommit = { s with ch0 := c0, ch1 := c1 } := by
  rcases cancelCommit_cases s with same | ⟨c, q, -, -, done⟩
  · exact ⟨s.ch0, s.ch1, same⟩
  · rw [done]
    cases c <;> exact ⟨_, _, rfl⟩

/-! ### A channel restart (R43, R145, R174) -/

/-- The queue of a restarted channel: empty, with its masks. -/
def emptied (q : Queue) : Queue :=
  { records := [], overflow := false, lostCount := 0, subscription := q.subscription, alarmMask := q.alarmMask
    alarm := false }

/-- The record of a restarted channel. -/
def begunAnew (c : Channel) (phase : Phase) : Channel :=
  { phase := phase, replyHold := c.replyHold, stored := none, counters := ⟨0, 0, 0, 0, 0, 0, 0⟩ }

/-- What a frame start has from a channel 1 that is restarted. -/
def forgotten (w : FrameWork) : FrameWork :=
  { w with word1 := none, swapped := if w.swapped = some .ch1 then none else w.swapped }

theorem restart_of_free (phase : Phase) (free : s.map.holder ≠ some .ch1) :
    s.restart phase =
      { s with ch1 := begunAnew s.ch1 phase, queue1 := emptied s.queue1, work := forgotten s.work } := by
  unfold State.restart State.restartLock
  rw [if_neg free]
  rfl

theorem restart_of_held (phase : Phase) (held : s.map.holder = some .ch1) :
    s.restart phase =
      { s with
        ch1 := begunAnew s.ch1 phase, queue1 := emptied s.queue1, work := forgotten s.work
        map := s.map.restore.release
        queue0 := s.queueAfter s.efa.superframes [.lockBroken .ch1] .ch0 } := by
  unfold State.restart State.restartLock
  rw [if_pos held, State.offer_eq]
  rfl

/-- A restart in one form: it ends a lock of channel 1 and begins the channel's record and queue anew. -/
theorem restart_cases (phase : Phase) : ∃ m es,
    (m = s.map ∧ s.map.holder ≠ some .ch1 ∨ m = s.map.restore.release) ∧
    s.restart phase =
      { s with
        ch1 := begunAnew s.ch1 phase, queue1 := emptied s.queue1, work := forgotten s.work, map := m
        queue0 := s.queueAfter s.efa.superframes es .ch0 } := by
  by_cases held : s.map.holder = some .ch1
  · exact ⟨_, _, .inr rfl, restart_of_held s phase held⟩
  · exact ⟨s.map, [], .inl ⟨rfl, held⟩, restart_of_free s phase held⟩

/-! ### Lanes enabled, disabled and given a threshold (R64, R72) -/

/-- The alignment state of a lane whose enable has been set. -/
def enabledAlignment (a : Sys2Proof.Machine.Alignment) : Sys2Proof.Machine.Alignment :=
  if a = .off then .hunt else a

theorem enableLane_eq (l : LaneId) :
    s.enableLane l = s.setLane l { s.lane l with alignment := enabledAlignment (s.lane l).alignment } := by
  unfold State.enableLane enabledAlignment
  split_ifs
  · rfl
  · exact (s.setLane_self l _ rfl).symm

theorem enableLanes_eq (l : LaneId) :
    s.enableLanes l =
      { s.setLane l { s.lane l with alignment := enabledAlignment (s.lane l).alignment } with
        efa := { s.efa with enables := s.efa.enables ||| BitVec.twoPow 8 l.val } } := by
  unfold State.enableLanes
  rw [enableLane_eq]
  rfl

/-- Channel 1 at a new place, in one form (R144). -/
theorem placeOperator_eq (p : Place) :
    s.placeOperator p =
      { (State.restart { s with operatorPlace := some p } .idle).setLane p.lane
          { s.lane p.lane with alignment := enabledAlignment (s.lane p.lane).alignment } with
        efa := { s.efa with enables := s.efa.enables ||| BitVec.twoPow 8 p.lane.val } } := by
  unfold State.placeOperator
  obtain ⟨m, es, -, eq⟩ := restart_cases { s with operatorPlace := some p } .idle
  rw [enableLanes_eq, eq]
  rfl

/-- A state that differs in lanes, groups and queues alone: what the lane commands reach once no location is on the
lane. -/
def OnlyLanes (s t : State) : Prop :=
  ∃ ls gs q0 q1 n, t = { s with lanes := ls, groups := gs, queue0 := q0, queue1 := q1, free := n }

theorem OnlyLanes.of_onlyGroups {s t u : State} (h : OnlyLanes s t) (k : t.OnlyGroups u) : OnlyLanes s u := by
  obtain ⟨ls, gs, q0, q1, n, rfl⟩ := h
  obtain ⟨gs', q0', q1', n', rfl⟩ := k
  exact ⟨ls, gs', q0', q1', n', rfl⟩

theorem OnlyLanes.trans {s t u : State} (h : OnlyLanes s t) (k : OnlyLanes t u) : OnlyLanes s u := by
  obtain ⟨ls, gs, q0, q1, n, rfl⟩ := h
  obtain ⟨ls', gs', q0', q1', n', rfl⟩ := k
  exact ⟨ls', gs', q0', q1', n', rfl⟩

theorem onlyLanes_setLane (l : LaneId) (x : Lane) : OnlyLanes s (s.setLane l x) :=
  ⟨_, s.groups, s.queue0, s.queue1, s.free, rfl⟩

theorem onlyLanes_setThreshold (l : LaneId) (n : Nat) : OnlyLanes s (s.setThreshold l n) := by
  unfold State.setThreshold
  dsimp only
  repeat' split
  · rw [State.raise_eq]
    exact ((onlyLanes_setLane s l _).of_onlyGroups (State.onlyGroups_withEvents _ _)).of_onlyGroups
      (State.onlyGroups_reportLanes _)
  · exact onlyLanes_setLane s l _
  · exact onlyLanes_setLane s l _

/-- The place of a channel lies on its managed lane. -/
theorem not_place_of_unmanaged (l : LaneId) (free : s.managedLane l = false) :
    ∀ ch p, s.place ch = some p → p.lane ≠ l := by
  intro ch p at_ on
  have managed := (s.managedLane_iff l).mpr ⟨ch, p, at_, on⟩
  rw [free] at managed
  cases managed

theorem disableLane_of_aligned (l : LaneId) (free : s.managedLane l = false) (aligned : (s.lane l).isAligned = true) :
    s.disableLane l =
      ((s.setLane l { (s.lane l).empty with alignment := .off }).withEvents [.laneLost l]).reportLanes := by
  unfold State.disableLane State.leaveAligned
  rw [if_pos aligned]
  dsimp only
  rw [State.raise_eq, State.reportLost_of_unmanaged]
  · rfl
  · exact not_place_of_unmanaged s l free

theorem onlyLanes_disableLane (l : LaneId) (free : s.managedLane l = false) : OnlyLanes s (s.disableLane l) := by
  by_cases aligned : (s.lane l).isAligned = true
  · rw [disableLane_of_aligned s l free aligned]
    exact ((onlyLanes_setLane s l _).of_onlyGroups (State.onlyGroups_withEvents _ _)).of_onlyGroups
      (State.onlyGroups_reportLanes _)
  · unfold State.disableLane
    rw [if_neg aligned]
    exact onlyLanes_setLane s l _

/-- What SET_LANE does to the part (R81). -/
theorem onlyLanes_laneSet (l : LaneId) (on : Bool) (n : Nat) (free : on = false → s.managedLane l = false) :
    OnlyLanes s ((if on then s.enableLane l else s.disableLane l).setThreshold l n) := by
  refine OnlyLanes.trans ?_ (onlyLanes_setThreshold _ l n)
  cases on
  · exact onlyLanes_disableLane s l (free rfl)
  · rw [if_pos rfl, enableLane_eq]
    exact onlyLanes_setLane s l _

/-! ### Inputs set (R121) -/

/-- What SET_INPUT reaches besides the input's own record. -/
theorem onlyGroups_inputSet (t : State) (gs : List GroupId) : t.OnlyGroups (t.forEach gs State.reevaluate) :=
  State.OnlyGroups.forEach t gs _ State.onlyGroups_reevaluate

end

/-! ### The channels of a request that is taken -/

section

variable {s u : State} {ch : ChannelId} {r : Request} {i : Instr} {e : Deferred}

/-- A channel's record as it was, its REPLY_HOLD apart. -/
def Channel.SameButHold (c d : Channel) : Prop :=
  d.phase = c.phase ∧ d.stored = c.stored ∧ d.counters = c.counters

theorem sameButHold_setReplyHold (s : State) (c d : ChannelId) (n : Nat) :
    Channel.SameButHold (s.channel d) ((s.setReplyHold c n).channel d) := by
  cases c <;> cases d <;> exact ⟨rfl, rfl, rfl⟩

theorem channel_of_onlyGroups {s t : State} (h : s.OnlyGroups t) (c : ChannelId) : t.channel c = s.channel c := by
  obtain ⟨gs, q0, q1, n, rfl⟩ := h
  cases c <;> rfl

theorem channel_of_onlyLanes {s t : State} (h : OnlyLanes s t) (c : ChannelId) : t.channel c = s.channel c := by
  obtain ⟨ls, gs, q0, q1, n, rfl⟩ := h
  cases c <;> rfl

/-- The supervisor's own record through a restart of channel 1. -/
theorem ch0_restart (s : State) (p : Phase) : (s.restart p).ch0 = s.ch0 := by
  obtain ⟨m, es, -, eq⟩ := restart_cases s p
  rw [eq]

theorem ch1_restart (s : State) (p : Phase) : (s.restart p).ch1 = begunAnew s.ch1 p := by
  obtain ⟨m, es, -, eq⟩ := restart_cases s p
  rw [eq]

/-- Cancelling a commit leaves a channel whose request waits, and makes no request wait. -/
theorem channel_cancelCommit (s : State) (c : ChannelId) :
    s.cancelCommit.channel c = s.channel c ∨
      (∃ q, (s.channel c).phase = .executing q false) ∧ (s.cancelCommit.channel c).phase = .replying 0 := by
  rcases cancelCommit_cases s with same | ⟨d, q, -, executing, done⟩
  · exact .inl (by rw [same])
  · rw [done]
    by_cases own : c = d
    · subst own
      exact .inr ⟨⟨q, executing⟩, by rw [State.channel_finish]⟩
    · exact .inl (State.channel_finish_of_ne s d c q own _ _ _)

/-- What is served of a request leaves each channel's record, REPLY_HOLD apart, but for channel 1 under a request of the
supervisor: that can be restarted, or its commit cancelled. -/
theorem Served.channel_cases (served : Served s ch r i u e) (waits : (s.channel ch).phase = .executing r true)
    (c : ChannelId) :
    Channel.SameButHold (s.channel c) (u.channel c) ∨
      (ch = .ch0 ∧ c = .ch1 ∧ ∀ q, (u.channel c).phase ≠ .executing q true) := by
  have same : ∀ {t : State}, t.channel c = s.channel c → Channel.SameButHold (s.channel c) (t.channel c) := by
    intro t eq
    rw [eq]
    exact ⟨rfl, rfl, rfl⟩
  have cancelled : ∀ t : State, t.ch0 = s.cancelCommit.ch0 → t.ch1 = s.cancelCommit.ch1 → ch = .ch0 →
      Channel.SameButHold (s.channel c) (t.channel c) ∨
        (ch = .ch0 ∧ c = .ch1 ∧ ∀ q, (t.channel c).phase ≠ .executing q true) := by
    intro t h0 h1 supervisor
    have eq : t.channel c = s.cancelCommit.channel c := by cases c <;> assumption
    rcases channel_cancelCommit s c with kept | ⟨⟨q, executing⟩, replying⟩
    · exact .inl (same (eq.trans kept))
    · refine .inr ⟨supervisor, ?_, fun q => by rw [eq, replying]; nofun⟩
      subst supervisor
      cases c
      · rw [waits] at executing
        cases executing
      · rfl
  cases served
  case nothing => exact .inl (same rfl)
  case laneRead => exact .inl (same rfl)
  case channelRead => exact .inl (same rfl)
  case faulted => exact .inl (same (by simp))
  case subscribed => exact .inl (same (by simp))
  case eventsRead => exact .inl (same (by simp))
  case holdSet => exact .inl (sameButHold_setReplyHold ..)
  case placed p n supervisor _ _ _ =>
    rw [placeOperator_eq]
    cases c
    · exact .inl (by simp [ch0_restart]; exact ⟨rfl, rfl, rfl⟩)
    · exact .inr ⟨supervisor, rfl, fun q => by simp [ch1_restart, begunAnew]⟩
  case removed n supervisor _ =>
    cases c
    · exact .inl (by simp [State.removeOperator, ch0_restart]; exact ⟨rfl, rfl, rfl⟩)
    · exact .inr ⟨supervisor, rfl, fun q => by simp [State.removeOperator, ch1_restart, begunAnew]⟩
  case restarted supervisor _ =>
    cases c
    · exact .inl (by simp [ch0_restart]; exact ⟨rfl, rfl, rfl⟩)
    · exact .inr ⟨supervisor, rfl, fun q => by simp [ch1_restart, begunAnew]⟩
  case datapathReset supervisor _ => exact cancelled _ rfl rfl supervisor
  case opened => exact .inl (same (by cases c <;> rfl))
  case reopened => exact .inl (same (by cases c <;> rfl))
  case abandoned => exact .inl (same (by cases c <;> rfl))
  case broken supervisor _ => exact cancelled _ rfl rfl supervisor
  case wrote => exact .inl (same (by cases c <;> rfl))
  case laneSet l on n _ range free => exact .inl (same (channel_of_onlyLanes (onlyLanes_laneSet s l on n free) c))
  case egressSet => exact .inl (same (by cases c <;> rfl))
  case configured f _ _ _ _ _ => exact .inl (same (channel_of_onlyGroups (s.onlyGroups_redecide _ _) c))
  case reconfigured => exact .inl (same (by cases c <;> rfl))
  case deleted => exact .inl (same (by cases c <;> rfl))
  case requested => exact .inl (same (channel_of_onlyGroups (s.onlyGroups_redecide _ _) c))
  case inputSet n m low _ _ =>
    exact .inl (same ((channel_of_onlyGroups (onlyGroups_inputSet (s.setInput n _) _) c).trans (by cases c <;> rfl)))
  case regionSet => exact .inl (same (by cases c <;> rfl))
  case faultCleared => exact .inl (same (by cases c <;> rfl))

/-- The request of a channel stands until its reply is formed. -/
theorem Served.phase (served : Served s ch r i u e) (waits : (s.channel ch).phase = .executing r true) :
    (u.channel ch).phase = .executing r true := by
  rcases served.channel_cases waits ch with ⟨phase, -, -⟩ | ⟨supervisor, operator, -⟩
  · rw [phase, waits]
  · rw [supervisor] at operator
    cases operator

/-- A request of channel 1 does not reach the supervisor's channel. -/
theorem phase_takeCommand_ch0 (sender : i.sender = some .ch1) (waits : s.ch1.phase = .executing r true) :
    (s.takeCommand r i).ch0.phase = s.ch0.phase := by
  rcases takeCommand_cases (s := s) (r := r) sender with ⟨u, e, st, b, served, -, -, eq⟩ | ⟨-, -, eq⟩
  · rw [eq]
    rcases served.channel_cases waits .ch0 with ⟨phase, -, -⟩ | ⟨h, -, -⟩
    · exact phase
    · cases h
  · rw [eq]
    rfl

/-- A request that is taken no longer waits, and no request comes to wait by it. -/
theorem waits_of_waits_takeCommand (sender : i.sender = some ch) (waits : (s.channel ch).phase = .executing r true)
    (c : ChannelId) (q : Request) (after : ((s.takeCommand r i).channel c).phase = .executing q true) :
    c ≠ ch ∧ (s.channel c).phase = .executing q true := by
  rcases takeCommand_cases (s := s) (r := r) sender with ⟨u, e, st, b, served, -, -, eq⟩ | ⟨-, -, eq⟩ <;>
    rw [eq] at after
  · have other : c ≠ ch := by
      rintro rfl
      rw [State.channel_finish] at after
      cases after
    rw [State.channel_finish_of_ne u ch c r other _ _ _] at after
    rcases served.channel_cases waits c with ⟨phase, -, -⟩ | ⟨-, -, none⟩
    · exact ⟨other, phase ▸ after⟩
    · exact absurd after (none q)
  · cases c <;> cases ch <;> simp_all [State.setPhase]

end

end Sys2Proof.Proofs

/-! What a word can do to the channel that hears it (R129 to R134, R138), what a controller can do at a frame start (R136,
R139), and what a word can do to the lane it arrives on (R63 to R74). -/

namespace Sys2Proof.Proofs

open Sys2Proof.Machine

section

variable (s : State) (ch : ChannelId)

/-! ### Words heard by a channel -/

/-- The state after a channel has heard a word. -/
inductive Heard : State → Prop
  | ignored : Heard s
  | counted (f : ChannelCounters → ChannelCounters) : Heard (s.countChannel ch f)
  | begun (r : Request) (a : State) (f : ChannelCounters → ChannelCounters) (empty : r.body = [])
    (open_ : ∀ q w, (s.channel ch).phase ≠ .executing q w) (on : (s.channel ch).phase ≠ .off)
    (implicit : a = s.acknowledge ch ∨ a = s ∧ ∀ p, (s.channel ch).stored = some p → p.seq = r.seq) :
    Heard ((a.countChannel ch f).setPhase ch (.receiving r))
  | joined (r : Request) (x : Half) (receiving : (s.channel ch).phase = .receiving r)
    (room : r.body.length < r.len.toNat) : Heard (s.setPhase ch (.receiving { r with body := r.body ++ [x] }))
  | discarded (r : Request) (f : ChannelCounters → ChannelCounters) (es : List Event)
    (receiving : (s.channel ch).phase = .receiving r) : Heard ((s.discard ch f).withEvents es)
  | acknowledged (p : StoredReply) (stored : (s.channel ch).stored = some p) (on : (s.channel ch).phase ≠ .off)
    (between : ∀ q w, (s.channel ch).phase ≠ .executing q w) : Heard ((s.acknowledge ch).setPhase ch .idle)
  | duplicated (r : Request) (p : StoredReply) (receiving : (s.channel ch).phase = .receiving r)
    (stored : (s.channel ch).stored = some p) : Heard (s.duplicate ch p)
  | refused (r : Request) (st : Status) (u : State) (receiving : (s.channel ch).phase = .receiving r)
    (other : ∀ p, (s.channel ch).stored = some p → p.seq ≠ r.seq)
    (fault : u = { s with map := s.map.reload ch } ∨
      ch = .ch1 ∧ ∃ a b, u = State.guardFault { s with map := s.map.reload ch } ch r a b) :
    Heard (u.refuse ch r st)
  | handed (r : Request) (receiving : (s.channel ch).phase = .receiving r) (whole : r.len.toNat ≤ r.body.length)
    (other : ∀ p, (s.channel ch).stored = some p → p.seq ≠ r.seq) :
    Heard (State.setPhase { s with map := s.map.reload ch } ch (.executing r true))

variable {s ch}

theorem heard_complete (r : Request) (receiving : (s.channel ch).phase = .receiving r)
    (whole : r.len.toNat ≤ r.body.length) : Heard s ch (s.complete ch r) := by
  by_cases same : ∃ p, (s.channel ch).stored = some p ∧ p.seq = r.seq
  · obtain ⟨p, stored, seq⟩ := same
    rw [complete_of_seq_eq s ch r p stored seq]
    exact .duplicated r p receiving stored
  · have other : ∀ p, (s.channel ch).stored = some p → p.seq ≠ r.seq := fun p stored seq => same ⟨p, stored, seq⟩
    rw [complete_of_seq_ne s ch r other]
    unfold State.execute
    split
    · exact .refused r _ _ receiving other (.inl rfl)
    · split_ifs with len operator
      · exact .refused r _ _ receiving other (.inl rfl)
      · exact .refused r _ _ receiving other (.inr ⟨operator.1, _, _, rfl⟩)
      · exact .handed r receiving whole other

theorem countChannel_id (a : State) : a.countChannel ch id = a := by
  cases ch <;> rfl

theorem heard_takeHead (code : BitVec 6) (seq : BitVec 4) (len : BitVec 5)
    (open_ : ∀ q w, (s.channel ch).phase ≠ .executing q w) (on : (s.channel ch).phase ≠ .off) :
    Heard s ch (s.takeHead ch code seq len) := by
  have implicit : s.acknowledgeImplicitly ch seq = s.acknowledge ch ∨
      s.acknowledgeImplicitly ch seq = s ∧ ∀ p, (s.channel ch).stored = some p → p.seq = seq := by
    unfold State.acknowledgeImplicitly
    split
    · rename_i p stored
      split_ifs with same
      · exact .inr ⟨rfl, fun q eq => by cases stored.symm.trans eq; exact same⟩
      · exact .inl rfl
    · rename_i none
      exact .inr ⟨rfl, fun p eq => by rw [none] at eq; cases eq⟩
  unfold State.takeHead
  dsimp only
  split
  · exact .begun ⟨code, seq, len, []⟩ _ _ rfl open_ on implicit
  · have heard := Heard.begun ⟨code, seq, len, []⟩ _ id rfl open_ on implicit
    rwa [countChannel_id] at heard

theorem heard_takeTail (r : Request) (check : Half) (receiving : (s.channel ch).phase = .receiving r) :
    Heard s ch (s.takeTail ch r check) := by
  unfold State.takeTail
  split_ifs with short right
  · rw [← State.withEvents_nil (s.discard ch _)]
    exact .discarded r _ [] receiving
  · exact heard_complete r receiving (not_lt.mp short)
  · rw [State.raise_eq]
    exact .discarded r _ _ receiving

theorem heard_takeAck (valid : Bool) (seq : BitVec 4) (on : (s.channel ch).phase ≠ .off)
    (between : ∀ q w, (s.channel ch).phase ≠ .executing q w) : Heard s ch (s.takeAck ch valid seq) := by
  unfold State.takeAck
  split
  · rename_i p stored
    split_ifs
    · exact .acknowledged p stored on between
    · exact .ignored
  · exact .ignored

/-- What a word handed to a channel can do. -/
theorem takeWord_heard (w : Word) : Heard s ch (s.takeWord ch w) := by
  have truncated : ∀ r f, (s.channel ch).phase = .receiving r → Heard s ch (s.discard ch f) := by
    intro r f receiving
    rw [← State.withEvents_nil (s.discard ch _)]
    exact .discarded r _ [] receiving
  unfold State.takeWord
  rcases phase : (s.channel ch).phase with _ | _ | r | ⟨r, waits⟩ | k | n <;> rcases decodeMgmtWord w with _ | _ | _ | _
  case off => all_goals exact .ignored
  case receiving.body x =>
    show Heard s ch (s.takeBody ch r x)
    unfold State.takeBody
    split_ifs with room
    · exact .joined r x phase room
    · exact truncated r _ phase
  case receiving.tail => exact heard_takeTail r _ phase
  case receiving.idle => exact truncated r _ phase
  case receiving.head => exact heard_takeHead _ _ _ (by simp [phase]) (by simp [phase])
  case idle.head => exact heard_takeHead _ _ _ (by simp [phase]) (by simp [phase])
  case awaitAck.head => exact heard_takeHead _ _ _ (by simp [phase]) (by simp [phase])
  case idle.idle => exact heard_takeAck _ _ (by simp [phase]) (by simp [phase])
  case awaitAck.idle => exact heard_takeAck _ _ (by simp [phase]) (by simp [phase])
  all_goals first | exact .ignored | exact .counted _

/-! ### Controllers at a frame start -/

variable (s ch) in
/-- The state after the controller's event of a frame start, its marks for the frame apart. -/
inductive Sent : State → Prop
  | nothing : Sent s
  | next (p : StoredReply) (k : Nat) (replying : (s.channel ch).phase = .replying k)
    (stored : (s.channel ch).stored = some p) (more : k ≤ p.body.length) : Sent (s.setPhase ch (.replying (k + 1)))
  | last (k : Nat) (replying : (s.channel ch).phase = .replying k) (stored : (s.channel ch).stored.isSome = true) :
    Sent (s.setPhase ch (.awaitAck (s.channel ch).replyHold))
  | waited (n : Nat) (waiting : (s.channel ch).phase = .awaitAck n) (more : 1 < n) :
    Sent (s.setPhase ch (.awaitAck (n - 1)))
  | resent (p : StoredReply) (n : Nat) (waiting : (s.channel ch).phase = .awaitAck n)
    (stored : (s.channel ch).stored = some p) (more : p.resends < 3) :
    Sent (s.setChannel ch
      { s.channel ch with
        phase := .replying 0, stored := some { p with resends := p.resends + 1 }
        counters := (s.channel ch).counters.incRetransmits })
  | abandoned (n : Nat) (waiting : (s.channel ch).phase = .awaitAck n) (f : ChannelCounters → ChannelCounters)
    (es : List Event) : Sent ((s.discard ch f).withEvents es)

theorem supply_eq (w : Word) : ∃ k, s.supply ch w = { s with work := k } := by
  cases ch <;> exact ⟨_, rfl⟩

theorem setPhase_supply (w : Word) (p : Phase) :
    (s.supply ch w).setPhase ch p = { s.setPhase ch p with work := (s.supply ch w).work } := by
  cases ch <;> rfl

theorem sendReplyWord_sent (k : Nat) (replying : (s.channel ch).phase = .replying k) :
    ∃ t w, Sent s ch t ∧ s.sendReplyWord ch k = { t with work := w } := by
  unfold State.sendReplyWord
  split
  · rename_i p stored
    split_ifs with more
    · exact ⟨_, _, .next p k replying stored more, setPhase_supply ..⟩
    · exact ⟨_, _, .last k replying (by simp [stored]), setPhase_supply ..⟩
  · exact ⟨s, s.work, .nothing, rfl⟩

theorem expireHold_sent (n : Nat) (w : Word) (waiting : (s.channel ch).phase = .awaitAck n) :
    ∃ t k, Sent s ch t ∧ (s.supply ch w).expireHold ch = { t with work := k } := by
  unfold State.expireHold
  rw [State.channel_supply]
  split
  · rename_i p stored
    split_ifs with again
    · exact ⟨_, (s.supply ch w).work, .resent p n waiting stored again, by cases ch <;> rfl⟩
    · refine ⟨_, (s.supply ch w).work, .abandoned n waiting ChannelCounters.incAbandoned [.replyAbandoned ch], ?_⟩
      rw [State.raise_eq]
      cases ch <;> rfl
  · refine ⟨_, (s.supply ch w).work, .abandoned n waiting id [], ?_⟩
    rw [State.withEvents_nil]
    cases ch <;> rfl

/-- The controller's event of a frame start, its marks for the frame apart. -/
theorem mccEvent_sent : ∃ t w, Sent s ch t ∧ s.mccEvent ch = { t with work := w } := by
  have supplied : ∀ w, ∃ t k, Sent s ch t ∧ s.supply ch w = { t with work := k } := by
    intro w
    obtain ⟨k, eq⟩ := supply_eq (s := s) (ch := ch) w
    exact ⟨s, k, .nothing, eq⟩
  by_cases due : s.enabled ch = true ∧ s.work.word ch = none
  · rw [State.mccEvent_of_due s ch due.1 due.2]
    split
    · split
      · exact supplied _
      · exact sendReplyWord_sent 0 ‹_›
    · exact sendReplyWord_sent _ ‹_›
    · rename_i n waiting
      split_ifs with more
      · exact expireHold_sent n _ waiting
      · exact ⟨_, _, .waited n waiting (not_le.mp more), setPhase_supply ..⟩
    · exact supplied _
  · exact ⟨s, s.work, .nothing, if_neg due⟩

/-! ### Moves of a lane -/

/-- A change of a lane's record that its law survives and that does not disable the lane. -/
structure LaneMove (x y : Lane) : Prop where
  lawful : x.Lawful → y.Lawful
  on : x.alignment ≠ .off → y.alignment ≠ .off

/-- A change that the groups do not see (R87). -/
def Unseen (x y : Lane) : Prop :=
  y.isAligned = x.isAligned ∧ y.isDegraded = x.isDegraded

/-- A lane that is not ALIGNED takes another alignment state that is not ALIGNED. -/
theorem laneMove_acquiring (x : Lane) (a : Sys2Proof.Machine.Alignment) (before : x.isAligned = false)
    (after : ∀ t, a ≠ .aligned t) (on : a ≠ .off) (range : ∀ n e g, a = .confirm n e g → n ≤ 24) :
    LaneMove x { x with alignment := a } ∧ Unseen x { x with alignment := a } := by
  have empty : Lane.isAligned { x with alignment := a } = false ∧ Lane.isDegraded { x with alignment := a } = false := by
    unfold Lane.isAligned Lane.isDegraded
    cases a
    case aligned t => exact absurd rfl (after t)
    all_goals exact ⟨rfl, rfl⟩
  refine ⟨⟨fun law => ⟨law.unread_le, fun _ => law.empty_unless_aligned before, law.threshold_le, range,
    fun t eq => absurd eq (after t), law.counters_le⟩, fun _ => on⟩, empty.1.trans before.symm, ?_⟩
  rw [empty.2]
  unfold Lane.isAligned at before
  unfold Lane.isDegraded
  split at before <;> simp_all

/-- A lane that is ALIGNED goes on with another tracking. -/
theorem laneMove_tracking (x : Lane) (t u : Tracking) (k : LaneCounters) (aligned : x.alignment = .aligned t)
    (range : (t.slots.length ≤ 24 ∧ t.consecutiveBad ≤ 3 ∧ t.window.length ≤ 255 ∧ t.window.bad ≤ t.window.length) →
      u.slots.length ≤ 24 ∧ u.consecutiveBad ≤ 3 ∧ u.window.length ≤ 255 ∧ u.window.bad ≤ u.window.length)
    (counters : k = x.counters ∨ k = x.counters.incBadMarkers) :
    LaneMove x { x with alignment := .aligned u, counters := k } := by
  refine ⟨fun law => ⟨law.unread_le, nofun, law.threshold_le, nofun, ?_, ?_⟩, nofun⟩
  · rintro _ ⟨⟩
    exact range (law.tracking_range t aligned)
  · obtain ⟨h1, h2, h3, h4⟩ := law.counters_le
    rcases counters with rfl | rfl
    · exact ⟨h1, h2, h3, h4⟩
    · exact ⟨min_le_left _ _, h2, h3, h4⟩

theorem isAligned_of_aligned (x : Lane) (t : Tracking) (aligned : x.alignment = .aligned t) : x.isAligned = true := by
  unfold Lane.isAligned
  rw [aligned]

theorem isAligned_of_not_aligned (x : Lane) (other : ∀ t, x.alignment ≠ .aligned t) : x.isAligned = false := by
  unfold Lane.isAligned
  split
  · exact absurd ‹_› (other _)
  · rfl

/-- A completed frame joins the store of an ALIGNED lane (R73, R74). -/
theorem laneMove_push (x : Lane) (f : Frame) (aligned : x.isAligned = true) :
    LaneMove x (x.push f) ∧ Unseen x (x.push f) := by
  unfold Lane.push
  split_ifs with room
  · refine ⟨⟨fun law => ⟨?_, fun off => absurd (aligned.symm.trans off) nofun, law.threshold_le, law.confirm_range,
      law.tracking_range, law.counters_le⟩, id⟩, rfl, rfl⟩
    simpa using room
  · refine ⟨⟨fun law => ⟨?_, fun off => absurd (aligned.symm.trans off) nofun, law.threshold_le, law.confirm_range,
      law.tracking_range, ?_⟩, id⟩, rfl, rfl⟩
    · have le := law.unread_le
      simp only [List.length_append, List.length_tail, List.length_cons, List.length_nil]
      omega
    · obtain ⟨h1, h2, h3, h4⟩ := law.counters_le
      exact ⟨h1, h2, min_le_left _ _, h4⟩

/-- A lane that leaves ALIGNED, or is declared so, by its store and the range of its tracking. -/
theorem laneMove_hunt (x : Lane) : LaneMove x
    { x.empty with alignment := .hunt, counters := x.counters.incBadMarkers.incAlignLosses } :=
  ⟨fun law => ⟨Nat.zero_le 2, fun _ => ⟨rfl, rfl⟩, law.threshold_le, nofun, nofun,
    min_le_left _ _, min_le_left _ _, law.counters_le.2.2.1, law.counters_le.2.2.2⟩, nofun⟩

theorem laneMove_declared (x : Lane) (n : BitVec 4) :
    LaneMove x { x with alignment := .aligned ⟨n, 0, ⟨0, 0⟩, false, []⟩ } := by
  refine ⟨fun law => ⟨law.unread_le, nofun, law.threshold_le, nofun, ?_, law.counters_le⟩, nofun⟩
  rintro _ ⟨⟩
  exact ⟨Nat.zero_le _, Nat.zero_le _, Nat.zero_le _, le_rfl⟩

/-- The take from a store (R75). -/
theorem laneMove_take (x : Lane) : LaneMove x x.take.2 ∧ Unseen x x.take.2 := by
  unfold Lane.take
  split_ifs with aligned
  · split
    · rename_i f rest unread
      refine ⟨⟨fun law => ⟨?_, fun off => absurd (aligned.symm.trans off) nofun, law.threshold_le, law.confirm_range,
        law.tracking_range, law.counters_le⟩, id⟩, rfl, rfl⟩
      have le := law.unread_le
      rw [unread, List.length_cons] at le
      exact Nat.le_of_succ_le le
    · split
      · refine ⟨⟨fun law => ⟨law.unread_le, fun off => absurd (aligned.symm.trans off) nofun, law.threshold_le,
          law.confirm_range, law.tracking_range, ?_⟩, id⟩, rfl, rfl⟩
        obtain ⟨h1, h2, h3, -⟩ := law.counters_le
        exact ⟨h1, h2, h3, min_le_left _ _⟩
      · exact ⟨⟨id, id⟩, rfl, rfl⟩
  · exact ⟨⟨id, id⟩, rfl, rfl⟩

end

end Sys2Proof.Proofs

/-! A law of the part that each of its events keeps is kept by every step: the events are the words heard, the moves of a
lane, the requests served and the units' events of a frame start. -/

namespace Sys2Proof.Proofs

open Sys2Proof.Machine

/-- The events that a law of the part is to survive. -/
structure Kept (P : State → Prop) : Prop where
  deviceReset : ∀ straps pins, P (State.resetWith straps pins)
  /-- The model's own fields. -/
  own : ∀ s w p n, P s → P { s with work := w, pending := p, free := n }
  timebase : ∀ s a, P s → a.enables = s.efa.enables → a.holdLimit = s.efa.holdLimit → a.held = s.efa.held →
    P { s with efa := a }
  events : ∀ s es, P s → P (s.withEvents es)
  served : ∀ s ch r i u e st b, P s → (s.channel ch).phase = .executing r true → Served s ch r i u e →
    b.length ≤ 62 → (e ≠ .none → st = .ok) → P (u.finish ch r st b e)
  scheduled : ∀ s ch r, P s → (s.channel ch).phase = .executing r true → s.map.holder = some ch →
    s.validate ch = none →
    P (State.setPhase { s with map := { s.map with scheduled := some ch } } ch (.executing r false))
  heard : ∀ s ch t, P s → Heard s ch t → P t
  /-- The channels of a lane that leaves ALIGNED. -/
  lost : ∀ s ch, P s → P (s.lostAlignment ch)
  laneUnseen : ∀ s l x, P s → LaneMove (s.lane l) x → Unseen (s.lane l) x → P (s.setLane l x)
  laneReported : ∀ s l x es, P s → LaneMove (s.lane l) x → P ((s.setLane l x).withEvents es).reportLanes
  /-- The units' events of a frame start, and the composition. -/
  boundary : ∀ s, P s → P s.mapEvent
  taken : ∀ s, P s → P { s with lanes := s.lanes.map fun x => x.take.2 }
  ticked : ∀ s g, P s → P (s.tickGroup g)
  sampled : ∀ s i level place, P s → P (s.sampleInput i level place)
  sent : ∀ s ch t, P s → Sent s ch t → P t
  composed : ∀ s, P s → P s.compose

/-! ### A lane that leaves ALIGNED -/

/-- The record of a channel whose lane has left ALIGNED: a partial request is discarded (R131). -/
def cutOff (c : Channel) : Channel :=
  match c.phase with
  | .receiving _ => { c with phase := .idle, counters := c.counters.incTruncated }
  | _ => c

theorem lostAlignment_eq_cutOff (s : State) (ch : ChannelId) :
    s.lostAlignment ch = s.setChannel ch (cutOff (s.channel ch)) := by
  unfold State.lostAlignment cutOff
  rcases phase : (s.channel ch).phase <;> dsimp only
  case receiving => cases ch <;> rfl
  all_goals exact (s.setChannel_self ch).symm

/-- R69, R131: the loss is reported to each enabled channel whose location lies on the lane, and to no other. -/
theorem reportLost_eq_ite (s : State) (l : LaneId) : s.reportLost l =
    { s with
      ch0 := if s.strapLane = l then cutOff s.ch0 else s.ch0
      ch1 := if s.operatorPlace.map Place.lane = some l then cutOff s.ch1 else s.ch1 } := by
  have strap : (s.place .ch0).map Place.lane = some l ↔ s.strapLane = l := by simp [State.place]
  unfold State.reportLost
  simp only [lostAlignment_eq_cutOff, strap]
  by_cases h0 : s.strapLane = l <;> by_cases h1 : s.operatorPlace.map Place.lane = some l <;>
    simp [h0, h1, State.place]

/-- The report of a loss and the change of the lane do not touch each other. -/
theorem leaveAligned_eq (s : State) (l : LaneId) (a : Sys2Proof.Machine.Alignment)
    (count : LaneCounters → LaneCounters) :
    s.leaveAligned l a count =
      (((s.reportLost l).setLane l
          { (s.lane l).empty with alignment := a, counters := count (s.lane l).counters }).withEvents
        [.laneLost l]).reportLanes := by
  unfold State.leaveAligned
  dsimp only
  rw [State.raise_eq, reportLost_eq_ite, reportLost_eq_ite]
  rfl

/-! ### Lanes' counters in the hands of a channel (R84) -/

/-- A lane as it was, its counters apart. -/
def SameButCounters (x y : Lane) : Prop :=
  ∃ k, y = { x with counters := k }

theorem lane_acknowledge (s : State) (ch : ChannelId) (m : LaneId) :
    SameButCounters (s.lane m) ((s.acknowledge ch).lane m) := by
  have same : ∀ t : State, t.lanes = s.lanes → SameButCounters (s.lane m) (t.lane m) := fun t eq =>
    ⟨(s.lane m).counters, State.lane_congr s m t eq⟩
  unfold State.acknowledge State.applyEffects
  split
  · split_ifs
    · exact same s rfl
    · split
      · exact same _ (by simp)
      · exact same _ (by simp)
      · rename_i p _ _ _ l k _
        by_cases own : m = l
        · subst own
          rw [State.lane_setLane, State.lane_congr s m (s.setChannel _ _) (by simp)]
          exact ⟨_, rfl⟩
        · rw [State.lane_setLane_of_ne _ _ _ _ own]
          exact same _ (by simp)
      · exact same _ (by simp [State.countChannel])
  · exact same s rfl

@[simp] theorem lane_setPhase (s : State) (ch : ChannelId) (p : Phase) (m : LaneId) :
    (s.setPhase ch p).lane m = s.lane m :=
  State.lane_congr s m _ (by simp [State.setPhase])

@[simp] theorem lane_countChannel (s : State) (ch : ChannelId) (f : ChannelCounters → ChannelCounters) (m : LaneId) :
    (s.countChannel ch f).lane m = s.lane m :=
  State.lane_congr s m _ (by simp [State.countChannel])

theorem Heard.lane {s t : State} {ch : ChannelId} (heard : Heard s ch t) (m : LaneId) :
    SameButCounters (s.lane m) (t.lane m) := by
  have same : ∀ t : State, t.lanes = s.lanes → SameButCounters (s.lane m) (t.lane m) := fun t eq =>
    ⟨(s.lane m).counters, State.lane_congr s m t eq⟩
  cases heard
  case ignored => exact same _ rfl
  case counted => exact same _ (by simp [State.countChannel])
  case begun r a f _ _ _ implicit =>
    rw [lane_setPhase, lane_countChannel]
    rcases implicit with rfl | ⟨rfl, -⟩
    · exact lane_acknowledge s ch m
    · exact same _ rfl
  case joined => exact same _ (by simp [State.setPhase])
  case discarded => exact same _ (by simp [State.discard, State.countChannel, State.setPhase])
  case acknowledged =>
    rw [lane_setPhase]
    exact lane_acknowledge s ch m
  case duplicated => exact same _ (by simp [State.duplicate])
  case refused r st u _ fault =>
    rcases fault with rfl | ⟨-, a, b, rfl⟩ <;> exact same _ (by simp)
  case handed => exact same _ (by simp [State.setPhase])

theorem isAligned_of_sameButCounters {x y : Lane} (same : SameButCounters x y) : y.isAligned = x.isAligned := by
  obtain ⟨k, rfl⟩ := same
  rfl

section

variable {P : State → Prop} (kept : Kept P) (s : State)
include kept

theorem Kept.free (n : Nat) (h : P s) : P { s with free := n } :=
  kept.own s s.work s.pending n h

theorem Kept.worked (w : FrameWork) (h : P s) : P { s with work := w } :=
  kept.own s w s.pending s.free h

/-! ### The arrival of a word -/

theorem Kept.reportLost (l : LaneId) (h : P s) : P (s.reportLost l) := by
  unfold State.reportLost
  dsimp only
  split_ifs
  · exact kept.lost _ _ (kept.lost _ _ h)
  · exact kept.lost _ _ h
  · exact kept.lost _ _ h
  · exact h

theorem Kept.handOff (p : Place) (w : Word) (h : P s) : P (s.handOff p w) := by
  have heard : ∀ t ch, P t → P (t.takeWord ch w) := fun t ch ht => kept.heard t ch _ ht (takeWord_heard w)
  unfold State.handOff
  dsimp only
  split_ifs
  · exact heard _ _ (heard _ _ h)
  · exact heard _ _ h
  · exact heard _ _ h
  · exact h

omit kept in
theorem isAligned_handOff (p : Place) (w : Word) (m : LaneId) :
    ((s.handOff p w).lane m).isAligned = (s.lane m).isAligned := by
  have heard : ∀ (t : State) ch, ((t.takeWord ch w).lane m).isAligned = (t.lane m).isAligned := fun t ch =>
    isAligned_of_sameButCounters ((takeWord_heard w).lane m)
  unfold State.handOff
  dsimp only
  split_ifs <;> simp only [heard]

theorem Kept.completeFrame (l : LaneId) (f : Frame) (aligned : (s.lane l).isAligned = true) (h : P s) :
    P (s.completeFrame l f) := by
  rw [State.completeFrame_eq]
  obtain ⟨move, unseen⟩ := laneMove_push (s.lane l) f aligned
  exact kept.events _ _ (kept.laneUnseen s l _ h move unseen)

theorem Kept.slotAligned (l : LaneId) (t : Tracking) (w : Word) (aligned : (s.lane l).alignment = .aligned t)
    (room : t.slots.length < 24) (h : P s) : P (s.slotAligned l t w) := by
  have tracked : P (s.track l (.aligned { t with slots := t.slots ++ [w] })) := by
    have move := laneMove_tracking (s.lane l) t { t with slots := t.slots ++ [w] } (s.lane l).counters aligned
      (fun ⟨_, range⟩ => ⟨by simpa using room, range⟩) (.inl rfl)
    refine kept.laneUnseen s l _ h move ⟨(isAligned_of_aligned _ t aligned).symm, ?_⟩
    unfold Lane.isDegraded
    rw [aligned]
  have stays : ∀ n p, ((State.handOff { s.track l (.aligned { t with slots := t.slots ++ [w] }) with free := n } p w).lane
      l).isAligned = true := fun n p => by
    rw [isAligned_handOff]
    exact congrArg Lane.isAligned (State.lane_setLane s l _)
  have now : ∀ n, (State.lane { s.track l (.aligned { t with slots := t.slots ++ [w] }) with free := n } l).isAligned =
      true := fun n => congrArg Lane.isAligned (State.lane_setLane s l _)
  unfold State.slotAligned
  dsimp only
  split
  · exact tracked
  · split_ifs
    · exact kept.handOff _ _ _ tracked
    · exact kept.completeFrame _ l _ (stays s.free _) (kept.handOff _ _ _ tracked)
    · exact kept.completeFrame _ l _ (stays _ _) (kept.handOff _ _ _ (kept.free _ _ tracked))
    · exact kept.handOff _ _ _ (kept.completeFrame _ l _ (now _) (kept.free _ _ tracked))

theorem Kept.markerAligned (l : LaneId) (t : Tracking) (w : Word) (aligned : (s.lane l).alignment = .aligned t)
    (h : P s) : P (s.markerAligned l t w) := by
  unfold State.markerAligned
  dsimp only
  split
  · unfold State.loseAlignment
    rw [leaveAligned_eq]
    refine kept.laneReported _ l _ _ (kept.reportLost s l h) ?_
    have lane : (s.reportLost l).lane l = s.lane l := by
      rw [reportLost_eq_ite]
      rfl
    rw [lane]
    exact laneMove_hunt (s.lane l)
  · rename_i kept_
    have move := laneMove_tracking (s.lane l) t
      ((t.judge (goodMarker t.number w)).endWindow (s.lane l).threshold)
      (if goodMarker t.number w = true then (s.lane l).counters else (s.lane l).counters.incBadMarkers) aligned
      (by
        unfold Tracking.endWindow Tracking.judge
        unfold Tracking.lastChance at kept_
        grind)
      (by split_ifs <;> simp)
    split
    · rename_i same
      refine kept.laneUnseen s l _ h move ⟨(isAligned_of_aligned _ t aligned).symm, ?_⟩
      unfold Lane.isDegraded
      rw [aligned]
      exact same
    · rw [State.raiseAll_eq]
      exact kept.laneReported s l _ _ h move

/-- The arrival of a word on a lane (R63 to R74). -/
theorem Kept.arrive (l : LaneId) (w : Word) (h : P s) : P (s.arrive l w) := by
  have acquiring : ∀ a, (s.lane l).isAligned = false → (∀ t, a ≠ Sys2Proof.Machine.Alignment.aligned t) → a ≠ .off →
      (∀ n e g, a = .confirm n e g → n ≤ 24) → P (s.track l a) := fun a before after on range =>
    have move := laneMove_acquiring (s.lane l) a before after on range
    kept.laneUnseen s l _ h move.1 move.2
  unfold State.arrive
  split
  · exact h
  · rename_i hunt
    have before := isAligned_of_not_aligned (s.lane l) (by simp [hunt])
    split_ifs
    · exact acquiring _ before nofun nofun (by rintro n e g ⟨⟩; omega)
    · exact h
  · rename_i passed number oneGood confirm
    have before := isAligned_of_not_aligned (s.lane l) (by simp [confirm])
    split_ifs
    · exact acquiring _ before nofun nofun (by rintro n e g ⟨⟩; omega)
    · exact acquiring _ before nofun nofun nofun
    · unfold State.declareAligned
      rw [State.raise_eq]
      exact kept.laneReported s l _ _ h (laneMove_declared _ _)
    · exact acquiring _ before nofun nofun (by rintro n e g ⟨⟩; omega)
  · rename_i t aligned
    split_ifs with room
    · exact kept.slotAligned s l t w aligned room h
    · exact kept.markerAligned s l t w aligned h

/-! ### Requests -/

theorem Kept.takeCommand (ch : ChannelId) (r : Request) (i : Instr) (sender : i.sender = some ch)
    (waits : (s.channel ch).phase = .executing r true) (h : P s) : P (s.takeCommand r i) := by
  rcases takeCommand_cases (s := s) (r := r) sender with ⟨u, e, st, b, served, short, ok, eq⟩ | ⟨held, valid, eq⟩
  · rw [eq]
    exact kept.served s ch r i u e st b h waits served short ok
  · rw [eq]
    exact kept.scheduled s ch r h waits held valid

/-- The request of channel 1 that is taken before a restart leaves the one of channel 0 waiting. -/
theorem Kept.beforeRestart (i : Instr) (h : P s) :
    P (s.beforeRestart i) ∧ (s.beforeRestart i).ch0.phase = s.ch0.phase := by
  rcases s.beforeRestart_eq i with same | ⟨r, j, -, asks, sender, eq⟩
  · rw [same]
    exact ⟨h, rfl⟩
  · have waits := ((s.asks_eq_some .ch1 j r).mp asks).1
    rw [eq]
    exact ⟨kept.takeCommand s .ch1 r j sender waits h, phase_takeCommand_ch0 sender waits⟩

theorem Kept.takeAfterRestart (ch : ChannelId) (r : Request) (i : Instr) (sender : i.sender = some ch)
    (waits : (s.channel ch).phase = .executing r true) (h : P s) : P ((s.beforeRestart i).takeCommand r i) := by
  obtain ⟨before, phase⟩ := kept.beforeRestart s i h
  refine kept.takeCommand _ ch r i sender ?_ before
  cases ch
  · exact phase.trans waits
  · have same : s.beforeRestart i = s := by
      unfold State.beforeRestart
      rw [s.restarts_of_sender i sender]
      rfl
    rw [same]
    exact waits

theorem Kept.takeWaiting (ch : ChannelId) (h : P s) : P (s.takeWaiting ch) := by
  rcases s.takeBy_eq ch State.beforeRestart with same | ⟨r, i, waits, sender, -, eq⟩
  · rw [State.takeWaiting, same]
    exact h
  · rw [State.takeWaiting, eq]
    exact kept.takeAfterRestart s ch r i sender waits h

theorem Kept.request (ch : ChannelId) (i : Instr) (sender : i.sender = some ch) (h : P s) :
    ∃ t, exec i s = .next t ∧ P t := by
  refine ⟨_, exec_request s ch i sender, ?_⟩
  split
  · rename_i r asks
    exact kept.takeAfterRestart s ch r i sender ((s.asks_eq_some ch i r).mp asks).1 h
  · exact h

/-! ### The frame start -/

omit kept in
theorem forEach_raise_eq {n : Nat} (xs : List (Fin n)) (f : Fin n → Event) :
    (s.forEach xs fun s a => s.raise (f a)) =
      { s.withEvents ((openOrder s.free xs).map f) with free := s.free + 1 } := by
  unfold State.forEach
  have fold : ∀ (ys : List (Fin n)) (t : State), ys.foldl (fun s a => s.raise (f a)) t = t.withEvents (ys.map f) := by
    intro ys
    induction ys with
    | nil => intro t; simp
    | cons a ys ih =>
      intro t
      rw [List.foldl_cons, ih, State.raise_eq, State.withEvents_append]
      rfl
  rw [fold]
  rfl

theorem Kept.efaEvent (h : P s) : P s.efaEvent := by
  unfold State.efaEvent
  dsimp only
  rw [forEach_raise_eq]
  exact kept.free _ _ (kept.events _ _ (kept.worked _ _ (kept.taken s h)))

omit kept in
theorem foldl_of_step {α : Type} (f : State → α → State) (step : ∀ t a, P t → P (f t a)) (xs : List α) (h : P s) :
    P (xs.foldl f s) := by
  induction xs generalizing s with
  | nil => exact h
  | cons a xs ih => exact ih (f s a) (step s a h)

theorem Kept.pscEvent (h : P s) : P s.pscEvent :=
  foldl_of_step _ _ kept.ticked _ (foldl_of_step _ _ kept.ticked _ (kept.free s _ h))

theorem Kept.eiuEvent (pins : BitVec 4) (places : Vector (Fin 3) 4) (h : P s) : P (s.eiuEvent pins places) :=
  foldl_of_step _ _ (fun t i => kept.sampled t i _ _) _ h

theorem Kept.mccEvent (ch : ChannelId) (h : P s) : P (s.mccEvent ch) := by
  obtain ⟨t, w, sent, eq⟩ := mccEvent_sent (s := s) (ch := ch)
  rw [eq]
  exact kept.worked t w (kept.sent s ch t h sent)

theorem Kept.swapFirst (h : P s) : P s.swapFirst := by
  unfold State.swapFirst
  split_ifs
  · exact kept.boundary s h
  · exact h

theorem Kept.unitEvent (e : FrameEdge) (u : FrameUnit) (h : P s) : P (s.unitEvent e u) := by
  cases u
  case map => exact kept.boundary s h
  case efa => exact kept.efaEvent s h
  case psc => exact kept.pscEvent s h
  case eiu => exact kept.eiuEvent s _ _ h
  case mcc0 => exact kept.mccEvent _ _ (kept.swapFirst s h)
  case mcc1 => exact kept.mccEvent _ _ (kept.swapFirst s h)

theorem Kept.takeAllWaiting (e : FrameEdge) (h : P s) : P (s.takeAllWaiting e) := by
  unfold State.takeAllWaiting
  split_ifs
  · exact kept.takeWaiting _ _ (kept.takeWaiting _ _ h)
  · exact kept.takeWaiting _ _ (kept.takeWaiting _ _ h)

theorem Kept.frameStart (e : FrameEdge) (h : P s) : P (s.frameStart e) :=
  kept.composed _ (foldl_of_step _ _ (fun t u => kept.unitEvent t e u) _
    (kept.timebase _ _ (kept.takeAllWaiting s e h) rfl rfl rfl))

/-- A unit's event taken ahead sees the timebase of the coming frame start, and leaves it (R50). -/
theorem Kept.atNextStart (f : State → State) (step : ∀ t, P t → P (f t)) (h : P s) : P (s.atNextStart f) :=
  kept.timebase _ _ (step _ (kept.timebase s _ h rfl rfl rfl)) rfl rfl rfl

/-! ### Every step -/

omit kept in
theorem ite_of_both {c : Prop} [Decidable c] {a b : State} (ha : P a) (hb : P b) : P (if c then a else b) := by
  split
  · exact ha
  · exact hb

theorem Kept.exec (c : Instr) (h : P s) : ∃ t, exec c s = .next t ∧ P t := by
  cases sender : c.sender
  case some ch => exact kept.request s ch c sender h
  case none =>
    cases c <;> try cases sender
    case deviceReset straps pins =>
      exact ⟨_, rfl, kept.own _ _ s.pending s.free (kept.deviceReset straps pins)⟩
    case egressFrameStart e => exact ⟨_, rfl, kept.frameStart s e h⟩
    case ingressWordArrival l w => exact ⟨_, rfl, kept.arrive s l w h⟩
    case lossOfAlignment l w => exact ⟨_, rfl, ite_of_both (kept.arrive s l w h) h⟩
    case degradeWindowEnd l w => exact ⟨_, rfl, ite_of_both (kept.arrive s l w h) h⟩
    case holdOffExpiry g => exact ⟨_, rfl, ite_of_both (kept.atNextStart s _ (fun t => kept.ticked t g) h) h⟩
    case wtrExpiry g => exact ⟨_, rfl, ite_of_both (kept.atNextStart s _ (fun t => kept.ticked t g) h) h⟩
    case idleExpiry => exact ⟨_, rfl, ite_of_both (kept.atNextStart s _ kept.boundary h) h⟩
    case bankSwap => exact ⟨_, rfl, ite_of_both (kept.atNextStart s _ kept.boundary h) h⟩
    case replyHoldExpiry ch => exact ⟨_, rfl, ite_of_both (kept.atNextStart s _ (fun t => kept.mccEvent t ch) h) h⟩

/-- A law that every event keeps is kept by every step of the part. -/
theorem Kept.step (t : State) (h : P s) (stepped : step s = .next t) : P t := by
  unfold Machine.step at stepped
  split at stepped
  · cases stepped
    exact h
  · rename_i c rest _
    obtain ⟨u, eq, after⟩ := kept.exec { s with pending := rest } c (kept.own s s.work rest s.free h)
    cases eq.symm.trans stepped
    exact after

end

end Sys2Proof.Proofs

/-! The values that DEVICE_RESET leaves (R23, R62, R85, R113, R123, R126, R148, R163, R175). -/

namespace Sys2Proof.Proofs

open Sys2Proof.Machine

theorem get_map {α β : Type} {n : Nat} (f : α → β) (v : Vector α n) (k : Fin n) : (v.map f).get k = f (v.get k) := by
  simp [Vector.get_eq_getElem]

theorem get_ofFn {α : Type} {n : Nat} (f : Fin n → α) (k : Fin n) : (Vector.ofFn f).get k = f k := by
  simp [Vector.get_eq_getElem]

theorem get_replicate {α : Type} {n : Nat} (a : α) (k : Fin n) : (Vector.replicate n a).get k = a := by
  simp [Vector.get_eq_getElem]

section

variable (straps : BitVec 3) (pins : BitVec 4)

theorem lane_resetWith (l : LaneId) :
    (State.resetWith straps pins).lane l = Lane.reset (if l = straps.toFin then .hunt else .off) :=
  get_ofFn _ l

theorem group_resetWith (g : GroupId) : (State.resetWith straps pins).group g = none :=
  get_replicate none g

theorem input_resetWith (i : InputId) :
    (State.resetWith straps pins).input i = ⟨.off, false, pins.getLsbD i.val, pins.getLsbD i.val⟩ :=
  get_ofFn _ i

theorem region_resetWith (n : RegionId) : (State.resetWith straps pins).guard.regions.get n = none :=
  get_replicate none n

theorem held_resetWith (d : Place) : (State.resetWith straps pins).efa.held.get d = ⟨0, 96⟩ :=
  Grid.get_replicate _ d

theorem bank_resetWith (n : BankName) (d : Place) : ((State.resetWith straps pins).map.bank n).get d = .unused := by
  cases n <;> exact Grid.get_replicate _ d

theorem enables_resetWith (l : LaneId) :
    (State.resetWith straps pins).efa.enables.getLsbD l.val = decide (l.val = straps.toNat) := by
  show (BitVec.twoPow 8 straps.toNat).getLsbD l.val = _
  have low : straps.toNat < 8 := straps.isLt
  rw [BitVec.getLsbD_twoPow, decide_eq_true low, Bool.true_and]
  exact decide_eq_decide.mpr eq_comm

theorem managedLane_resetWith (l : LaneId) :
    (State.resetWith straps pins).managedLane l = true ↔ l = straps.toFin := by
  show (straps.toFin == l || false) = true ↔ _
  rw [Bool.or_false, beq_iff_eq, eq_comm]

theorem eq_toFin_iff (l : LaneId) : l = straps.toFin ↔ l.val = straps.toNat :=
  Fin.ext_iff

end

/-- Settles O4, field by field. -/
theorem deviceResetValues : Obligations.DeviceResetValues := by
  unfold Obligations.DeviceResetValues
  intro straps pins s
  refine ⟨_, rfl, rfl, rfl, ⟨bank_resetWith straps pins, rfl, rfl, rfl, rfl⟩,
    ⟨rfl, rfl, rfl, rfl, enables_resetWith straps pins, held_resetWith straps pins,
      fun l => ⟨get_replicate none l, get_replicate [] l⟩⟩,
    fun l => ?lanes, group_resetWith straps pins, input_resetWith straps pins, ⟨rfl, rfl, rfl, rfl⟩,
    ⟨region_resetWith straps pins, rfl, rfl⟩, fun ch => by cases ch <;> rfl⟩
  case lanes =>
    refine (lane_resetWith straps pins l).trans ?_
    simp only [eq_toFin_iff]
    rfl

end Sys2Proof.Proofs

/-! The law of the lanes and of held state through every event (R55, R59, R64 to R80). -/

namespace Sys2Proof.Proofs

open Sys2Proof.Machine

/-- The fields that the law of the lanes speaks of are the same. -/
structure LaneFrame (s t : State) : Prop where
  lanes : t.lanes = s.lanes
  strapLane : t.strapLane = s.strapLane
  operatorPlace : t.operatorPlace = s.operatorPlace
  enables : t.efa.enables = s.efa.enables
  holdLimit : t.efa.holdLimit = s.efa.holdLimit
  held : t.efa.held = s.efa.held

section

variable {s t : State}

theorem LaneFrame.managedLane (same : LaneFrame s t) (l : LaneId) : t.managedLane l = s.managedLane l := by
  unfold State.managedLane
  rw [same.strapLane, same.operatorPlace]

theorem LaneFrame.law (same : LaneFrame s t) (law : s.LaneLaw) : t.LaneLaw := by
  have lane : ∀ l, t.lane l = s.lane l := fun l => State.lane_congr s l t same.lanes
  constructor
  case lanes => exact fun l => lane l ▸ law.lanes l
  case managed_on => exact fun l managed => lane l ▸ law.managed_on l (same.managedLane l ▸ managed)
  case managed_sent => exact fun l managed => same.enables ▸ law.managed_sent l (same.managedLane l ▸ managed)
  case limit_range => exact same.holdLimit ▸ law.limit_range
  case held_le => exact fun d => same.holdLimit ▸ same.held ▸ law.held_le d

theorem LaneFrame.of_efa (lanes : t.lanes = s.lanes) (strapLane : t.strapLane = s.strapLane)
    (operatorPlace : t.operatorPlace = s.operatorPlace) (efa : t.efa = s.efa) : LaneFrame s t :=
  ⟨lanes, strapLane, operatorPlace, by rw [efa], by rw [efa], by rw [efa]⟩

theorem laneLaw_of_eq (law : s.LaneLaw) (lanes : t.lanes = s.lanes) (strapLane : t.strapLane = s.strapLane)
    (operatorPlace : t.operatorPlace = s.operatorPlace) (efa : t.efa = s.efa) : t.LaneLaw :=
  (LaneFrame.of_efa lanes strapLane operatorPlace efa).law law

theorem laneFrame_setChannel (ch : ChannelId) (c : Channel) : LaneFrame s (s.setChannel ch c) :=
  .of_efa (by simp) (by simp) (by simp) (by simp)

theorem laneFrame_setQueue (ch : ChannelId) (q : Queue) : LaneFrame s (s.setQueue ch q) :=
  .of_efa (by simp) (by simp) (by simp) (by simp)

theorem laneFrame_onlyGroups (only : s.OnlyGroups t) : LaneFrame s t := by
  obtain ⟨gs, q0, q1, n, rfl⟩ := only
  exact .of_efa rfl rfl rfl rfl

theorem laneFrame_restart (p : Phase) : LaneFrame s (s.restart p) := by
  obtain ⟨m, es, -, eq⟩ := restart_cases s p
  rw [eq]
  exact .of_efa rfl rfl rfl rfl

theorem laneLaw_setLane (law : s.LaneLaw) (l : LaneId) (x : Lane) (lawful : x.Lawful)
    (on : s.managedLane l = true → x.alignment ≠ .off) : (s.setLane l x).LaneLaw := by
  refine ⟨fun m => ?_, fun m managed => ?_, law.managed_sent, law.limit_range, law.held_le⟩ <;>
    by_cases own : m = l
  · rw [own, State.lane_setLane]
    exact lawful
  · rw [State.lane_setLane_of_ne _ _ _ _ own]
    exact law.lanes m
  · subst own
    rw [State.lane_setLane]
    exact on managed
  · rw [State.lane_setLane_of_ne _ _ _ _ own]
    exact law.managed_on m managed

theorem LaneMove.law {l : LaneId} {x : Lane} (move : LaneMove (s.lane l) x) (law : s.LaneLaw) :
    (s.setLane l x).LaneLaw :=
  laneLaw_setLane law l x (move.lawful (law.lanes l)) fun managed => move.on (law.managed_on l managed)

/-- Held state within the limit. -/
theorem laneLaw_held (law : s.LaneLaw) (a : Assembler) (enables : a.enables = s.efa.enables)
    (limit : a.holdLimit = s.efa.holdLimit) (held : ∀ d, (a.held.get d).count ≤ s.efa.holdLimit) :
    ({ s with efa := a } : State).LaneLaw :=
  ⟨law.lanes, law.managed_on, fun l managed => by
    show a.enables.getLsbD l.val = true
    rw [enables]
    exact law.managed_sent l managed, by
    show 1 ≤ a.holdLimit ∧ a.holdLimit ≤ 1023
    rw [limit]
    exact law.limit_range, fun d => by
    show (a.held.get d).count ≤ a.holdLimit
    rw [limit]
    exact held d⟩

/-! ### Words and replies -/

theorem laneMove_less (x : Lane) (k : LaneCounters) : LaneMove x { x with counters := x.counters.less k } := by
  refine ⟨fun law => ⟨law.unread_le, law.empty_unless_aligned, law.threshold_le, law.confirm_range,
    law.tracking_range, ?_⟩, id⟩
  obtain ⟨h1, h2, h3, h4⟩ := law.counters_le
  exact ⟨(Nat.sub_le _ _).trans h1, (Nat.sub_le _ _).trans h2, (Nat.sub_le _ _).trans h3, (Nat.sub_le _ _).trans h4⟩

theorem laneLaw_acknowledge (law : s.LaneLaw) (ch : ChannelId) : (s.acknowledge ch).LaneLaw := by
  unfold State.acknowledge
  split
  · split_ifs
    · exact law
    · have acked := fun c => (laneFrame_setChannel (s := s) ch c).law law
      unfold State.applyEffects
      split
      · exact acked _
      · exact (laneFrame_setQueue _ _).law (acked _)
      · exact (laneMove_less _ _).law (acked _)
      · exact (laneFrame_setChannel _ _).law (acked _)
  · exact law

theorem laneLaw_heard {ch : ChannelId} (law : s.LaneLaw) (heard : Heard s ch t) : t.LaneLaw := by
  have set : ∀ {u : State} c, u.LaneLaw → (u.setChannel ch c).LaneLaw := fun c h => (laneFrame_setChannel ch c).law h
  cases heard
  case ignored => exact law
  case counted => exact set _ law
  case begun implicit =>
    refine set _ (set _ ?_)
    rcases implicit with rfl | ⟨rfl, -⟩
    · exact laneLaw_acknowledge law ch
    · exact law
  case joined => exact set _ law
  case discarded => exact (laneFrame_onlyGroups (State.onlyGroups_withEvents _ _)).law (set _ (set _ law))
  case acknowledged => exact set _ (laneLaw_acknowledge law ch)
  case duplicated => exact set _ law
  case refused fault =>
    have reloaded : LaneFrame s { s with map := s.map.reload ch } := .of_efa rfl rfl rfl rfl
    refine set _ ?_
    rcases fault with rfl | ⟨-, a, b, rfl⟩
    · exact reloaded.law law
    · exact laneLaw_of_eq law (by simp) (by simp) (by simp) (by simp)
  case handed => exact set _ (laneLaw_of_eq law rfl rfl rfl rfl)

theorem laneLaw_sent {ch : ChannelId} (law : s.LaneLaw) (sent : Sent s ch t) : t.LaneLaw := by
  have set : ∀ {u : State} c, u.LaneLaw → (u.setChannel ch c).LaneLaw := fun c h => (laneFrame_setChannel ch c).law h
  cases sent
  case nothing => exact law
  case abandoned => exact (laneFrame_onlyGroups (State.onlyGroups_withEvents _ _)).law (set _ (set _ law))
  all_goals exact set _ law

/-! ### The commands that reach lanes and held state -/

theorem enabledAlignment_ne_off (a : Sys2Proof.Machine.Alignment) : enabledAlignment a ≠ .off := by
  unfold enabledAlignment
  split_ifs with off
  · nofun
  · exact off

/-- A lane whose enable is set leaves OFF for HUNT and stays as it is otherwise (R64, R81). -/
theorem laneMove_enabled (x : Lane) : LaneMove x { x with alignment := enabledAlignment x.alignment } ∧
    Unseen x { x with alignment := enabledAlignment x.alignment } := by
  unfold enabledAlignment
  split_ifs with off
  · exact laneMove_acquiring x .hunt (isAligned_of_not_aligned x (by simp [off])) nofun nofun nofun
  · exact ⟨⟨id, id⟩, rfl, rfl⟩

/-- A lane that is disabled, with an empty store (R64). -/
theorem lawful_disabled (x : Lane) (law : x.Lawful) : Lane.Lawful { x.empty with alignment := .off } :=
  ⟨Nat.zero_le 2, fun _ => ⟨rfl, rfl⟩, law.threshold_le, nofun, nofun, law.counters_le⟩

theorem laneMove_threshold (x : Lane) (n : Nat) (range : n ≤ 63) : LaneMove x { x with threshold := n } :=
  ⟨fun law => ⟨law.unread_le, law.empty_unless_aligned, range, law.confirm_range, law.tracking_range,
    law.counters_le⟩, id⟩

theorem laneMove_cleared (x : Lane) (n : Nat) (t : Tracking) (aligned : x.alignment = .aligned t) (range : n ≤ 63) :
    LaneMove x { x with threshold := n, alignment := .aligned { t with degraded := false } } := by
  refine ⟨fun law => ⟨law.unread_le, nofun, range, nofun, ?_, law.counters_le⟩, nofun⟩
  rintro _ ⟨⟩
  exact law.tracking_range t aligned

theorem laneLaw_setThreshold (law : s.LaneLaw) (l : LaneId) (n : Nat) (range : n ≤ 63) :
    (s.setThreshold l n).LaneLaw := by
  unfold State.setThreshold
  dsimp only
  split
  · rename_i t aligned
    split_ifs
    · rw [State.raise_eq]
      exact (laneFrame_onlyGroups (State.onlyGroups_reportLanes _)).law
        ((laneFrame_onlyGroups (State.onlyGroups_withEvents _ _)).law ((laneMove_cleared _ n t aligned range).law law))
    · exact (laneMove_threshold _ n range).law law
  · exact (laneMove_threshold _ n range).law law

theorem laneLaw_disableLane (law : s.LaneLaw) (l : LaneId) (free : s.managedLane l = false) :
    (s.disableLane l).LaneLaw := by
  have disabled := laneLaw_setLane law l _ (lawful_disabled _ (law.lanes l)) fun managed => by
    rw [free] at managed
    cases managed
  by_cases aligned : (s.lane l).isAligned = true
  · rw [disableLane_of_aligned s l free aligned]
    exact (laneFrame_onlyGroups (State.onlyGroups_reportLanes _)).law
      ((laneFrame_onlyGroups (State.onlyGroups_withEvents _ _)).law disabled)
  · unfold State.disableLane
    rw [if_neg aligned]
    exact disabled

theorem clampCount_le (old new count : Nat) : clampCount old new count ≤ new := by
  unfold clampCount
  split_ifs <;> omega

theorem clampHeld_le (old new : Nat) (held : Grid HeldState) (le : ∀ d, (held.get d).count ≤ old) (d : Place) :
    ((clampHeld old new held).get d).count ≤ new := by
  unfold clampHeld
  split_ifs with same
  · exact same ▸ le d
  · rw [Grid.get_ofFn]
    exact clampCount_le ..

/-- Channel 1 at a new place: its lanes are enabled with it (R144). -/
theorem laneLaw_placeOperator (law : s.LaneLaw) (p : Place) : (s.placeOperator p).LaneLaw := by
  rw [placeOperator_eq]
  obtain ⟨m, es, -, eq⟩ := restart_cases { s with operatorPlace := some p } .idle
  rw [eq]
  have moved := laneLaw_setLane law p.lane _ ((laneMove_enabled _).1.lawful (law.lanes p.lane)) fun _ =>
    enabledAlignment_ne_off _
  have new : ∀ l, ((s.strapLane == l || (some p.lane) == some l) = true) ↔ s.strapLane = l ∨ p.lane = l := by simp
  have old : ∀ l, s.strapLane = l → s.managedLane l = true := fun l at_ => by simp [State.managedLane, at_]
  refine ⟨moved.lanes, fun l managed => ?_, fun l managed => ?_, law.limit_range, law.held_le⟩
  · rcases (new l).mp managed with strap | own
    · exact moved.managed_on l (old l strap)
    · subst own
      show ((s.setLane p.lane _).lane p.lane).alignment ≠ .off
      rw [State.lane_setLane]
      exact enabledAlignment_ne_off _
  · show (s.efa.enables ||| BitVec.twoPow 8 p.lane.val).getLsbD l.val = true
    rw [BitVec.getLsbD_or, Bool.or_eq_true]
    rcases (new l).mp managed with strap | own
    · exact .inl (law.managed_sent l (old l strap))
    · subst own
      exact .inr (by simp [p.lane.isLt])

theorem laneLaw_removeOperator (law : s.LaneLaw) : s.removeOperator.LaneLaw := by
  refine (laneFrame_restart (s := { s with operatorPlace := none }) .off).law ?_
  have fewer : ∀ l, State.managedLane { s with operatorPlace := none } l = true → s.managedLane l = true := fun l managed => by
    simp_all [State.managedLane]
  exact ⟨law.lanes, fun l managed => law.managed_on l (fewer l managed),
    fun l managed => law.managed_sent l (fewer l managed), law.limit_range, law.held_le⟩

theorem laneLaw_clearDatapath (law : s.LaneLaw) : s.clearDatapath.LaneLaw := by
  have cleared : ∀ l, s.clearDatapath.lane l = { s.lane l with counters := LaneCounters.zero } := fun l =>
    get_map _ s.lanes l
  refine ⟨fun l => ?_, fun l managed => ?_, law.managed_sent, law.limit_range, fun d => ?_⟩
  · rw [cleared]
    have lawful := law.lanes l
    exact ⟨lawful.unread_le, lawful.empty_unless_aligned, lawful.threshold_le, lawful.confirm_range,
      lawful.tracking_range, Nat.zero_le _, Nat.zero_le _, Nat.zero_le _, Nat.zero_le _⟩
  · rw [cleared]
    exact law.managed_on l managed
  · show (((Grid.replicate ⟨0, s.efa.holdLimit⟩ : Grid HeldState).get d).count) ≤ s.efa.holdLimit
    rw [Grid.get_replicate]

theorem laneLaw_served {ch : ChannelId} {r : Request} {i : Instr} {u : State} {e : Deferred} (law : s.LaneLaw)
    (served : Served s ch r i u e) : u.LaneLaw := by
  have same : ∀ {u : State}, u.lanes = s.lanes → u.strapLane = s.strapLane → u.operatorPlace = s.operatorPlace →
      u.efa = s.efa → u.LaneLaw := fun h0 h1 h2 h3 => (LaneFrame.of_efa h0 h1 h2 h3).law law
  have hold : ∀ c n, (s.setReplyHold c n).LaneLaw := fun c n => (laneFrame_setChannel c _).law law
  have cancelled : s.cancelCommit.LaneLaw := by
    obtain ⟨c0, c1, eq⟩ := cancelCommit_eq s
    rw [eq]
    exact same rfl rfl rfl rfl
  have groups : ∀ {u : State}, s.OnlyGroups u → u.LaneLaw := fun only => (laneFrame_onlyGroups only).law law
  cases served
  case nothing => exact law
  case laneRead => exact law
  case channelRead => exact law
  case faulted => exact same (by simp) (by simp) (by simp) (by simp)
  case subscribed => exact (laneFrame_setQueue _ _).law law
  case eventsRead => exact (laneFrame_setQueue _ _).law law
  case holdSet => exact hold _ _
  case placed => exact laneLaw_placeOperator (hold _ _) _
  case removed => exact laneLaw_removeOperator (hold _ _)
  case restarted => exact (laneFrame_restart .idle).law law
  case datapathReset => exact (laneFrame_onlyGroups (State.onlyGroups_withEvents _ _)).law (laneLaw_clearDatapath cancelled)
  case opened => exact same rfl rfl rfl rfl
  case reopened => exact same rfl rfl rfl rfl
  case abandoned => exact same rfl rfl rfl rfl
  case broken => exact laneLaw_of_eq cancelled rfl rfl rfl rfl
  case wrote => exact same rfl rfl rfl rfl
  case laneSet l on n _ range free =>
    refine laneLaw_setThreshold ?_ l n range
    cases on
    · exact laneLaw_disableLane law l (free rfl)
    · rw [if_pos rfl, enableLane_eq]
      exact (laneMove_enabled _).1.law law
  case egressSet enables limit _ range free =>
    refine ⟨law.lanes, law.managed_on, fun l managed => ?_, range, clampHeld_le _ _ _ law.held_le⟩
    by_contra off
    obtain ⟨ch, p, at_, on⟩ := (s.managedLane_iff l).mp managed
    have used := (s.egressInUse_iff enables).mpr ⟨ch, p, at_, by rw [on]; simpa using off⟩
    rw [free] at used
    cases used
  case configured => exact groups (s.onlyGroups_redecide _ _)
  case reconfigured => exact same rfl rfl rfl rfl
  case deleted => exact same rfl rfl rfl rfl
  case requested => exact groups (s.onlyGroups_redecide _ _)
  case inputSet n m low _ _ =>
    exact (laneFrame_onlyGroups (onlyGroups_inputSet _ _)).law (laneLaw_of_eq law rfl rfl rfl rfl)
  case regionSet => exact same rfl rfl rfl rfl
  case faultCleared => exact same rfl rfl rfl rfl

/-! ### The frame start -/

theorem laneLaw_mapEvent (law : s.LaneLaw) : s.mapEvent.LaneLaw := by
  have done : ({ s with work := { s.work with mapTaken := true } } : State).LaneLaw :=
    laneLaw_of_eq law rfl rfl rfl rfl
  unfold State.mapEvent
  split_ifs
  · exact law
  · dsimp only
    split
    · rename_i c _
      unfold State.bankSwap
      dsimp only
      rw [State.raise_eq]
      refine (laneFrame_onlyGroups (State.onlyGroups_withEvents _ _)).law ?_
      have swapped : ∀ d, ((swapHeld s.efa.holdLimit s.map.activeBank s.map.swap.activeBank s.efa.held).get d).count ≤
          s.efa.holdLimit := fun d => by
        unfold swapHeld
        rw [Grid.get_ofFn]
        split_ifs
        · exact law.held_le d
        · exact le_rfl
      have held := laneLaw_held law
        { s.efa with held := swapHeld s.efa.holdLimit s.map.activeBank s.map.swap.activeBank s.efa.held }
        rfl rfl swapped
      rcases completeCommit_cases _ c .ok _ with same | ⟨q, -, same⟩ <;> rw [same]
      · exact laneLaw_of_eq held rfl rfl rfl rfl
      · exact laneLaw_of_eq held (by simp) (by simp) (by simp) (by simp)
    · unfold State.idleTick
      split
      · split_ifs
        · rw [State.raise_eq]
          exact laneLaw_of_eq law rfl rfl rfl rfl
        · exact laneLaw_of_eq law rfl rfl rfl rfl
      · exact done

theorem fallbackWord_le (limit : Nat) (f : Fallback) (h : HeldState) (le : h.count ≤ limit) :
    (fallbackWord limit f h).2.count ≤ limit := by
  unfold fallbackWord
  split
  · exact le
  · exact le
  · split_ifs with less
    · exact less
    · exact le

/-- R55: a hold count goes up to the limit alone. -/
theorem slotWord_le (law : s.LaneLaw) (d : Place) : (s.slotWord d).2.count ≤ s.efa.holdLimit := by
  have drawn : ∀ e f, (s.drawnWord e f (s.efa.held.get d)).2.count ≤ s.efa.holdLimit := fun e f => by
    unfold State.drawnWord
    split
    · exact Nat.zero_le _
    · exact fallbackWord_le _ _ _ (law.held_le d)
  unfold State.slotWord State.entryWord
  split
  · exact law.held_le d
  · split
    · exact law.held_le d
    · exact law.held_le d
    · exact drawn _ _
    · exact drawn _ _

theorem laneLaw_compose (law : s.LaneLaw) : s.compose.LaneLaw := by
  have held (after : ∀ d, (s.heldAfter.get d).count ≤ s.efa.holdLimit) :=
    laneLaw_held law { s.efa with lines := Vector.ofFn s.laneFrame, held := s.heldAfter } rfl rfl after
  refine laneLaw_of_eq (t := s.compose) (held fun d => ?_) rfl rfl rfl rfl
  show (s.heldAfter.get d).count ≤ s.efa.holdLimit
  unfold State.heldAfter
  rw [Grid.get_ofFn]
  split_ifs
  · exact slotWord_le law d
  · exact law.held_le d

theorem laneFrame_sampleInput (i : InputId) (level : Bool) (place : Nat) :
    LaneFrame s (s.sampleInput i level place) := by
  obtain ⟨is, gs, q0, q1, n, eq, -⟩ := s.sampleInput_eq i level place
  rw [eq]
  exact .of_efa rfl rfl rfl rfl

theorem laneFrame_tickGroup (g : GroupId) : LaneFrame s (s.tickGroup g) := by
  obtain ⟨gs, q0, q1, w, eq, -⟩ := s.tickGroup_eq g
  rw [eq]
  exact .of_efa rfl rfl rfl rfl

theorem lawful_resetLane (a : Sys2Proof.Machine.Alignment) (start : a = .hunt ∨ a = .off) : (Lane.reset a).Lawful := by
  have counters : LaneCounters.zero.badMarkers ≤ 65535 ∧ LaneCounters.zero.alignLosses ≤ 65535 ∧
      LaneCounters.zero.dropSlips ≤ 65535 ∧ LaneCounters.zero.repeatSlips ≤ 65535 := by decide
  rcases start with rfl | rfl <;>
    exact ⟨Nat.zero_le _, fun _ => ⟨rfl, rfl⟩, show 8 ≤ 63 by decide, nofun, nofun, counters⟩

theorem laneLaw_resetWith (straps : BitVec 3) (pins : BitVec 4) : (State.resetWith straps pins).LaneLaw := by
  constructor
  case lanes =>
    intro l
    rw [lane_resetWith]
    exact lawful_resetLane _ (by split_ifs <;> simp)
  case managed_on =>
    intro l managed
    rw [lane_resetWith, if_pos ((managedLane_resetWith straps pins l).mp managed)]
    nofun
  case managed_sent =>
    intro l managed
    rw [enables_resetWith]
    simpa [eq_toFin_iff] using (managedLane_resetWith straps pins l).mp managed
  case limit_range => exact show 1 ≤ 96 ∧ 96 ≤ 1023 by decide
  case held_le =>
    intro d
    rw [held_resetWith]
    exact le_rfl

theorem kept_laneLaw : Kept State.LaneLaw where
  deviceReset := laneLaw_resetWith
  own _ _ _ _ law := laneLaw_of_eq law rfl rfl rfl rfl
  timebase s _ law enables limit held := LaneFrame.law (s := s) ⟨rfl, rfl, rfl, enables, limit, held⟩ law
  events _ _ law := (laneFrame_onlyGroups (State.onlyGroups_withEvents _ _)).law law
  served _ _ _ _ _ _ _ _ law _ served _ _ := (laneFrame_setChannel _ _).law (laneLaw_served law served)
  scheduled _ _ _ law _ _ _ := (laneFrame_setChannel _ _).law (laneLaw_of_eq law rfl rfl rfl rfl)
  heard _ _ _ := laneLaw_heard
  lost _ _ law := by
    rw [lostAlignment_eq_cutOff]
    exact (laneFrame_setChannel _ _).law law
  laneUnseen _ _ _ law move _ := move.law law
  laneReported _ _ _ _ law move := (laneFrame_onlyGroups (State.onlyGroups_reportLanes _)).law
    ((laneFrame_onlyGroups (State.onlyGroups_withEvents _ _)).law (move.law law))
  boundary _ := laneLaw_mapEvent
  taken s law := by
    have lane : ∀ l, State.lane { s with lanes := s.lanes.map fun x => x.take.2 } l = (s.lane l).take.2 := fun l =>
      get_map _ s.lanes l
    refine ⟨fun l => ?_, fun l managed => ?_, law.managed_sent, law.limit_range, law.held_le⟩
    · rw [lane]
      exact (laneMove_take _).1.lawful (law.lanes l)
    · rw [lane]
      exact (laneMove_take _).1.on (law.managed_on l managed)
  ticked _ _ law := (laneFrame_tickGroup _).law law
  sampled _ _ _ _ law := (laneFrame_sampleInput _ _ _).law law
  sent _ _ _ := laneLaw_sent
  composed _ := laneLaw_compose

end

/-- Settles O9: every event keeps the law of the lanes and of held state. -/
theorem stepKeepsLaneLaw : Obligations.StepKeepsLaneLaw := by
  unfold Obligations.StepKeepsLaneLaw
  exact fun s t law stepped => kept_laneLaw.step s t law stepped

end Sys2Proof.Proofs

/-! The law of the groups through every event (R86 to R98, R104, R114, R118, R121). -/

namespace Sys2Proof.Proofs

open Sys2Proof.Machine

/-! ### One group's record -/

/-- What of a group's law does not speak of its items: it holds while an item changes, until the group is re-decided. -/
structure Group.Movable (x : Group) : Prop where
  lanes_differ : x.workingLane ≠ x.protectLane
  selected_eq : x.selected = x.state.selection
  holdOff_range : ∀ n, x.holdOffRemaining = some n → x.state = .wIdle ∧ 1 ≤ n ∧ n ≤ 31
  wtr_iff : x.wtrRemaining.isSome = true ↔ x.state = .pWtr
  wtr_range : ∀ n, x.wtrRemaining = some n → 1 ≤ n ∧ n ≤ 255
  config_range : x.holdOff ≤ 31 ∧ 1 ≤ x.wtrPeriod ∧ x.wtrPeriod ≤ 255
  count_le : x.switchCount ≤ 65535
  wtr_revertive : x.state = .pWtr → x.revertive = true
  idle_nonrevertive : x.state = .pIdle → x.revertive = false

section

variable {x : Group}

/-- A group that waits to restore or rests on the protect lane has no item (R90). -/
theorem noItem_of_rest (law : x.Lawful) (rest : x.state = .pWtr ∨ x.state = .pIdle) : x.topItem = none := by
  have settled := law.settled
  unfold Group.Settled at settled
  split at settled
  case h_8 => assumption
  case h_7 => rcases rest with state | state <;> rw [state] at settled <;> split_ifs at settled
  all_goals rcases rest with state | state <;> simp [state] at settled

/-- Where a group without items stands (R90). -/
theorem rest_of_noItem (law : x.Lawful) (top : x.topItem = none) :
    (x.state = .wIdle ∧ x.holdOffRemaining = none) ∨ (x.state = .pWtr ∧ x.revertive = true) ∨
      (x.state = .pIdle ∧ x.revertive = false) := by
  have settled := law.settled
  rwa [Group.Settled, top] at settled

theorem movable_of_lawful (law : x.Lawful) : Group.Movable x :=
  ⟨law.lanes_differ, law.selected_eq, law.holdOff_range, law.wtr_iff, law.wtr_range, law.config_range,
    law.count_le, fun state => by simpa [state] using rest_of_noItem law (noItem_of_rest law (.inl state)),
    fun state => by simpa [state] using rest_of_noItem law (noItem_of_rest law (.inr state))⟩

/-- A record that enters a state: what is left of its law. -/
theorem lawful_enter (movable : Group.Movable x) (kept : x.mustDrop = false) (st : GroupState) (h w : Option Nat)
    (settled : Group.Settled (x.enter st h w)) (holdOff : ∀ n, h = some n → st = .wIdle ∧ 1 ≤ n ∧ n ≤ 31)
    (wtr : w.isSome = true ↔ st = .pWtr) (wtrRange : ∀ n, w = some n → 1 ≤ n ∧ n ≤ 255) :
    (x.enter st h w).Lawful := by
  refine ⟨movable.lanes_differ, settled, rfl, holdOff, wtr, wtrRange, kept, movable.config_range, ?_⟩
  unfold Group.enter
  dsimp only
  split_ifs
  · exact movable.count_le
  · exact min_le_left _ _

/-- Entering a state changes no item. -/
theorem topItem_enter (st : GroupState) (h w : Option Nat) : (x.enter st h w).topItem = x.topItem := rfl

theorem settled_enter (st : GroupState) (h w : Option Nat) : Group.Settled (x.enter st h w) ↔
    match x.topItem with
    | some .lockout => st = .wLockout
    | some .sfP => st = .wSfP
    | some .force => st = .pForce
    | some .sfW => st = .pSf ∨ (st = .wIdle ∧ h.isSome = true)
    | some .sdP => st = .wSdP
    | some .sdW => st = .pSd ∨ (st = .wIdle ∧ h.isSome = true)
    | some .manual => st = if x.standingKind = some .manualP then .pManual else .wManual
    | none => (st = .wIdle ∧ h = none) ∨ (st = .pWtr ∧ x.revertive = true) ∨ (st = .pIdle ∧ x.revertive = false) := by
  unfold Group.Settled
  rw [topItem_enter]
  rfl

/-- A state without timers. -/
theorem lawful_enter_plain (movable : Group.Movable x) (kept : x.mustDrop = false) (st : GroupState)
    (settled : Group.Settled (x.enter st none none)) (other : st ≠ .pWtr) : (x.enter st none none).Lawful :=
  lawful_enter movable kept st none none settled nofun ⟨nofun, fun eq => absurd eq other⟩ nofun

theorem lawful_workingFault (movable : Group.Movable x) (kept : x.mustDrop = false) (st : GroupState)
    (top : x.topItem = some .sfW ∧ st = .pSf ∨ x.topItem = some .sdW ∧ st = .pSd) : (x.workingFault st).Lawful := by
  have other : st ≠ .pWtr := by rcases top with ⟨-, rfl⟩ | ⟨-, rfl⟩ <;> nofun
  have moved : Group.Settled (x.enter st none none) := by
    rw [settled_enter]
    rcases top with ⟨top, rfl⟩ | ⟨top, rfl⟩ <;> simp [top]
  have held : ∀ n, Group.Settled (x.enter .wIdle (some n) none) := fun n => by
    rw [settled_enter]
    rcases top with ⟨top, -⟩ | ⟨top, -⟩ <;> simp [top]
  have running : ∀ n, 1 ≤ n → n ≤ 31 → (x.enter .wIdle (some n) none).Lawful := fun n low high =>
    lawful_enter movable kept .wIdle (some n) none (held n) (by rintro m ⟨⟩; exact ⟨rfl, low, high⟩) ⟨nofun, nofun⟩ nofun
  unfold Group.workingFault
  split
  · exact lawful_enter_plain movable kept st moved other
  · split
    · rename_i n remaining
      obtain ⟨-, low, high⟩ := movable.holdOff_range n remaining
      exact running n low high
    · split_ifs with zero
      · exact lawful_enter_plain movable kept st moved other
      · exact running _ (Nat.pos_of_ne_zero zero) movable.config_range.1

theorem lawful_noItem (movable : Group.Movable x) (kept : x.mustDrop = false) (top : x.topItem = none) :
    x.noItem.Lawful := by
  have idle : (x.enter .wIdle none none).Lawful :=
    lawful_enter_plain movable kept .wIdle (by rw [settled_enter, top]; exact .inl ⟨rfl, rfl⟩) nofun
  have rest : x.revertive = false → (x.enter .pIdle none none).Lawful := fun non =>
    lawful_enter_plain movable kept .pIdle (by rw [settled_enter, top]; exact .inr (.inr ⟨rfl, non⟩)) nofun
  have wait : x.revertive = true → ∀ n, 1 ≤ n → n ≤ 255 → (x.enter .pWtr none (some n)).Lawful := fun rev n low high =>
    lawful_enter movable kept .pWtr none (some n) (by rw [settled_enter, top]; exact .inr (.inl ⟨rfl, rev⟩)) nofun
      ⟨fun _ => rfl, fun _ => rfl⟩ (by rintro m ⟨⟩; exact ⟨low, high⟩)
  obtain ⟨-, low, high⟩ := movable.config_range
  unfold Group.noItem
  split
  · split_ifs with rev
    · exact wait rev _ low high
    · exact rest (by simpa using rev)
  · split_ifs with rev
    · exact wait rev _ low high
    · exact rest (by simpa using rev)
  · split_ifs with rev
    · exact idle
    · exact rest (by simpa using rev)
  · split_ifs with rev
    · exact idle
    · exact rest (by simpa using rev)
  · rename_i state
    obtain ⟨n, remaining⟩ := Option.isSome_iff_exists.mp (movable.wtr_iff.mpr state)
    obtain ⟨low, high⟩ := movable.wtr_range n remaining
    rw [remaining]
    exact wait (movable.wtr_revertive state) n low high
  · exact rest (movable.idle_nonrevertive ‹_›)
  · exact idle

theorem lawful_settle (movable : Group.Movable x) (kept : x.mustDrop = false) : x.settle.Lawful := by
  have plain : ∀ st, Group.Settled (x.enter st none none) → st ≠ .pWtr → (x.enter st none none).Lawful :=
    lawful_enter_plain movable kept
  unfold Group.settle
  split <;> rename_i top
  · exact plain _ (by rw [settled_enter, top]) nofun
  · exact plain _ (by rw [settled_enter, top]) nofun
  · exact plain _ (by rw [settled_enter, top]) nofun
  · exact lawful_workingFault movable kept _ (.inl ⟨top, rfl⟩)
  · exact plain _ (by rw [settled_enter, top]) nofun
  · exact lawful_workingFault movable kept _ (.inr ⟨top, rfl⟩)
  · split_ifs with manualP
    · exact plain _ (by rw [settled_enter, top]; exact (if_pos manualP).symm) nofun
    · exact plain _ (by rw [settled_enter, top]; exact (if_neg manualP).symm) nofun
  · exact lawful_noItem movable kept top

theorem movable_standing (movable : Group.Movable x) (q : Option Standing) : Group.Movable { x with standing := q } :=
  ⟨movable.lanes_differ, movable.selected_eq, movable.holdOff_range, movable.wtr_iff, movable.wtr_range,
    movable.config_range, movable.count_le, movable.wtr_revertive, movable.idle_nonrevertive⟩

theorem movable_lockout (movable : Group.Movable x) (b : Bool) : Group.Movable { x with inputLockout := b } :=
  ⟨movable.lanes_differ, movable.selected_eq, movable.holdOff_range, movable.wtr_iff, movable.wtr_range,
    movable.config_range, movable.count_le, movable.wtr_revertive, movable.idle_nonrevertive⟩

theorem movable_conditions (movable : Group.Movable x) (c : Conditions) : Group.Movable { x with conditions := c } :=
  ⟨movable.lanes_differ, movable.selected_eq, movable.holdOff_range, movable.wtr_iff, movable.wtr_range,
    movable.config_range, movable.count_le, movable.wtr_revertive, movable.idle_nonrevertive⟩

/-- A re-decision makes the record lawful, whatever item has changed (R89). -/
theorem lawful_redecide (movable : Group.Movable x) : x.redecide.Lawful := by
  cases drop : x.mustDrop
  · rw [x.redecide_of_kept drop]
    exact lawful_settle movable drop
  · rw [x.redecide_of_dropped drop, Group.redecide_of_kept _ x.mustDrop_without]
    exact lawful_settle (movable_standing movable none) x.mustDrop_without

/-- What a re-decision leaves of a record besides its request, state, timers and count. -/
structure SameDuty (x y : Group) : Prop where
  workingLane : y.workingLane = x.workingLane
  protectLane : y.protectLane = x.protectLane
  revertive : y.revertive = x.revertive
  holdOff : y.holdOff = x.holdOff
  wtrPeriod : y.wtrPeriod = x.wtrPeriod
  operatorAccess : y.operatorAccess = x.operatorAccess
  inputLockout : y.inputLockout = x.inputLockout
  conditions : y.conditions = x.conditions

theorem sameDuty_redecide : SameDuty x x.redecide := by
  obtain ⟨q, st, h, w, -, eq⟩ := x.redecide_eq
  rw [eq]
  exact ⟨rfl, rfl, rfl, rfl, rfl, rfl, rfl, rfl⟩

/-! ### Timers -/

theorem holdOff_top (law : x.Lawful) (n : Nat) (running : x.holdOffRemaining = some n) :
    x.topItem = some .sfW ∨ x.topItem = some .sdW := by
  have settled := law.settled
  obtain ⟨state, -⟩ := law.holdOff_range n running
  unfold Group.Settled at settled
  rw [state, running] at settled
  split at settled
  case h_4 => exact .inl ‹_›
  case h_6 => exact .inr ‹_›
  case h_7 => split_ifs at settled
  all_goals simp at settled

theorem lawful_tickHoldOff (law : x.Lawful) : x.tickHoldOff.Lawful := by
  have movable := movable_of_lawful law
  unfold Group.tickHoldOff
  split
  · exact law
  · rename_i n running
    obtain ⟨state, low, high⟩ := law.holdOff_range n running
    have top := holdOff_top law n running
    split_ifs with ends degraded
    · exact lawful_enter_plain movable law.manual_top .pSd (by rw [settled_enter, degraded]; exact .inl rfl) nofun
    · have failed := top.resolve_right degraded
      exact lawful_enter_plain movable law.manual_top .pSf (by rw [settled_enter, failed]; exact .inl rfl) nofun
    · refine ⟨law.lanes_differ, ?_, law.selected_eq, ?_, law.wtr_iff, law.wtr_range, law.manual_top, law.config_range,
        law.count_le⟩
      · unfold Group.Settled
        have items : Group.topItem { x with holdOffRemaining := some (n - 1) } = x.topItem := rfl
        rw [items]
        rcases top with top | top <;> rw [top] <;> exact .inr ⟨state, rfl⟩
      · rintro m ⟨⟩
        exact ⟨state, by omega, by omega⟩

theorem lawful_tickWtr (law : x.Lawful) : x.tickWtr.Lawful := by
  unfold Group.tickWtr
  split
  · rename_i n state waiting
    obtain ⟨low, high⟩ := law.wtr_range n waiting
    have top := noItem_of_rest law (.inl state)
    split_ifs with ends
    · exact lawful_enter_plain (movable_of_lawful law) law.manual_top .wIdle
        (by rw [settled_enter, top]; exact .inl ⟨rfl, rfl⟩) nofun
    · refine ⟨law.lanes_differ, law.settled, law.selected_eq, law.holdOff_range, ⟨fun _ => state, fun _ => rfl⟩, ?_,
        law.manual_top, law.config_range, law.count_le⟩
      rintro m ⟨⟩
      exact ⟨by omega, by omega⟩
  · exact law

theorem lawful_tick (law : x.Lawful) (b : Bool) : (x.tick b).Lawful := by
  unfold Group.tick
  split_ifs
  · exact lawful_tickWtr (lawful_tickHoldOff law)
  · exact lawful_tickHoldOff law

theorem sameDuty_tickHoldOff : SameDuty x x.tickHoldOff := by
  unfold Group.tickHoldOff
  repeat' split
  all_goals exact ⟨rfl, rfl, rfl, rfl, rfl, rfl, rfl, rfl⟩

theorem sameDuty_tickWtr : SameDuty x x.tickWtr := by
  unfold Group.tickWtr
  repeat' split
  all_goals exact ⟨rfl, rfl, rfl, rfl, rfl, rfl, rfl, rfl⟩

theorem SameDuty.trans {y z : Group} (h : SameDuty x y) (k : SameDuty y z) : SameDuty x z :=
  ⟨k.1.trans h.1, k.2.trans h.2, k.3.trans h.3, k.4.trans h.4, k.5.trans h.5, k.6.trans h.6, k.7.trans h.7,
    k.8.trans h.8⟩

theorem sameDuty_tick (b : Bool) : SameDuty x (x.tick b) := by
  unfold Group.tick
  split_ifs
  · exact sameDuty_tickHoldOff.trans sameDuty_tickWtr
  · exact sameDuty_tickHoldOff

/-! ### A configured group changed (R110) -/

/-- REVERTIVE decides where a group without items that is on the protect lane stands. -/
theorem lawful_reconfigure (law : x.Lawful) (f : GroupFields)
    (range : f.holdOff ≤ 31 ∧ 1 ≤ f.wtrPeriod ∧ f.wtrPeriod ≤ 255) : (x.reconfigure f).Lawful := by
  have movable := movable_of_lawful law
  have plain : (x.state = .pWtr → f.revertive = true) → (x.state = .pIdle → f.revertive = false) →
      Group.Lawful { x with
        revertive := f.revertive, holdOff := f.holdOff, wtrPeriod := f.wtrPeriod, operatorAccess := f.access } := by
    intro wtr idle
    refine ⟨law.lanes_differ, ?_, law.selected_eq, law.holdOff_range, law.wtr_iff, law.wtr_range, law.manual_top, range,
      law.count_le⟩
    have settled := law.settled
    unfold Group.Settled at settled ⊢
    have items : Group.topItem { x with
        revertive := f.revertive, holdOff := f.holdOff, wtrPeriod := f.wtrPeriod, operatorAccess := f.access } =
      x.topItem := rfl
    rw [items]
    split at settled
    case h_8 => exact settled.imp_right fun h => h.imp (fun h => ⟨h.1, wtr h.1⟩) fun h => ⟨h.1, idle h.1⟩
    all_goals exact settled
  have rests : ∀ st w, (x.state = .pWtr ∨ x.state = .pIdle) → (w.isSome = true ↔ st = .pWtr) →
      (∀ n, w = some n → 1 ≤ n ∧ n ≤ 255) → (st = .pWtr ∧ f.revertive = true ∨ st = .pIdle ∧ f.revertive = false) →
      Group.Lawful { x with
        state := st, wtrRemaining := w, revertive := f.revertive, holdOff := f.holdOff, wtrPeriod := f.wtrPeriod
        operatorAccess := f.access } := by
    intro st w before wtr wtrRange after
    have top := noItem_of_rest law before
    refine ⟨law.lanes_differ, ?_, ?_, ?_, wtr, wtrRange, law.manual_top, range, law.count_le⟩
    · have items : Group.topItem { x with
          state := st, wtrRemaining := w, revertive := f.revertive, holdOff := f.holdOff, wtrPeriod := f.wtrPeriod
          operatorAccess := f.access } = none := top
      unfold Group.Settled
      rw [items]
      exact .inr after
    · have selected := law.selected_eq
      rcases before with before | before <;> rw [before] at selected <;>
        rcases after with ⟨rfl, -⟩ | ⟨rfl, -⟩ <;> exact selected
    · intro n running
      obtain ⟨idle, -⟩ := law.holdOff_range n running
      rw [idle] at before
      rcases before with before | before <;> cases before
  unfold Group.reconfigure Group.convert
  split
  · rename_i state
    split_ifs with rev
    · exact plain (fun _ => rev) fun idle => by rw [state] at idle; cases idle
    · exact rests .pIdle none (.inl state) ⟨nofun, nofun⟩ nofun (.inr ⟨rfl, by simpa using rev⟩)
  · rename_i state
    split_ifs with rev
    · exact rests .pWtr (some f.wtrPeriod) (.inr state) ⟨fun _ => rfl, fun _ => rfl⟩ (by rintro n ⟨⟩; exact range.2)
        (.inl ⟨rfl, rev⟩)
    · exact plain (fun wtr => by rw [state] at wtr; cases wtr) fun _ => by simpa using rev
  · exact plain (fun wtr => absurd wtr ‹_›) fun idle => absurd idle ‹_›

end

end Sys2Proof.Proofs

/-! The law of the groups through every event: the groups among lanes and inputs (R87, R104, R118, R121). -/

namespace Sys2Proof.Proofs

open Sys2Proof.Machine

section

variable {s t : State}

/-! ### Lockout levels (R118) -/

/-- What an input contributes to a group's lockout level. -/
def LocksOut (x : Input) (g : GroupId) : Prop :=
  x.mode = .levelLockout g ∧ x.active = true

theorem lockoutLevel_iff (s : State) (g : GroupId) : s.lockoutLevel g = true ↔ ∃ i, LocksOut (s.input i) g := by
  unfold State.lockoutLevel LocksOut
  rw [any_toList_iff]
  refine exists_congr fun i => ?_
  rw [Bool.and_eq_true, beq_iff_eq]
  refine and_congr ?_ Iff.rfl
  show (s.input i).mode.lockoutGroup = some g ↔ _
  cases (s.input i).mode <;> simp [InputMode.lockoutGroup]

theorem lockoutLevel_congr (same : t.inputs = s.inputs) (g : GroupId) : t.lockoutLevel g = s.lockoutLevel g := by
  unfold State.lockoutLevel
  rw [same]

/-- An input that contributes as before leaves the level of a group. -/
theorem lockoutLevel_setInput (i : InputId) (y : Input) (g : GroupId)
    (same : LocksOut y g ↔ LocksOut (s.input i) g) : (s.setInput i y).lockoutLevel g = s.lockoutLevel g := by
  have contributes : ∀ j, LocksOut ((s.setInput i y).input j) g ↔ LocksOut (s.input j) g := by
    intro j
    by_cases own : j = i
    · rw [own, State.input_setInput, same]
    · rw [State.input_setInput_of_ne _ _ _ _ own]
  rw [Bool.eq_iff_iff, lockoutLevel_iff, lockoutLevel_iff]
  exact exists_congr contributes

/-- No input locks out a group that is not configured (R121). -/
theorem lockoutLevel_of_off (law : s.GroupLaw) (g : GroupId) (off : s.group g = none) : s.lockoutLevel g = false := by
  rw [Bool.eq_false_iff, Ne, lockoutLevel_iff]
  rintro ⟨i, mode, -⟩
  have bound := law.bound i g (by rw [mode]; rfl)
  rw [off] at bound
  cases bound

/-! ### The law by group -/

theorem conditionsOf_congr (same : ∀ l, Unseen (s.lane l) (t.lane l)) (w p : LaneId) :
    t.conditionsOf w p = s.conditionsOf w p := by
  unfold State.conditionsOf
  rw [(same w).1, (same w).2, (same p).1, (same p).2]

/-- A configured group stands as the lanes and the inputs of a state ask for. -/
structure Placed (t : State) (g : GroupId) (y : Group) : Prop where
  lawful : y.Lawful
  conditions : y.conditions = t.conditionsOf y.workingLane y.protectLane
  lockout : y.inputLockout = t.lockoutLevel g

theorem GroupLaw.placed (law : s.GroupLaw) (g : GroupId) (x : Group) (on : s.group g = some x) : Placed s g x :=
  ⟨law.records g x on, law.conditions g x on, law.lockouts g x on⟩

theorem groupLaw_of_placed (placed : ∀ g x, t.group g = some x → Placed t g x)
    (bound : ∀ i g, (t.input i).mode.bound = some g → (t.group g).isSome = true) : t.GroupLaw :=
  ⟨fun g x on => (placed g x on).lawful, fun g x on => (placed g x on).conditions,
    fun g x on => (placed g x on).lockout, bound⟩

/-- The fields that the law of the groups speaks of are the same, as far as the groups see them. -/
structure GroupFrame (s t : State) : Prop where
  groups : t.groups = s.groups
  inputs : t.inputs = s.inputs
  lanes : ∀ l, Unseen (s.lane l) (t.lane l)

theorem GroupFrame.law (same : GroupFrame s t) (law : s.GroupLaw) : t.GroupLaw := by
  have group : ∀ g, t.group g = s.group g := fun g => State.group_congr s g t same.groups
  refine ⟨fun g x on => law.records g x (group g ▸ on), fun g x on => ?_, fun g x on => ?_, fun i g bound => ?_⟩
  · rw [conditionsOf_congr same.lanes]
    exact law.conditions g x (group g ▸ on)
  · rw [lockoutLevel_congr same.inputs]
    exact law.lockouts g x (group g ▸ on)
  · rw [group]
    rw [State.input_congr s i t same.inputs] at bound
    exact law.bound i g bound

theorem GroupFrame.of_lanes (groups : t.groups = s.groups) (inputs : t.inputs = s.inputs) (lanes : t.lanes = s.lanes) :
    GroupFrame s t := by
  refine ⟨groups, inputs, fun l => ?_⟩
  rw [State.lane_congr s l t lanes]
  exact ⟨rfl, rfl⟩

theorem groupLaw_of_eq (law : s.GroupLaw) (groups : t.groups = s.groups) (inputs : t.inputs = s.inputs)
    (lanes : t.lanes = s.lanes) : t.GroupLaw :=
  (GroupFrame.of_lanes groups inputs lanes).law law

theorem groupLaw_setChannel (law : s.GroupLaw) (ch : ChannelId) (c : Channel) : (s.setChannel ch c).GroupLaw :=
  groupLaw_of_eq law (by simp) (by simp) (by simp)

theorem groupLaw_setQueue (law : s.GroupLaw) (ch : ChannelId) (q : Queue) : (s.setQueue ch q).GroupLaw :=
  groupLaw_of_eq law (by simp) (by simp) (by simp)

theorem groupLaw_withEvents (law : s.GroupLaw) (es : List Event) : (s.withEvents es).GroupLaw :=
  groupLaw_of_eq law rfl rfl rfl

theorem groupLaw_restart (law : s.GroupLaw) (p : Phase) : (s.restart p).GroupLaw := by
  obtain ⟨m, es, -, eq⟩ := restart_cases s p
  rw [eq]
  exact groupLaw_of_eq law rfl rfl rfl

/-- A lane moves without the groups seeing it. -/
theorem groupLaw_setLane (law : s.GroupLaw) (l : LaneId) (x : Lane) (unseen : Unseen (s.lane l) x) :
    (s.setLane l x).GroupLaw := by
  refine GroupFrame.law (s := s) ⟨rfl, rfl, fun m => ?_⟩ law
  by_cases own : m = l
  · subst own
    rw [State.lane_setLane]
    exact unseen
  · rw [State.lane_setLane_of_ne _ _ _ _ own]
    exact ⟨rfl, rfl⟩

/-- One group's record replaced by one that stands as lanes and inputs ask for. -/
theorem groupLaw_setGroup (law : s.GroupLaw) (g : GroupId) (y : Group) (placed : Placed s g y) :
    (s.setGroup g (some y)).GroupLaw := by
  refine groupLaw_of_placed (fun h x on => ?_) fun i h bound => ?_ <;> by_cases own : h = g
  · subst own
    rw [State.group_setGroup] at on
    cases on
    exact ⟨placed.lawful, placed.conditions, placed.lockout⟩
  · rw [State.group_setGroup_of_ne _ _ _ _ own] at on
    have other := GroupLaw.placed law h x on
    exact ⟨other.lawful, other.conditions, other.lockout⟩
  · subst own
    rw [State.group_setGroup]
    rfl
  · rw [State.group_setGroup_of_ne _ _ _ _ own]
    exact law.bound i h bound

theorem SameDuty.placed {x y : Group} {g : GroupId} (same : SameDuty x y) (lawful : y.Lawful)
    (conditions : x.conditions = s.conditionsOf x.workingLane x.protectLane) (lockout : x.inputLockout = s.lockoutLevel g) :
    Placed s g y :=
  ⟨lawful, by rw [same.conditions, same.workingLane, same.protectLane, conditions], by rw [same.inputLockout, lockout]⟩

/-- A group whose items are as lanes and inputs ask for is re-decided. -/
theorem groupLaw_redecideAmong (law : s.GroupLaw) (g : GroupId) (y : Group) (among : List Event → List Event)
    (movable : Group.Movable y) (conditions : y.conditions = s.conditionsOf y.workingLane y.protectLane)
    (lockout : y.inputLockout = s.lockoutLevel g) : (s.redecideAmong g y among).GroupLaw := by
  rw [State.redecideAmong_eq]
  exact groupLaw_withEvents
    (groupLaw_setGroup law g _ (sameDuty_redecide.placed (lawful_redecide movable) conditions lockout)) _

theorem groupLaw_standing (law : s.GroupLaw) (g : GroupId) (x : Group) (on : s.group g = some x) (q : Option Standing)
    (among : List Event → List Event) : (s.redecideAmong g { x with standing := q } among).GroupLaw :=
  groupLaw_redecideAmong law g _ among (movable_standing (movable_of_lawful (law.records g x on)) q)
    (law.conditions g x on) (law.lockouts g x on)

/-! ### The reports of the lanes (R87) -/

/-- The report of the lanes makes the conditions those of the lanes, whatever lane has moved. -/
theorem groupLaw_reported (law : s.GroupLaw) (l : LaneId) (x : Lane) (es : List Event) :
    ((s.setLane l x).withEvents es).reportLanes.GroupLaw := by
  obtain ⟨gs, q0, q1, n, eq⟩ := State.onlyGroups_reportLanes ((s.setLane l x).withEvents es)
  have group := State.group_reportLanes ((s.setLane l x).withEvents es)
  rw [eq] at group ⊢
  have before : ∀ g, State.group ((s.setLane l x).withEvents es) g = s.group g := fun g => rfl
  refine groupLaw_of_placed (fun g y on => ?_) fun i g bound => ?_
  · rw [group, before] at on
    split at on
    · cases on
    · rename_i z was
      have same := GroupLaw.placed law g z was
      split_ifs at on with current <;> cases on
      · exact ⟨same.lawful, current, same.lockout⟩
      · exact sameDuty_redecide.placed (lawful_redecide (movable_conditions (movable_of_lawful same.lawful) _)) rfl
          same.lockout
  · rw [group, before]
    obtain ⟨z, was⟩ := Option.isSome_iff_exists.mp (law.bound i g bound)
    rw [was]
    dsimp only
    split_ifs <;> rfl

/-! ### The levels of the inputs (R116 to R118, R121) -/

/-- A group's record once it has been handed its lockout level (R118). -/
def relevelled (level : Bool) (x : Group) : Group :=
  if level = x.inputLockout then x else ({ x with inputLockout := level } : Group).redecide

theorem group_reevaluateAmong (s : State) (g : GroupId) (among : List Event → List Event) :
    (s.reevaluateAmong g among).group g = (s.group g).map (relevelled (s.lockoutLevel g)) := by
  unfold State.reevaluateAmong relevelled
  split
  · rename_i x on
    rw [on]
    split_ifs with same
    · rw [State.raiseAll_eq, State.group_withEvents, on, Option.map_some, if_pos same]
    · rw [State.group_redecideAmong, Option.map_some, if_neg same]
  · rename_i off
    rw [State.raiseAll_eq, State.group_withEvents, off]
    rfl

theorem group_reevaluateAmong_of_ne (s : State) (g h : GroupId) (among : List Event → List Event) (other : h ≠ g) :
    (s.reevaluateAmong g among).group h = s.group h := by
  unfold State.reevaluateAmong
  split
  · split_ifs
    · rw [State.raiseAll_eq, State.group_withEvents]
    · exact State.group_redecideAmong_of_ne _ _ _ _ _ other
  · rw [State.raiseAll_eq, State.group_withEvents]

/-- Groups re-evaluated one after another, each once. -/
theorem group_forEach_reevaluate (s : State) (gs : List GroupId) (nodup : gs.Nodup) (g : GroupId) :
    (s.forEach gs State.reevaluate).group g =
      if g ∈ gs then (s.group g).map (relevelled (s.lockoutLevel g)) else s.group g := by
  unfold State.forEach
  refine (State.group_foldl State.reevaluate (fun t a g other => group_reevaluateAmong_of_ne t a g id other) _
    (nodup_openOrder s.free gs nodup) { s with free := s.free + 1 } g (fun t => t.inputs = s.inputs) rfl (fun t a same => ?_)
    ((s.group g).map (relevelled (s.lockoutLevel g))) fun t same own => ?_).trans ?_
  · obtain ⟨_, _, _, _, eq⟩ := State.onlyGroups_reevaluate t a
    rw [eq]
    exact same
  · rw [State.reevaluate, group_reevaluateAmong, own, lockoutLevel_congr same]
    rfl
  · exact if_congr (mem_openOrder _ _ _) rfl rfl

/-- Records that are lawful but for INPUT_LOCKOUT, which has been made to follow the levels. -/
theorem groupLaw_relevelled (records : ∀ g x, s.group g = some x → x.Lawful)
    (conditions : ∀ g x, s.group g = some x → x.conditions = s.conditionsOf x.workingLane x.protectLane)
    (bound : ∀ i g, (s.input i).mode.bound = some g → (s.group g).isSome = true) (only : s.OnlyGroups t)
    (group : ∀ g, t.group g = (s.group g).map (relevelled (s.lockoutLevel g))) : t.GroupLaw := by
  obtain ⟨gs, q0, q1, n, rfl⟩ := only
  refine groupLaw_of_placed (fun g y on => ?_) fun i g has => ?_
  · rw [group] at on
    obtain ⟨x, was, rfl⟩ := Option.map_eq_some_iff.mp on
    unfold relevelled
    split_ifs with same
    · exact ⟨records g x was, conditions g x was, same.symm⟩
    · exact sameDuty_redecide.placed (lawful_redecide (movable_lockout (movable_of_lawful (records g x was)) _))
        (conditions g x was) rfl
  · rw [group, Option.isSome_map]
    exact bound i g has

theorem bound_setInput (law : s.GroupLaw) (n : InputId) (y : Input)
    (configured : ∀ g, y.mode.bound = some g → (s.group g).isSome = true) :
    ∀ i g, ((s.setInput n y).input i).mode.bound = some g → (s.group g).isSome = true := by
  intro i g bound
  by_cases own : i = n
  · rw [own, State.input_setInput] at bound
    exact configured g bound
  · rw [State.input_setInput_of_ne _ _ _ _ own] at bound
    exact law.bound i g bound

/-- An input changed without a change of what it contributes. -/
theorem groupLaw_setInput (law : s.GroupLaw) (i : InputId) (y : Input)
    (same : ∀ g, LocksOut y g ↔ LocksOut (s.input i) g)
    (configured : ∀ g, y.mode.bound = some g → (s.group g).isSome = true) : (s.setInput i y).GroupLaw :=
  groupLaw_of_placed (fun g x on => ⟨law.records g x on, law.conditions g x on,
    (law.lockouts g x on).trans (lockoutLevel_setInput i y g (same g)).symm⟩) (bound_setInput law i y configured)

theorem locksOut_of_other (x : Input) (other : x.mode.lockoutGroup = none) (g : GroupId) : ¬ LocksOut x g := by
  rintro ⟨mode, -⟩
  rw [mode] at other
  cases other

theorem groupLaw_presentInput (law : s.GroupLaw) (g : GroupId) (i : InputId) (among : List Event → List Event) :
    (s.presentInput g i among).GroupLaw := by
  unfold State.presentInput
  split
  · rename_i x on
    split_ifs
    · rw [State.raiseAll_eq]
      exact groupLaw_withEvents law _
    · exact groupLaw_standing law g x on _ among
  · rw [State.raiseAll_eq]
    exact groupLaw_withEvents law _

/-- A level of a LEVEL_LOCKOUT input changes: no other group's level does. -/
theorem groupLaw_relevel (law : s.GroupLaw) (i : InputId) (y : Input) (g : GroupId)
    (mode : y.mode = (s.input i).mode) (locks : (s.input i).mode = .levelLockout g) (among : List Event → List Event) :
    ((s.setInput i y).reevaluateAmong g among).GroupLaw := by
  refine groupLaw_relevelled (s := s.setInput i y) law.records law.conditions
    (bound_setInput law i y fun h bound => law.bound i h (mode ▸ bound)) (State.onlyGroups_reevaluateAmong _ _ _)
    fun h => ?_
  by_cases own : h = g
  · rw [own, group_reevaluateAmong]
  · rw [group_reevaluateAmong_of_ne _ _ _ _ own]
    cases was : s.group h with
    | none =>
      show s.group h = Option.map _ (s.group h)
      rw [was]
      rfl
    | some x =>
      have other : ∀ z : Input, z.mode = (s.input i).mode → ¬ LocksOut z h := by
        rintro z same ⟨zmode, -⟩
        rw [same, locks] at zmode
        cases zmode
        exact own rfl
      have level := lockoutLevel_setInput i y h (iff_of_false (other y mode) (other _ rfl))
      show s.group h = Option.map _ (s.group h)
      rw [was, Option.map_some, relevelled, if_pos (level.trans (law.lockouts h x was).symm)]

theorem groupLaw_sampleInput (law : s.GroupLaw) (i : InputId) (level : Bool) (place : Nat) :
    (s.sampleInput i level place).GroupLaw := by
  have configured : ∀ g, ((s.input i).sample level).mode.bound = some g → (s.group g).isSome = true := law.bound i
  have silent : (s.input i).mode.lockoutGroup = none → (s.setInput i ((s.input i).sample level)).GroupLaw := fun other =>
    groupLaw_setInput law i _
      (fun g => iff_of_false (locksOut_of_other (Input.sample _ _) other g) (locksOut_of_other _ other g)) configured
  unfold State.sampleInput
  dsimp only
  split_ifs with same
  · refine groupLaw_setInput law i _ (fun g => ?_) configured
    unfold LocksOut Input.active
    rw [same]
    rfl
  · unfold State.acceptChange
    dsimp only
    rw [State.input_setInput]
    have sampled : ((s.input i).sample level).mode = (s.input i).mode := rfl
    rcases mode : (s.input i).mode with _ | _ | g | g <;> rw [sampled, mode] <;> dsimp only
    · exact silent (by rw [mode]; rfl)
    · rw [State.raiseAll_eq]
      exact groupLaw_withEvents (silent (by rw [mode]; rfl)) _
    · have quiet := silent (by rw [mode]; rfl)
      split_ifs
      · exact groupLaw_presentInput quiet _ _ _
      · exact quiet
    · exact groupLaw_relevel law i ((s.input i).sample level) g rfl mode _

theorem nodup_changedLockouts {gs : List GroupId} (s : State) (nodup : gs.Nodup) : (s.changedLockouts gs).Nodup :=
  nodup.filter _

/-- SET_INPUT: the groups of the modes before and after, and no others, can have another level. -/
theorem groupLaw_inputSet (law : s.GroupLaw) (n : InputId) (m : InputMode) (low : Bool)
    (configured : ∀ g, m.bound = some g → s.group g ≠ none) :
    ((s.setInput n { s.input n with mode := m, activeLow := low }).forEach
      ((s.setInput n { s.input n with mode := m, activeLow := low }).changedLockouts
        (lockoutGroups (s.input n).mode m)) State.reevaluate).GroupLaw := by
  refine groupLaw_relevelled (s := s.setInput n { s.input n with mode := m, activeLow := low }) law.records law.conditions
    (bound_setInput law n _ fun g bound => Option.isSome_iff_ne_none.mpr (configured g bound)) (onlyGroups_inputSet _ _)
    fun g => ?_
  refine (group_forEach_reevaluate _ _ (nodup_changedLockouts _ (nodup_lockoutGroups _ _)) g).trans ?_
  split_ifs with changed
  · rfl
  · cases was : State.group (s.setInput n { s.input n with mode := m, activeLow := low }) g with
    | none => rfl
    | some x =>
      rw [Option.map_some]
      have level : (s.setInput n { s.input n with mode := m, activeLow := low }).lockoutLevel g = x.inputLockout := by
        by_cases reached : g ∈ lockoutGroups (s.input n).mode m
        · unfold State.changedLockouts at changed
          simpa [reached, was] using changed
        · rw [mem_lockoutGroups, not_or] at reached
          rw [lockoutLevel_setInput]
          · exact (law.lockouts g x was).symm
          · exact iff_of_false (fun h => reached.2 h.1) fun h => reached.1 h.1
      rw [relevelled, if_pos level]

end

end Sys2Proof.Proofs

/-! Every step keeps the law of the groups. -/

namespace Sys2Proof.Proofs

open Sys2Proof.Machine

section

variable {s t : State}

/-! ### Words and replies -/

theorem unseen_of_sameButCounters {x y : Lane} (same : SameButCounters x y) : Unseen x y := by
  obtain ⟨k, rfl⟩ := same
  exact ⟨rfl, rfl⟩

/-- A word heard changes neither groups nor inputs. -/
theorem Heard.groups {ch : ChannelId} (heard : Heard s ch t) : t.groups = s.groups ∧ t.inputs = s.inputs := by
  have acknowledged : (s.acknowledge ch).groups = s.groups ∧ (s.acknowledge ch).inputs = s.inputs := by
    unfold State.acknowledge State.applyEffects State.countChannel
    split
    · split_ifs
      · exact ⟨rfl, rfl⟩
      · split <;> simp
    · exact ⟨rfl, rfl⟩
  cases heard
  case ignored => exact ⟨rfl, rfl⟩
  case begun implicit =>
    rcases implicit with rfl | ⟨rfl, -⟩ <;> simp [State.setPhase, State.countChannel, acknowledged]
  case refused fault => rcases fault with rfl | ⟨-, a, b, rfl⟩ <;> simp
  all_goals simp [State.setPhase, State.countChannel, State.discard, State.duplicate, acknowledged]

theorem groupLaw_heard {ch : ChannelId} (law : s.GroupLaw) (heard : Heard s ch t) : t.GroupLaw :=
  GroupFrame.law ⟨heard.groups.1, heard.groups.2, fun l => unseen_of_sameButCounters (heard.lane l)⟩ law

theorem groupLaw_sent {ch : ChannelId} (law : s.GroupLaw) (sent : Sent s ch t) : t.GroupLaw := by
  cases sent
  case nothing => exact law
  case abandoned => exact groupLaw_withEvents (groupLaw_setChannel (groupLaw_setChannel law _ _) _ _) _
  all_goals exact groupLaw_setChannel law _ _

/-! ### The commands -/

theorem isDegraded_of_not_aligned (x : Lane) (other : x.isAligned = false) : x.isDegraded = false := by
  unfold Lane.isAligned at other
  unfold Lane.isDegraded
  split at other <;> simp_all

theorem groupLaw_setThreshold (law : s.GroupLaw) (l : LaneId) (n : Nat) : (s.setThreshold l n).GroupLaw := by
  unfold State.setThreshold
  dsimp only
  split
  · split_ifs
    · rw [State.raise_eq]
      exact groupLaw_reported law l _ _
    · exact groupLaw_setLane law l _ ⟨rfl, rfl⟩
  · exact groupLaw_setLane law l _ ⟨rfl, rfl⟩

theorem groupLaw_disableLane (law : s.GroupLaw) (l : LaneId) (free : s.managedLane l = false) :
    (s.disableLane l).GroupLaw := by
  by_cases aligned : (s.lane l).isAligned = true
  · rw [disableLane_of_aligned s l free aligned]
    exact groupLaw_reported law l _ _
  · unfold State.disableLane
    rw [if_neg aligned]
    have before := eq_false_of_ne_true aligned
    exact groupLaw_setLane law l _ ⟨before.symm, (isDegraded_of_not_aligned _ before).symm⟩

theorem groupLaw_clearDatapath (s : State) : s.clearDatapath.GroupLaw := by
  have off : ∀ g, s.clearDatapath.group g = none := fun g => get_replicate none g
  have unbound : ∀ i, (s.clearDatapath.input i).mode.bound = none := fun i => by
    rw [show s.clearDatapath.input i = (s.input i).unbind from get_map _ s.inputs i, Input.unbind_eq]
    dsimp only
    split_ifs <;> rfl
  refine groupLaw_of_placed (fun g x on => ?_) fun i g bound => ?_
  · rw [off] at on
    cases on
  · rw [unbound] at bound
    cases bound

/-- A group that is configured begins in W_IDLE and is decided at once (R109). -/
theorem groupLaw_configured (law : s.GroupLaw) (f : GroupFields) (off : s.group f.group = none)
    (lanes : f.working ≠ f.protect) (range : f.holdOff ≤ 31 ∧ 1 ≤ f.wtrPeriod ∧ f.wtrPeriod ≤ 255) :
    (s.redecide f.group (s.freshGroup f)).GroupLaw :=
  groupLaw_redecideAmong law f.group _ id
    ⟨lanes, rfl, nofun, ⟨nofun, nofun⟩, nofun, range, Nat.zero_le _, nofun, nofun⟩ rfl
    (lockoutLevel_of_off law f.group off).symm

theorem sameDuty_convert (x : Group) (b : Bool) (n : Nat) : SameDuty x (x.convert b n) := by
  unfold Group.convert
  repeat' split
  all_goals exact ⟨rfl, rfl, rfl, rfl, rfl, rfl, rfl, rfl⟩

theorem groupLaw_reconfigured (law : s.GroupLaw) (f : GroupFields) (x : Group) (on : s.group f.group = some x)
    (range : f.holdOff ≤ 31 ∧ 1 ≤ f.wtrPeriod ∧ f.wtrPeriod ≤ 255) :
    (s.setGroup f.group (some (x.reconfigure f))).GroupLaw := by
  have same := sameDuty_convert x f.revertive f.wtrPeriod
  refine groupLaw_setGroup law f.group _ ⟨lawful_reconfigure (law.records _ x on) f range, ?_, ?_⟩
  · exact same.conditions.trans ((law.conditions _ x on).trans (by
      show _ = s.conditionsOf (x.convert f.revertive f.wtrPeriod).workingLane (x.convert f.revertive f.wtrPeriod).protectLane
      rw [same.workingLane, same.protectLane]))
  · exact same.inputLockout.trans (law.lockouts _ x on)

theorem groupLaw_deleted (law : s.GroupLaw) (g : GroupId) (unbound : s.groupBound g = false) :
    (s.setGroup g none).GroupLaw := by
  refine groupLaw_of_placed (fun h x on => ?_) fun i h bound => ?_ <;> by_cases own : h = g
  · rw [own, State.group_setGroup] at on
    cases on
  · rw [State.group_setGroup_of_ne _ _ _ _ own] at on
    have other := GroupLaw.placed law h x on
    exact ⟨other.lawful, other.conditions, other.lockout⟩
  · subst own
    rw [(s.groupBound_iff h).mpr (.inr ⟨i, bound⟩)] at unbound
    cases unbound
  · rw [State.group_setGroup_of_ne _ _ _ _ own]
    exact law.bound i h bound

theorem groupLaw_placeOperator (law : s.GroupLaw) (p : Place) : (s.placeOperator p).GroupLaw := by
  rw [placeOperator_eq]
  obtain ⟨m, es, -, eq⟩ := restart_cases { s with operatorPlace := some p } .idle
  rw [eq]
  exact groupLaw_of_eq (groupLaw_setLane law p.lane _ (laneMove_enabled (s.lane p.lane)).2) rfl rfl rfl

theorem groupLaw_served {ch : ChannelId} {r : Request} {i : Instr} {u : State} {e : Deferred} (law : s.GroupLaw)
    (served : Served s ch r i u e) : u.GroupLaw := by
  have same : ∀ {u : State}, u.groups = s.groups → u.inputs = s.inputs → u.lanes = s.lanes → u.GroupLaw := fun h0 h1 h2 =>
    groupLaw_of_eq law h0 h1 h2
  have hold : ∀ c n, (s.setReplyHold c n).GroupLaw := fun c n => groupLaw_setChannel law c _
  have cancelled : s.cancelCommit.GroupLaw := by
    obtain ⟨c0, c1, eq⟩ := cancelCommit_eq s
    rw [eq]
    exact same rfl rfl rfl
  cases served
  case nothing => exact law
  case laneRead => exact law
  case channelRead => exact law
  case faulted => exact same (by simp) (by simp) (by simp)
  case subscribed => exact groupLaw_setQueue law _ _
  case eventsRead => exact groupLaw_setQueue law _ _
  case holdSet => exact hold _ _
  case placed => exact groupLaw_placeOperator (hold _ _) _
  case removed =>
    refine groupLaw_restart ?_ _
    exact groupLaw_of_eq (hold _ _) rfl rfl rfl
  case restarted => exact groupLaw_restart law .idle
  case datapathReset => exact groupLaw_withEvents (groupLaw_clearDatapath _) _
  case opened => exact same rfl rfl rfl
  case reopened => exact same rfl rfl rfl
  case abandoned => exact same rfl rfl rfl
  case broken => exact groupLaw_of_eq cancelled rfl rfl rfl
  case wrote => exact same rfl rfl rfl
  case laneSet l on n _ _ free =>
    refine groupLaw_setThreshold ?_ l n
    cases on
    · exact groupLaw_disableLane law l (free rfl)
    · rw [if_pos rfl, enableLane_eq]
      exact groupLaw_setLane law l _ (laneMove_enabled _).2
  case egressSet => exact same rfl rfl rfl
  case configured f _ off _ lanes range => exact groupLaw_configured law f off lanes range
  case reconfigured f x _ on range => exact groupLaw_reconfigured law f x on range
  case deleted g _ unbound => exact groupLaw_deleted law g unbound
  case requested g x q on _ => exact groupLaw_standing law g x on q id
  case inputSet n m low _ configured => exact groupLaw_inputSet law n m low configured
  case regionSet => exact same rfl rfl rfl
  case faultCleared => exact same rfl rfl rfl

/-! ### The frame start -/

theorem groupLaw_mapEvent (law : s.GroupLaw) : s.mapEvent.GroupLaw := by
  obtain ⟨m, h, c0, c1, q0, q1, b, w, eq⟩ := s.mapEvent_eq
  rw [eq]
  exact groupLaw_of_eq law rfl rfl rfl

theorem groupLaw_tickGroup (law : s.GroupLaw) (g : GroupId) : (s.tickGroup g).GroupLaw := by
  unfold State.tickGroup
  split
  · rename_i x _ on
    rw [State.raiseAll_eq]
    have placed := GroupLaw.placed law g x on
    have ticked := groupLaw_setGroup law g _
      ((sameDuty_tick s.boundary).placed (lawful_tick placed.lawful _) placed.conditions placed.lockout)
    refine groupLaw_withEvents ?_ _
    exact groupLaw_of_eq ticked rfl rfl rfl
  · exact law

theorem groupLaw_resetWith (straps : BitVec 3) (pins : BitVec 4) : (State.resetWith straps pins).GroupLaw := by
  refine groupLaw_of_placed (fun g x on => ?_) fun i g bound => ?_
  · rw [group_resetWith] at on
    cases on
  · rw [input_resetWith] at bound
    cases bound

theorem kept_groupLaw : Kept State.GroupLaw where
  deviceReset := groupLaw_resetWith
  own _ _ _ _ law := groupLaw_of_eq law rfl rfl rfl
  timebase _ _ law _ _ _ := groupLaw_of_eq law rfl rfl rfl
  events _ es law := groupLaw_withEvents law es
  served _ _ _ _ _ _ _ _ law _ served _ _ := groupLaw_setChannel (groupLaw_served law served) _ _
  scheduled _ _ _ law _ _ _ := by
    refine groupLaw_setChannel ?_ _ _
    exact groupLaw_of_eq law rfl rfl rfl
  heard _ _ _ := groupLaw_heard
  lost _ _ law := by
    rw [lostAlignment_eq_cutOff]
    exact groupLaw_setChannel law _ _
  laneUnseen _ l x law _ unseen := groupLaw_setLane law l x unseen
  laneReported _ l x es law _ := groupLaw_reported law l x es
  boundary _ := groupLaw_mapEvent
  taken s law := by
    refine GroupFrame.law (s := s) ⟨rfl, rfl, fun l => ?_⟩ law
    rw [show State.lane { s with lanes := s.lanes.map fun x => x.take.2 } l = (s.lane l).take.2 from get_map _ s.lanes l]
    exact (laneMove_take _).2
  ticked _ g law := groupLaw_tickGroup law g
  sampled _ i level place law := groupLaw_sampleInput law i level place
  sent _ _ _ := groupLaw_sent
  composed _ law := groupLaw_of_eq law rfl rfl rfl

end

/-- Settles O8: every event keeps the law of the groups. -/
theorem stepKeepsGroupLaw : Obligations.StepKeepsGroupLaw := by
  unfold Obligations.StepKeepsGroupLaw
  exact fun s t law stepped => kept_groupLaw.step s t law stepped

end Sys2Proof.Proofs

/-! What an acknowledgement leaves of the channels, and what a superframe boundary does to the map (R30, R39, R138). -/

namespace Sys2Proof.Proofs

open Sys2Proof.Machine

section

variable (s : State) (ch : ChannelId)

/-! ### Acknowledgement (R138) -/

/-- A channel's record as it was, but for ACKED of its stored reply and its counters. -/
def SameButAcked (c d : Channel) : Prop :=
  d.phase = c.phase ∧ d.replyHold = c.replyHold ∧
    (d.stored = c.stored ∨ ∃ p, c.stored = some p ∧ d.stored = some { p with acked := true })

theorem SameButAcked.refl (c : Channel) : SameButAcked c c :=
  ⟨rfl, rfl, .inl rfl⟩

theorem SameButAcked.counters {c d : Channel} (same : SameButAcked c d) (k : ChannelCounters) :
    SameButAcked c { d with counters := k } :=
  same

/-- The deferred effects of a reply change no channel's record but its counters. -/
theorem channel_applyEffects (e : Deferred) (c : ChannelId) :
    ∃ k, (s.applyEffects ch e).channel c = { s.channel c with counters := k } := by
  unfold State.applyEffects
  split
  · exact ⟨_, rfl⟩
  · exact ⟨_, State.channel_setQueue ..⟩
  · exact ⟨(s.channel c).counters, by cases c <;> rfl⟩
  · rename_i d k
    by_cases own : c = d
    · subst own
      exact ⟨_, State.channel_setChannel ..⟩
    · exact ⟨_, State.channel_setChannel_of_ne _ _ _ _ own⟩

theorem channel_acknowledge (c : ChannelId) : SameButAcked (s.channel c) ((s.acknowledge ch).channel c) := by
  unfold State.acknowledge
  split
  · rename_i p stored
    split_ifs
    · exact .refl _
    · obtain ⟨k, eq⟩ := channel_applyEffects (s.setChannel ch { s.channel ch with stored := some { p with acked := true } })
        ch p.effects c
      rw [eq]
      refine SameButAcked.counters ?_ k
      by_cases own : c = ch
      · subst own
        rw [State.channel_setChannel]
        exact ⟨rfl, rfl, .inr ⟨p, stored, rfl⟩⟩
      · rw [State.channel_setChannel_of_ne _ _ _ _ own]
        exact .refl _
  · exact .refl _

/-- Fields that an acknowledgement does not reach. -/
theorem acknowledge_eq : ∃ ls c0 c1 q0 q1,
    s.acknowledge ch = { s with lanes := ls, ch0 := c0, ch1 := c1, queue0 := q0, queue1 := q1 } := by
  unfold State.acknowledge State.applyEffects State.countChannel
  split
  · split_ifs
    · exact ⟨_, _, _, _, _, rfl⟩
    · cases ch <;> split <;> try exact ⟨_, _, _, _, _, rfl⟩
      all_goals rename_i c _ _; cases c <;> exact ⟨_, _, _, _, _, rfl⟩
  · exact ⟨_, _, _, _, _, rfl⟩

/-! ### A superframe boundary -/

/-- The held state that a bank swap leaves (R57). -/
def heldAfterSwap : Grid HeldState :=
  swapHeld s.efa.holdLimit s.map.activeBank s.map.swap.activeBank s.efa.held

/-- The map and held state of a bank swap (R39, R57). -/
def swapBanks : State :=
  { s with map := s.map.swap, efa := { s.efa with held := heldAfterSwap s } }

/-- The body of the COMMIT's reply (R39). -/
def swapBody : List Byte :=
  [s.map.swap.generation, byteOf s.map.swap.active.code, byteOf s.map.differing, 0]

/-- The state after the MAP's event of a superframe boundary, the frame start's marks apart (R30, R39). -/
inductive Crossed : State → Prop
  | passed : Crossed s
  | ticked (e : EditSession) (held : s.map.session = some e) (more : 1 < e.idleRemaining)
    (free : s.map.scheduled = none) :
    Crossed { s with map := { s.map with session := some { e with idleRemaining := e.idleRemaining - 1 } } }
  | expired (e : EditSession) (held : s.map.session = some e) (free : s.map.scheduled = none) :
    Crossed (s.endSession.withEvents [.lockExpired e.holder])
  | swapped (c : ChannelId) (committer : s.map.scheduled = some c) :
    Crossed (((swapBanks s).completeCommit c .ok (swapBody s)).withEvents [.commitDone c])

theorem completeCommit_work (c : ChannelId) (st : Status) (b : List Byte) (w : FrameWork) :
    State.completeCommit { s with work := w } c st b = { s.completeCommit c st b with work := w } := by
  unfold State.completeCommit
  cases c <;> dsimp only [State.channel] <;> split <;> rfl

/-- A bank swap: the map, held state, the committer's reply and COMMIT_DONE. -/
theorem bankSwap_eq (c : ChannelId) : s.bankSwap c = State.withEvents
    { (swapBanks s).completeCommit c .ok (swapBody s) with
      work := { s.work with swapped := some c } } [.commitDone c] := by
  unfold State.bankSwap
  rw [State.raise_eq]
  exact congrArg (fun u => State.withEvents u [.commitDone c]) (completeCommit_work (swapBanks s) c .ok (swapBody s) _)

theorem mapEvent_crossed : ∃ t w, Crossed s t ∧ s.mapEvent = { t with work := w } := by
  unfold State.mapEvent
  split_ifs
  · exact ⟨s, s.work, .passed, rfl⟩
  · dsimp only
    split
    · rename_i c committer
      refine ⟨_, { s.work with mapTaken := true, swapped := some c }, .swapped c committer, ?_⟩
      rw [bankSwap_eq]
      exact congrArg (fun u => State.withEvents
          { u with work := { s.work with mapTaken := true, swapped := some c } } [.commitDone c])
        (completeCommit_work (swapBanks s) c .ok (swapBody s) _)
    · rename_i free
      unfold State.idleTick
      split
      · rename_i e held
        split_ifs with last
        · rw [State.raise_eq]
          exact ⟨_, _, .expired e held free, rfl⟩
        · exact ⟨_, _, .ticked e held (not_le.mp last) free, rfl⟩
      · exact ⟨s, _, .passed, rfl⟩

end

end Sys2Proof.Proofs

/-! Every step keeps the law of the channels and of the guard (R126, R128, R130, R136, R139, R149, R151, R157). -/

namespace Sys2Proof.Proofs

open Sys2Proof.Machine

/-! ### One channel's record -/

section

variable {c d : Channel}

theorem length_packBytes (b : List Byte) : (packBytes b).length = (b.length + 1) / 2 := by
  fun_induction packBytes b with
  | case1 x y rest ih =>
    rw [List.length_cons, ih]
    simp only [List.length_cons]
    omega
  | case2 | case3 => simp

theorem lawful_sameButAcked (law : c.Lawful) (same : SameButAcked c d) : d.Lawful := by
  obtain ⟨phase, hold, stored⟩ := same
  have bodies : ∀ p, d.stored = some p → ∃ q, c.stored = some q ∧ p.status = q.status ∧ p.seq = q.seq ∧
      p.body = q.body ∧ p.check = q.check ∧ p.resends = q.resends := by
    intro p eq
    rcases stored with same | ⟨q, was, now⟩
    · exact ⟨p, same ▸ eq, rfl, rfl, rfl, rfl, rfl⟩
    · cases now.symm.trans eq
      exact ⟨q, was, rfl, rfl, rfl, rfl, rfl⟩
  have present : d.stored.isSome = c.stored.isSome := by
    rcases stored with same | ⟨q, was, now⟩
    · rw [same]
    · rw [was, now]
      rfl
  refine ⟨hold ▸ law.hold_range, phase ▸ law.receiving_le, phase ▸ law.executing_eq, fun k eq => ?_, fun n eq => ?_,
    fun p eq => ?_⟩
  · obtain ⟨q, was, le⟩ := law.replying_le k (phase ▸ eq)
    obtain ⟨p, now⟩ := Option.isSome_iff_exists.mp (present.trans (Option.isSome_iff_exists.mpr ⟨q, was⟩))
    obtain ⟨q', was', -, -, body, -⟩ := bodies p now
    cases was.symm.trans was'
    exact ⟨p, now, body ▸ le⟩
  · rw [present]
    exact law.awaiting_range n (phase ▸ eq)
  · obtain ⟨q, was, status, seq, body, check, resends⟩ := bodies p eq
    rw [status, seq, body, check, resends]
    exact law.stored_sound q was

/-- A record whose state keeps nothing. -/
theorem lawful_rest (law : c.Lawful) (p : Phase) (rest : p = .off ∨ p = .idle) (k : ChannelCounters) :
    Channel.Lawful { c with phase := p, counters := k } := by
  rcases rest with rfl | rfl <;>
    exact ⟨law.hold_range, nofun, nofun, nofun, nofun, law.stored_sound⟩

theorem lawful_receive (law : c.Lawful) (r : Request) (le : r.body.length ≤ r.len.toNat) :
    Channel.Lawful { c with phase := .receiving r } :=
  ⟨law.hold_range, by rintro _ ⟨⟩; exact le, nofun, nofun, nofun, law.stored_sound⟩

theorem lawful_execute (law : c.Lawful) (r : Request) (w : Bool) (eq : r.body.length = r.len.toNat) :
    Channel.Lawful { c with phase := .executing r w } :=
  ⟨law.hold_range, nofun, by rintro _ _ ⟨⟩; exact eq, nofun, nofun, law.stored_sound⟩

/-- A reply sent from its head. -/
theorem lawful_send (law : c.Lawful) (p : StoredReply) (k : ChannelCounters)
    (sound : p.check = replyCheck p.status p.seq p.body ∧ p.body.length ≤ 31 ∧ p.resends ≤ 3) :
    Channel.Lawful { c with phase := .replying 0, stored := some p, counters := k } := by
  refine ⟨law.hold_range, nofun, nofun, ?_, nofun, ?_⟩
  · rintro _ ⟨⟩
    exact ⟨p, rfl, Nat.zero_le _⟩
  · rintro _ ⟨⟩
    exact sound

/-- R128, R135: the check of a formed reply is the one over it. -/
theorem formReply_check (r : Request) (st : Status) (b : List Byte) (e : Deferred) :
    (formReply r st b e).check =
      replyCheck (formReply r st b e).status (formReply r st b e).seq (formReply r st b e).body := by
  simp only [formReply]

theorem lawful_answer (law : c.Lawful) (r : Request) (st : Status) (b : List Byte) (e : Deferred)
    (short : b.length ≤ 62) : Channel.Lawful { c with phase := .replying 0, stored := some (formReply r st b e) } := by
  have fits : (formReply r st b e).body.length ≤ 31 := by
    simp only [formReply, length_packBytes]
    omega
  have fresh : (formReply r st b e).resends ≤ 3 := by simp only [formReply, Nat.zero_le]
  exact lawful_send law (formReply r st b e) c.counters ⟨formReply_check r st b e, fits, fresh⟩

theorem lawful_hold (law : c.Lawful) (n : Nat) (range : 8 ≤ n ∧ n ≤ 255) :
    Channel.Lawful { c with replyHold := n } :=
  ⟨range, law.receiving_le, law.executing_eq, law.replying_le, law.awaiting_range, law.stored_sound⟩

theorem lawful_begun (law : c.Lawful) (p : Phase) (rest : p = .off ∨ p = .idle) : (begunAnew c p).Lawful := by
  rcases rest with rfl | rfl <;> exact ⟨law.hold_range, nofun, nofun, nofun, nofun, nofun⟩

end

section

variable {s t : State} {ch : ChannelId}

/-! ### The law by parts -/

theorem lawful_channel (law : s.ChannelLaw) (c : ChannelId) : (s.channel c).Lawful := by
  cases c
  · exact law.ch0
  · exact law.ch1

/-- The fields that the law speaks of are the same. -/
theorem channelLaw_of_eq (law : s.ChannelLaw) (ch0 : t.ch0 = s.ch0) (ch1 : t.ch1 = s.ch1)
    (strapLane : t.strapLane = s.strapLane) (operatorPlace : t.operatorPlace = s.operatorPlace)
    (guard : t.guard = s.guard) : t.ChannelLaw := by
  obtain ⟨h0, h1, on, off, differ, filled, le, operator, ordered⟩ := law
  refine ⟨?_, ?_, ?_, ?_, ?_, ?_, ?_, ?_, ?_⟩ <;> simp only [ch0, ch1, strapLane, operatorPlace, guard] <;> assumption

/-- A channel's record replaced: it stays enabled or OFF. -/
theorem channelLaw_setChannel (law : s.ChannelLaw) (c : Channel) (lawful : c.Lawful)
    (off : c.phase = .off ↔ (s.channel ch).phase = .off) : (s.setChannel ch c).ChannelLaw := by
  cases ch
  · exact ⟨lawful, law.ch1, fun is => law.ch0_on (off.mp is), law.ch1_off_iff, law.places_differ, law.overruns_filled,
      law.overruns_le, law.fault_operator, law.regions_ordered⟩
  · exact ⟨law.ch0, lawful, law.ch0_on, off.trans law.ch1_off_iff, law.places_differ, law.overruns_filled,
      law.overruns_le, law.fault_operator, law.regions_ordered⟩

/-- Both channels' records replaced, by records that are enabled or OFF as before. -/
theorem channelLaw_channels (law : s.ChannelLaw) (c0 c1 : Channel) (lawful0 : c0.Lawful) (lawful1 : c1.Lawful)
    (phase0 : c0.phase = s.ch0.phase) (phase1 : c1.phase = s.ch1.phase) :
    ({ s with ch0 := c0, ch1 := c1 } : State).ChannelLaw :=
  ⟨lawful0, lawful1, phase0 ▸ law.ch0_on, phase1 ▸ law.ch1_off_iff, law.places_differ, law.overruns_filled,
    law.overruns_le, law.fault_operator, law.regions_ordered⟩

theorem channelLaw_withEvents (law : s.ChannelLaw) (es : List Event) : (s.withEvents es).ChannelLaw :=
  channelLaw_of_eq law rfl rfl rfl rfl rfl

theorem channelLaw_setQueue (law : s.ChannelLaw) (q : Queue) : (s.setQueue ch q).ChannelLaw :=
  channelLaw_of_eq law (by simp) (by simp) (by simp) (by simp) (by simp)

theorem channelLaw_onlyGroups (law : s.ChannelLaw) (only : s.OnlyGroups t) : t.ChannelLaw := by
  obtain ⟨gs, q0, q1, n, rfl⟩ := only
  exact channelLaw_of_eq law rfl rfl rfl rfl rfl

theorem channelLaw_onlyLanes (law : s.ChannelLaw) (only : OnlyLanes s t) : t.ChannelLaw := by
  obtain ⟨ls, gs, q0, q1, n, rfl⟩ := only
  exact channelLaw_of_eq law rfl rfl rfl rfl rfl

theorem channelLaw_guard (law : s.ChannelLaw) (g : Guard) (filled : g.overruns ≠ 0 → g.fault.isSome = true)
    (le : g.overruns ≤ 255) (operator : ∀ f, g.fault = some f → f.channel = .ch1)
    (ordered : ∀ n x, g.regions.get n = some x → x.laneFirst ≤ x.laneLast ∧ x.slotFirst ≤ x.slotLast) :
    ({ s with guard := g } : State).ChannelLaw :=
  ⟨law.ch0, law.ch1, law.ch0_on, law.ch1_off_iff, law.places_differ, filled, le, operator, ordered⟩

theorem channelLaw_finish (law : s.ChannelLaw) (r : Request) (st : Status) (b : List Byte) (e : Deferred)
    (on : (s.channel ch).phase ≠ .off) (short : b.length ≤ 62) : (s.finish ch r st b e).ChannelLaw :=
  channelLaw_setChannel law _ (lawful_answer (lawful_channel law ch) r st b e short) (iff_of_false nofun on)

/-! ### Words -/

theorem channelLaw_acknowledge (law : s.ChannelLaw) (ch : ChannelId) : (s.acknowledge ch).ChannelLaw := by
  have ch0 := channel_acknowledge s ch .ch0
  have ch1 := channel_acknowledge s ch .ch1
  obtain ⟨ls, c0, c1, q0, q1, eq⟩ := acknowledge_eq s ch
  rw [eq] at ch0 ch1 ⊢
  exact channelLaw_of_eq
    (channelLaw_channels law c0 c1 (lawful_sameButAcked law.ch0 ch0) (lawful_sameButAcked law.ch1 ch1) ch0.1 ch1.1)
    rfl rfl rfl rfl rfl

theorem channelLaw_count (law : s.ChannelLaw) (f : ChannelCounters → ChannelCounters) :
    (s.countChannel ch f).ChannelLaw :=
  channelLaw_setChannel law _ (lawful_sameButAcked (lawful_channel law ch) ((SameButAcked.refl _).counters _)) Iff.rfl

theorem channelLaw_idle (law : s.ChannelLaw) (on : (s.channel ch).phase ≠ .off) : (s.setPhase ch .idle).ChannelLaw :=
  channelLaw_setChannel law _ (lawful_rest (lawful_channel law ch) .idle (.inr rfl) _) (iff_of_false nofun on)

theorem phase_countChannel (s : State) (ch : ChannelId) (f : ChannelCounters → ChannelCounters) :
    ((s.countChannel ch f).channel ch).phase = (s.channel ch).phase := by
  rw [State.countChannel, State.channel_setChannel]

theorem channelLaw_discard (law : s.ChannelLaw) (f : ChannelCounters → ChannelCounters)
    (on : (s.channel ch).phase ≠ .off) : (s.discard ch f).ChannelLaw :=
  channelLaw_idle (channelLaw_count law f) (by rwa [phase_countChannel])

/-- A guard fault is one of channel 1, and it fills the record or counts (R157). -/
theorem channelLaw_guardFault (law : s.ChannelLaw) (r : Request) (reason : FaultReason) (target : Target)
    (operator : ch = .ch1) : (s.guardFault ch r reason target).ChannelLaw := by
  rw [State.guardFault_eq]
  refine channelLaw_withEvents ?_ _
  cases fault : s.guard.fault with
  | none =>
    refine channelLaw_guard law _ (fun _ => rfl) law.overruns_le ?_ law.regions_ordered
    rintro f ⟨⟩
    exact operator
  | some f =>
    exact channelLaw_guard law _ (fun _ => by simp [fault]) (min_le_left _ _)
      (fun f eq => law.fault_operator f eq) law.regions_ordered

theorem channelLaw_heard (law : s.ChannelLaw) (heard : Heard s ch t) : t.ChannelLaw := by
  have own := lawful_channel law ch
  have reloaded : ({ s with map := s.map.reload ch } : State).ChannelLaw := channelLaw_of_eq law rfl rfl rfl rfl rfl
  have same : State.channel { s with map := s.map.reload ch } ch = s.channel ch := by cases ch <;> rfl
  cases heard
  case ignored => exact law
  case counted => exact channelLaw_count law _
  case begun r a f empty _ on implicit =>
    have acked : a.ChannelLaw ∧ (a.channel ch).phase = (s.channel ch).phase := by
      rcases implicit with rfl | ⟨rfl, -⟩
      · exact ⟨channelLaw_acknowledge law ch, (channel_acknowledge s ch ch).1⟩
      · exact ⟨law, rfl⟩
    refine channelLaw_setChannel (channelLaw_count acked.1 f)
      _ (lawful_receive (lawful_channel (channelLaw_count acked.1 f) ch) r (by simp [empty])) (iff_of_false nofun ?_)
    rwa [phase_countChannel, acked.2]
  case joined r x receiving room =>
    exact channelLaw_setChannel law _ (lawful_receive own _ (by simpa using room)) (iff_of_false nofun (by simp [receiving]))
  case discarded r f es receiving =>
    exact channelLaw_withEvents (channelLaw_discard law f (by simp [receiving])) es
  case acknowledged p _ on _ =>
    exact channelLaw_idle (channelLaw_acknowledge law ch) (by rwa [(channel_acknowledge s ch ch).1])
  case duplicated r p receiving stored =>
    obtain ⟨check, short, -⟩ := own.stored_sound p stored
    exact channelLaw_setChannel law _ (lawful_send own _ _ ⟨check, short, Nat.zero_le _⟩)
      (iff_of_false nofun (by simp [receiving]))
  case refused r st u receiving _ fault =>
    rcases fault with rfl | ⟨operator, a, b, rfl⟩
    · exact channelLaw_finish reloaded r st [] .none (by simp [same, receiving]) (Nat.zero_le _)
    · exact channelLaw_finish (channelLaw_guardFault reloaded r a b operator) r st [] .none
        (by simp [same, receiving]) (Nat.zero_le _)
  case handed r receiving whole _ =>
    refine channelLaw_setChannel reloaded _ ?_ (iff_of_false nofun (by simp [same, receiving]))
    rw [same]
    exact lawful_execute own r true (le_antisymm (own.receiving_le r receiving) whole)

/-! ### Controllers at a frame start -/

theorem channelLaw_sent (law : s.ChannelLaw) (sent : Sent s ch t) : t.ChannelLaw := by
  have own := lawful_channel law ch
  cases sent
  case nothing => exact law
  case next p k replying stored more =>
    refine channelLaw_setChannel law _ ⟨own.hold_range, nofun, nofun, ?_, nofun, own.stored_sound⟩
      (iff_of_false nofun (by simp [replying]))
    rintro _ ⟨⟩
    exact ⟨p, stored, Nat.succ_le_succ more⟩
  case last k replying stored =>
    refine channelLaw_setChannel law _ ⟨own.hold_range, nofun, nofun, nofun, ?_, own.stored_sound⟩
      (iff_of_false nofun (by simp [replying]))
    rintro _ ⟨⟩
    obtain ⟨low, high⟩ := own.hold_range
    exact ⟨stored, by omega, high⟩
  case waited n waiting more =>
    refine channelLaw_setChannel law _ ⟨own.hold_range, nofun, nofun, nofun, ?_, own.stored_sound⟩
      (iff_of_false nofun (by simp [waiting]))
    rintro _ ⟨⟩
    obtain ⟨stored, low, high⟩ := own.awaiting_range n waiting
    exact ⟨stored, by omega, by omega⟩
  case resent p n waiting stored more =>
    obtain ⟨check, short, -⟩ := own.stored_sound p stored
    exact channelLaw_setChannel law _ (lawful_send own _ _ ⟨check, short, more⟩) (iff_of_false nofun (by simp [waiting]))
  case abandoned n waiting f es => exact channelLaw_withEvents (channelLaw_discard law f (by simp [waiting])) es

theorem channelLaw_lostAlignment (law : s.ChannelLaw) (ch : ChannelId) : (s.lostAlignment ch).ChannelLaw := by
  unfold State.lostAlignment
  split
  · rename_i phase
    exact channelLaw_discard law _ (by simp [phase])
  · exact law

/-! ### The commands -/

theorem channelLaw_completeCommit (law : s.ChannelLaw) (c : ChannelId) (st : Status) (b : List Byte)
    (short : b.length ≤ 62) : (s.completeCommit c st b).ChannelLaw := by
  rcases completeCommit_cases s c st b with same | ⟨q, executing, done⟩
  · rwa [same]
  · rw [done]
    exact channelLaw_finish law q st b .none (by simp [executing]) short

theorem channelLaw_cancelCommit (law : s.ChannelLaw) : s.cancelCommit.ChannelLaw := by
  unfold State.cancelCommit
  split
  · exact channelLaw_completeCommit law _ _ _ (Nat.zero_le _)
  · exact law

/-- Channel 1 restarted: OFF exactly where it has no location. -/
theorem channelLaw_restart (law : s.ChannelLaw) (place : Option Place) (p : Phase)
    (off : p = .off ∧ place = none ∨ p = .idle ∧ place ≠ none) (differ : place ≠ some ⟨s.strapLane, 23⟩) :
    (State.restart { s with operatorPlace := place } p).ChannelLaw := by
  obtain ⟨m, es, -, eq⟩ := restart_cases { s with operatorPlace := place } p
  rw [eq]
  refine ⟨law.ch0, lawful_begun law.ch1 p (off.imp And.left And.left), law.ch0_on, ?_, differ, law.overruns_filled,
    law.overruns_le, law.fault_operator, law.regions_ordered⟩
  rcases off with ⟨rfl, rfl⟩ | ⟨rfl, on⟩
  · exact iff_of_true rfl rfl
  · exact iff_of_false nofun on

theorem get_set {α : Type} {n : Nat} (v : Vector α n) (k m : Fin n) (a : α) :
    (v.set k.val a k.isLt).get m = if m = k then a else v.get m := by
  simp only [Vector.get_eq_getElem, Vector.getElem_set, Fin.ext_iff, eq_comm]

theorem channelLaw_setRegion (law : s.ChannelLaw) (n : RegionId) (x : Option Region)
    (ordered : ∀ y, x = some y → y.laneFirst ≤ y.laneLast ∧ y.slotFirst ≤ y.slotLast) : (s.setRegion n x).ChannelLaw := by
  refine channelLaw_guard law _ law.overruns_filled law.overruns_le law.fault_operator fun m y is => ?_
  rw [get_set] at is
  split_ifs at is
  · exact ordered y is
  · exact law.regions_ordered m y is

theorem channelLaw_setReplyHold (law : s.ChannelLaw) (c : ChannelId) (n : Nat) (range : 8 ≤ n ∧ n ≤ 255) :
    (s.setReplyHold c n).ChannelLaw :=
  channelLaw_setChannel law _ (lawful_hold (lawful_channel law c) n range) Iff.rfl

theorem channelLaw_served {r : Request} {i : Instr} {u : State} {e : Deferred} (law : s.ChannelLaw)
    (served : Served s ch r i u e) : u.ChannelLaw := by
  have same : ∀ {u : State}, u.ch0 = s.ch0 → u.ch1 = s.ch1 → u.strapLane = s.strapLane →
      u.operatorPlace = s.operatorPlace → u.guard = s.guard → u.ChannelLaw := channelLaw_of_eq law
  have strap : ∀ n, (s.setReplyHold .ch1 n).strapLane = s.strapLane := fun n => by simp [State.setReplyHold]
  cases served
  case nothing => exact law
  case laneRead => exact law
  case channelRead => exact law
  case faulted operator => exact channelLaw_guardFault law r _ _ operator
  case subscribed => exact channelLaw_setQueue law _
  case eventsRead => exact channelLaw_setQueue law _
  case holdSet c n _ range => exact channelLaw_setReplyHold law c n range
  case placed p n _ range other _ =>
    rw [placeOperator_eq]
    have moved := channelLaw_restart (channelLaw_setReplyHold law .ch1 n range) (some p) .idle (.inr ⟨rfl, nofun⟩)
      (by rw [strap]; exact fun eq => other eq.symm)
    exact channelLaw_of_eq moved rfl rfl rfl rfl rfl
  case removed n _ range =>
    exact channelLaw_restart (channelLaw_setReplyHold law .ch1 n range) none .off (.inl ⟨rfl, rfl⟩) nofun
  case restarted on => exact channelLaw_restart law s.operatorPlace .idle (.inr ⟨rfl, on⟩) law.places_differ
  case datapathReset => exact channelLaw_of_eq (channelLaw_cancelCommit law) rfl rfl rfl rfl rfl
  case opened => exact same rfl rfl rfl rfl rfl
  case reopened => exact same rfl rfl rfl rfl rfl
  case abandoned => exact same rfl rfl rfl rfl rfl
  case broken => exact channelLaw_of_eq (channelLaw_cancelCommit law) rfl rfl rfl rfl rfl
  case wrote => exact same rfl rfl rfl rfl rfl
  case laneSet l on n _ _ free => exact channelLaw_onlyLanes law (onlyLanes_laneSet s l on n free)
  case egressSet => exact same rfl rfl rfl rfl rfl
  case configured => exact channelLaw_onlyGroups law (s.onlyGroups_redecide _ _)
  case reconfigured => exact same rfl rfl rfl rfl rfl
  case deleted => exact same rfl rfl rfl rfl rfl
  case requested => exact channelLaw_onlyGroups law (s.onlyGroups_redecide _ _)
  case inputSet n m low _ _ =>
    refine channelLaw_onlyGroups ?_ (onlyGroups_inputSet _ _)
    exact channelLaw_of_eq law rfl rfl rfl rfl rfl
  case regionSet n x _ ordered => exact channelLaw_setRegion law n x ordered
  case faultCleared => exact channelLaw_guard law _ (fun h => absurd rfl h) (Nat.zero_le _) nofun law.regions_ordered

theorem channelLaw_mapEvent (law : s.ChannelLaw) : s.mapEvent.ChannelLaw := by
  obtain ⟨t, w, crossed, eq⟩ := mapEvent_crossed s
  rw [eq]
  have after : t.ChannelLaw := by
    cases crossed
    case passed => exact law
    case swapped c _ =>
      refine channelLaw_withEvents (channelLaw_completeCommit ?_ c .ok _ (by simp [swapBody])) _
      exact channelLaw_of_eq law rfl rfl rfl rfl rfl
    all_goals exact channelLaw_of_eq law rfl rfl rfl rfl rfl
  exact channelLaw_of_eq after rfl rfl rfl rfl rfl

theorem lawful_resetChannel (p : Phase) (rest : p = .off ∨ p = .idle) : (Channel.reset p).Lawful := by
  rcases rest with rfl | rfl <;> exact ⟨show 8 ≤ 48 ∧ 48 ≤ 255 by decide, nofun, nofun, nofun, nofun, nofun⟩

theorem channelLaw_resetWith (straps : BitVec 3) (pins : BitVec 4) : (State.resetWith straps pins).ChannelLaw := by
  refine ⟨lawful_resetChannel .idle (.inr rfl), lawful_resetChannel .off (.inl rfl), nofun, iff_of_true rfl rfl, nofun,
    fun h => absurd rfl h, Nat.zero_le _, nofun, fun n x is => ?_⟩
  rw [region_resetWith] at is
  cases is

theorem kept_channelLaw : Kept State.ChannelLaw where
  deviceReset := channelLaw_resetWith
  own _ _ _ _ law := channelLaw_of_eq law rfl rfl rfl rfl rfl
  timebase _ _ law _ _ _ := channelLaw_of_eq law rfl rfl rfl rfl rfl
  events _ es law := channelLaw_withEvents law es
  served _ _ _ _ _ _ st b law waits served short _ :=
    channelLaw_finish (channelLaw_served law served) _ st b _ (by simp [served.phase waits]) short
  scheduled s ch r law waits _ _ := by
    have same : State.channel { s with map := { s.map with scheduled := some ch } } ch = s.channel ch := by
      cases ch <;> rfl
    refine channelLaw_setChannel ?_ _ ?_ (iff_of_false nofun (by simp [same, waits]))
    · exact channelLaw_of_eq law rfl rfl rfl rfl rfl
    · rw [same]
      exact lawful_execute (lawful_channel law ch) r false ((lawful_channel law ch).executing_eq r true waits)
  heard _ _ _ := channelLaw_heard
  lost _ ch law := channelLaw_lostAlignment law ch
  laneUnseen _ _ _ law _ _ := channelLaw_of_eq law rfl rfl rfl rfl rfl
  laneReported _ _ _ _ law _ := by
    refine channelLaw_onlyGroups ?_ (State.onlyGroups_reportLanes _)
    exact channelLaw_of_eq law rfl rfl rfl rfl rfl
  boundary _ := channelLaw_mapEvent
  taken _ law := channelLaw_of_eq law rfl rfl rfl rfl rfl
  ticked s g law := by
    obtain ⟨gs, q0, q1, w, eq, -⟩ := s.tickGroup_eq g
    rw [eq]
    exact channelLaw_of_eq law rfl rfl rfl rfl rfl
  sampled s i level place law := by
    obtain ⟨is, gs, q0, q1, n, eq, -⟩ := s.sampleInput_eq i level place
    rw [eq]
    exact channelLaw_of_eq law rfl rfl rfl rfl rfl
  sent _ _ _ := channelLaw_sent
  composed _ law := channelLaw_of_eq law rfl rfl rfl rfl rfl

end

/-- Settles O10: every event keeps the law of the channels and of the guard. -/
theorem stepKeepsChannelLaw : Obligations.StepKeepsChannelLaw := by
  unfold Obligations.StepKeepsChannelLaw
  exact fun s t law stepped => kept_channelLaw.step s t law stepped

end Sys2Proof.Proofs

/-! Every step keeps the law of the map (R12, R26, R35, R37, R38). -/

namespace Sys2Proof.Proofs

open Sys2Proof.Machine

section

variable {s t : State} {ch : ChannelId}

/-! ### Clean banks (R12, R35) -/

/-- An entry draws from the same sources where the groups have the same lanes. -/
theorem sources_congr (lanes : s.SameGroupLanes t) (e : Entry) : e.sources t.groups = e.sources s.groups := by
  cases e with
  | protect g slot f =>
    have same : (t.groups.get g).map (fun x => (x.workingLane, x.protectLane)) =
        (s.groups.get g).map fun x => (x.workingLane, x.protectLane) := lanes g
    unfold Entry.sources
    cases now : t.groups.get g <;> cases was : s.groups.get g <;> simp_all
  | unused | direct | fixed => rfl

theorem namesOffGroup_congr (lanes : s.SameGroupLanes t) (e : Entry) : t.namesOffGroup e = s.namesOffGroup e := by
  cases e with
  | protect g slot f =>
    have same := lanes g
    unfold State.namesOffGroup
    cases now : t.group g <;> cases was : s.group g <;> simp_all
  | unused | direct | fixed => rfl

theorem managed_congr (strapLane : t.strapLane = s.strapLane) (operatorPlace : t.operatorPlace = s.operatorPlace)
    (p : Place) : t.managed p = s.managed p := by
  unfold State.managed State.place
  rw [strapLane, operatorPlace]

theorem cleanBank_congr {b : Bank} (clean : s.CleanBank b) (managed : ∀ p, t.managed p = true → s.managed p = true)
    (lanes : s.SameGroupLanes t) : t.CleanBank b := by
  refine ⟨fun d reserved => clean.reserved_unused d (managed d reserved), fun d p draws => ?_, fun d => ?_⟩
  · rw [sources_congr lanes] at draws
    exact Bool.eq_false_iff.mpr fun reserved => by
      have free := clean.sources_free d p draws
      rw [managed p reserved] at free
      cases free
  · rw [namesOffGroup_congr lanes]
    exact clean.groups_configured d

theorem cleanBank_unused (s : State) : s.CleanBank (Grid.replicate .unused) := by
  refine ⟨fun d _ => Grid.get_replicate _ d, fun d p draws => ?_, fun d => ?_⟩
  · rw [Grid.get_replicate] at draws
    cases draws
  · rw [Grid.get_replicate]
    rfl

/-! ### The law by parts -/

theorem sameGroupLanes_of_groups (groups : t.groups = s.groups) : s.SameGroupLanes t := fun g => by
  rw [State.group_congr s g t groups]

/-- The map, the locations and the groups' lanes are the same, and a commit still waits in its channel. -/
theorem mapLaw_of_lanes (law : s.MapLaw) (map : t.map = s.map) (strapLane : t.strapLane = s.strapLane)
    (operatorPlace : t.operatorPlace = s.operatorPlace) (lanes : s.SameGroupLanes t)
    (executing : ∀ c r, (s.channel c).phase = .executing r false → (t.channel c).phase = .executing r false) :
    t.MapLaw := by
  have managed : ∀ p, t.managed p = true → s.managed p = true := fun p h => by
    rwa [← managed_congr strapLane operatorPlace]
  obtain ⟨lock, active, scheduled⟩ := law
  refine ⟨⟨?_, ?_, fun c committer => ?_, ?_⟩, ?_, fun has => ?_⟩ <;> simp only [map] at *
  · exact lock.free_equal
  · exact lock.committer_holds
  · obtain ⟨r, waits⟩ := lock.committer_executes c committer
    exact ⟨r, executing c r waits⟩
  · exact lock.idle_range
  · exact cleanBank_congr active managed lanes
  · exact cleanBank_congr (scheduled has) managed lanes

theorem mapLaw_of_eq (law : s.MapLaw) (map : t.map = s.map) (strapLane : t.strapLane = s.strapLane)
    (operatorPlace : t.operatorPlace = s.operatorPlace) (groups : t.groups = s.groups) (ch0 : t.ch0 = s.ch0)
    (ch1 : t.ch1 = s.ch1) : t.MapLaw := by
  refine mapLaw_of_lanes law map strapLane operatorPlace (sameGroupLanes_of_groups groups) fun c r waits => ?_
  cases c
  · exact (congrArg Channel.phase ch0).trans waits
  · exact (congrArg Channel.phase ch1).trans waits

theorem mapLaw_withEvents (law : s.MapLaw) (es : List Event) : (s.withEvents es).MapLaw :=
  mapLaw_of_eq law rfl rfl rfl rfl rfl rfl

/-- A channel's record replaced: no commit waits in it, or it still does. -/
theorem mapLaw_setChannel (law : s.MapLaw) (c : Channel)
    (executing : ∀ r, (s.channel ch).phase = .executing r false → c.phase = .executing r false) :
    (s.setChannel ch c).MapLaw := by
  refine mapLaw_of_lanes law (by simp) (by simp) (by simp) (sameGroupLanes_of_groups (by simp)) fun d r waits => ?_
  by_cases own : d = ch
  · subst own
    rw [State.channel_setChannel]
    exact executing r waits
  · rwa [State.channel_setChannel_of_ne _ _ _ _ own]

/-- The channel of a request that waits for its owner has no scheduled commit. -/
theorem not_committer_of_waits (law : s.MapLaw) (r : Request) (waits : (s.channel ch).phase = .executing r true) :
    s.map.scheduled ≠ some ch := by
  intro committer
  obtain ⟨q, executing⟩ := law.lock.committer_executes ch committer
  cases waits.symm.trans executing

/-- While no channel holds the lock nothing is scheduled. -/
theorem unscheduled_of_free (law : s.MapLaw) (free : s.map.session = none) : s.map.scheduled = none := by
  cases scheduled : s.map.scheduled with
  | none => rfl
  | some c =>
    have holds := law.lock.committer_holds c scheduled
    rw [ConnectionMap.holder, free] at holds
    cases holds

/-- A lock that no channel holds, over a clean active bank. -/
theorem mapLaw_unlocked (session : t.map.session = none) (scheduled : t.map.scheduled = none)
    (equal : t.map.pendingBank = t.map.activeBank) (clean : t.CleanBank t.map.activeBank) : t.MapLaw := by
  refine ⟨⟨fun _ => equal, fun c committer => ?_, fun c committer => ?_, fun e held => ?_⟩, clean, fun has => ?_⟩
  · rw [scheduled] at committer
    cases committer
  · rw [scheduled] at committer
    cases committer
  · rw [session] at held
    cases held
  · rw [scheduled] at has
    cases has

/-- R26, R31: a session ended over the same active bank. -/
theorem mapLaw_ended (map : t.map = s.map.restore.release) (clean : t.CleanBank s.map.activeBank) : t.MapLaw := by
  have active : t.map.activeBank = s.map.activeBank := by
    rw [map]
    exact ConnectionMap.activeBank_setPending ..
  refine mapLaw_unlocked (by rw [map]; rfl) (by rw [map]; rfl) ?_ (active ▸ clean)
  rw [active, map]
  exact ConnectionMap.pendingBank_setPending ..

/-- A session of the holder with its idle timer set (R27, R29, R30). -/
theorem mapLaw_session (law : s.MapLaw) (e : EditSession) (holder : s.map.holder = some e.holder)
    (range : 4 ≤ e.idleTimeout ∧ e.idleTimeout ≤ 255 ∧ 1 ≤ e.idleRemaining ∧ e.idleRemaining ≤ e.idleTimeout) :
    ({ s with map := { s.map with session := some e } } : State).MapLaw := by
  refine ⟨⟨nofun, fun c committer => ?_, fun c committer => ?_, ?_⟩,
    cleanBank_congr law.active_clean (fun _ => id) (sameGroupLanes_of_groups rfl),
    fun has => cleanBank_congr (law.scheduled_clean has) (fun _ => id) (sameGroupLanes_of_groups rfl)⟩
  · exact holder.symm.trans (law.lock.committer_holds c committer)
  · obtain ⟨r, executing⟩ := law.lock.committer_executes c committer
    exact ⟨r, by cases c <;> exact executing⟩
  · rintro _ ⟨⟩
    exact range

theorem mapLaw_reload (law : s.MapLaw) (ch : ChannelId) : ({ s with map := s.map.reload ch } : State).MapLaw := by
  unfold ConnectionMap.reload
  split
  · rename_i e held
    split_ifs
    · obtain ⟨low, high, -, -⟩ := law.lock.idle_range e held
      exact mapLaw_session law { e with idleRemaining := e.idleTimeout } (by simp [ConnectionMap.holder, held])
        ⟨low, high, by show 1 ≤ e.idleTimeout; omega, le_rfl⟩
    · exact law
  · exact law

/-! ### Words and replies -/

theorem phase_acknowledge (s : State) (ch c : ChannelId) : ((s.acknowledge ch).channel c).phase = (s.channel c).phase :=
  (channel_acknowledge s ch c).1

theorem mapLaw_acknowledge (law : s.MapLaw) (ch : ChannelId) : (s.acknowledge ch).MapLaw := by
  have phase := phase_acknowledge s ch
  obtain ⟨ls, c0, c1, q0, q1, eq⟩ := acknowledge_eq s ch
  rw [eq] at phase ⊢
  exact mapLaw_of_lanes law rfl rfl rfl (sameGroupLanes_of_groups rfl) fun c r waits => (phase c).trans waits

theorem mapLaw_count (law : s.MapLaw) (f : ChannelCounters → ChannelCounters) : (s.countChannel ch f).MapLaw :=
  mapLaw_setChannel law _ fun _ => id

theorem mapLaw_setPhase (law : s.MapLaw) (p : Phase) (other : ∀ r, (s.channel ch).phase ≠ .executing r false) :
    (s.setPhase ch p).MapLaw :=
  mapLaw_setChannel law _ fun r waits => absurd waits (other r)

theorem mapLaw_discard (law : s.MapLaw) (f : ChannelCounters → ChannelCounters)
    (other : ∀ r, (s.channel ch).phase ≠ .executing r false) : (s.discard ch f).MapLaw :=
  mapLaw_setPhase (mapLaw_count law f) .idle fun r => by rw [phase_countChannel]; exact other r

theorem mapLaw_finish (law : s.MapLaw) (r : Request) (st : Status) (b : List Byte) (e : Deferred)
    (other : ∀ q, (s.channel ch).phase ≠ .executing q false) : (s.finish ch r st b e).MapLaw :=
  mapLaw_setChannel law _ fun q waits => absurd waits (other q)

theorem mapLaw_guardFault (law : s.MapLaw) (r : Request) (a : FaultReason) (b : Target) :
    (s.guardFault ch r a b).MapLaw :=
  mapLaw_of_eq law (by simp) (by simp) (by simp) (by simp) (by simp) (by simp)

theorem mapLaw_heard (law : s.MapLaw) (heard : Heard s ch t) : t.MapLaw := by
  have same : State.channel { s with map := s.map.reload ch } ch = s.channel ch := by cases ch <;> rfl
  have reloaded := mapLaw_reload law ch
  cases heard
  case ignored => exact law
  case counted => exact mapLaw_count law _
  case begun r a f _ open_ _ implicit =>
    refine mapLaw_setPhase (mapLaw_count (s := a) ?_ f) _ fun q => ?_
    · rcases implicit with rfl | ⟨rfl, -⟩
      · exact mapLaw_acknowledge law ch
      · exact law
    · rw [phase_countChannel]
      rcases implicit with rfl | ⟨rfl, -⟩
      · rw [phase_acknowledge]
        exact open_ q false
      · exact open_ q false
  case joined r x receiving _ => exact mapLaw_setPhase law _ (by simp [receiving])
  case discarded r f es receiving => exact mapLaw_withEvents (mapLaw_discard law f (by simp [receiving])) es
  case acknowledged p _ _ between =>
    exact mapLaw_setPhase (mapLaw_acknowledge law ch) _ fun q => by
      rw [phase_acknowledge]
      exact between q false
  case duplicated r p receiving _ => exact mapLaw_setChannel law _ (by simp [receiving])
  case refused r st u receiving _ fault =>
    rcases fault with rfl | ⟨-, a, b, rfl⟩
    · exact mapLaw_finish reloaded r st [] .none (by simp [same, receiving])
    · exact mapLaw_finish (mapLaw_guardFault reloaded r a b) r st [] .none (by simp [same, receiving])
  case handed r receiving _ _ => exact mapLaw_setPhase reloaded _ (by simp [same, receiving])

theorem mapLaw_sent (law : s.MapLaw) (sent : Sent s ch t) : t.MapLaw := by
  cases sent
  case nothing => exact law
  case next replying _ _ => exact mapLaw_setPhase law _ (by simp [replying])
  case last replying _ => exact mapLaw_setPhase law _ (by simp [replying])
  case waited waiting _ => exact mapLaw_setPhase law _ (by simp [waiting])
  case resent waiting _ _ => exact mapLaw_setChannel law _ (by simp [waiting])
  case abandoned waiting f es => exact mapLaw_withEvents (mapLaw_discard law f (by simp [waiting])) es

theorem mapLaw_lostAlignment (law : s.MapLaw) (ch : ChannelId) : (s.lostAlignment ch).MapLaw := by
  unfold State.lostAlignment
  split
  · rename_i phase
    exact mapLaw_discard law _ (by simp [phase])
  · exact law

/-! ### Groups re-decided -/

theorem sameGroupLanes_reportLanes (s : State) : s.SameGroupLanes s.reportLanes := fun g => by
  rw [State.group_reportLanes]
  split
  · rename_i off
    rw [off]
  · rename_i x on
    rw [on]
    split_ifs
    · rfl
    · simp only [Option.map_some, Group.redecide_lanes]

theorem sameGroupLanes_foldl {α : Type} (f : State → α → State) (step : ∀ u a, State.SameGroupLanes u (f u a))
    (xs : List α) (s : State) : s.SameGroupLanes (xs.foldl f s) := by
  induction xs generalizing s with
  | nil => exact fun _ => rfl
  | cons a xs ih => exact (step s a).trans (ih (f s a))

theorem sameGroupLanes_forEach_reevaluate (s : State) (gs : List GroupId) :
    s.SameGroupLanes (s.forEach gs State.reevaluate) :=
  sameGroupLanes_foldl State.reevaluate (fun u g => State.sameGroupLanes_reevaluateAmong u g id) _ _

theorem mapLaw_onlyGroups (law : s.MapLaw) (only : s.OnlyGroups t) (lanes : s.SameGroupLanes t) : t.MapLaw := by
  obtain ⟨gs, q0, q1, n, rfl⟩ := only
  exact mapLaw_of_lanes law rfl rfl rfl lanes fun c r waits => by cases c <;> exact waits

theorem mapLaw_reportLanes (law : s.MapLaw) : s.reportLanes.MapLaw :=
  mapLaw_onlyGroups law (State.onlyGroups_reportLanes s) (sameGroupLanes_reportLanes s)

theorem mapLaw_setLane (law : s.MapLaw) (l : LaneId) (x : Lane) : (s.setLane l x).MapLaw :=
  mapLaw_of_eq law rfl rfl rfl rfl rfl rfl

theorem mapLaw_reported (law : s.MapLaw) (l : LaneId) (x : Lane) (es : List Event) :
    ((s.setLane l x).withEvents es).reportLanes.MapLaw :=
  mapLaw_reportLanes (mapLaw_withEvents (mapLaw_setLane law l x) es)

/-! ### The commands -/

theorem mapLaw_setThreshold (law : s.MapLaw) (l : LaneId) (n : Nat) : (s.setThreshold l n).MapLaw := by
  unfold State.setThreshold
  dsimp only
  split
  · split_ifs
    · rw [State.raise_eq]
      exact mapLaw_reported law l _ _
    · exact mapLaw_setLane law l _
  · exact mapLaw_setLane law l _

theorem mapLaw_disableLane (law : s.MapLaw) (l : LaneId) (free : s.managedLane l = false) : (s.disableLane l).MapLaw := by
  by_cases aligned : (s.lane l).isAligned = true
  · rw [disableLane_of_aligned s l free aligned]
    exact mapLaw_reported law l _ _
  · unfold State.disableLane
    rw [if_neg aligned]
    exact mapLaw_setLane law l _

/-- A place that no entry of either bank uses becomes a management location, or a location is given up (R143). -/
theorem cleanBank_moved (p : Option Place) (free : ∀ q, p = some q → s.placeInUse q = false) (n : BankName)
    (clean : s.CleanBank (s.map.bank n)) :
    State.CleanBank { s with operatorPlace := p } (s.map.bank n) := by
  have managed : ∀ d, State.managed { s with operatorPlace := p } d = true → s.managed d = true ∨ p = some d := by
    intro d reserved
    simp only [State.managed, State.place, Bool.or_eq_true, beq_iff_eq] at reserved ⊢
    exact reserved.imp_left .inl
  have unused : ∀ q, p = some q → ∀ n d, ¬ (((s.map.bank n).get d ≠ .unused ∧ d = q) ∨ s.Draws ((s.map.bank n).get d) q) :=
    fun q is n d uses => by
      have used := (s.placeInUse_iff q).mpr ⟨n, d, uses⟩
      rw [free q is] at used
      cases used
  refine ⟨fun d reserved => ?_, fun d q draws => ?_, clean.groups_configured⟩
  · rcases managed d reserved with was | now
    · exact clean.reserved_unused d was
    · by_contra used
      exact unused d now n d (.inl ⟨used, rfl⟩)
  · refine Bool.eq_false_iff.mpr fun reserved => ?_
    rcases managed q reserved with was | now
    · have free := clean.sources_free d q draws
      rw [was] at free
      cases free
    · exact unused q now n d (.inr ((Entry.mem_sources_iff s _ q).mp draws))

/-- Channel 1 restarted, at a place that no entry uses or at none (R43, R143, R144). -/
theorem mapLaw_restart (law : s.MapLaw) (place : Option Place) (p : Phase)
    (free : ∀ q, place = some q → s.placeInUse q = false ∨ s.operatorPlace = some q) :
    (State.restart { s with operatorPlace := place } p).MapLaw := by
  have moved : ∀ n, s.CleanBank (s.map.bank n) → State.CleanBank { s with operatorPlace := place } (s.map.bank n) := by
    intro n clean
    by_cases stays : place = s.operatorPlace
    · subst stays
      exact clean
    · refine cleanBank_moved place (fun q is => (free q is).resolve_right fun was => stays ?_) n clean
      rw [is, was]
  have carried : ∀ {u : State} (b : Bank), State.CleanBank { s with operatorPlace := place } b →
      u.strapLane = s.strapLane → u.operatorPlace = place → u.groups = s.groups → u.CleanBank b :=
    fun b clean strap operator groups => cleanBank_congr clean
      (fun q => by rw [managed_congr (s := { s with operatorPlace := place }) strap operator]; exact id)
      (sameGroupLanes_of_groups groups)
  by_cases held : s.map.holder = some .ch1
  · rw [restart_of_held { s with operatorPlace := place } p held]
    exact mapLaw_ended rfl (carried _ (moved _ law.active_clean) rfl rfl rfl)
  · rw [restart_of_free { s with operatorPlace := place } p held]
    refine ⟨⟨law.lock.free_equal, law.lock.committer_holds, fun c committer => ?_, law.lock.idle_range⟩,
      carried _ (moved _ law.active_clean) rfl rfl rfl, fun has => carried _ (moved _ (law.scheduled_clean has)) rfl rfl rfl⟩
    cases c
    · exact law.lock.committer_executes .ch0 committer
    · exact absurd (law.lock.committer_holds .ch1 committer) held

/-- A group configured with lanes that reach no management location (R108). -/
theorem cleanBank_configured (f : GroupFields) (x : Group) (working : x.workingLane = f.working)
    (protect : x.protectLane = f.protect) (free : s.groupInUse f.group f.working f.protect = false)
    (n : BankName) (clean : s.CleanBank (s.map.bank n)) :
    (s.setGroup f.group (some x)).CleanBank (s.map.bank n) := by
  refine ⟨clean.reserved_unused, fun d p draws => Bool.eq_false_iff.mpr fun reserved => ?_, fun d => ?_⟩
  · rw [Entry.mem_sources_iff] at draws
    have used : ∀ k g f', (s.map.bank n).get d = .protect g k f' → g = f.group → p = ⟨f.working, k⟩ ∨ p = ⟨f.protect, k⟩ →
        False := fun k g f' entry own at_ => by
      subst own
      have held : s.Reserved p := (s.managed_iff p).mp reserved
      have inUse := (s.groupInUse_iff f.group f.working f.protect).mpr
        ⟨n, d, k, f', entry, by rcases at_ with rfl | rfl; exacts [.inl held, .inr held]⟩
      rw [free] at inUse
      cases inUse
    have was : ¬ s.Draws ((s.map.bank n).get d) p := fun was => by
      have none := clean.sources_free d p ((Entry.mem_sources_iff s _ p).mpr was)
      rw [show s.managed p = true from reserved] at none
      cases none
    rcases draws with direct | ⟨g, f', y, entry, on, lanes⟩
    · exact was (.inl direct)
    · by_cases own : g = f.group
      · subst own
        rw [State.group_setGroup] at on
        cases on
        rw [working, protect] at lanes
        exact used p.slot _ f' entry rfl (lanes.imp (fun h => by rw [h]) fun h => by rw [h])
      · rw [State.group_setGroup_of_ne _ _ _ _ own] at on
        exact was (.inr ⟨g, f', y, entry, on, lanes⟩)
  · refine Bool.eq_false_iff.mpr fun named => ?_
    obtain ⟨g, k, f', entry, none⟩ := (State.namesOffGroup_iff _ _).mp named
    have other : g ≠ f.group := by
      rintro rfl
      rw [State.group_setGroup] at none
      cases none
    rw [State.group_setGroup_of_ne _ _ _ _ other] at none
    have before := clean.groups_configured d
    rw [(State.namesOffGroup_iff _ _).mpr ⟨g, k, f', entry, none⟩] at before
    cases before

/-- A group that no entry references is deleted (R111). -/
theorem cleanBank_deleted (g : GroupId) (unbound : s.groupBound g = false) (n : BankName)
    (clean : s.CleanBank (s.map.bank n)) : (s.setGroup g none).CleanBank (s.map.bank n) := by
  have other : ∀ d h k f, (s.map.bank n).get d = .protect h k f → h ≠ g := by
    rintro d h k f entry rfl
    rw [(s.groupBound_iff h).mpr (.inl ⟨n, d, k, f, entry⟩)] at unbound
    cases unbound
  refine ⟨clean.reserved_unused, fun d p draws => ?_, fun d => Bool.eq_false_iff.mpr fun named => ?_⟩
  · rw [Entry.mem_sources_iff] at draws
    refine clean.sources_free d p ((Entry.mem_sources_iff s _ p).mpr ?_)
    rcases draws with direct | ⟨h, f, y, entry, on, lanes⟩
    · exact .inl direct
    · rw [State.group_setGroup_of_ne _ _ _ _ (other d h _ f entry)] at on
      exact .inr ⟨h, f, y, entry, on, lanes⟩
  · obtain ⟨h, k, f, entry, none⟩ := (State.namesOffGroup_iff _ _).mp named
    rw [State.group_setGroup_of_ne _ _ _ _ (other d h k f entry)] at none
    have before := clean.groups_configured d
    rw [(State.namesOffGroup_iff _ _).mpr ⟨h, k, f, entry, none⟩] at before
    cases before

/-- A group's record replaced, which leaves both banks clean. -/
theorem mapLaw_setGroup (law : s.MapLaw) (g : GroupId) (x : Option Group)
    (clean : ∀ n, s.CleanBank (s.map.bank n) → (s.setGroup g x).CleanBank (s.map.bank n)) : (s.setGroup g x).MapLaw :=
  ⟨⟨law.lock.free_equal, law.lock.committer_holds, fun c committer => by
      obtain ⟨r, executing⟩ := law.lock.committer_executes c committer
      exact ⟨r, by cases c <;> exact executing⟩, law.lock.idle_range⟩,
    clean _ law.active_clean, fun has => clean _ (law.scheduled_clean has)⟩

theorem mapLaw_configured (law : s.MapLaw) (f : GroupFields)
    (free : s.groupInUse f.group f.working f.protect = false) : (s.redecide f.group (s.freshGroup f)).MapLaw := by
  rw [State.redecide_eq]
  have lanes := Group.redecide_lanes (s.freshGroup f)
  exact mapLaw_withEvents (mapLaw_setGroup law f.group _ (cleanBank_configured f _ lanes.1 lanes.2 free)) _

theorem mapLaw_sameLanes (law : s.MapLaw) (g : GroupId) (x y : Group) (on : s.group g = some x)
    (working : y.workingLane = x.workingLane) (protect : y.protectLane = x.protectLane) :
    (s.setGroup g (some y)).MapLaw := by
  refine mapLaw_of_lanes law rfl rfl rfl (fun h => ?_) fun c r waits => by cases c <;> exact waits
  by_cases own : h = g
  · rw [own, State.group_setGroup, on, Option.map_some, Option.map_some, working, protect]
  · rw [State.group_setGroup_of_ne _ _ _ _ own]

theorem mapLaw_writePending (law : s.MapLaw) (f : Bank → Bank) (r : Request) (held : s.map.holder = some ch)
    (waits : (s.channel ch).phase = .executing r true) : (s.writePending f).MapLaw := by
  have unscheduled : s.map.scheduled = none := by
    cases scheduled : s.map.scheduled with
    | none => rfl
    | some c =>
      have own := (law.lock.committer_holds c scheduled).symm.trans held
      cases own
      exact absurd scheduled (not_committer_of_waits law r waits)
  have committer : (s.writePending f).map.scheduled = none := (ConnectionMap.setPending_scheduled ..).trans unscheduled
  have session : (s.writePending f).map.session = s.map.session := ConnectionMap.setPending_session ..
  have active : (s.writePending f).map.activeBank = s.map.activeBank := ConnectionMap.activeBank_setPending ..
  refine ⟨⟨fun free => ?_, fun c has => ?_, fun c has => ?_, fun e has => ?_⟩, ?_, fun has => ?_⟩
  · rw [session] at free
    rw [ConnectionMap.holder, free] at held
    cases held
  · rw [committer] at has
    cases has
  · rw [committer] at has
    cases has
  · exact law.lock.idle_range e (session ▸ has)
  · rw [active]
    exact cleanBank_congr law.active_clean (fun _ => id) (sameGroupLanes_of_groups rfl)
  · rw [committer] at has
    cases has

theorem mapLaw_opened (law : s.MapLaw) (n : Nat) (free : s.map.session = none) (range : 4 ≤ n ∧ n ≤ 255) :
    ({ s with map := { s.map.restore with session := some ⟨ch, n, n⟩ } } : State).MapLaw := by
  have unscheduled := unscheduled_of_free law free
  have committer : s.map.restore.scheduled = none := (ConnectionMap.setPending_scheduled ..).trans unscheduled
  have active : s.map.restore.activeBank = s.map.activeBank := ConnectionMap.activeBank_setPending ..
  refine ⟨⟨nofun, fun c has => ?_, fun c has => ?_, ?_⟩, ?_, fun has => ?_⟩
  · cases committer.symm.trans has
  · cases committer.symm.trans has
  · rintro _ ⟨⟩
    exact ⟨range.1, range.2, by show 1 ≤ n; omega, le_rfl⟩
  · have clean : s.CleanBank s.map.restore.activeBank := active ▸ law.active_clean
    exact cleanBank_congr clean (fun _ => id) (sameGroupLanes_of_groups rfl)
  · rw [show ({ s.map.restore with session := some ⟨ch, n, n⟩ } : ConnectionMap).scheduled = none from committer] at has
    cases has

theorem mapLaw_served {r : Request} {i : Instr} {u : State} {e : Deferred} (law : s.MapLaw)
    (waits : (s.channel ch).phase = .executing r true) (served : Served s ch r i u e) : u.MapLaw := by
  have same : ∀ {u : State}, u.map = s.map → u.strapLane = s.strapLane → u.operatorPlace = s.operatorPlace →
      u.groups = s.groups → u.ch0 = s.ch0 → u.ch1 = s.ch1 → u.MapLaw := mapLaw_of_eq law
  have hold : ∀ c n, (s.setReplyHold c n).MapLaw := fun c n => mapLaw_setChannel law _ fun _ => id
  cases served
  case nothing => exact law
  case laneRead => exact law
  case channelRead => exact law
  case faulted => exact mapLaw_guardFault law r _ _
  case subscribed => exact same (by simp) (by simp) (by simp) (by simp) (by simp) (by simp)
  case eventsRead => exact same (by simp) (by simp) (by simp) (by simp) (by simp) (by simp)
  case holdSet => exact hold _ _
  case placed p n _ _ _ free =>
    rw [placeOperator_eq]
    have moved := mapLaw_restart (hold .ch1 n) (some p) .idle (by rintro q ⟨⟩; exact .inl free)
    exact mapLaw_of_eq moved rfl rfl rfl rfl rfl rfl
  case removed n _ _ => exact mapLaw_restart (hold .ch1 n) none .off nofun
  case restarted => exact mapLaw_restart law s.operatorPlace .idle fun q is => .inr is
  case datapathReset =>
    refine mapLaw_withEvents (mapLaw_unlocked rfl rfl ?_ ?_) _
    · exact Grid.ext_get fun p => by
        cases active : s.cancelCommit.map.active <;>
          simp [State.clearDatapath, ConnectionMap.datapathReset, ConnectionMap.pendingBank, ConnectionMap.activeBank,
            ConnectionMap.bank, BankName.other, active]
    · have bank : s.cancelCommit.clearDatapath.map.activeBank = Grid.replicate .unused := by
        cases active : s.cancelCommit.map.active <;>
          simp [State.clearDatapath, ConnectionMap.datapathReset, ConnectionMap.activeBank, ConnectionMap.bank, active]
      rw [bank]
      exact cleanBank_unused _
  case opened n free range => exact mapLaw_opened law n free range
  case reopened n held range =>
    exact mapLaw_session law ⟨ch, n, n⟩ held ⟨range.1, range.2, by show 1 ≤ n; omega, le_rfl⟩
  case abandoned => exact mapLaw_ended rfl (cleanBank_congr law.active_clean (fun _ => id) (sameGroupLanes_of_groups rfl))
  case broken h _ _ =>
    obtain ⟨c0, c1, eq⟩ := cancelCommit_eq s
    rw [eq]
    exact mapLaw_ended (s := s) rfl (cleanBank_congr law.active_clean (fun _ => id) (sameGroupLanes_of_groups rfl))
  case wrote f held _ => exact mapLaw_writePending law f r held waits
  case laneSet l on n _ _ free =>
    refine mapLaw_setThreshold ?_ l n
    cases on
    · exact mapLaw_disableLane law l (free rfl)
    · rw [if_pos rfl, enableLane_eq]
      exact mapLaw_setLane law l _
  case egressSet => exact same rfl rfl rfl rfl rfl rfl
  case configured f _ _ free _ _ => exact mapLaw_configured law f free
  case reconfigured f x _ on _ =>
    have lanes := sameDuty_convert x f.revertive f.wtrPeriod
    exact mapLaw_sameLanes law f.group x _ on lanes.workingLane lanes.protectLane
  case deleted g _ unbound => exact mapLaw_setGroup law g none (cleanBank_deleted g unbound)
  case requested g x q on _ =>
    rw [State.redecide_eq]
    have lanes := Group.redecide_lanes { x with standing := q }
    exact mapLaw_withEvents (mapLaw_sameLanes law g x _ on lanes.1 lanes.2) _
  case inputSet n m low _ _ =>
    refine mapLaw_onlyGroups ?_ (onlyGroups_inputSet _ _) (sameGroupLanes_forEach_reevaluate _ _)
    exact same rfl rfl rfl rfl rfl rfl
  case regionSet => exact same rfl rfl rfl rfl rfl rfl
  case faultCleared => exact same rfl rfl rfl rfl rfl rfl

/-- A bank that passes its validation is clean (R35). -/
theorem cleanBank_of_validate (valid : s.validate ch = none) : s.CleanBank s.map.pendingBank := by
  have passes : ∀ d, s.entryFault ch d = none := fun d => by
    have none := List.findSome?_eq_none_iff.mp valid d (Place.mem_all d)
    exact Option.map_eq_none_iff.mp none
  have tests : ∀ d, s.namesOffGroup (s.map.pendingBank.get d) = false ∧
      s.usesReserved d (s.map.pendingBank.get d) = false ∧ s.drawsReserved (s.map.pendingBank.get d) = false := fun d => by
    have none := passes d
    unfold State.entryFault at none
    dsimp only at none
    split_ifs at none with off uses draws
    exact ⟨eq_false_of_ne_true off, eq_false_of_ne_true uses, eq_false_of_ne_true draws⟩
  refine ⟨fun d reserved => ?_, fun d p draws => ?_, fun d => (tests d).1⟩
  · have free := (tests d).2.1
    simpa [State.usesReserved, reserved] using free
  · have free := (tests d).2.2
    exact eq_false_of_ne_true (List.any_eq_false.mp free p draws)

theorem mapLaw_scheduled (law : s.MapLaw) (r : Request) (held : s.map.holder = some ch)
    (valid : s.validate ch = none) :
    (State.setPhase { s with map := { s.map with scheduled := some ch } } ch (.executing r false)).MapLaw := by
  have clean : ∀ {u : State} b, s.CleanBank b → u.strapLane = s.strapLane → u.operatorPlace = s.operatorPlace →
      u.groups = s.groups → u.CleanBank b := fun b clean strap operator groups => cleanBank_congr clean
    (fun p => by rw [managed_congr strap operator]; exact id) (sameGroupLanes_of_groups groups)
  have map : (State.setPhase { s with map := { s.map with scheduled := some ch } } ch (.executing r false)).map =
      { s.map with scheduled := some ch } := by simp [State.setPhase]
  refine ⟨⟨?_, ?_, ?_, ?_⟩, ?_, fun _ => ?_⟩ <;> rw [map]
  · exact law.lock.free_equal
  · rintro c ⟨⟩
    exact held
  · rintro c ⟨⟩
    exact ⟨r, by simp [State.setPhase]⟩
  · exact law.lock.idle_range
  · exact clean _ law.active_clean (by simp [State.setPhase]) (by simp [State.setPhase]) (by simp [State.setPhase])
  · exact clean _ (cleanBank_of_validate valid) (by simp [State.setPhase]) (by simp [State.setPhase])
      (by simp [State.setPhase])

/-! ### Superframe boundaries -/

theorem completeCommit_eq (s : State) (c : ChannelId) (st : Status) (b : List Byte) :
    ∃ c0 c1, s.completeCommit c st b = { s with ch0 := c0, ch1 := c1 } := by
  rcases completeCommit_cases s c st b with same | ⟨q, -, done⟩
  · exact ⟨s.ch0, s.ch1, same⟩
  · rw [done]
    cases c <;> exact ⟨_, _, rfl⟩

theorem mapLaw_crossed (law : s.MapLaw) (crossed : Crossed s t) : t.MapLaw := by
  cases crossed
  case passed => exact law
  case ticked e held more _ =>
    obtain ⟨low, high, -, le⟩ := law.lock.idle_range e held
    exact mapLaw_session law { e with idleRemaining := e.idleRemaining - 1 } (by simp [ConnectionMap.holder, held])
      ⟨low, high, by show 1 ≤ e.idleRemaining - 1; omega, by show e.idleRemaining - 1 ≤ e.idleTimeout; omega⟩
  case expired e _ _ =>
    exact mapLaw_ended (s := s) rfl (cleanBank_congr law.active_clean (fun _ => id) (sameGroupLanes_of_groups rfl))
  case swapped c committer =>
    obtain ⟨c0, c1, eq⟩ := completeCommit_eq (swapBanks s) c .ok (swapBody s)
    rw [eq]
    refine mapLaw_withEvents (mapLaw_unlocked rfl rfl ?_ ?_) _
    · exact (ConnectionMap.pendingBank_swap s.map).trans (ConnectionMap.activeBank_swap s.map).symm
    · show State.CleanBank _ s.map.swap.activeBank
      rw [ConnectionMap.activeBank_swap]
      exact cleanBank_congr (law.scheduled_clean (by rw [committer]; rfl)) (fun _ => id) (sameGroupLanes_of_groups rfl)

theorem mapLaw_resetWith (straps : BitVec 3) (pins : BitVec 4) : (State.resetWith straps pins).MapLaw :=
  mapLaw_unlocked rfl rfl rfl (cleanBank_unused _)

theorem kept_mapLaw : Kept State.MapLaw where
  deviceReset := mapLaw_resetWith
  own _ _ _ _ law := mapLaw_of_eq law rfl rfl rfl rfl rfl rfl
  timebase _ _ law _ _ _ := mapLaw_of_eq law rfl rfl rfl rfl rfl rfl
  events _ es law := mapLaw_withEvents law es
  served _ _ _ _ _ _ st b law waits served _ _ :=
    mapLaw_finish (mapLaw_served law waits served) _ st b _ (by simp [served.phase waits])
  scheduled _ _ r law _ held valid := mapLaw_scheduled law r held valid
  heard _ _ _ := mapLaw_heard
  lost _ ch law := mapLaw_lostAlignment law ch
  laneUnseen _ l x law _ _ := mapLaw_setLane law l x
  laneReported _ l x es law _ := mapLaw_reported law l x es
  boundary s law := by
    obtain ⟨t, w, crossed, eq⟩ := mapEvent_crossed s
    rw [eq]
    exact mapLaw_of_eq (mapLaw_crossed law crossed) rfl rfl rfl rfl rfl rfl
  taken _ law := mapLaw_of_eq law rfl rfl rfl rfl rfl rfl
  ticked s g law := by
    obtain ⟨gs, q0, q1, w, eq, lanes⟩ := s.tickGroup_eq g
    rw [eq] at lanes ⊢
    exact mapLaw_of_lanes law rfl rfl rfl lanes fun c r waits => by cases c <;> exact waits
  sampled s i level place law := by
    obtain ⟨is, gs, q0, q1, n, eq, lanes⟩ := s.sampleInput_eq i level place
    rw [eq] at lanes ⊢
    exact mapLaw_of_lanes law rfl rfl rfl lanes fun c r waits => by cases c <;> exact waits
  sent _ _ _ := mapLaw_sent
  composed _ law := mapLaw_of_eq law rfl rfl rfl rfl rfl rfl

end

/-- Settles O7: every event keeps the law of the map. -/
theorem stepKeepsMapLaw : Obligations.StepKeepsMapLaw := by
  unfold Obligations.StepKeepsMapLaw
  exact fun s t law stepped => kept_mapLaw.step s t law stepped

end Sys2Proof.Proofs

/-! Event queues: the law of one queue through the commands that reach it (R169 to R174), and the records in flight of a
channel's stored reply (R164, R172, R173). -/

namespace Sys2Proof.Proofs

open Sys2Proof.Machine

/-! ### One queue -/

section

variable {q : Queue}

theorem lawful_subscribe (law : q.Lawful) (subscription alarm : Half) : (q.subscribe subscription alarm).Lawful := by
  refine ⟨law.length_le, law.count_range, law.inFlight_first, law.waiting_distinct, law.overflow_iff, law.lost_le,
    Queue.judge_alarm _, ?_⟩
  show (subscription &&& 0x7FFF).getLsbD 15 = false
  rw [BitVec.getLsbD_and, show (0x7FFF : Half).getLsbD 15 = false by decide, Bool.and_false]

theorem lawful_emptied (law : q.Lawful) : (emptied q).Lawful where
  length_le := Nat.zero_le _
  count_range := nofun
  inFlight_first := List.Pairwise.nil
  waiting_distinct := List.nodup_nil
  overflow_iff := iff_of_false Bool.false_ne_true (lt_irrefl 0)
  lost_le := Nat.zero_le _
  alarm_eq := rfl
  spare_clear := law.spare_clear

/-- Marking changes IN_FLIGHT alone. -/
theorem alarmCondition_mark (q : Queue) (n : Nat) : (q.mark n).alarmCondition = q.alarmCondition := by
  have any : ∀ f : Event → Bool, ((q.records.take n).map (fun r : EventRecord => { r with inFlight := true }) ++
      q.records.drop n).any (fun r => f r.event) = q.records.any fun r => f r.event := fun f => by
    conv_rhs => rw [← List.take_append_drop n q.records]
    rw [List.any_append, List.any_append, List.any_map]
    rfl
  exact congrArg (· || (q.overflow && overflowItem q.alarmMask)) (any (maskHolds q.alarmMask))

theorem lawful_mark (law : q.Lawful) (n : Nat) : (q.mark n).Lawful := by
  have kept : ∀ r ∈ (q.mark n).records, ∃ x ∈ q.records, r.count = x.count := by
    intro r mem
    rcases List.mem_append.mp mem with marked | rest
    · obtain ⟨x, taken, rfl⟩ := List.mem_map.mp marked
      exact ⟨x, List.mem_of_mem_take taken, rfl⟩
    · exact ⟨r, List.mem_of_mem_drop rest, rfl⟩
  have waiting : (q.mark n).records.filter (fun r => !r.inFlight) = (q.records.drop n).filter fun r => !r.inFlight := by
    show List.filter _ (_ ++ _) = _
    rw [List.filter_append, List.filter_eq_nil_iff.mpr, List.nil_append]
    intro r mem
    obtain ⟨x, -, rfl⟩ := List.mem_map.mp mem
    simp
  refine ⟨?_, fun r mem => ?_, ?_, ?_, law.overflow_iff, law.lost_le, ?_, law.spare_clear⟩
  · have length : (q.mark n).records.length = q.records.length := by
      simp only [Queue.mark, List.length_append, List.length_map, List.length_take, List.length_drop]
      omega
    exact length.trans_le law.length_le
  · obtain ⟨x, was, count⟩ := kept r mem
    rw [count]
    exact law.count_range x was
  · refine List.pairwise_append.mpr ⟨?_, law.inFlight_first.sublist (List.drop_sublist n _), ?_⟩
    · exact List.pairwise_map.mpr (List.pairwise_of_forall fun _ _ _ => rfl)
    · intro a mem b _ _
      obtain ⟨x, -, rfl⟩ := List.mem_map.mp mem
      rfl
  · rw [waiting]
    exact law.waiting_distinct.sublist (((List.drop_sublist n _).filter _).map _)
  · rw [alarmCondition_mark]
    exact law.alarm_eq

/-- A reply that marks records of a queue without any in flight holds just those (R170). -/
theorem inFlightCount_mark (q : Queue) (n : Nat) (none : q.inFlightCount = 0) (present : n ≤ q.records.length) :
    (q.mark n).inFlightCount = n := by
  have rest : (q.records.drop n).countP EventRecord.inFlight = 0 :=
    Nat.eq_zero_of_le_zero (none ▸ (List.drop_sublist n q.records).countP_le)
  have marked : ((q.records.take n).map fun r : EventRecord => { r with inFlight := true }).countP EventRecord.inFlight = n := by
    rw [List.countP_eq_length.mpr, List.length_map, List.length_take, min_eq_left present]
    intro r mem
    obtain ⟨x, -, rfl⟩ := List.mem_map.mp mem
    rfl
  show List.countP _ (_ ++ _) = n
  rw [List.countP_append, marked, rest, add_zero]

/-- The records in flight stand together at the head, so dropping as many leaves none. -/
theorem countP_drop_inFlight (records : List EventRecord)
    (first : records.Pairwise fun a b => b.inFlight = true → a.inFlight = true) :
    (records.drop (records.countP EventRecord.inFlight)).countP EventRecord.inFlight = 0 := by
  induction records with
  | nil => rfl
  | cons a rest ih =>
    obtain ⟨head, tail⟩ := List.pairwise_cons.mp first
    cases flying : a.inFlight
    · have none : (a :: rest).countP EventRecord.inFlight = 0 := by
        rw [List.countP_cons_of_neg (by simp [flying]), List.countP_eq_zero]
        intro r mem inFlight
        rw [head r mem inFlight] at flying
        cases flying
      rw [none, List.drop_zero, none]
    · rw [List.countP_cons_of_pos (by simpa using flying), List.drop_succ_cons]
      exact ih tail

theorem lawful_acknowledge (law : q.Lawful) (marked lost : Nat) : (q.acknowledge marked lost).Lawful := by
  have sub : List.Sublist (q.records.drop marked) q.records := List.drop_sublist ..
  refine ⟨sub.length_le.trans law.length_le, fun r mem => law.count_range r (sub.mem mem), law.inFlight_first.sublist sub,
    law.waiting_distinct.sublist ((sub.filter _).map _), ?_, (Nat.sub_le _ _).trans law.lost_le, Queue.judge_alarm _,
    law.spare_clear⟩
  show (if q.lostCount - lost = 0 then false else q.overflow) = true ↔ 0 < q.lostCount - lost
  have overflow := law.overflow_iff
  split_ifs with none
  · exact iff_of_false not_false (by omega)
  · rw [overflow]
    omega

end

/-! ### A queue and its channel's stored reply -/

/-- `State.ReadLaw` of one channel, by its queue and its record. -/
structure Reads (q : Queue) (c : Channel) : Prop where
  inFlight_eq : q.inFlightCount = (c.stored.map StoredReply.holds).getD 0
  receiving_yields : ∀ r p, c.phase = .receiving r → c.stored = some p → p.yields r
  executing_acked : ∀ r w p, c.phase = .executing r w → c.stored = some p → p.acked = true

section

variable {q : Queue} {c : Channel}

theorem holds_of_acked (p : StoredReply) (acked : p.acked = true) : p.holds = 0 := by
  unfold StoredReply.holds
  split
  · rw [if_pos acked]
  · rfl

/-- A reply that a stored one does not stand in the way of finds no record in flight. -/
theorem inFlightCount_of_acked (reads : Reads q c) (acked : ∀ p, c.stored = some p → p.acked = true) :
    q.inFlightCount = 0 := by
  rw [reads.inFlight_eq]
  cases stored : c.stored with
  | none => rfl
  | some p => exact holds_of_acked p (acked p stored)

theorem reads_counters (reads : Reads q c) (k : ChannelCounters) : Reads q { c with counters := k } :=
  ⟨reads.inFlight_eq, reads.receiving_yields, reads.executing_acked⟩

theorem reads_queue (reads : Reads q c) {p : Queue} (same : p.inFlightCount = q.inFlightCount) : Reads p c :=
  ⟨same.trans reads.inFlight_eq, reads.receiving_yields, reads.executing_acked⟩

/-- A state without a request. -/
theorem reads_phase (reads : Reads q c) (p : Phase) (empty : ∀ r, p ≠ .receiving r) (open_ : ∀ r w, p ≠ .executing r w) :
    Reads q { c with phase := p } :=
  ⟨reads.inFlight_eq, fun r _ eq => absurd eq (empty r), fun r w _ eq => absurd eq (open_ r w)⟩

theorem reads_receiving (reads : Reads q c) (r : Request) (yields : ∀ p, c.stored = some p → p.yields r) :
    Reads q { c with phase := .receiving r } :=
  ⟨reads.inFlight_eq, by rintro _ p ⟨⟩; exact yields p, fun _ _ _ eq _ => nomatch eq⟩

theorem reads_executing (reads : Reads q c) (r : Request) (w : Bool) (acked : ∀ p, c.stored = some p → p.acked = true) :
    Reads q { c with phase := .executing r w } :=
  ⟨reads.inFlight_eq, fun _ _ eq _ => (nomatch eq), fun _ _ p _ => acked p⟩

/-- A reply sent from its head: what it holds is in flight. -/
theorem reads_replying (p : StoredReply) (n : Nat) (k : ChannelCounters) (holds : q.inFlightCount = p.holds) :
    Reads q ⟨.replying 0, n, some p, k⟩ :=
  ⟨holds, fun _ _ eq _ => (nomatch eq), fun _ _ _ eq _ => nomatch eq⟩

theorem reads_emptied (q : Queue) (c : Channel) (p : Phase) : Reads (emptied q) (begunAnew c p) :=
  ⟨rfl, fun _ _ _ eq => (nomatch eq), fun _ _ _ _ eq => nomatch eq⟩

theorem holds_formReply (r : Request) (st : Status) (b : List Byte) (e : Deferred) (other : ∀ n l, e ≠ .events n l) :
    (formReply r st b e).holds = 0 := by
  unfold StoredReply.holds formReply
  dsimp only
  split
  · rename_i n l eq
    split_ifs at eq
    exact absurd eq (other n l)
  · rfl

/-- The channel is answered with a reply that holds no records. -/
theorem reads_answer (reads : Reads q c) (acked : ∀ p, c.stored = some p → p.acked = true) (r : Request) (st : Status)
    (b : List Byte) (e : Deferred) (other : ∀ n l, e ≠ .events n l) :
    Reads q { c with phase := .replying 0, stored := some (formReply r st b e) } :=
  reads_replying _ _ _ ((inFlightCount_of_acked reads acked).trans (holds_formReply r st b e other).symm)

end

end Sys2Proof.Proofs

/-! Every step keeps the law of the event queues and of the replies that hold records in flight (R124, R135, R164, R166,
R167, R173); the laws at device reset. -/

namespace Sys2Proof.Proofs

open Sys2Proof.Machine

section

variable {s t : State} {ch : ChannelId}

/-! ### The law by channel -/

theorem lawful_queue (law : s.EventLaw) (c : ChannelId) : (s.queue c).Lawful := by
  cases c
  · exact law.queues.queue0
  · exact law.queues.queue1

theorem reads_of_eventLaw (law : s.EventLaw) (c : ChannelId) : Reads (s.queue c) (s.channel c) := by
  cases c
  · exact ⟨law.reads0.inFlight_eq, law.reads0.receiving_yields, law.reads0.executing_acked⟩
  · exact ⟨law.reads1.inFlight_eq, law.reads1.receiving_yields, law.reads1.executing_acked⟩

theorem eventLaw_of (each : ∀ c, (t.queue c).Lawful ∧ Reads (t.queue c) (t.channel c)) : t.EventLaw := by
  obtain ⟨lawful0, reads0⟩ := each .ch0
  obtain ⟨lawful1, reads1⟩ := each .ch1
  exact ⟨⟨lawful0, lawful1⟩, ⟨reads0.inFlight_eq, reads0.receiving_yields, reads0.executing_acked⟩,
    ⟨reads1.inFlight_eq, reads1.receiving_yields, reads1.executing_acked⟩⟩

theorem eventLaw_of_eq (law : s.EventLaw) (ch0 : t.ch0 = s.ch0) (ch1 : t.ch1 = s.ch1) (queue0 : t.queue0 = s.queue0)
    (queue1 : t.queue1 = s.queue1) : t.EventLaw := by
  refine eventLaw_of fun c => ?_
  have queue : t.queue c = s.queue c := by cases c <;> assumption
  have channel : t.channel c = s.channel c := by cases c <;> assumption
  rw [queue, channel]
  exact ⟨lawful_queue law c, reads_of_eventLaw law c⟩

theorem eventLaw_setChannel (law : s.EventLaw) (c : Channel) (reads : Reads (s.queue ch) c) :
    (s.setChannel ch c).EventLaw := by
  refine eventLaw_of fun d => ?_
  rw [State.queue_setChannel]
  refine ⟨lawful_queue law d, ?_⟩
  by_cases own : d = ch
  · subst own
    rwa [State.channel_setChannel]
  · rw [State.channel_setChannel_of_ne _ _ _ _ own]
    exact reads_of_eventLaw law d

theorem eventLaw_setQueue (law : s.EventLaw) (q : Queue) (lawful : q.Lawful) (reads : Reads q (s.channel ch)) :
    (s.setQueue ch q).EventLaw := by
  refine eventLaw_of fun d => ?_
  rw [State.channel_setQueue]
  by_cases own : d = ch
  · subst own
    rw [State.queue_setQueue]
    exact ⟨lawful, reads⟩
  · rw [State.queue_setQueue_of_ne _ _ _ _ own]
    exact ⟨lawful_queue law d, reads_of_eventLaw law d⟩

theorem eventLaw_withEvents (law : s.EventLaw) (es : List Event) : (s.withEvents es).EventLaw := by
  refine eventLaw_of fun c => ?_
  rw [State.queue_withEvents, State.channel_withEvents]
  exact ⟨s.queueAfter_lawful _ es c (lawful_queue law c),
    reads_queue (reads_of_eventLaw law c) (s.queueAfter_inFlightCount _ es c)⟩

/-! ### Acknowledgement (R138, R172) -/

theorem acked_of_stored {p : StoredReply} (stored : (s.channel ch).stored = some p) (acked : p.acked = true) :
    ∀ x, (s.channel ch).stored = some x → x.acked = true := by
  intro x eq
  cases stored.symm.trans eq
  exact acked

/-- What an acknowledgement leaves is acknowledged. -/
theorem stored_acknowledge (s : State) (ch : ChannelId) (p : StoredReply)
    (stored : ((s.acknowledge ch).channel ch).stored = some p) : p.acked = true := by
  unfold State.acknowledge at stored
  split at stored
  · rename_i x was
    split_ifs at stored with done
    · exact acked_of_stored was done p stored
    · obtain ⟨k, eq⟩ := channel_applyEffects (s.setChannel ch { s.channel ch with stored := some { x with acked := true } })
        ch x.effects ch
      rw [eq, State.channel_setChannel] at stored
      cases stored
      rfl
  · rename_i none
    rw [none] at stored
    cases stored

/-- An acknowledgement removes exactly the records in flight (R172). -/
theorem eventLaw_acknowledge (law : s.EventLaw) (ch : ChannelId) : (s.acknowledge ch).EventLaw := by
  unfold State.acknowledge
  split
  · rename_i p stored
    split_ifs with done
    · exact law
    · have reads := reads_of_eventLaw law ch
      have lawful := lawful_queue law ch
      have pending := reads.inFlight_eq
      rw [stored, Option.map_some, Option.getD_some] at pending
      have after : ∀ q : Queue, q.inFlightCount = 0 →
          Reads q { s.channel ch with stored := some { p with acked := true } } := fun q none =>
        ⟨none.trans (holds_of_acked _ rfl).symm, by rintro _ _ _ ⟨⟩; exact .inl rfl, by rintro _ _ _ _ ⟨⟩; rfl⟩
      have unmarked : (∀ n l, p.effects ≠ .events n l) →
          (s.setChannel ch { s.channel ch with stored := some { p with acked := true } }).EventLaw := fun other => by
        refine eventLaw_setChannel law _ (after _ (pending.trans ?_))
        unfold StoredReply.holds
        split
        · exact absurd ‹_› (other _ _)
        · rfl
      unfold State.applyEffects
      split <;> rename_i effects
      · exact unmarked (by simp [effects])
      · rename_i marked lost
        rw [State.queue_setChannel]
        have count : (s.queue ch).inFlightCount = marked := by
          rw [pending, StoredReply.holds, effects]
          exact if_neg done
        have none : ((s.queue ch).acknowledge marked lost).inFlightCount = 0 := by
          rw [← count]
          exact countP_drop_inFlight _ lawful.inFlight_first
        refine eventLaw_of fun d => ?_
        rw [State.channel_setQueue]
        by_cases own : d = ch
        · subst own
          rw [State.queue_setQueue, State.channel_setChannel]
          exact ⟨lawful_acknowledge lawful marked lost, after _ none⟩
        · rw [State.queue_setQueue_of_ne _ _ _ _ own, State.queue_setChannel, State.channel_setChannel_of_ne _ _ _ _ own]
          exact ⟨lawful_queue law d, reads_of_eventLaw law d⟩
      · exact eventLaw_of_eq (unmarked (by simp [effects])) rfl rfl rfl rfl
      · have base := unmarked (by simp [effects])
        exact eventLaw_setChannel base _ (reads_counters (reads_of_eventLaw base _) _)
  · exact law

/-! ### Words -/

theorem eventLaw_count (law : s.EventLaw) (f : ChannelCounters → ChannelCounters) : (s.countChannel ch f).EventLaw :=
  eventLaw_setChannel law _ (reads_counters (reads_of_eventLaw law ch) _)

theorem eventLaw_setPhase (law : s.EventLaw) (p : Phase) (empty : ∀ r, p ≠ .receiving r)
    (open_ : ∀ r w, p ≠ .executing r w) : (s.setPhase ch p).EventLaw :=
  eventLaw_setChannel law _ (reads_phase (reads_of_eventLaw law ch) p empty open_)

theorem eventLaw_discard (law : s.EventLaw) (f : ChannelCounters → ChannelCounters) : (s.discard ch f).EventLaw :=
  eventLaw_setPhase (eventLaw_count law f) .idle nofun nofun

/-- A reply that marks no records replaces an acknowledged one (R135). -/
theorem eventLaw_finish (law : s.EventLaw) (acked : ∀ p, (s.channel ch).stored = some p → p.acked = true) (r : Request)
    (st : Status) (b : List Byte) (e : Deferred) (other : ∀ n l, e ≠ .events n l) : (s.finish ch r st b e).EventLaw :=
  eventLaw_setChannel law _ (reads_answer (reads_of_eventLaw law ch) acked r st b e other)

theorem eventLaw_finish_executing (law : s.EventLaw) (q : Request) (w : Bool)
    (executing : (s.channel ch).phase = .executing q w) (r : Request) (st : Status) (b : List Byte) (e : Deferred)
    (other : ∀ n l, e ≠ .events n l) : (s.finish ch r st b e).EventLaw :=
  eventLaw_finish law (fun p => (reads_of_eventLaw law ch).executing_acked q w p executing) r st b e other

theorem eventLaw_guardFault (law : s.EventLaw) (r : Request) (a : FaultReason) (b : Target) :
    (s.guardFault ch r a b).EventLaw := by
  rw [State.guardFault_eq]
  refine eventLaw_withEvents ?_ _
  exact eventLaw_of_eq law rfl rfl rfl rfl

theorem eventLaw_heard (law : s.EventLaw) (heard : Heard s ch t) : t.EventLaw := by
  have reads := reads_of_eventLaw law ch
  have same : State.channel { s with map := s.map.reload ch } ch = s.channel ch := by cases ch <;> rfl
  have reloaded : ({ s with map := s.map.reload ch } : State).EventLaw := eventLaw_of_eq law rfl rfl rfl rfl
  have acked : ∀ r, (s.channel ch).phase = .receiving r → (∀ p, (s.channel ch).stored = some p → p.seq ≠ r.seq) →
      ∀ p, (s.channel ch).stored = some p → p.acked = true := fun r receiving other p stored =>
    (reads.receiving_yields r p receiving stored).resolve_right (other p stored)
  cases heard
  case ignored => exact law
  case counted => exact eventLaw_count law _
  case begun r a f _ _ _ implicit =>
    have base : a.EventLaw ∧ ∀ p, (a.channel ch).stored = some p → p.yields r := by
      rcases implicit with rfl | ⟨rfl, same⟩
      · exact ⟨eventLaw_acknowledge law ch, fun p stored => .inl (stored_acknowledge s ch p stored)⟩
      · exact ⟨law, fun p stored => .inr (same p stored)⟩
    have counted := eventLaw_count (ch := ch) base.1 f
    refine eventLaw_setChannel counted _ (reads_receiving (reads_of_eventLaw counted ch) r fun p stored => ?_)
    rw [State.countChannel, State.channel_setChannel] at stored
    exact base.2 p stored
  case joined r x receiving _ =>
    exact eventLaw_setChannel law _ (reads_receiving reads _ fun p stored => reads.receiving_yields r p receiving stored)
  case discarded => exact eventLaw_withEvents (eventLaw_discard law _) _
  case acknowledged => exact eventLaw_setPhase (eventLaw_acknowledge law ch) .idle nofun nofun
  case duplicated r p _ stored =>
    refine eventLaw_setChannel law _ (reads_replying _ _ _ ?_)
    rw [reads.inFlight_eq, stored]
    rfl
  case refused r st u receiving other fault =>
    have done := acked r receiving other
    rcases fault with rfl | ⟨-, a, b, rfl⟩
    · exact eventLaw_finish reloaded (by rwa [same]) r st [] .none nofun
    · exact eventLaw_finish (eventLaw_guardFault reloaded r a b) (by rwa [State.channel_guardFault, same]) r st [] .none nofun
  case handed r receiving _ other =>
    refine eventLaw_setChannel reloaded _ (reads_executing (reads_of_eventLaw reloaded ch) r true ?_)
    rw [same]
    exact acked r receiving other

theorem eventLaw_sent (law : s.EventLaw) (sent : Sent s ch t) : t.EventLaw := by
  cases sent
  case nothing => exact law
  case resent p n _ stored _ =>
    refine eventLaw_setChannel law _ (reads_replying _ _ _ ?_)
    rw [(reads_of_eventLaw law ch).inFlight_eq, stored]
    rfl
  case abandoned => exact eventLaw_withEvents (eventLaw_discard law _) _
  all_goals exact eventLaw_setPhase law _ nofun nofun

theorem eventLaw_lostAlignment (law : s.EventLaw) (ch : ChannelId) : (s.lostAlignment ch).EventLaw := by
  unfold State.lostAlignment
  split
  · exact eventLaw_discard law _
  · exact law

/-! ### Groups re-decided and lanes moved -/

theorem eventLaw_redecideAmong (law : s.EventLaw) (g : GroupId) (x : Group) (among : List Event → List Event) :
    (s.redecideAmong g x among).EventLaw := by
  rw [State.redecideAmong_eq]
  refine eventLaw_withEvents ?_ _
  exact eventLaw_of_eq law rfl rfl rfl rfl

theorem eventLaw_raiseAll (law : s.EventLaw) (es : List Event) : (s.raiseAll es).EventLaw := by
  rw [State.raiseAll_eq]
  exact eventLaw_withEvents law es

theorem eventLaw_reevaluateAmong (law : s.EventLaw) (g : GroupId) (among : List Event → List Event) :
    (s.reevaluateAmong g among).EventLaw := by
  unfold State.reevaluateAmong
  split
  · split_ifs
    · exact eventLaw_raiseAll law _
    · exact eventLaw_redecideAmong law g _ among
  · exact eventLaw_raiseAll law _

theorem eventLaw_forEach {n : Nat} (law : s.EventLaw) (xs : List (Fin n)) (f : State → Fin n → State)
    (step : ∀ u a, State.EventLaw u → (f u a).EventLaw) : (s.forEach xs f).EventLaw :=
  foldl_of_step _ f step _ (eventLaw_of_eq (t := { s with free := s.free + 1 }) law rfl rfl rfl rfl)

theorem eventLaw_reportLanes (law : s.EventLaw) : s.reportLanes.EventLaw := by
  refine eventLaw_forEach law _ _ fun u g before => ?_
  unfold State.refreshGroup
  split
  · exact eventLaw_redecideAmong before g _ id
  · exact before

theorem eventLaw_reported (law : s.EventLaw) (l : LaneId) (x : Lane) (es : List Event) :
    ((s.setLane l x).withEvents es).reportLanes.EventLaw := by
  refine eventLaw_reportLanes (eventLaw_withEvents ?_ es)
  exact eventLaw_of_eq law rfl rfl rfl rfl

/-! ### The commands -/

theorem eventLaw_setLane (law : s.EventLaw) (l : LaneId) (x : Lane) : (s.setLane l x).EventLaw :=
  eventLaw_of_eq law rfl rfl rfl rfl

theorem eventLaw_setThreshold (law : s.EventLaw) (l : LaneId) (n : Nat) : (s.setThreshold l n).EventLaw := by
  unfold State.setThreshold
  dsimp only
  split
  · split_ifs
    · rw [State.raise_eq]
      exact eventLaw_reported law l _ _
    · exact eventLaw_setLane law l _
  · exact eventLaw_setLane law l _

theorem eventLaw_disableLane (law : s.EventLaw) (l : LaneId) (free : s.managedLane l = false) :
    (s.disableLane l).EventLaw := by
  by_cases aligned : (s.lane l).isAligned = true
  · rw [disableLane_of_aligned s l free aligned]
    exact eventLaw_reported law l _ _
  · unfold State.disableLane
    rw [if_neg aligned]
    exact eventLaw_setLane law l _

/-- Channel 1's queue and record are begun anew, and channel 0's queue can be offered LOCK_BROKEN. -/
theorem eventLaw_restart (law : s.EventLaw) (p : Phase) : (s.restart p).EventLaw := by
  obtain ⟨m, es, -, eq⟩ := restart_cases s p
  rw [eq]
  refine eventLaw_of fun c => ?_
  cases c
  · exact ⟨s.queueAfter_lawful _ es .ch0 law.queues.queue0,
      reads_queue (reads_of_eventLaw law .ch0) (s.queueAfter_inFlightCount _ es .ch0)⟩
  · exact ⟨lawful_emptied law.queues.queue1, reads_emptied s.queue1 s.ch1 p⟩

theorem eventLaw_completeCommit (law : s.EventLaw) (c : ChannelId) (st : Status) (b : List Byte) :
    (s.completeCommit c st b).EventLaw := by
  rcases completeCommit_cases s c st b with same | ⟨q, executing, done⟩
  · rwa [same]
  · rw [done]
    exact eventLaw_finish_executing law q false executing q st b .none nofun

theorem eventLaw_cancelCommit (law : s.EventLaw) : s.cancelCommit.EventLaw := by
  unfold State.cancelCommit
  split
  · exact eventLaw_completeCommit law _ _ _
  · exact law

theorem eventLaw_setReplyHold (law : s.EventLaw) (c : ChannelId) (n : Nat) : (s.setReplyHold c n).EventLaw :=
  have reads := reads_of_eventLaw law c
  eventLaw_setChannel law _ ⟨reads.inFlight_eq, reads.receiving_yields, reads.executing_acked⟩

/-- The effects of a command that marks no records. -/
theorem eventLaw_served {r : Request} {i : Instr} {u : State} {e : Deferred} (law : s.EventLaw)
    (served : Served s ch r i u e) (other : ∀ n l, e ≠ .events n l) : u.EventLaw := by
  have same : ∀ {u : State}, u.ch0 = s.ch0 → u.ch1 = s.ch1 → u.queue0 = s.queue0 → u.queue1 = s.queue1 → u.EventLaw :=
    eventLaw_of_eq law
  cases served
  case nothing => exact law
  case laneRead => exact law
  case channelRead => exact law
  case faulted => exact eventLaw_guardFault law r _ _
  case subscribed =>
    exact eventLaw_setQueue law _ (lawful_subscribe (lawful_queue law ch) _ _)
      (reads_queue (reads_of_eventLaw law ch) rfl)
  case eventsRead n _ => exact absurd rfl (other n _)
  case holdSet => exact eventLaw_setReplyHold law _ _
  case placed p n _ _ _ _ =>
    rw [placeOperator_eq]
    have moved : ({ s.setReplyHold .ch1 n with operatorPlace := some p } : State).EventLaw :=
      eventLaw_of_eq (eventLaw_setReplyHold law .ch1 n) rfl rfl rfl rfl
    exact eventLaw_of_eq (eventLaw_restart moved .idle) rfl rfl rfl rfl
  case removed =>
    refine eventLaw_restart ?_ .off
    exact eventLaw_of_eq (eventLaw_setReplyHold law .ch1 _) rfl rfl rfl rfl
  case restarted => exact eventLaw_restart law .idle
  case datapathReset =>
    refine eventLaw_withEvents ?_ _
    exact eventLaw_of_eq (eventLaw_cancelCommit law) rfl rfl rfl rfl
  case opened => exact same rfl rfl rfl rfl
  case reopened => exact same rfl rfl rfl rfl
  case abandoned => exact same rfl rfl rfl rfl
  case broken =>
    refine eventLaw_withEvents ?_ _
    exact eventLaw_of_eq (eventLaw_cancelCommit law) rfl rfl rfl rfl
  case wrote => exact same rfl rfl rfl rfl
  case laneSet l on n _ _ free =>
    refine eventLaw_setThreshold ?_ l n
    cases on
    · exact eventLaw_disableLane law l (free rfl)
    · rw [if_pos rfl, enableLane_eq]
      exact eventLaw_setLane law l _
  case egressSet => exact same rfl rfl rfl rfl
  case configured f _ _ _ _ _ => exact eventLaw_redecideAmong law f.group _ id
  case reconfigured => exact same rfl rfl rfl rfl
  case deleted => exact same rfl rfl rfl rfl
  case requested g x q _ _ => exact eventLaw_redecideAmong law g _ id
  case inputSet n m low _ _ =>
    refine eventLaw_forEach ?_ _ _ fun u g before => eventLaw_reevaluateAmong before g id
    exact same rfl rfl rfl rfl
  case regionSet => exact same rfl rfl rfl rfl
  case faultCleared => exact same rfl rfl rfl rfl

/-- A READ_EVENTS reply holds the records it has marked (R164, R170). -/
theorem eventLaw_eventsRead (law : s.EventLaw) (r : Request) (waits : (s.channel ch).phase = .executing r true) (n l : Nat)
    (present : n ≤ (s.queue ch).records.length) (b : List Byte) :
    ((s.setQueue ch ((s.queue ch).mark n)).finish ch r .ok b (.events n l)).EventLaw := by
  have reads := reads_of_eventLaw law ch
  have none := inFlightCount_of_acked reads fun p => reads.executing_acked r true p waits
  refine eventLaw_of fun c => ?_
  rw [State.finish, State.queue_setChannel, State.channel_setQueue]
  by_cases own : c = ch
  · subst own
    rw [State.queue_setQueue, State.channel_setChannel]
    exact ⟨lawful_mark (lawful_queue law c) n, reads_replying _ _ _ (inFlightCount_mark _ n none present)⟩
  · rw [State.queue_setQueue_of_ne _ _ _ _ own, State.channel_setChannel_of_ne _ _ _ _ own, State.channel_setQueue]
    exact ⟨lawful_queue law c, reads_of_eventLaw law c⟩

theorem eventLaw_answered {r : Request} {i : Instr} {u : State} {e : Deferred} (law : s.EventLaw)
    (waits : (s.channel ch).phase = .executing r true) (served : Served s ch r i u e) (st : Status) (b : List Byte)
    (ok : e ≠ .none → st = .ok) : (u.finish ch r st b e).EventLaw := by
  by_cases marks : ∃ n l, e = .events n l
  · obtain ⟨n, l, rfl⟩ := marks
    cases ok nofun
    cases served
    case eventsRead present => exact eventLaw_eventsRead law r waits n _ present b
  · have other : ∀ n l, e ≠ .events n l := fun n l eq => marks ⟨n, l, eq⟩
    exact eventLaw_finish_executing (eventLaw_served law served other) r true (served.phase waits) r st b e other

/-! ### The frame start -/

theorem eventLaw_crossed (law : s.EventLaw) (crossed : Crossed s t) : t.EventLaw := by
  cases crossed
  case passed => exact law
  case ticked => exact eventLaw_of_eq law rfl rfl rfl rfl
  case expired =>
    refine eventLaw_withEvents ?_ _
    exact eventLaw_of_eq law rfl rfl rfl rfl
  case swapped c _ =>
    refine eventLaw_withEvents (eventLaw_completeCommit ?_ c .ok _) _
    exact eventLaw_of_eq law rfl rfl rfl rfl

theorem eventLaw_tickGroup (law : s.EventLaw) (g : GroupId) : (s.tickGroup g).EventLaw := by
  unfold State.tickGroup
  split
  · refine eventLaw_raiseAll ?_ _
    exact eventLaw_of_eq law rfl rfl rfl rfl
  · exact law

theorem eventLaw_sampleInput (law : s.EventLaw) (i : InputId) (level : Bool) (place : Nat) :
    (s.sampleInput i level place).EventLaw := by
  have sampled : (s.setInput i ((s.input i).sample level)).EventLaw := eventLaw_of_eq law rfl rfl rfl rfl
  unfold State.sampleInput
  dsimp only
  split_ifs
  · exact sampled
  · unfold State.acceptChange State.presentInput
    dsimp only
    repeat' split
    all_goals first
      | exact sampled
      | exact eventLaw_raiseAll sampled _
      | exact eventLaw_redecideAmong sampled _ _ _
      | exact eventLaw_reevaluateAmong sampled _ _

theorem lawful_resetQueue : Queue.reset.Lawful where
  length_le := Nat.zero_le _
  count_range := nofun
  inFlight_first := List.Pairwise.nil
  waiting_distinct := List.nodup_nil
  overflow_iff := iff_of_false Bool.false_ne_true (lt_irrefl 0)
  lost_le := Nat.zero_le _
  alarm_eq := rfl
  spare_clear := by decide

theorem eventLaw_resetWith (straps : BitVec 3) (pins : BitVec 4) : (State.resetWith straps pins).EventLaw := by
  refine eventLaw_of fun c => ?_
  cases c <;> exact ⟨lawful_resetQueue, rfl, fun _ _ _ eq => (nomatch eq), fun _ _ _ _ eq => (nomatch eq)⟩

theorem kept_eventLaw : Kept State.EventLaw where
  deviceReset := eventLaw_resetWith
  own _ _ _ _ law := eventLaw_of_eq law rfl rfl rfl rfl
  timebase _ _ law _ _ _ := eventLaw_of_eq law rfl rfl rfl rfl
  events _ es law := eventLaw_withEvents law es
  served _ _ _ _ _ _ st b law waits served _ ok := eventLaw_answered law waits served st b ok
  scheduled s ch r law waits _ _ := by
    have base : ({ s with map := { s.map with scheduled := some ch } } : State).EventLaw :=
      eventLaw_of_eq law rfl rfl rfl rfl
    refine eventLaw_setChannel base _ (reads_executing (reads_of_eventLaw base ch) r false fun p stored => ?_)
    exact (reads_of_eventLaw base ch).executing_acked r true p (by cases ch <;> exact waits) stored
  heard _ _ _ := eventLaw_heard
  lost _ ch law := eventLaw_lostAlignment law ch
  laneUnseen _ l x law _ _ := eventLaw_setLane law l x
  laneReported _ l x es law _ := eventLaw_reported law l x es
  boundary s law := by
    obtain ⟨t, w, crossed, eq⟩ := mapEvent_crossed s
    rw [eq]
    exact eventLaw_of_eq (eventLaw_crossed law crossed) rfl rfl rfl rfl
  taken _ law := eventLaw_of_eq law rfl rfl rfl rfl
  ticked _ g law := eventLaw_tickGroup law g
  sampled _ i level place law := eventLaw_sampleInput law i level place
  sent _ _ _ := eventLaw_sent
  composed _ law := eventLaw_of_eq law rfl rfl rfl rfl

end

/-- Settles O6: every event keeps the law of the queues and of replies with records in flight. -/
theorem stepKeepsEventLaw : Obligations.StepKeepsEventLaw := by
  unfold Obligations.StepKeepsEventLaw
  exact fun s t law stepped => kept_eventLaw.step s t law stepped

/-- Settles O5: the five laws, each at device reset. -/
theorem lawsHoldAtDeviceReset : Obligations.LawsHoldAtDeviceReset := by
  unfold Obligations.LawsHoldAtDeviceReset
  exact fun straps pins => ⟨eventLaw_resetWith straps pins, mapLaw_resetWith straps pins, groupLaw_resetWith straps pins,
    laneLaw_resetWith straps pins, channelLaw_resetWith straps pins⟩

end Sys2Proof.Proofs

/-! The request rows, each from the request that waits: the decoding of the request, and the rows whose effect is one
reply, one refusal, or one field replaced. -/

namespace Sys2Proof.Proofs
open Sys2Proof.Machine

/-! ### A row and the request that asks for it -/

theorem decodeCommand_of_open (ch : ChannelId) (code : BitVec 6) (bytes : List Byte) (h : supervisorOnly code = false) :
    decodeCommand ch code bytes = commandOf ch code bytes := by
  simp [decodeCommand, h]

theorem decodeCommand_ch0 (code : BitVec 6) (bytes : List Byte) :
    decodeCommand .ch0 code bytes = commandOf .ch0 code bytes := by
  simp [decodeCommand]

theorem exec_of_waits {s : State} {ch : ChannelId} {r : Request} {code : BitVec 6} {bytes : List Byte}
    (h : s.Waits ch r code bytes) (hopen : supervisorOnly code = false) {i : Instr}
    (hi : commandOf ch code bytes = some i) {take : Request → State} (he : exec i s = s.whenAsked ch i take) :
    exec i s = .next (take r) :=
  he.trans (h.taken ((decodeCommand_of_open ch code bytes hopen).trans hi) take)

theorem exec_of_waits_ch0 {s : State} {r : Request} {code : BitVec 6} {bytes : List Byte}
    (h : s.Waits .ch0 r code bytes) {i : Instr} (hi : commandOf .ch0 code bytes = some i) {take : Request → State}
    (he : exec i s = s.whenAsked .ch0 i take) : exec i s = .next (take r) :=
  he.trans (h.taken ((decodeCommand_ch0 code bytes).trans hi) take)

/-- Settles O1: by the two branches of `step`. -/
theorem stepRunsFrontCommand : Obligations.StepRunsFrontCommand := by
  unfold Obligations.StepRunsFrontCommand
  exact fun _ _ _ => ⟨rfl, rfl⟩

/-- Settles O59: by whether the fault record is filled. -/
theorem guardFaultTaken : Obligations.GuardFaultTaken := by
  unfold Obligations.GuardFaultTaken
  intro s ch r reason target
  refine ⟨fun empty => ?_, fun f filled => ?_⟩
  · rw [State.guardFault_eq, empty]
  · rw [State.guardFault_eq, filled]; rfl

/-! ### Replies -/

theorem bodyBytes_packBytes (bytes : List Byte) (even : bytes.length % 2 = 0) :
    bodyBytes (packBytes bytes) = bytes ∧ 2 * (packBytes bytes).length = bytes.length := by
  induction bytes using packBytes.induct with
  | case1 a b rest ih =>
    obtain ⟨same, length⟩ := ih (by simp only [List.length_cons] at even; omega)
    have pair : payloadBytes (a ++ b : Half) = [a, b] := halfBytes_append a b
    refine ⟨?_, by simp only [packBytes, List.length_cons]; omega⟩
    simp only [bodyBytes] at same
    simp [packBytes, bodyBytes, pair, same]
  | case2 a => simp at even
  | case3 => exact ⟨rfl, rfl⟩

theorem packBytes_bodyBytes (body : List Half) : packBytes (bodyBytes body) = body := by
  induction body with
  | nil => rfl
  | cons h rest ih =>
    simp only [bodyBytes] at ih
    simp [bodyBytes, payloadBytes, packBytes, append_of_bytes, ih]

/-- Settles O48: `finish` by its definition, and the packing of bodies by induction on the bytes. -/
theorem replyFormed : Obligations.ReplyFormed := by
  unfold Obligations.ReplyFormed
  refine ⟨by decide, fun s ch r status bytes effects => ?_, bodyBytes_packBytes, packBytes_bodyBytes⟩
  simp only [State.finish, formReply, replyCheck, byteOf, List.cons_append, List.nil_append]

/-! ### Edit sessions -/

theorem byteOf_holderCode (ch : ChannelId) : byteOf (holderCode (some ch)) = if ch = .ch0 then 1 else 2 := by
  cases ch <;> rfl

theorem byteOf_bankCode (n : BankName) : byteOf n.code = if n = .a then 0 else 1 := by
  cases n <;> rfl

theorem differing_eq (m : ConnectionMap) :
    m.differing = Place.all.countP fun d => decide (m.pendingBank.get d ≠ m.activeBank.get d) := by
  simp only [ConnectionMap.differing]
  congr 1
  funext d
  by_cases h : m.pendingBank.get d = m.activeBank.get d <;> simp [h]

/-- Settles O25: by TIMEOUT, and then by who holds the lock. -/
theorem openEditDecided : Obligations.OpenEditDecided := by
  unfold Obligations.OpenEditDecided
  intro s ch r timeout spare h
  have taken : exec (.openEdit ch timeout) s = .next (s.takeOpenEdit ch r timeout) := exec_of_waits h rfl rfl rfl
  rw [taken]
  unfold State.takeOpenEdit
  refine ⟨fun low high => ?_, fun T hT => ?_⟩
  · have out : timeoutOf timeout = none := by
      rw [timeoutOf, if_neg (by omega), if_pos (by omega)]
    rw [out]; rfl
  · have accepted : timeoutOf timeout = some T := by
      rcases hT with ⟨zero, rfl⟩ | ⟨low, rfl⟩
      · rw [timeoutOf, if_pos zero]
      · rw [timeoutOf, if_neg (by omega), if_neg (by omega)]
    rw [accepted]
    refine ⟨fun free => ?_, fun e held own => ?_, fun e held other => ?_⟩
    · simp only [free, State.reply, byteOf_bankCode]; rfl
    · simp only [held, own, if_true, State.reply, byteOf_bankCode]; rfl
    · simp only [held, other, if_false, byteOf_holderCode]

/-- Settles O52: the codes of the table one by one, the generic checks in their order, and the reload by the holder. -/
theorem genericChecks : Obligations.GenericChecks := by
  unfold Obligations.GenericChecks
  refine ⟨by decide, fun s ch r => ⟨fun unnamed => ?_, fun n named => ⟨fun length => ?_, fun length => ?_⟩⟩,
    fun m ch => ⟨fun e held own => ?_, fun other => ?_⟩⟩
  · simp only [State.execute, unnamed]; rfl
  · simp only [State.execute, named, if_pos length]; rfl
  · have reserved : supervisorOnly r.code = true ↔
        r.code.toNat ∈ [0x03, 0x04, 0x05, 0x0B, 0x18, 0x1A, 0x20, 0x21, 0x28, 0x30, 0x31, 0x32, 0x33] :=
      List.contains_iff_mem
    refine ⟨fun operator listed => ?_, fun permitted => ?_⟩
    · simp only [State.execute, named, length, ne_eq, not_true, if_false,
        if_pos (⟨operator, reserved.2 listed⟩ : ch = .ch1 ∧ supervisorOnly r.code = true)]
      rfl
    · have pass : ¬ (ch = .ch1 ∧ supervisorOnly r.code = true) := by rwa [reserved]
      simp only [State.execute, named, length, ne_eq, not_true, if_false, if_neg pass]
  · simp only [ConnectionMap.reload, held, if_pos own]
  · unfold ConnectionMap.reload
    split
    case h_1 e held => exact if_neg (other e held)
    case h_2 => rfl

end Sys2Proof.Proofs

/-! The map's rows: the entries of the pending bank, the sessions and the validation. -/

namespace Sys2Proof.Proofs
open Sys2Proof.Machine

theorem activeBank_restore (m : ConnectionMap) : m.restore.activeBank = m.activeBank :=
  ConnectionMap.activeBank_setPending m _

theorem pendingBank_restore (m : ConnectionMap) : m.restore.pendingBank = m.activeBank :=
  ConnectionMap.pendingBank_setPending m _

theorem countP_used (s : State) (run : List Place) :
    (run.countP fun d => s.map.pendingBank.get d != .unused) =
      run.countP fun d => decide (s.map.pendingBank.get d ≠ .unused) := by
  congr 1
  funext d
  by_cases h : s.map.pendingBank.get d = .unused <;> simp [h]

/-- Settles O21: by the branches of `takeSetEntry`, in the order of the checks. -/
theorem setEntryDecided : Obligations.SetEntryDecided := by
  unfold Obligations.SetEntryDecided
  intro s ch r l k b0 b1 b2 b3 b4 b5 h x
  have taken : exec (.setEntry ch l k x) s = .next (s.takeSetEntry ch r l k x) := exec_of_waits h rfl rfl rfl
  rw [taken]
  refine ⟨fun bad => ?_, fun d e lane slot asked => ?_⟩
  · have none_of : placeOf l k = none ∨ entryOf x = none := by
      rcases bad with lane | slot | unasked
      · exact .inl (placeOf_eq_none l k (.inl lane))
      · exact .inl (placeOf_eq_none l k (.inr slot))
      · exact .inr unasked
    unfold State.takeSetEntry
    split
    next place entry => rcases none_of with h | h <;> simp_all
    next => rfl
  · have place := placeOf_of_val d l k lane slot
    unfold State.takeSetEntry
    rw [place, asked]
    dsimp only
    refine ⟨fun other => by rw [if_pos other]; rfl, fun own => ?_⟩
    rw [if_neg (not_not.2 own)]
    refine ⟨fun reserved => ?_, fun destination source => ?_⟩
    · rcases reserved with ⟨used, reserved⟩ | drawn
      · rw [if_pos ⟨used, (s.managed_iff d).2 reserved⟩]; rfl
      · rw [if_pos ((s.directReserved_iff e).2 drawn)]
        split <;> rfl
    · rw [if_neg (by rwa [s.managed_iff d]), if_neg (by rwa [s.directReserved_iff e])]
      refine ⟨fun denied => ?_, fun granted => ?_⟩
      · have first : s.unmodifiable ch [d] = some d :=
          s.unmodifiable_of_first ch [d] (List.pairwise_singleton _ _) d
            ⟨List.mem_singleton_self d, denied, fun q hq before => by
              rw [List.mem_singleton.1 hq] at before
              simp [Place.before] at before⟩
        rw [first]; rfl
      · have open_ : s.unmodifiable ch [d] = none :=
          (s.unmodifiable_eq_none ch [d]).2 fun p hp => by rwa [List.mem_singleton.1 hp]
        rw [open_]
        refine ⟨_, rfl, ?_⟩
        have written : ((s.writePending fun b => b.set d e).reply ch r e.bytes).map.pendingBank =
            s.map.pendingBank.set d e := by simp [State.writePending]
        rw [written]
        refine ⟨Grid.get_set .., fun q hq => Grid.get_set_of_ne _ e hq, ?_, ?_, ?_⟩
        · simp [State.writePending]
        · simp [State.writePending]
        · rfl

/-- Settles O22: by the branches of `takeClearEntries`, in the order of the checks. -/
theorem clearEntriesDecided : Obligations.ClearEntriesDecided := by
  unfold Obligations.ClearEntriesDecided
  intro s ch r l first count spare h
  have taken : exec (.clearEntries ch l first count) s = .next (s.takeClearEntries ch r l first count) :=
    exec_of_waits h rfl rfl rfl
  rw [taken]
  unfold State.takeClearEntries
  constructor
  · intro bad
    rw [runOf_eq_none 24 l first count bad]; rfl
  intro lane hl hf hc hend run
  rw [runOf_of_val 24 lane l first count hl hf hc (by omega) hend]
  dsimp only
  refine ⟨fun other => by rw [if_pos other]; rfl, fun own => ?_⟩
  rw [if_neg (not_not.2 own)]
  refine ⟨fun p denied => ?_, fun granted => ?_⟩
  · rw [s.unmodifiable_of_first ch _ (slotRun_pairwise ..) p denied]; rfl
  · rw [(s.unmodifiable_eq_none ch _).2 granted]
    refine ⟨_, rfl, ?_⟩
    simp only [State.reply_map, State.writePending, ConnectionMap.pendingBank_setPending,
      ConnectionMap.activeBank_setPending, ConnectionMap.setPending_active, clearRun_get]
    refine ⟨fun q hq => if_pos hq, fun q hq => if_neg hq, trivial, trivial, ?_⟩
    simp only [State.reply, countP_used]
    rfl

/-- Settles O23: by the branches of `takeReadEntries`, in the order of the checks. -/
theorem readEntriesDecided : Obligations.ReadEntriesDecided := by
  unfold Obligations.ReadEntriesDecided
  intro s ch r bank l first count h
  have taken : exec (.readEntries ch bank l first count) s = .next (s.takeReadEntries ch r bank l first count) :=
    exec_of_waits h rfl rfl rfl
  rw [taken]
  constructor
  · intro bad
    have none_of : flagOf bank = none ∨ runOf 8 l first count = none := by
      rcases bad with role | run
      · rcases flagOf_cases bank with ⟨rfl, -⟩ | ⟨rfl, -⟩ | ⟨-, unnamed⟩
        · exact absurd role (by decide)
        · exact absurd role (by decide)
        · exact .inl unnamed
      · exact .inr (runOf_eq_none 8 l first count run)
    unfold State.takeReadEntries
    split
    next pending run => rcases none_of with h | h <;> simp_all
    next => rfl
  intro lane hl hbank hf hc h8 hend run
  have role : ∃ pending, flagOf bank = some pending ∧ (pending = true ↔ bank.toNat ≠ 0) := by
    rcases flagOf_cases bank with ⟨rfl, named⟩ | ⟨rfl, named⟩ | ⟨out, -⟩
    · exact ⟨false, named, by decide⟩
    · exact ⟨true, named, by decide⟩
    · omega
  obtain ⟨pending, named, role⟩ := role
  unfold State.takeReadEntries
  rw [named, runOf_of_val 8 lane l first count hl hf hc h8 hend]
  dsimp only
  refine ⟨fun p denied => ?_, fun granted => ?_⟩
  · rw [s.unreadable_of_first ch _ (slotRun_pairwise ..) p denied]; rfl
  · rw [(s.unreadable_eq_none ch _).2 granted]
    have selected : s.map.selected pending = (if bank.toNat = 0 then s.map.active else s.map.active.other,
        if bank.toNat = 0 then s.map.activeBank else s.map.pendingBank) := by
      cases pending <;> simp_all [ConnectionMap.selected]
    have letter : byteOf (if bank.toNat = 0 then s.map.active else s.map.active.other).code =
        if s.map.active = .a ↔ bank.toNat = 0 then 0 else 1 := by
      by_cases zero : bank.toNat = 0 <;> cases s.map.active <;> simp [zero, BankName.other, BankName.code, byteOf]
    simp only [selected, letter, State.reply]
    rfl

/-! ### Sessions and the validation -/

/-- Settles O26: by the holder and the result of the validation. -/
theorem commitDecided : Obligations.CommitDecided := by
  unfold Obligations.CommitDecided
  intro s ch r h
  have taken : exec (.commit ch) s = .next (s.takeCommit ch r) := exec_of_waits h rfl rfl rfl
  rw [taken]
  unfold State.takeCommit
  refine ⟨fun other => by rw [if_pos other]; rfl, fun own => ?_⟩
  rw [if_neg (not_not.2 own)]
  refine ⟨fun d test first => ?_, fun passed => ?_⟩
  · have reason : byteOf (faultOfTest test).code = reasonOfTest test ∧ (faultOfTest test = .guard ↔ test = 4) := by
      rcases s.failsTest_cases ch d test first.1 with rfl | rfl | rfl | rfl <;> decide
    obtain ⟨code, guard⟩ := reason
    rw [s.validate_of_first ch d test first]
    dsimp only
    rw [code]
    by_cases four : test = 4
    · rw [if_pos four, if_pos (guard.2 four)]; rfl
    · rw [if_neg four, if_neg (mt guard.1 four)]; rfl
  · rw [s.validate_eq_none ch passed]

/-- Settles O24: restoring and releasing by the map's own lemmas, the two rows by the holder. -/
theorem sessionsEnded : Obligations.SessionsEnded := by
  unfold Obligations.SessionsEnded
  refine ⟨fun m => ?_, fun s ch r h => ?_, fun s r h => ?_⟩
  · have equal : m.restore.pendingBank = m.restore.activeBank :=
      (pendingBank_restore m).trans (activeBank_restore m).symm
    refine ⟨⟨pendingBank_restore m, activeBank_restore m, ?_, ?_, ?_, ?_⟩, rfl, fun d => by rw [equal], ?_⟩
    · simp [ConnectionMap.restore]
    · simp [ConnectionMap.restore]
    · simp [ConnectionMap.restore]
    · simp [ConnectionMap.restore]
    · simp [differing_eq, equal]
  · have taken : exec (.abandonEdit ch) s = .next (s.takeAbandonEdit ch r) := exec_of_waits h rfl rfl rfl
    rw [taken]
    unfold State.takeAbandonEdit
    refine ⟨fun other => by rw [if_neg other]; rfl, fun own => ?_⟩
    rw [if_pos own, differing_eq]; rfl
  · have taken : exec .breakLock s = .next (s.takeBreakLock r) := exec_of_waits_ch0 h rfl rfl
    rw [taken]
    unfold State.takeBreakLock
    refine ⟨fun free => by rw [free]; rfl, fun c held unscheduled => ?_, fun q held scheduled executing => ?_⟩
    · rw [held, cancelCommit_of_none s unscheduled]
      simp only [State.raise_eq, unscheduled, byteOf_holderCode]
      rfl
    · have cancelled : s.cancelCommit = s.finish .ch1 q .cancelled [] .none := by
        rw [State.cancelCommit, scheduled]
        exact completeCommit_of_executing s .ch1 .cancelled [] q executing
      rw [held, cancelled]
      simp only [State.raise_eq, scheduled]
      rfl

end Sys2Proof.Proofs

/-! Egress, the map at a boundary, the datapath reset and the words of a channel. -/

namespace Sys2Proof.Proofs
open Sys2Proof.Machine

/-- Settles O32: by the limit, the lanes in use, and the clamping of each count. -/
theorem setEgressDecided : Obligations.SetEgressDecided := by
  unfold Obligations.SetEgressDecided
  intro s r enables h1 h0 spare h limit
  have taken : exec (.setEgress enables (h1 ++ h0)) s = .next (s.takeSetEgress r enables (h1 ++ h0)) :=
    exec_of_waits_ch0 h rfl rfl
  rw [taken]
  unfold State.takeSetEgress
  refine ⟨fun out => by rw [if_pos out]; rfl, fun low high => ?_⟩
  rw [if_neg (by change ¬ (limit = 0 ∨ 1023 < limit); omega)]
  refine ⟨fun used => by rw [if_pos ((s.egressInUse_iff enables).2 used)]; rfl, fun free => ?_⟩
  have unused : ¬ s.egressInUse enables = true := by
    rw [s.egressInUse_iff]
    rintro ⟨ch, p, place, off⟩
    rw [free ch p place] at off
    cases off
  rw [if_neg unused]
  refine ⟨clampHeld s.efa.holdLimit limit s.efa.held, fun d => ?_, ?_⟩
  · by_cases same : s.efa.holdLimit = limit
    · simp [clampHeld, same]
    · simp only [clampHeld, if_neg same, Grid.get_ofFn, clampCount]
      refine ⟨trivial, fun eq => absurd eq.symm same, fun _ full => if_pos (.inl full), fun _ partly => ?_⟩
      by_cases above : limit < (s.efa.held.get d).count
      · rw [if_pos (.inr above)]; omega
      · rw [if_neg (by tauto)]; omega
  · rw [halfBytes_append]; rfl

/-! ### The map at a superframe boundary -/

/-- An event of the coming frame start that leaves the timebase alone: what it raises is stamped with the superframe
count that the frame start reaches. -/
theorem atNextStart_eq (s u : State) (es : List Event) (f : State → State) (efa : u.efa = s.efa)
    (done : f { s with efa := s.efa.advance } = State.withEvents { u with efa := u.efa.advance } es) :
    s.atNextStart f = u.withEventsAhead es := by
  unfold State.atNextStart
  rw [done, ← efa]
  rfl

theorem mapEvent_of_scheduled (s : State) (fresh : s.work.mapTaken = false) (boundary : s.efa.frameNo = 0)
    (c : ChannelId) (scheduled : s.map.scheduled = some c) :
    s.mapEvent = State.bankSwap { s with work := { s.work with mapTaken := true } } c := by
  have reached : s.boundary = true := by simp [State.boundary, boundary]
  simp only [State.mapEvent, fresh, reached, scheduled, Bool.not_true, Bool.or_self, Bool.false_eq_true, if_false]

theorem mapEvent_of_unscheduled (s : State) (fresh : s.work.mapTaken = false) (boundary : s.efa.frameNo = 0)
    (free : s.map.scheduled = none) :
    s.mapEvent = State.idleTick { s with work := { s.work with mapTaken := true } } := by
  have reached : s.boundary = true := by simp [State.boundary, boundary]
  simp only [State.mapEvent, fresh, reached, free, Bool.not_true, Bool.or_self, Bool.false_eq_true, if_false]

theorem mapEvent_of_not_due (s : State) (h : s.work.mapTaken = true ∨ s.efa.frameNo ≠ 0) : s.mapEvent = s := by
  unfold State.mapEvent
  refine if_pos ?_
  rcases h with taken | between
  · simp [taken]
  · have off : s.boundary = false := beq_eq_false_iff_ne.2 between
    simp [off]

theorem idleTick_expired (s : State) (e : EditSession) (held : s.map.session = some e) (last : e.idleRemaining ≤ 1) :
    s.idleTick = State.withEvents { s with map := s.map.restore.release } [.lockExpired e.holder] := by
  rw [State.idleTick, held]
  dsimp only
  rw [if_pos last, State.raise_eq]
  rfl

theorem idleTick_running (s : State) (e : EditSession) (held : s.map.session = some e) (more : 1 < e.idleRemaining) :
    s.idleTick = { s with map := { s.map with session := some { e with idleRemaining := e.idleRemaining - 1 } } } := by
  rw [State.idleTick, held]
  exact if_neg (by omega)

theorem advance_frameNo (a : Assembler) (last : a.frameNo = 15) : a.advance.frameNo = 0 := by
  simp [Assembler.advance, last]

/-- Settles O28: the map's event by its branches, and the row by the same event at the coming boundary. -/
theorem boundaryTakenByMap : Obligations.BoundaryTakenByMap := by
  unfold Obligations.BoundaryTakenByMap
  refine ⟨fun s => ⟨mapEvent_of_not_due s, fun fresh boundary => ⟨mapEvent_of_scheduled s fresh boundary,
      mapEvent_of_unscheduled s fresh boundary⟩⟩,
    fun s e held => ⟨idleTick_running s e held, idleTick_expired s e held⟩, fun s free => ?_,
    fun s e startable last held one free fresh => ?_⟩
  · rw [State.idleTick, free]
  · have due : s.ready = true ∧ s.idleDue = true :=
      ⟨s.ready_iff.2 startable, by simp [State.idleDue, State.nextBoundary, last, held, one, free, fresh]⟩
    change execIdleExpiry s = _
    rw [execIdleExpiry, if_pos due]
    refine congrArg _ (atNextStart_eq s _ _ _ rfl ?_)
    rw [mapEvent_of_unscheduled { s with efa := s.efa.advance } fresh (advance_frameNo _ last) free]
    exact idleTick_expired _ e held (by omega)

/-! ### The datapath reset -/

/-- Settles O57: the map, the lanes and the inputs entry by entry, and the lock by who holds it. -/
theorem datapathResetEffect : Obligations.DatapathResetEffect := by
  unfold Obligations.DatapathResetEffect
  intro s r h
  have taken : exec .datapathReset s = .next (s.takeDatapathReset r) := exec_of_waits_ch0 h rfl rfl
  rw [taken]
  refine ⟨s.map.datapathReset, Grid.replicate ⟨0, s.efa.holdLimit⟩,
    s.lanes.map fun x => { x with counters := LaneCounters.zero }, s.inputs.map Input.unbind, fun n d => ?_, rfl, rfl, rfl,
    rfl, Grid.get_replicate _, fun l => get_map _ _ l, fun i => ?_, ?_⟩
  · cases n <;> exact Grid.get_replicate _ d
  · rw [get_map]; exact Input.unbind_eq _
  unfold State.takeDatapathReset
  refine ⟨fun unscheduled free => ?_, fun c unscheduled held => ?_, fun q scheduled held executing => ?_⟩
  · rw [cancelCommit_of_none s unscheduled, free]; rfl
  · rw [cancelCommit_of_none s unscheduled, held]
    simp only [State.raise_eq]; rfl
  · have cancelled : s.cancelCommit = s.finish .ch1 q .cancelled [] .none := by
      rw [State.cancelCommit, scheduled]
      exact completeCommit_of_executing s .ch1 .cancelled [] q executing
    rw [cancelled, held]
    simp only [State.raise_eq]; rfl

/-! ### Words of a channel -/

theorem acknowledgeImplicitly_eq (s : State) (ch : ChannelId) (seq : BitVec 4) :
    s.acknowledgeImplicitly ch seq =
      if ∃ p, (s.channel ch).stored = some p ∧ p.seq = seq then s else s.acknowledge ch := by
  unfold State.acknowledgeImplicitly
  split
  case h_1 p stored => simp [stored]
  case h_2 empty =>
    simp only [empty, reduceCtorEq, false_and, exists_false, if_false]
    exact (s.acknowledge_of_acked ch (by simp [empty])).symm

/-- Settles O49: by the state of the channel and the kind of the word. -/
theorem wordsBetweenRequests : Obligations.WordsBetweenRequests := by
  unfold Obligations.WordsBetweenRequests
  constructor
  · intro s ch w between
    have quiet : ∀ r, (s.channel ch).phase ≠ .receiving r := by
      rcases between with idle | ⟨n, awaiting⟩ <;> simp [*]
    refine ⟨fun code seq len head => ?_, fun x stray => ?_, fun valid seq idle => ?_⟩
    · have taken : s.takeWord ch w = (s.acknowledgeImplicitly ch seq).setPhase ch (.receiving ⟨code, seq, len, []⟩) := by
        rcases between with phase | ⟨n, phase⟩ <;> simp [State.takeWord, State.takeHead, phase, head]
      rw [taken, acknowledgeImplicitly_eq]
      refine ⟨fun ⟨p, stored, _, other⟩ => ?_, fun yields => ?_⟩
      · rw [if_neg (by simp [stored, other])]
      · split
        · rfl
        · next other =>
          rw [s.acknowledge_of_acked ch fun p stored => (yields p stored).resolve_right fun same =>
            other ⟨p, stored, same⟩]
    · rcases between with phase | ⟨n, phase⟩ <;> rcases stray with body | tail <;>
        simp only [State.takeWord, *] <;> rfl
    · have taken : s.takeWord ch w = s.takeAck ch valid seq := by
        rcases between with phase | ⟨n, phase⟩ <;> simp [State.takeWord, phase, idle]
      rw [taken]
      unfold State.takeAck
      refine ⟨fun ⟨p, stored, same, asked⟩ => ?_, fun unasked => ?_⟩
      · rw [stored]; exact if_pos ⟨asked, same⟩
      · split
        case h_1 p stored =>
          refine if_neg fun ⟨asked, same⟩ => ?_
          rcases unasked p stored with other | invalid
          · exact other same
          · simp [invalid] at asked
        case h_2 => rfl
  · intro s ch w
    refine ⟨fun off => by simp [State.takeWord, off], fun busy => ⟨fun ⟨code, seq, len, head⟩ => ?_, fun other => ?_⟩,
      fun quiet => ?_⟩
    · rcases busy with ⟨r, b, phase⟩ | ⟨k, phase⟩ <;> simp only [State.takeWord, phase, head] <;> rfl
    · rcases busy with ⟨r, b, phase⟩ | ⟨k, phase⟩ <;> cases kind : decodeMgmtWord w <;>
        simp_all [State.takeWord]
    · unfold State.lostAlignment
      split
      case h_1 r receiving => exact absurd receiving (quiet r)
      case h_2 => rfl

/-- Settles O50: by the kind of the word and the number of body words received. -/
theorem wordsOfRequest : Obligations.WordsOfRequest := by
  unfold Obligations.WordsOfRequest
  intro s ch w r receiving drop truncated
  refine ⟨fun x body => ⟨fun room => ?_, fun full => ?_⟩, fun x tail => ⟨fun short => ?_, fun full => ?_⟩,
    fun valid seq idle => ?_, fun code seq len head => ?_, ?_⟩
  · simp only [State.takeWord, receiving, body, State.takeBody, if_pos room]
  · simp only [State.takeWord, receiving, body, State.takeBody, if_neg (Nat.not_lt.2 full)]; rfl
  · simp only [State.takeWord, receiving, tail, State.takeTail, if_pos short]; rfl
  · intro check
    have same : r.check = check := rfl
    refine ⟨fun wrong => ?_, fun right => ?_⟩
    · simp only [State.takeWord, receiving, tail, State.takeTail, if_neg (Nat.not_lt.2 full), same, if_neg wrong,
        State.raise_eq]
      rfl
    · simp only [State.takeWord, receiving, tail, State.takeTail, if_neg (Nat.not_lt.2 full), same, if_pos right]
  · simp only [State.takeWord, receiving, idle]; rfl
  · simp only [State.takeWord, receiving, head, State.takeHead, acknowledgeImplicitly_eq]; rfl
  · simp only [State.lostAlignment, receiving]; rfl

end Sys2Proof.Proofs

/-! Acknowledgement, the queues' commands, the reads and the guard's commands. -/

namespace Sys2Proof.Proofs
open Sys2Proof.Machine

/-! ### Deferred effects -/

theorem acknowledge_twice (s : State) (ch : ChannelId) : (s.acknowledge ch).acknowledge ch = s.acknowledge ch :=
  State.acknowledge_of_acked _ _ (stored_acknowledge s ch)

theorem acknowledge_of_unacked (s : State) (ch : ChannelId) (p : StoredReply) (stored : (s.channel ch).stored = some p)
    (unacked : p.acked = false) (e : Deferred) (effects : p.effects = e) : s.acknowledge ch =
      (s.setChannel ch { s.channel ch with stored := some { p with acked := true } }).applyEffects ch e := by
  subst effects
  simp only [State.acknowledge, stored, unacked, Bool.false_eq_true, if_false]

theorem acknowledge_of_done (s : State) (ch : ChannelId) (p : StoredReply) (stored : (s.channel ch).stored = some p)
    (acked : p.acked = true) : s.acknowledge ch = s :=
  s.acknowledge_of_acked ch fun q other => by
    rw [stored] at other
    cases other
    exact acked

theorem setChannel_setQueue (s : State) (ch : ChannelId) (c : Channel) (q : Queue) :
    (s.setChannel ch c).setQueue ch q = (s.setQueue ch q).setChannel ch c := by
  cases ch <;> rfl

/-- Settles O19: by the effects of the stored reply. -/
theorem deferredEffectsOnce : Obligations.DeferredEffectsOnce := by
  unfold Obligations.DeferredEffectsOnce
  refine ⟨fun s ch p stored => ⟨acknowledge_of_done s ch p stored, fun marked lost unacked effects => ?_⟩,
    fun s ch p l k stored effects => ⟨fun unacked => ?_, acknowledge_of_done s ch p stored⟩,
    fun s ch c p k stored effects => ⟨fun unacked => ?_, acknowledge_of_done s ch p stored⟩,
    fun s ch => ⟨fun p stored unacked effects => ?_, fun empty => ?_⟩⟩
  · have done : s.acknowledge ch = (s.setQueue ch ((s.queue ch).acknowledge marked lost)).setChannel ch
        { s.channel ch with stored := some { p with acked := true } } := by
      rw [acknowledge_of_unacked s ch p stored unacked _ effects, ← setChannel_setQueue]
      simp only [State.applyEffects, State.queue_setChannel]
    refine ⟨_, rfl, ?_⟩
    rw [done]
    simp only [State.queue_setChannel, State.queue_setQueue]
    refine ⟨rfl, rfl, ?_, rfl, rfl, Queue.judge_alarm _, trivial⟩
    change (if (s.queue ch).lostCount - lost = 0 then false else (s.queue ch).overflow) = _
    by_cases more : lost < (s.queue ch).lostCount
    · rw [if_neg (by omega)]; simp [more]
    · rw [if_pos (by omega)]; simp [more]
  · refine ⟨?_, acknowledge_twice s ch⟩
    rw [acknowledge_of_unacked s ch p stored unacked _ effects]
    simp only [State.applyEffects, State.lane_congr _ _ _ (State.setChannel_lanes ..)]
    rfl
  · refine ⟨?_, acknowledge_twice s ch⟩
    rw [acknowledge_of_unacked s ch p stored unacked _ effects]
    have same : ((s.setChannel ch { s.channel ch with stored := some { p with acked := true } }).channel c).counters =
        (s.channel c).counters := by
      cases ch <;> cases c <;> rfl
    simp only [State.applyEffects, State.countChannel, same]
    rfl
  · rw [acknowledge_of_unacked s ch p stored unacked _ effects]; rfl
  · exact s.acknowledge_of_acked ch fun p stored => by rw [empty] at stored; cases stored

/-! ### The queues' commands -/

theorem getLsbD_masked (x : Half) (k : Nat) (h : k < 15) : (x &&& 0x7FFF).getLsbD k = x.getLsbD k := by
  have ones : ∀ n < 15, (0x7FFF : Half).getLsbD n = true := by decide
  rw [BitVec.getLsbD_and, ones k h, Bool.and_true]

theorem mark_of_split (q : Queue) (taken rest : List EventRecord) (h : q.records = taken ++ rest) :
    q.mark taken.length =
      { q with records := taken.map (fun x : EventRecord => { x with inFlight := true }) ++ rest } := by
  simp [Queue.mark, h]

theorem readBytes_of_split (q : Queue) (taken rest : List EventRecord) (h : q.records = taken ++ rest) :
    q.readBytes taken.length = [if q.overflow then 1 else 0, BitVec.ofNat 8 q.lostCount, BitVec.ofNat 8 taken.length, 0] ++
      taken.flatMap fun x => [BitVec.ofNat 8 x.event.code, BitVec.ofNat 8 x.event.subject,
        BitVec.ofNat 8 x.count, x.firstStamp.extractLsb' 8 8, x.firstStamp.extractLsb' 0 8, 0] := by
  rw [Queue.readBytes, h, List.take_left]
  rfl

/-- Settles O20: the codes by the table; the two rows by the queue that each leaves. -/
theorem queueCommands : Obligations.QueueCommands := by
  unfold Obligations.QueueCommands
  refine ⟨⟨fun l => by decide +revert, fun g => by decide +revert, fun ch => by cases ch <;> decide,
      fun i => by decide +revert⟩,
    fun s ch r s1 s0 a1 a0 h => ?_, fun s ch r most spare h => ⟨fun out => ?_, fun low high taken rest split length => ?_⟩⟩
  · have row : exec (.setSubscription ch (s1 ++ s0) (a1 ++ a0)) s =
        .next (s.takeSetSubscription ch r (s1 ++ s0) (a1 ++ a0)) := exec_of_waits h rfl rfl rfl
    refine ⟨(s.queue ch).subscribe (s1 ++ s0) (a1 ++ a0), rfl, rfl, rfl, rfl, fun k hk => getLsbD_masked _ k hk, ?_, ?_, row⟩
    · have spare : (0x7FFF : Half).getLsbD 15 = false := by decide
      change ((s1 ++ s0 : Half) &&& 0x7FFF).getLsbD 15 = false
      rw [BitVec.getLsbD_and, spare, Bool.and_false]
    · rw [Queue.subscribe, Queue.judge_alarm]
      exact Queue.alarmCondition_iff _
  · have row : exec (.readEvents ch most) s = .next (s.takeReadEvents ch r most) := exec_of_waits h rfl rfl rfl
    rw [row, State.takeReadEvents, if_neg (by omega)]; rfl
  · have row : exec (.readEvents ch most) s = .next (s.takeReadEvents ch r most) := exec_of_waits h rfl rfl rfl
    rw [row, State.takeReadEvents, if_pos ⟨low, high⟩]
    dsimp only
    rw [← length, mark_of_split _ _ _ split, readBytes_of_split _ _ _ split]

/-! ### The reads -/

theorem byteOf_eq (n : Nat) : byteOf n = BitVec.ofNat 8 n := rfl

theorem toList_flatMap {α β : Type} {n : Nat} (v : Vector α n) (f : α → List β) :
    v.toList.flatMap f = (List.finRange n).flatMap fun i => f (v.get i) := by
  rw [toList_eq_map_get, List.flatMap_map]

theorem standing_kind_byte (q : Option Standing) :
    byteOf ((q.map fun q => q.kind.code).getD 0) =
      match q with
      | none => 0
      | some ⟨.lockout, _⟩ => 1
      | some ⟨.force, _⟩ => 2
      | some ⟨.manualP, _⟩ => 3
      | some ⟨.manualW, _⟩ => 4 := by
  rcases q with - | ⟨kind, origin⟩
  · rfl
  · cases kind <;> rfl

theorem standing_origin_byte (q : Option Standing) :
    byteOf ((q.map fun q => q.origin.code).getD 0) =
      match q with
      | none => 0
      | some ⟨_, .channel .ch0⟩ => 1
      | some ⟨_, .channel .ch1⟩ => 2
      | some ⟨_, .input n⟩ => BitVec.ofNat 8 (3 + n.val) := by
  rcases q with - | ⟨kind, ⟨ch⟩ | ⟨n⟩⟩
  · rfl
  · cases ch <;> rfl
  · simp [byteOf, Origin.code, Nat.add_comm]

/-- Settles O58: each row by the bytes it reports. -/
theorem readsReportWhatStands : Obligations.ReadsReportWhatStands := by
  unfold Obligations.ReadsReportWhatStands
  refine ⟨⟨rfl, rfl, fun g => ⟨rfl, rfl, rfl, rfl⟩⟩, fun s ch r => ⟨fun h => ?_, fun h => ?_, fun h => ?_, fun h => ?_⟩,
    fun s ch r group spare h => ?_⟩
  · have row : exec (.readIdentity ch) s = .next (s.takeReadIdentity ch r) := exec_of_waits h rfl rfl rfl
    exact row
  · have row : exec (.readEditState ch) s = .next (s.takeReadEditState ch r) := exec_of_waits h rfl rfl rfl
    rw [row, State.takeReadEditState, byteOf_bankCode, differing_eq]
    rcases session : s.map.session with - | e <;> rcases scheduled : s.map.scheduled with - | c <;>
      simp only [ConnectionMap.holder, session, Option.map_some, byteOf_holderCode] <;> rfl
  · have row : exec (.readEgress ch) s = .next (s.takeReadEgress ch r) := exec_of_waits h rfl rfl rfl
    exact row
  · have row : exec (.readInputs ch) s = .next (s.takeReadInputs ch r) := exec_of_waits h rfl rfl rfl
    rw [row, State.takeReadInputs, toList_flatMap]
    simp only [Input.bytes, Input.levelByte_eq]
    rfl
  · have row : exec (.readGroup ch group) s = .next (s.takeReadGroup ch r group) := exec_of_waits h rfl rfl rfl
    rw [row, State.takeReadGroup]
    refine ⟨fun out => ?_, fun g hg => ?_⟩
    · rw [groupOf, finOf_eq_none (by omega)]; rfl
    · rw [groupOf, finOf_of_val g _ hg]
      dsimp only
      have number := byteOf_of_val g group hg
      refine ⟨fun off => ?_, fun x on => ?_⟩
      · rw [off, groupBytes, number]; rfl
      · rw [on, groupBytes, number, Conditions.byte_eq, standing_kind_byte, standing_origin_byte]
        cases x.selected <;> rfl

/-! ### The guard's commands -/

theorem faultBytes_eq (g : Guard) : g.faultBytes =
    (match g.fault with
      | none => [0, 0, 0, 0, 0, 0, 0, 0, 0, 0]
      | some f =>
        [1, if f.channel = .ch0 then 0 else 1, f.code.zeroExtend 8, f.seq.zeroExtend 8,
            (match f.reason with
              | .supervisor => 1
              | .region => 2
              | .groupAccess => 3
              | .origin => 4)] ++
          (match f.target with
            | .none => [0, 0, 0]
            | .destination p => [1, BitVec.ofNat 8 p.lane.val, BitVec.ofNat 8 p.slot.val]
            | .group g => [2, BitVec.ofNat 8 g.val, 0]) ++ halfBytes f.stamp) ++
      [BitVec.ofNat 8 g.overruns, 0] := by
  rcases filled : g.fault with - | ⟨ch, code, seq, reason, target, stamp⟩
  · simp [Guard.faultBytes, filled, byteOf_eq]
  · cases ch <;> cases reason <;> cases target <;> simp [Guard.faultBytes, filled, byteOf_eq, channelCode,
      FaultReason.code, Target.bytes]

theorem flagOf_of_le (x : Byte) (h : x.toNat ≤ 1) : flagOf x = some (decide (x = 1)) := by
  rcases flagOf_cases x with ⟨rfl, named⟩ | ⟨rfl, named⟩ | ⟨out, -⟩
  · exact named
  · exact named
  · omega

theorem flagByte_of_le (x : Byte) (h : x.toNat ≤ 1) : flagByte (decide (x = 1)) = x := by
  rcases flagOf_cases x with ⟨rfl, -⟩ | ⟨rfl, -⟩ | ⟨out, -⟩
  · rfl
  · rfl
  · omega

theorem flagOf_eq_none (x : Byte) (h : 1 < x.toNat) : flagOf x = none := by
  rcases flagOf_cases x with ⟨rfl, -⟩ | ⟨rfl, -⟩ | ⟨-, unnamed⟩
  · exact absurd h (by decide)
  · exact absurd h (by decide)
  · exact unnamed

theorem val_of_placeOf {l k : Byte} {d : Place} (h : placeOf l k = some d) :
    d.lane.val = l.toNat ∧ d.slot.val = k.toNat := by
  unfold placeOf at h
  split at h
  case h_1 lane slot hl hs =>
    cases h
    exact ⟨finOf_eq_some.1 hl, finOf_eq_some.1 hs⟩
  case h_2 => cases h

theorem regionOf_present (a b : Place) (lf ll sf sl rd md : Byte) (hlf : a.lane.val = lf.toNat)
    (hll : b.lane.val = ll.toNat) (hsf : a.slot.val = sf.toNat) (hsl : b.slot.val = sl.toNat) (hl : a.lane ≤ b.lane)
    (hs : a.slot ≤ b.slot) (hrd : rd.toNat ≤ 1) (hmd : md.toNat ≤ 1) :
    regionOf 1 lf ll sf sl rd md =
      some (some ⟨a.lane, b.lane, a.slot, b.slot, decide (rd = 1), decide (md = 1)⟩) := by
  have one : flagOf 1 = some true := rfl
  simp only [regionOf, one, placeOf_of_val a lf sf hlf hsf, placeOf_of_val b ll sl hll hsl, 
    flagOf_of_le rd hrd, flagOf_of_le md hmd]
  exact if_pos ⟨hl, hs⟩

theorem regionOf_refused (present lf ll sf sl rd md : Byte) (bad : 1 < present.toNat ∨ (present = 1 ∧
    (7 < lf.toNat ∨ 7 < ll.toNat ∨ 23 < sf.toNat ∨ 23 < sl.toNat ∨ 1 < rd.toNat ∨ 1 < md.toNat ∨
      ll.toNat < lf.toNat ∨ sl.toNat < sf.toNat))) : regionOf present lf ll sf sl rd md = none := by
  rcases bad with out | ⟨rfl, bad⟩
  · rw [regionOf, flagOf_eq_none present out]
  · have one : flagOf 1 = some true := rfl
    rw [regionOf, one]
    dsimp only
    split
    case h_2 => rfl
    case h_1 a b rd' md' first last read modify =>
      refine if_neg fun ⟨lanes, slots⟩ => ?_
      obtain ⟨hlf, hsf⟩ := val_of_placeOf first
      obtain ⟨hll, hsl⟩ := val_of_placeOf last
      have hrd : rd.toNat ≤ 1 := by
        by_contra out
        rw [flagOf_eq_none rd (by omega)] at read
        cases read
      have hmd : md.toNat ≤ 1 := by
        by_contra out
        rw [flagOf_eq_none md (by omega)] at modify
        cases modify
      have := a.lane.isLt
      have := b.lane.isLt
      have := a.slot.isLt
      have := b.slot.isLt
      rw [Fin.le_def] at lanes slots
      omega

/-- Settles O60: SET_REGION by the record that its fields ask for, the other rows by what they report. -/
theorem guardCommands : Obligations.GuardCommands := by
  unfold Obligations.GuardCommands
  refine ⟨fun s r n present lf ll sf sl rd md h => ?_, fun s r => ?_⟩
  · intro i
    have row : exec i s = .next (s.takeSetRegion r n present lf ll sf sl rd md) := exec_of_waits_ch0 h rfl rfl
    rw [row, State.takeSetRegion]
    refine ⟨fun bad => ?_, fun m number => ?_⟩
    · have none_of : finOf 8 n.toNat = none ∨ regionOf present lf ll sf sl rd md = none := by
        rcases bad with out | bad
        · exact .inl (finOf_eq_none (by omega))
        · exact .inr (regionOf_refused present lf ll sf sl rd md bad)
      split
      next region record => rcases none_of with h | h <;> simp_all
      next => rfl
    · have index := byteOf_of_val m n number
      rw [finOf_of_val m _ number]
      refine ⟨?_, fun a b => ?_⟩
      · rintro rfl
        have absent : regionOf 0 lf ll sf sl rd md = some none := rfl
        rw [absent]
        dsimp only
        rw [index]
        rfl
      · rintro rfl hlf hll hsf hsl lanes slots hrd hmd
        rw [regionOf_present a b lf ll sf sl rd md hlf hll hsf hsl lanes slots hrd hmd]
        dsimp only
        simp only [regionBytes, index, byteOf_of_val _ _ hlf, byteOf_of_val _ _ hll, byteOf_of_val _ _ hsf,
          byteOf_of_val _ _ hsl, flagByte_of_le rd hrd, flagByte_of_le md hmd]
        rfl
  · intro faultBytes
    have bytes : s.guard.faultBytes = faultBytes := faultBytes_eq s.guard
    refine ⟨fun h => ?_, fun h => ?_, fun h => ?_⟩
    · have row : exec .readRegions s = .next (s.takeReadRegions r) := exec_of_waits_ch0 h rfl rfl
      rw [row, State.takeReadRegions, toList_flatMap]
      refine congrArg (fun b => Host.Outcome.next (s.finish .ch0 r .ok b .none)) ?_
      refine congrArg (fun f => (List.finRange 8).flatMap f) (funext fun n => ?_)
      rcases s.guard.regions.get n with - | x <;> rfl
    · have row : exec .readFault s = .next (s.takeReadFault r) := exec_of_waits_ch0 h rfl rfl
      rw [row, State.takeReadFault, bytes]; rfl
    · have row : exec .clearFault s = .next (s.takeClearFault r) := exec_of_waits_ch0 h rfl rfl
      rw [row, State.takeClearFault, bytes]; rfl

end Sys2Proof.Proofs

/-! The lanes: words in every alignment state, SET_LANE and the two clearing reads. -/

namespace Sys2Proof.Proofs
open Sys2Proof.Machine

section
variable (s : State) (l : LaneId) (w : Word)

/-! ### Acquisition -/

theorem declareAligned_eq (n : BitVec 4) : s.declareAligned l n =
    ((s.setLane l { s.lane l with alignment := .aligned ⟨n, 0, ⟨0, 0⟩, false, []⟩ }).withEvents
      [.laneAligned l]).reportLanes := by
  rw [State.declareAligned, State.raise_eq]
  rfl

end

/-- Settles O33: by the alignment state and the word's marker fields. -/
theorem acquisitionWords : Obligations.AcquisitionWords := by
  unfold Obligations.AcquisitionWords
  intro s l w
  have row : exec (.ingressWordArrival l w) s = .next (s.arrive l w) := rfl
  rw [row]
  refine ⟨fun off => ?_, fun hunt => ⟨fun other => ?_, fun marker => ?_⟩, fun passed number one confirm =>
    ⟨fun early => ?_, fun due => ⟨fun bad => ?_, fun marker frame first => ?_, fun marker frame second => ?_⟩⟩⟩
  · simp only [State.arrive, off]
  · simp only [State.arrive, hunt, if_neg (mt (matchesMarker_iff w).1 other)]
  · simp only [State.arrive, hunt, if_pos ((matchesMarker_iff w).2 marker)]; rfl
  · simp only [State.arrive, confirm, if_pos early]; rfl
  · simp only [State.arrive, confirm, if_neg (Nat.not_lt.2 due), if_pos ((goodMarker_eq_false number w).2 bad)]; rfl
  · have good := (goodMarker_iff number w).2 ⟨marker, frame⟩
    simp only [State.arrive, confirm, if_neg (Nat.not_lt.2 due), good, first, Bool.true_eq_false, Bool.false_eq_true,
      if_false]
    rfl
  · have good := (goodMarker_iff number w).2 ⟨marker, frame⟩
    simp only [State.arrive, confirm, if_neg (Nat.not_lt.2 due), good, second, Bool.true_eq_false, if_false, if_true,
      declareAligned_eq]

/-! ### Marker positions in ALIGNED -/

section
variable {s : State} {l : LaneId} {t : Tracking} (aligned : (s.lane l).alignment = .aligned t) (w : Word)
include aligned

theorem arrive_of_position (position : 24 ≤ t.slots.length) : s.arrive l w = s.markerAligned l t w := by
  simp only [State.arrive, aligned, if_neg (Nat.not_lt.2 position)]

theorem arrive_of_slot (slot : t.slots.length < 24) : s.arrive l w = s.slotAligned l t w := by
  simp only [State.arrive, aligned, if_pos slot]

theorem lossDue_iff : s.lossDue l w = true ↔
    24 ≤ t.slots.length ∧ 3 ≤ t.consecutiveBad ∧ ¬ (w.extractLsb' 8 16 = 0x2F71 ∧ w.extractLsb' 4 4 = t.number) := by
  rw [← goodMarker_eq_false]
  simp only [State.lossDue, aligned, Tracking.lastChance, Bool.and_eq_true, decide_eq_true_eq, Bool.not_eq_true']
  tauto

theorem windowEndDue_iff : s.windowEndDue l w = true ↔
    24 ≤ t.slots.length ∧ 255 ≤ t.window.length ∧
      (t.consecutiveBad < 3 ∨ (w.extractLsb' 8 16 = 0x2F71 ∧ w.extractLsb' 4 4 = t.number)) := by
  have loss := lossDue_iff aligned w
  simp only [State.windowEndDue, aligned, Bool.and_eq_true, decide_eq_true_eq, Bool.not_eq_true']
  constructor
  · rintro ⟨⟨position, window⟩, kept⟩
    refine ⟨position, window, ?_⟩
    by_contra lost
    rw [loss.2 ⟨position, by omega, fun good => lost (.inr good)⟩] at kept
    cases kept
  · rintro ⟨position, window, kept⟩
    refine ⟨⟨position, window⟩, Bool.eq_false_iff.2 fun lost => ?_⟩
    obtain ⟨-, run, bad⟩ := loss.1 lost
    rcases kept with few | good
    · omega
    · exact bad good

omit aligned in
theorem markerAligned_of_lost (lost : goodMarker t.number w = false) (run : 3 ≤ t.consecutiveBad) :
    s.markerAligned l t w = s.loseAlignment l := by
  have last : t.lastChance = true := decide_eq_true run
  simp only [State.markerAligned, lost, last, and_self, if_true]

omit aligned in
theorem markerAligned_of_kept (good : Bool) (judged : goodMarker t.number w = good)
    (kept : good = true ∨ t.consecutiveBad < 3) (t1 : Tracking) (ended : (t.judge good).endWindow (s.lane l).threshold = t1)
    (s1 : State) (stored : s1 = s.setLane l { s.lane l with
      alignment := .aligned t1
      counters := if good then (s.lane l).counters else
        { (s.lane l).counters with badMarkers := min 65535 ((s.lane l).counters.badMarkers + 1) } }) :
    s.markerAligned l t w =
      if t1.degraded = t.degraded then s1
      else (s1.withEvents (degradeEvents l t.degraded t1.degraded)).reportLanes := by
  have stays : ¬ (good = false ∧ t.lastChance = true) := by
    rintro ⟨bad, last⟩
    rcases kept with good | few
    · rw [good] at bad; cases bad
    · have := of_decide_eq_true last
      omega
  subst stored ended
  simp only [State.markerAligned, judged, if_neg stays, State.raiseAll_eq]
  rfl

end

/-- The judgement of a window by the three ways in which DEGRADED can hold after it (R71). -/
theorem judgeDegraded_eq (threshold bad : Nat) (degraded after : Bool)
    (holds : after = true ↔ (threshold = 0 ∧ degraded = true) ∨ (threshold ≠ 0 ∧ degraded = false ∧ threshold ≤ bad) ∨
      (threshold ≠ 0 ∧ degraded = true ∧ threshold / 2 < bad)) : judgeDegraded threshold bad degraded = after := by
  rw [Bool.eq_iff_iff, holds, judgeDegraded]
  by_cases off : threshold = 0
  · simp [off]
  · cases degraded <;> simp [off]

theorem judge_bad (t : Tracking) (good : Bool) : (t.judge good).window.bad = t.window.bad + if good then 0 else 1 := by
  cases good <;> rfl

/-- Settles O34: a position that keeps the lane by the degrade window, one that loses it by the fourth bad marker, and
the report by the locations on the lane. -/
theorem markerPositionJudged : Obligations.MarkerPositionJudged := by
  unfold Obligations.MarkerPositionJudged
  refine ⟨fun s l w t aligned position good judged kept => ?_, fun s l w t aligned position run bad => ?_, fun s l => ?_⟩
  · intro x badCount counters run
    have marker : goodMarker t.number w = good := by rw [Bool.eq_iff_iff, goodMarker_iff, judged]
    have arrives : exec (.ingressWordArrival l w) s = .next (s.markerAligned l t w) :=
      congrArg _ (arrive_of_position aligned w position)
    rw [arrives]
    have decided := fun t1 ended => markerAligned_of_kept (s := s) (l := l) w good marker kept t1 ended _ rfl
    refine ⟨fun short => ?_, fun full => ?_, fun full after holds => ?_⟩
    · have ended : (t.judge good).endWindow x.threshold =
          ⟨t.number + 1, run, ⟨t.window.length + 1, badCount⟩, t.degraded, []⟩ := by
        rw [Tracking.endWindow, if_pos (show (t.judge good).window.length < 256 from short)]
        cases good <;> rfl
      rw [decided _ ended, if_pos rfl]
    · have due : s.windowEndDue l w = true := (windowEndDue_iff aligned w).2 ⟨position, full, by
        rcases kept with good | few
        · exact .inr (judged.1 good)
        · exact .inl few⟩
      change execDegradeWindowEnd l w s = _
      rw [execDegradeWindowEnd, if_pos due]
      exact arrives
    · have ended : (t.judge good).endWindow x.threshold = ⟨t.number + 1, run, ⟨0, 0⟩, after, []⟩ := by
        rw [Tracking.endWindow, if_neg (show ¬ (t.judge good).window.length < 256 from Nat.not_lt.2 (by
          change 256 ≤ t.window.length + 1; omega)), judge_bad]
        have judgement := judgeDegraded_eq x.threshold badCount t.degraded after holds
        simp only [Tracking.judge]
        rw [judgement]
      intro s1
      have judgement : s.markerAligned l t w =
          if after = t.degraded then s1 else (s1.withEvents (degradeEvents l t.degraded after)).reportLanes :=
        decided _ ended
      rw [judgement]
      refine ⟨fun same => by rw [if_pos same], fun set was => ?_, fun cleared was => ?_⟩
      · rw [if_neg (by simp [set, was]), was, set]; rfl
      · rw [if_neg (by simp [cleared, was]), was, cleared]; rfl
  · intro x s1
    have lost := (goodMarker_eq_false t.number w).2 bad
    have loses : s.arrive l w = ((s1.withEvents [.laneLost l]).reportLost l).reportLanes := by
      rw [arrive_of_position aligned w position, markerAligned_of_lost w lost run, State.loseAlignment,
        State.leaveAligned, State.raise_eq]
      rfl
    have due : exec (.lossOfAlignment l w) s = .next (s.arrive l w) := by
      change execLossOfAlignment l w s = _
      rw [execLossOfAlignment, if_pos ((lossDue_iff aligned w).2 ⟨position, run, bad⟩)]
    exact ⟨by rw [due, loses], due.symm⟩
  · rw [reportLost_eq_ite, lostAlignment_eq_cutOff, lostAlignment_eq_cutOff]
    rfl

/-! ### Slot words in ALIGNED -/

/-- Settles O35: by the slot, and at slot 23 by the order of the hand-off and the store write. -/
theorem slotWordHandedOff : Obligations.SlotWordHandedOff := by
  unfold Obligations.SlotWordHandedOff
  intro s l w t k aligned slot s1
  have arrives : exec (.ingressWordArrival l w) s = .next (s.slotAligned l t w) :=
    congrArg _ (arrive_of_slot aligned w (by omega))
  have number : finOf 24 t.slots.length = some k := finOf_of_val k _ slot.symm
  have length : (t.slots ++ [w]).length = k.val + 1 := by simp [slot]
  have places (n : Nat) (ch : ChannelId) : State.place { s1 with free := n } ch = s.place ch := by cases ch <;> rfl
  have handed (n : Nat) (ch : ChannelId) (own : s.place ch = some ⟨l, k⟩) (others : ∀ c, c ≠ ch → s.place c ≠ some ⟨l, k⟩) :
      State.handOff { s1 with free := n } ⟨l, k⟩ w = State.takeWord { s1 with free := n } ch w :=
    State.handOff_of_place _ _ w ch (by rw [places, own]) fun c hc => by rw [places]; exact others c hc
  have unmanaged (n : Nat) (none : ∀ ch, s.place ch ≠ some ⟨l, k⟩) :
      State.handOff { s1 with free := n } ⟨l, k⟩ w = { s1 with free := n } :=
    State.handOff_of_none _ _ w fun c => by rw [places]; exact none c
  rw [arrives]
  have unfolded := State.slotAligned.eq_def s l t w
  rw [number] at unfolded
  dsimp only at unfolded
  refine ⟨fun before => ?_, fun last => ?_⟩
  · have early : s.slotAligned l t w = s1.handOff ⟨l, k⟩ w := unfolded.trans (if_pos (by omega))
    rw [early]
    exact ⟨fun ch own others => congrArg _ (handed s1.free ch own others),
      fun none => congrArg _ (unmanaged s1.free none)⟩
  · rw [if_neg (by omega)] at unfolded
    have orders : ∃ n, s.slotAligned l t w =
          (State.handOff { s1 with free := n } ⟨l, k⟩ w).completeFrame l (frameOf (t.slots ++ [w])) ∨
        s.slotAligned l t w =
          (State.completeFrame { s1 with free := n } l (frameOf (t.slots ++ [w]))).handOff ⟨l, k⟩ w := by
      split_ifs at unfolded
      · exact ⟨s1.free, .inl unfolded⟩
      · exact ⟨s1.free + 1, .inl unfolded⟩
      · exact ⟨s1.free + 1, .inr unfolded⟩
    obtain ⟨n, orders⟩ := orders
    refine ⟨fun none => ⟨n, ?_⟩, fun ch own others => ⟨n, ?_⟩⟩
    · rcases orders with first | after
      · rw [first, unmanaged n none]; rfl
      · rw [after, State.handOff_of_none _ _ w fun c => by
          rw [State.place_completeFrame, places]; exact none c]
        rfl
    · rcases orders with first | after
      · rw [first, handed n ch own others]
        exact .inl rfl
      · rw [after, State.handOff_of_place _ _ w ch (by rw [State.place_completeFrame, places, own]) fun c hc => by
          rw [State.place_completeFrame, places]; exact others c hc]
        exact .inr rfl

end Sys2Proof.Proofs

/-! The groups: a re-decision by its table, the report of the lanes, SET_LANE and the clearing reads. -/

namespace Sys2Proof.Proofs
open Sys2Proof.Machine

/-! ### A re-decision -/

/-- The occurrences of a re-decision, REQUEST_DROPPED and then the switch (R91, R104). -/
theorem redecideEvents_eq (x : Group) (g : GroupId) : x.redecideEvents g =
    (if x.mustDrop = true then [.requestDropped g] else []) ++
      (if x.selected = .working ∧ x.redecide.selected = .protect then [.groupToProtect g] else []) ++
      (if x.selected = .protect ∧ x.redecide.selected = .working then [.groupToWorking g] else []) := by
  have switch (a b : Selection) : switchEvents g a b =
      (if a = .working ∧ b = .protect then [.groupToProtect g] else []) ++
        (if a = .protect ∧ b = .working then [.groupToWorking g] else []) := by
    cases a <;> cases b <;> rfl
  rw [Group.redecideEvents, switch, ← List.append_assoc]

theorem mustDrop_iff (x : Group) :
    x.mustDrop = true ↔ x.present .manual = true ∧ ∃ i, x.present i = true ∧ i.rank < 7 := by
  simp only [Group.mustDrop, Bool.and_eq_true, Bool.or_eq_true]
  refine and_congr_right fun _ => ⟨?_, ?_⟩
  · rintro (((((h | h) | h) | h) | h) | h)
    exacts [⟨_, h, by decide⟩, ⟨_, h, by decide⟩, ⟨_, h, by decide⟩, ⟨_, h, by decide⟩, ⟨_, h, by decide⟩,
      ⟨_, h, by decide⟩]
  · rintro ⟨i, present, rank⟩
    cases i <;> simp_all [Item.rank]

theorem settle_of_workingItem (x : Group) (st : GroupState)
    (top : (x.topItem = some .sfW ∧ st = .pSf) ∨ (x.topItem = some .sdW ∧ st = .pSd)) :
    x.settle = x.workingFault st := by
  rcases top with ⟨top, rfl⟩ | ⟨top, rfl⟩ <;> simp only [Group.settle, top]

theorem settle_of_noItem (x : Group) (top : x.topItem = none) : x.settle = x.noItem := by
  simp only [Group.settle, top]

/-- The state and the timers that a group is in. -/
def In (y : Group) (st : GroupState) (holdOff wtr : Option Nat) : Prop :=
  y.state = st ∧ y.holdOffRemaining = holdOff ∧ y.wtrRemaining = wtr

theorem in_enter (x : Group) (st : GroupState) (holdOff wtr : Option Nat) : In (x.enter st holdOff wtr) st holdOff wtr :=
  ⟨rfl, rfl, rfl⟩

theorem in_workingFault (x : Group) (st : GroupState) :
    (x.selected = .protect → In (x.workingFault st) st none none) ∧
    (x.selected = .working →
      (∀ n, x.holdOffRemaining = some n → In (x.workingFault st) .wIdle (some n) none) ∧
      (x.holdOffRemaining = none → x.holdOff = 0 → In (x.workingFault st) st none none) ∧
      (x.holdOffRemaining = none → 0 < x.holdOff → In (x.workingFault st) .wIdle (some x.holdOff) none)) := by
  refine ⟨fun there => ?_, fun working => ?_⟩
  · rw [Group.workingFault, if_pos there]
    exact in_enter ..
  · rw [Group.workingFault, if_neg (by simp [working])]
    refine ⟨fun n running => ?_, fun idle zero => ?_, fun idle positive => ?_⟩
    · rw [running]
      exact in_enter ..
    · rw [idle]
      dsimp only
      rw [if_pos zero]
      exact in_enter ..
    · rw [idle]
      dsimp only
      rw [if_neg (by omega)]
      exact in_enter ..

theorem in_noItem (x : Group) :
    (x.state.selection = .working → In x.noItem .wIdle none none) ∧
    (x.state = .pSf ∨ x.state = .pSd →
      (x.revertive = true → In x.noItem .pWtr none (some x.wtrPeriod)) ∧
      (x.revertive = false → In x.noItem .pIdle none none)) ∧
    (x.state = .pForce ∨ x.state = .pManual →
      (x.revertive = true → In x.noItem .wIdle none none) ∧ (x.revertive = false → In x.noItem .pIdle none none)) ∧
    (x.state = .pWtr → In x.noItem .pWtr none x.wtrRemaining) ∧ (x.state = .pIdle → In x.noItem .pIdle none none) := by
  refine ⟨fun working => ?_, fun faulted => ⟨fun on => ?_, fun off => ?_⟩, fun asked => ⟨fun on => ?_, fun off => ?_⟩,
    fun waiting => ?_, fun resting => ?_⟩
  · unfold Group.noItem
    cases state : x.state <;> rw [state] at working
    case wIdle | wLockout | wSfP | wSdP | wManual => exact in_enter ..
    all_goals cases working
  · rcases faulted with state | state <;> simp only [Group.noItem, state, on, if_true] <;> exact in_enter ..
  · rcases faulted with state | state <;> simp only [Group.noItem, state, off, Bool.false_eq_true, if_false] <;>
      exact in_enter ..
  · rcases asked with state | state <;> simp only [Group.noItem, state, on, if_true] <;> exact in_enter ..
  · rcases asked with state | state <;> simp only [Group.noItem, state, off, Bool.false_eq_true, if_false] <;>
      exact in_enter ..
  · simp only [Group.noItem, waiting]
    exact in_enter ..
  · simp only [Group.noItem, resting]
    exact in_enter ..

/-- Settles O41: by the top item, and where there is none by the state before. -/
theorem redecisionTable : Obligations.RedecisionTable := by
  unfold Obligations.RedecisionTable
  refine ⟨fun x => ⟨mustDrop_iff x, fun dropped => ⟨x.redecide_of_dropped dropped, ?_⟩, fun kept => ?_⟩, fun s g x => ?_⟩
  · obtain ⟨q, st, h, w, standing, eq⟩ := x.redecide_eq
    rw [eq]
    rcases standing with ⟨-, kept⟩ | ⟨rfl, -⟩
    · rw [dropped] at kept; cases kept
    · rfl
  · intro y moved
    have settled : y = x.settle := x.redecide_of_kept kept
    have entered {st h w} (eq : x.settle = x.enter st h w) : moved st h w := by
      change In y st h w
      rw [settled, eq]
      exact in_enter ..
    refine ⟨fun top => entered (by simp only [Group.settle, top]), fun top => entered (by simp only [Group.settle, top]),
      fun top => entered (by simp only [Group.settle, top]), fun top => entered (by simp only [Group.settle, top]),
      fun top manualP => entered (by simp only [Group.settle, top, if_pos manualP]),
      fun top manualW => entered (by simp only [Group.settle, top, if_neg manualW]), fun st top => ?_, fun top => ?_,
      ?_, ?_, ?_⟩
    · have table := in_workingFault x st
      rw [← settle_of_workingItem x st top, ← settled] at table
      exact table
    · have table := in_noItem x
      rw [← settle_of_noItem x top, ← settled] at table
      exact table
    all_goals
      obtain ⟨st, h, w, eq⟩ := x.settle_eq_enter
      rw [settled, eq]
      rfl
  · rw [State.redecide_eq, redecideEvents_eq]

/-! ### The report of the lanes -/

/-- Settles O37: by the report's own lemmas on a group, on a queue and on what stays. -/
theorem laneReportsReachGroups : Obligations.LaneReportsReachGroups := by
  unfold Obligations.LaneReportsReachGroups
  intro s now occurrences
  obtain ⟨gs, q0, q1, n, only⟩ := State.onlyGroups_reportLanes s
  refine ⟨fun g off => ?_, fun g x on => ⟨fun same => ?_, fun changed => ?_⟩, ⟨openOrder s.free s.staleGroups,
    nodup_openOrder _ _ s.nodup_staleGroups, fun g => ?_, fun ch => ?_⟩, ?_⟩
  · rw [State.group_reportLanes, off]
  · rw [State.group_reportLanes, on]
    exact if_pos same
  · rw [State.group_reportLanes, on]
    exact if_neg changed
  · rw [mem_openOrder, State.staleGroups, List.mem_filter]
    rcases on : s.group g with - | x
    · simp
    · simp [now, State.conditionsOf]
  · rw [State.queue_reportLanes]
    refine congrArg (fun f => s.queueAfter _ (List.flatMap f _) ch) (funext fun g => ?_)
    simp only [occurrences]
    rcases s.group g with - | x
    · rfl
    · exact redecideEvents_eq _ g
  · rw [only]
    exact ⟨rfl, rfl, rfl, rfl, rfl, rfl, rfl, rfl, rfl, rfl, rfl⟩

/-! ### SET_LANE -/

theorem setThreshold_of_unaligned (s : State) (l : LaneId) (n : Nat) (h : ∀ t, (s.lane l).alignment ≠ .aligned t) :
    s.setThreshold l n = s.setLane l { s.lane l with threshold := n } := by
  unfold State.setThreshold
  dsimp only
  split
  case h_1 t aligned => exact absurd aligned (h t)
  case h_2 => rfl

theorem setThreshold_of_aligned (s : State) (l : LaneId) (n : Nat) (t : Tracking)
    (aligned : (s.lane l).alignment = .aligned t) (cleared : Bool)
    (hc : cleared = (decide (n = 0 ∧ (s.lane l).threshold ≠ 0) && t.degraded)) (s1 : State)
    (h1 : s1 = s.setLane l { s.lane l with
      threshold := n, alignment := .aligned { t with degraded := t.degraded && !cleared } }) :
    s.setThreshold l n = if cleared then (s1.withEvents [.laneDegradeClear l]).reportLanes else s1 := by
  have same : ({ s.lane l with threshold := n, alignment := .aligned t } : Lane) = { s.lane l with threshold := n } := by
    rw [← aligned]
  subst h1
  simp only [State.setThreshold, aligned]
  by_cases due : n = 0 ∧ (s.lane l).threshold ≠ 0 ∧ t.degraded = true
  · have on : cleared = true := by rw [hc]; simp [due]
    rw [if_pos due, State.raise_eq]
    simp [on]
  · have off : cleared = false := by
      rw [hc]
      by_contra on
      simp at on
      exact due ⟨on.1, on.2⟩
    rw [if_neg due]
    simp only [off, Bool.not_false, Bool.and_true, Bool.false_eq_true, if_false]

theorem isAligned_eq_false (x : Lane) (h : ∀ t, x.alignment ≠ .aligned t) : x.isAligned = false := by
  unfold Lane.isAligned
  split
  case h_1 t aligned => exact absurd aligned (h t)
  case h_2 => rfl

theorem disableLane_of_unaligned (s : State) (l : LaneId) (h : ∀ t, (s.lane l).alignment ≠ .aligned t) :
    s.disableLane l = s.setLane l { (s.lane l).empty with alignment := .off } := by
  rw [State.disableLane, if_neg (by rw [isAligned_eq_false _ h]; decide)]

/-- SET_LANE past its checks. -/
theorem takeSetLane_of_accepted (s : State) (r : Request) (l enable threshold : Byte) (lane : LaneId)
    (number : lane.val = l.toNat) (flag : enable.toNat ≤ 1) (range : threshold.toNat ≤ 63)
    (free : enable = 1 ∨ s.managedLane lane = false) :
    s.takeSetLane r l enable threshold =
      let u := (if enable = 1 then s.enableLane lane else s.disableLane lane).setThreshold lane threshold.toNat
      u.reply .ch0 r (u.laneSummary lane) := by
  have unused : ¬ (decide (enable = 1) = false ∧ s.managedLane lane = true) := by
    rintro ⟨off, managed⟩
    rcases free with on | free
    · simp [on] at off
    · rw [free] at managed; cases managed
  simp only [State.takeSetLane, laneOf, finOf_of_val lane _ number, flagOf_of_le enable flag,
    if_neg (show ¬ 63 < threshold.toNat by omega), if_neg unused, decide_eq_true_eq]

theorem laneSummary_eq (u : State) (lane : LaneId) (l threshold : Byte) (number : lane.val = l.toNat)
    (set : (u.lane lane).threshold = threshold.toNat) : u.laneSummary lane =
      [l, if (u.lane lane).alignment = .off then 0 else 1, threshold, BitVec.ofNat 8 (u.lane lane).alignment.code] := by
  have flag : flagByte ((u.lane lane).alignment != .off) = if (u.lane lane).alignment = .off then 0 else 1 := by
    by_cases off : (u.lane lane).alignment = .off <;> simp [off, flagByte]
  rw [State.laneSummary, set, byteOf_toNat, byteOf_of_val lane l number, flag]
  rfl

theorem lane_reportLanes (s : State) (l : LaneId) : s.reportLanes.lane l = s.lane l := by
  obtain ⟨gs, q0, q1, n, only⟩ := State.onlyGroups_reportLanes s
  rw [only]
  rfl

/-- Settles O38: by the checks, ENABLE and the alignment of the lane. -/
theorem setLaneDecided : Obligations.SetLaneDecided := by
  unfold Obligations.SetLaneDecided
  intro s r l enable threshold spare h
  have row : exec (.setLane l enable threshold) s = .next (s.takeSetLane r l enable threshold) :=
    exec_of_waits_ch0 h rfl rfl
  rw [row]
  refine ⟨fun bad => ?_, fun lane number flag range => ⟨fun off used => ?_, fun free => ⟨fun t aligned on => ?_,
    fun t aligned off => ?_, fun unaligned => ?_⟩⟩⟩
  · unfold State.takeSetLane
    split
    case h_1 m on hm hon =>
      have : m.val = l.toNat := finOf_eq_some.1 hm
      have := m.isLt
      have : enable.toNat ≤ 1 := by
        by_contra out
        rw [flagOf_eq_none enable (by omega)] at hon
        cases hon
      rw [if_pos (by omega)]; rfl
    case h_2 => rfl
  · have managed : s.managedLane lane = true := (s.managedLane_iff lane).2 used
    have cleared : flagOf enable = some false := by rw [off]; rfl
    simp only [State.takeSetLane, laneOf, finOf_of_val lane _ number, cleared, managed,
      if_neg (show ¬ 63 < threshold.toNat by omega), and_self, if_true]
    rfl
  all_goals
    have unmanaged : enable = 1 ∨ s.managedLane lane = false := free.imp_right fun none => by
      by_contra managed
      obtain ⟨ch, p, place, same⟩ := (s.managedLane_iff lane).1 (by simpa using managed)
      exact none ch p place same
    rw [takeSetLane_of_accepted s r l enable threshold lane number flag range unmanaged]
  · intro cleared s1
    have kept : s.enableLane lane = s := by
      rw [State.enableLane, if_neg (by simp [aligned])]
    have zero : threshold.toNat = 0 ↔ threshold = 0 := by
      rw [← BitVec.toNat_inj]; rfl
    have done := setThreshold_of_aligned s lane threshold.toNat t aligned cleared (by simp only [cleared, zero]) s1 rfl
    have held : ((s.setThreshold lane threshold.toNat).lane lane) = s1.lane lane := by
      rw [done]
      split
      · rw [lane_reportLanes]; rfl
      · rfl
    rw [if_pos on, kept]
    dsimp only
    rw [laneSummary_eq _ lane l threshold number (by rw [held, State.lane_setLane]), held, State.lane_setLane, done]
    rfl
  · have aligns : (s.lane lane).isAligned = true := by simp [Lane.isAligned, aligned]
    have unmanaged : s.managedLane lane = false := unmanaged.resolve_left (by rw [off]; decide)
    have left : s.disableLane lane =
        (State.withEvents (s.setLane lane ⟨.off, (s.lane lane).threshold, [], none, (s.lane lane).counters⟩)
              [.laneLost lane]).reportLanes := disableLane_of_aligned s lane unmanaged aligns
    have lane_of (m : LaneId) : (s.disableLane lane).lane m =
        (s.setLane lane ⟨.off, (s.lane lane).threshold, [], none, (s.lane lane).counters⟩).lane m := by
      rw [left, lane_reportLanes]; rfl
    have there : (s.disableLane lane).lane lane = ⟨.off, (s.lane lane).threshold, [], none, (s.lane lane).counters⟩ := by
      rw [lane_of, State.lane_setLane]
    have set := setThreshold_of_unaligned (s.disableLane lane) lane threshold.toNat (by rw [there]; nofun)
    refine ⟨(s.disableLane lane).setThreshold lane threshold.toNat, ?_, ?_, fun m other => ?_, ?_⟩
    · rw [if_neg (by rw [off]; decide)]
      dsimp only
      rw [laneSummary_eq _ lane l threshold number (by rw [set, State.lane_setLane]), set, State.lane_setLane, there]
      rfl
    · rw [set, State.lane_setLane, there]
    · rw [set, State.lane_setLane_of_ne _ _ _ _ other, lane_of, State.lane_setLane_of_ne _ _ _ _ other]
    · rw [set, ← left]; rfl
  · have flags : enable = 1 ∨ enable = 0 := by
      rcases flagOf_cases enable with ⟨zero, -⟩ | ⟨one, -⟩ | ⟨out, -⟩
      · exact .inr zero
      · exact .inl one
      · omega
    rcases flags with rfl | rfl
    · refine ⟨enabledAlignment (s.lane lane).alignment, fun _ => rfl, nofun, _, fun _ => rfl, nofun, ?_⟩
      have set := setThreshold_of_unaligned (s.enableLane lane) lane threshold.toNat fun t => by
        rw [enableLane_eq, State.lane_setLane]
        dsimp only [enabledAlignment]
        split
        · nofun
        · exact unaligned t
      rw [if_pos rfl]
      dsimp only
      rw [laneSummary_eq _ lane l threshold number (by rw [set, State.lane_setLane]), set, enableLane_eq,
        State.setLane_setLane, State.lane_setLane, State.lane_setLane]
      have on : enabledAlignment (s.lane lane).alignment ≠ .off := by
        unfold enabledAlignment
        split
        · nofun
        · assumption
      simp only [if_neg on]
      rfl
    · refine ⟨.off, nofun, fun _ => rfl, _, nofun, fun _ => rfl, ?_⟩
      have left := disableLane_of_unaligned s lane unaligned
      have set := setThreshold_of_unaligned (s.disableLane lane) lane threshold.toNat (by
        rw [left, State.lane_setLane]; nofun)
      rw [if_neg (by decide)]
      dsimp only
      rw [laneSummary_eq _ lane l threshold number (by rw [set, State.lane_setLane]), set, left,
        State.setLane_setLane, State.lane_setLane, State.lane_setLane]
      rfl

/-! ### The reads that clear -/

theorem byteOf_storedCode (p : StoredReply) : byteOf (storedCode (some p)) = if p.acked then 2 else 1 := by
  rcases acked : p.acked <;> simp only [storedCode, acked] <;> rfl

/-- Settles O39: by the checks and the bytes that the two rows report. -/
theorem readAndClearDecided : Obligations.ReadAndClearDecided := by
  unfold Obligations.ReadAndClearDecided
  refine ⟨⟨⟨rfl, rfl, fun _ _ _ => rfl, fun _ => rfl⟩, rfl, rfl, fun _ => rfl, fun _ _ => rfl, fun _ => rfl, fun _ => rfl⟩,
    fun s ch r l clear h => ?_, fun s ch r c clear h => ?_⟩
  · have row : exec (.readLane ch l clear) s = .next (s.takeReadLane ch r l clear) := exec_of_waits h rfl rfl rfl
    rw [row]
    refine ⟨fun bad => ?_, fun lane number => ⟨fun one operator => ?_, fun flag permitted => ?_⟩⟩
    · unfold State.takeReadLane
      split
      case h_1 m k hm hk =>
        have : m.val = l.toNat := finOf_eq_some.1 hm
        have := m.isLt
        rw [flagOf_eq_none clear (by omega)] at hk
        cases hk
      case h_2 => rfl
    · have on : flagOf clear = some true := by rw [one]; rfl
      simp only [State.takeReadLane, laneOf, finOf_of_val lane _ number, on, operator, and_self, if_true]
      rfl
    · simp only [State.takeReadLane, laneOf, finOf_of_val lane _ number, flagOf_of_le clear flag, decide_eq_true_eq,
        if_neg permitted]
      rw [State.laneBytes, byteOf_of_val lane l number]
      rcases (s.lane lane).lastRead with - | f <;> rfl
  · have row : exec (.readChannel ch c clear) s = .next (s.takeReadChannel ch r c clear) := exec_of_waits h rfl rfl rfl
    rw [row]
    refine ⟨fun bad => ?_, fun operator zero one => ?_, fun k named flag permitted => ?_⟩
    · unfold State.takeReadChannel
      split
      case h_1 d k hd hk =>
        rcases bad with bad | bad
        · rcases channelOf_cases c with ⟨rfl, -⟩ | ⟨rfl, -⟩ | ⟨-, unnamed⟩
          · exact absurd bad (by decide)
          · exact absurd bad (by decide)
          · rw [unnamed] at hd; cases hd
        · rw [flagOf_eq_none clear bad] at hk
          cases hk
      case h_2 => rfl
    · subst operator zero one
      rfl
    · intro x place stored
      have channel : channelOf c = some k ∧ byteOf (channelCode k) = c := by
        rcases named with ⟨rfl, rfl⟩ | ⟨rfl, rfl⟩ <;> exact ⟨rfl, rfl⟩
      have open_ : ¬ (ch = .ch1 ∧ k = .ch0 ∧ clear = 1) := by
        rintro ⟨operator, rfl, one⟩
        rcases named with ⟨-, zero⟩ | ⟨other, -⟩
        · exact permitted ⟨operator, zero, one⟩
        · cases other
      simp only [State.takeReadChannel, channel.1, flagOf_of_le clear flag, decide_eq_true_eq, if_neg open_]
      rw [State.channelBytes, State.placeBytes, channel.2]
      rcases at_place : s.place k with - | p <;> rcases kept : (s.channel k).stored with - | q <;>
        simp only [place, stored, x, at_place, kept, State.enabled, byteOf_storedCode] <;> rfl

end Sys2Proof.Proofs

/-! The groups' timers, the group requests and the configuration of groups. -/

namespace Sys2Proof.Proofs
open Sys2Proof.Machine

/-! ### Timers -/

theorem tickWtr_of_still (x : Group) (still : x.state = .pWtr → x.wtrRemaining = none) : x.tickWtr = x := by
  unfold Group.tickWtr
  split
  case h_1 n state waiting => rw [still state] at waiting; cases waiting
  case h_2 => rfl

theorem tick_eq_tickWtr (x : Group) (b : Bool) (idle : x.holdOffRemaining = none) :
    x.tick b = if b then x.tickWtr else x := by
  have same : x.tickHoldOff = x := by rw [Group.tickHoldOff, idle]
  rw [Group.tick, same]

/-- A hold-off with more than one frame start left runs on (R94). -/
theorem tick_of_holdOff (x : Group) (b : Bool) (n : Nat) (running : x.holdOffRemaining = some (n + 2))
    (still : x.state = .pWtr → x.wtrRemaining = none ∨ b = false) :
    x.tick b = { x with holdOffRemaining := some (n + 1) } := by
  have ticked : x.tickHoldOff = { x with holdOffRemaining := some (n + 1) } := by
    rw [Group.tickHoldOff, running]
    exact if_neg (by omega)
  rw [Group.tick, ticked]
  cases b
  · rfl
  · rw [if_pos rfl, tickWtr_of_still]
    exact fun state => (still state).resolve_right (by decide)

/-- A hold-off at its last frame start ends in the failed state of its item (R94). -/
theorem tick_of_holdOff_ends (x : Group) (b : Bool) (n : Nat) (last : n ≤ 1) (running : x.holdOffRemaining = some n) :
    x.tick b = x.enter (if x.topItem = some .sdW then .pSd else .pSf) none none := by
  have ticked : x.tickHoldOff = x.enter (if x.topItem = some .sdW then .pSd else .pSf) none none := by
    rw [Group.tickHoldOff, running]
    exact if_pos last
  rw [Group.tick, ticked]
  cases b
  · rfl
  · rw [if_pos rfl, tickWtr_of_still]
    exact fun _ => rfl

theorem selection_of_failed (c : Prop) [Decidable c] :
    (if c then GroupState.pSd else GroupState.pSf).selection = .protect := by
  split_ifs <;> rfl

section
variable {s : State} {g : GroupId} {x : Group} (fresh : s.work.groupsTaken.get g = false) (on : s.group g = some x)
include fresh on

theorem tickGroup_of_tick (y : Group) (ticked : x.tick s.boundary = y) : s.tickGroup g =
    State.withEvents
      { s.setGroup g (some y) with
        work := { s.work with groupsTaken := s.work.groupsTaken.set g.val true g.isLt } }
      (switchEvents g x.selected y.selected) := by
  rw [State.tickGroup_of_some s g x fresh on, ticked]

theorem tickGroup_of_steady (y : Group) (ticked : x.tick s.boundary = y) (steady : y.selected = x.selected) :
    s.tickGroup g =
      { s.setGroup g (some y) with
        work := { s.work with groupsTaken := s.work.groupsTaken.set g.val true g.isLt } } := by
  rw [tickGroup_of_tick fresh on y ticked, steady, switchEvents_self, State.withEvents_nil]

theorem tickGroup_of_holdOff_ends (n : Nat) (last : n ≤ 1) (running : x.holdOffRemaining = some n) :
    s.tickGroup g = State.withEvents
      { s.setGroup g (some { x with
          state := if x.topItem = some .sdW then .pSd else .pSf, selected := .protect, holdOffRemaining := none
          wtrRemaining := none
          switchCount := if x.selected = .protect then x.switchCount else min 65535 (x.switchCount + 1) }) with
        work := { s.work with groupsTaken := s.work.groupsTaken.set g.val true g.isLt } }
      (if x.selected = .working then [.groupToProtect g] else []) := by
  rw [tickGroup_of_tick fresh on _ (tick_of_holdOff_ends x s.boundary n last running)]
  simp only [Group.enter, selection_of_failed]
  cases selected : x.selected <;> rfl

theorem tickGroup_of_wtr_ends (n : Nat) (last : n ≤ 1) (idle : x.holdOffRemaining = none) (state : x.state = .pWtr)
    (waiting : x.wtrRemaining = some n) (boundary : s.efa.frameNo = 0) :
    s.tickGroup g = State.withEvents
      { s.setGroup g (some { x with
          state := .wIdle, selected := .working, holdOffRemaining := none, wtrRemaining := none
          switchCount := if x.selected = .working then x.switchCount else min 65535 (x.switchCount + 1) }) with
        work := { s.work with groupsTaken := s.work.groupsTaken.set g.val true g.isLt } }
      (if x.selected = .protect then [.groupToWorking g] else []) := by
  have ticked : x.tick s.boundary = x.enter .wIdle none none := by
    have reached : s.boundary = true := by simp [State.boundary, boundary]
    rw [tick_eq_tickWtr x _ idle, if_pos reached, Group.tickWtr, state, waiting]
    exact if_pos last
  rw [tickGroup_of_tick fresh on _ ticked]
  simp only [Group.enter, GroupState.selection]
  cases selected : x.selected <;> rfl

end

/-- Settles O44: by the timer that runs and whether it ends, the two rows by the same event at the coming frame start. -/
theorem groupTimersRun : Obligations.GroupTimersRun := by
  unfold Obligations.GroupTimersRun
  refine ⟨fun s g => ⟨fun nothing => ?_, fun x fresh on => ?_⟩,
    fun s g x on running working fresh startable => ?_,
    fun s g x on state waiting idle protect last fresh startable => ?_⟩
  · unfold State.tickGroup
    split
    case h_1 x free on =>
      rcases nothing with taken | off
      · rw [taken] at free; cases free
      · rw [off] at on; cases on
    case h_2 => rfl
  · intro done
    have between (h : s.efa.frameNo ≠ 0) : s.boundary = false := beq_eq_false_iff_ne.2 h
    refine ⟨fun n running still => ?_, fun n idle state waiting => ?_, fun idle still => ?_,
      fun n last running => tickGroup_of_holdOff_ends fresh on n last running,
      fun n last idle state waiting boundary => tickGroup_of_wtr_ends fresh on n last idle state waiting boundary⟩
    · exact tickGroup_of_steady fresh on _
        (tick_of_holdOff x s.boundary n running fun state => (still state).imp_right between) rfl
    · have ticked : x.tick s.boundary = if s.efa.frameNo = 0 then { x with wtrRemaining := some (n + 1) } else x := by
        rw [tick_eq_tickWtr x _ idle, Group.tickWtr, state, waiting]
        by_cases boundary : s.efa.frameNo = 0
        · have reached : s.boundary = true := by simp [State.boundary, boundary]
          rw [if_pos boundary, if_pos reached]
          exact if_neg (by omega)
        · rw [if_neg boundary, between boundary]
          rfl
      refine tickGroup_of_steady fresh on _ ticked ?_
      split_ifs <;> rfl
    · have ticked : x.tick s.boundary = x := by
        rw [tick_eq_tickWtr x _ idle]
        rcases still with state | ended | early
        · rw [tickWtr_of_still x fun h => absurd h state, ite_self]
        · rw [tickWtr_of_still x fun _ => ended, ite_self]
        · rw [between early]; rfl
      exact tickGroup_of_steady fresh on _ ticked rfl
  · have due : s.ready = true ∧ s.holdOffDue g = true :=
      ⟨s.ready_iff.2 startable, by simp [State.holdOffDue, on, fresh, running]⟩
    change execHoldOffExpiry g s = _
    rw [execHoldOffExpiry, if_pos due]
    refine congrArg _ (atNextStart_eq s _ _ _ rfl ?_)
    have ended := tickGroup_of_holdOff_ends (s := { s with efa := s.efa.advance }) fresh on 1 (by omega) running
    rw [working] at ended
    exact ended
  · have due : s.ready = true ∧ s.wtrDue g = true :=
      ⟨s.ready_iff.2 startable, by simp [State.wtrDue, on, fresh, state, waiting, State.nextBoundary, last]⟩
    change execWtrExpiry g s = _
    rw [execWtrExpiry, if_pos due]
    refine congrArg _ (atNextStart_eq s _ _ _ rfl ?_)
    have ended := tickGroup_of_wtr_ends (s := { s with efa := s.efa.advance }) fresh on 1 (by omega) idle state waiting
      (advance_frameNo _ last)
    rw [protect] at ended
    exact ended

end Sys2Proof.Proofs

/-! The group requests and the configuration of groups. -/

namespace Sys2Proof.Proofs
open Sys2Proof.Machine

/-! ### Requests -/

section
variable (s : State) (ch : ChannelId) (r : Request) (group : Byte) (supervisorKind : Bool) (go : GroupId → Group → State)

theorem groupRequest_of_out (out : 15 < group.toNat) :
    s.groupRequest ch r group supervisorKind go = s.finish ch r .badField [] .none := by
  rw [State.groupRequest, groupOf, finOf_eq_none (by omega)]
  rfl

variable (g : GroupId) (number : g.val = group.toNat)
include number

theorem groupRequest_of_reserved (operator : ch = .ch1) (reserved : supervisorKind = true) :
    s.groupRequest ch r group supervisorKind go =
      (s.guardFault ch r .supervisor (.group g)).finish ch r .supervisorOnly [] .none := by
  rw [State.groupRequest, groupOf, finOf_of_val g _ number]
  exact if_pos ⟨operator, reserved⟩

variable (open_ : ¬ (ch = .ch1 ∧ supervisorKind = true))
include open_

theorem groupRequest_of_unconfigured (off : s.group g = none) :
    s.groupRequest ch r group supervisorKind go = s.finish ch r .notConfigured [] .none := by
  rw [State.groupRequest, groupOf, finOf_of_val g _ number]
  dsimp only
  rw [if_neg open_, off]
  rfl

theorem groupRequest_of_closed (x : Group) (on : s.group g = some x) (operator : ch = .ch1)
    (closed : x.operatorAccess = false) : s.groupRequest ch r group supervisorKind go =
      (s.guardFault ch r .groupAccess (.group g)).finish ch r .notPermitted [] .none := by
  rw [State.groupRequest, groupOf, finOf_of_val g _ number]
  dsimp only
  rw [if_neg open_, on]
  exact if_pos ⟨operator, closed⟩

theorem groupRequest_of_permitted (x : Group) (on : s.group g = some x)
    (permitted : ¬ (ch = .ch1 ∧ x.operatorAccess = false)) :
    s.groupRequest ch r group supervisorKind go = go g x := by
  rw [State.groupRequest, groupOf, finOf_of_val g _ number]
  dsimp only
  rw [if_neg open_, on]
  exact if_neg permitted

end

/-- LOCKOUT and FORCE are the supervisor's kinds (R100 check 2). -/
def supervisorKindOf : RequestKind → Bool
  | .lockout => true
  | .force => true
  | _ => false

theorem supervisorKindOf_iff (k : RequestKind) : supervisorKindOf k = true ↔ k = .lockout ∨ k = .force := by
  cases k <;> decide

/-- The row of a kind is the group request of that kind. -/
theorem exec_requestKind {s : State} {ch : ChannelId} {r : Request} {group : Byte} {k : RequestKind}
    (h : s.Waits ch r 0x22 [group, BitVec.ofNat 8 k.code]) :
    exec (k.command ch group) s = .next
      (s.groupRequest ch r group (supervisorKindOf k) fun g x => s.requestGroup ch r g x k) := by
  cases k
  · exact exec_of_waits h rfl (i := .groupRequestLockout ch group) (take := fun r => s.takeLockout ch r group) rfl rfl
  · exact exec_of_waits h rfl (i := .groupRequestForce ch group) (take := fun r => s.takeForce ch r group) rfl rfl
  · exact exec_of_waits h rfl (i := .groupRequestManualP ch group) (take := fun r => s.takeManualP ch r group) rfl rfl
  · exact exec_of_waits h rfl (i := .groupRequestManualW ch group) (take := fun r => s.takeManualW ch r group) rfl rfl

theorem commandOf_clear (ch : ChannelId) (group kind : Byte) (h : kind.toNat = 0 ∨ 5 ≤ kind.toNat) :
    commandOf ch 0x22 [group, kind] = some (.groupRequestClear ch group) := by
  have clear : decodeGroupRequest ch group kind = .groupRequestClear ch group := by
    unfold decodeGroupRequest
    split
    case h_5 => rfl
    all_goals omega
  exact congrArg some clear

theorem standing_redecide_accepted (x : Group) (k : RequestKind) (o : Origin) (accepted : x.outranks k = false) :
    ({ x with standing := some ⟨k, o⟩ } : Group).redecide.standing = some ⟨k, o⟩ := by
  rw [Group.redecide_of_kept _ (x.mustDrop_of_not_outranks k o accepted)]
  obtain ⟨st, h, w, eq⟩ := Group.settle_eq_enter { x with standing := some ⟨k, o⟩ }
  rw [eq]
  rfl

theorem replyGroup_of_some (s : State) (ch : ChannelId) (r : Request) (g : GroupId) (x : Group)
    (on : s.group g = some x) : s.replyGroup ch r g = s.finish ch r .ok (x.summary g) .none := by
  rw [State.replyGroup, on]
  rfl

/-- Settles O42: by the six checks in their order. -/
theorem groupRequestDecided : Obligations.GroupRequestDecided := by
  unfold Obligations.GroupRequestDecided
  refine ⟨by decide, fun s ch r group k h => ?_, fun s ch r group kind h unnamed => ?_, fun s ch r group h => ?_⟩
  · rw [exec_requestKind h]
    refine ⟨fun out => by rw [groupRequest_of_out s ch r group _ _ out], fun g number => ⟨fun operator reserved => ?_,
      fun unreserved => ?_⟩⟩
    · rw [groupRequest_of_reserved s ch r group _ _ g number operator ((supervisorKindOf_iff k).2 reserved)]
    have open_ : ¬ (ch = .ch1 ∧ supervisorKindOf k = true) := by rwa [supervisorKindOf_iff]
    refine ⟨fun off => by rw [groupRequest_of_unconfigured s ch r group _ _ g number open_ off], fun x on => ?_⟩
    intro body foreign
    have summary (y : Group) : y.summary g = body y := y.summary_eq g group number
    have held : (ch = .ch1 ∧ x.heldBySupervisor = true) ↔ foreign := and_congr_right fun _ => x.heldBySupervisor_iff
    refine ⟨fun operator closed => ?_, fun permitted => ?_⟩
    · rw [groupRequest_of_closed s ch r group _ _ g number open_ x on operator closed]
    · rw [groupRequest_of_permitted s ch r group _ _ g number open_ x on permitted]
      refine ⟨fun outranked => ?_, fun accepted foreign => ?_, fun accepted own => ?_⟩
      · rw [State.requestGroup, if_pos outranked, summary]
      · rw [State.requestGroup, accepted, if_neg (by decide), if_pos (held.2 foreign)]
        rfl
      · refine ⟨standing_redecide_accepted x k _ accepted, ?_⟩
        rw [State.requestGroup, accepted, if_neg (by decide), if_neg (mt held.1 own), State.replyGroup_redecide, summary]
  · have row : exec (.groupRequestClear ch group) s = .next (s.takeClear ch r group) :=
      exec_of_waits h rfl (commandOf_clear ch group kind (by omega)) rfl
    have other : r.groupKind ≠ some 5 := by
      rw [Request.groupKind, h.bytes_eq]
      rintro eq
      cases eq
      exact absurd unnamed (by decide)
    rw [row, State.takeClear, if_neg other]
    rfl
  · have row : exec (.groupRequestClear ch group) s = .next (s.takeClear ch r group) :=
      exec_of_waits h rfl (commandOf_clear ch group 5 (.inr (by decide))) rfl
    have clears : r.groupKind = some 5 := by rw [Request.groupKind, h.bytes_eq]; rfl
    have open_ : ¬ (ch = .ch1 ∧ false = true) := fun h => Bool.false_ne_true h.2
    rw [row, State.takeClear, if_pos clears]
    refine ⟨fun out => by rw [groupRequest_of_out s ch r group _ _ out], fun g number => ⟨fun off => ?_,
      fun x on => ?_⟩⟩
    · rw [groupRequest_of_unconfigured s ch r group _ _ g number open_ off]
    intro body foreign
    have summary (y : Group) : y.summary g = body y := y.summary_eq g group number
    have held : (ch = .ch1 ∧ x.heldBySupervisor = true) ↔ foreign := and_congr_right fun _ => x.heldBySupervisor_iff
    refine ⟨fun operator closed => ?_, fun permitted => ?_⟩
    · rw [groupRequest_of_closed s ch r group _ _ g number open_ x on operator closed]
    · rw [groupRequest_of_permitted s ch r group _ _ g number open_ x on permitted]
      refine ⟨fun foreign => ?_, fun own nothing => ?_, fun own stands => ?_⟩
      · rw [State.clearGroup, if_pos (held.2 foreign)]
        rfl
      · rw [State.clearGroup, if_neg (mt held.1 own), if_neg (by simp [nothing]), replyGroup_of_some s ch r g x on, summary]
      · rw [State.clearGroup, if_neg (mt held.1 own), if_pos (Option.isSome_iff_ne_none.2 stands),
          State.replyGroup_redecide, summary]

/-! ### Configuration -/

theorem groupFieldsOf_refused (group w p rev ho wtr acc : Byte) (bad : 15 < group.toNat ∨ 7 < w.toNat ∨ 7 < p.toNat ∨ w = p ∨
    1 < rev.toNat ∨ 1 < acc.toNat ∨ 31 < ho.toNat) : groupFieldsOf group w p rev ho wtr acc = none := by
  unfold groupFieldsOf
  split
  case h_2 => rfl
  case h_1 g wl pl revertive access hg hw hp hrev hacc =>
    have group_eq := finOf_eq_some.1 hg
    have working_eq := finOf_eq_some.1 hw
    have protect_eq := finOf_eq_some.1 hp
    have := g.isLt
    have := wl.isLt
    have := pl.isLt
    refine if_neg ?_
    rintro ⟨differ, range⟩
    rcases bad with bad | bad | bad | rfl | bad | bad | bad
    · omega
    · omega
    · omega
    · exact differ (Fin.ext (working_eq.trans protect_eq.symm))
    · rw [flagOf_eq_none rev bad] at hrev; cases hrev
    · rw [flagOf_eq_none acc bad] at hacc; cases hacc
    · omega

theorem groupFieldsOf_accepted (group w p rev ho wtr acc : Byte) (g : GroupId) (wl pl : LaneId)
    (hg : g.val = group.toNat) (hw : wl.val = w.toNat) (hp : pl.val = p.toNat) (differ : w ≠ p) (hrev : rev.toNat ≤ 1)
    (hacc : acc.toNat ≤ 1) (hho : ho.toNat ≤ 31) : groupFieldsOf group w p rev ho wtr acc =
      some ⟨g, wl, pl, decide (rev = 1), ho.toNat, if wtr = 0 then 30 else wtr.toNat, decide (acc = 1)⟩ := by
  have lanes : wl ≠ pl := fun same => differ (BitVec.eq_of_toNat_eq (by rw [← hw, ← hp, same]))
  have period : wtrPeriodOf wtr = if wtr = 0 then 30 else wtr.toNat := by
    have zero : wtr.toNat = 0 ↔ wtr = 0 := by rw [← BitVec.toNat_inj]; rfl
    simp only [wtrPeriodOf, zero]
  simp only [groupFieldsOf, groupOf, laneOf, finOf_of_val g _ hg, finOf_of_val wl _ hw, finOf_of_val pl _ hp,
    flagOf_of_le rev hrev, flagOf_of_le acc hacc, period]
  exact if_pos ⟨lanes, hho⟩

/-- Where a changed REVERTIVE puts a group at rest or waiting (R110). -/
theorem convert_state (x : Group) (on : Bool) (period : Nat) :
    (x.state = .pWtr → on = false → (x.convert on period).state = .pIdle ∧ (x.convert on period).wtrRemaining = none) ∧
    (x.state = .pIdle → on = true →
      (x.convert on period).state = .pWtr ∧ (x.convert on period).wtrRemaining = some period) ∧
    (¬ (x.state = .pWtr ∧ on = false) → ¬ (x.state = .pIdle ∧ on = true) → x.convert on period = x) := by
  unfold Group.convert
  split
  case h_1 state => cases on <;> simp [state]
  case h_2 state => cases on <;> simp [state]
  case h_3 noWtr noIdle =>
    exact ⟨fun h => absurd h noWtr, fun h => absurd h noIdle, fun _ _ => rfl⟩

theorem convert_eq (x : Group) (on : Bool) (period : Nat) : x.convert on period = { x with
    state := (x.convert on period).state, wtrRemaining := (x.convert on period).wtrRemaining } := by
  unfold Group.convert
  repeat' split
  all_goals rfl

/-- Settles O43: CONFIG_GROUP by its fields and whether the group is OFF, DELETE_GROUP by what is bound to it. -/
theorem groupConfiguration : Obligations.GroupConfiguration := by
  unfold Obligations.GroupConfiguration
  refine ⟨fun s r group w p rev ho wtr acc spare h => ?_, fun s r group spare h => ?_⟩
  · intro i period body
    have row : exec i s = .next (s.takeConfigGroup r group w p rev ho wtr acc) := exec_of_waits_ch0 h rfl rfl
    rw [row, State.takeConfigGroup]
    refine ⟨fun bad => ?_, fun g wl pl hg hw hp differ hrev hacc hho => ?_⟩
    · rw [groupFieldsOf_refused group w p rev ho wtr acc bad]
      rfl
    rw [groupFieldsOf_accepted group w p rev ho wtr acc g wl pl hg hw hp differ hrev hacc hho]
    have summary (y : Group) : y.summary g = body y := y.summary_eq g group hg
    have off_of : rev = 0 → decide (rev = 1) = false := by rintro rfl; rfl
    have on_of : rev = 1 → decide (rev = 1) = true := decide_eq_true
    have named : rev = 0 ∨ rev = 1 := by
      rcases flagOf_cases rev with ⟨zero, -⟩ | ⟨one, -⟩ | ⟨out, -⟩
      · exact .inl zero
      · exact .inr one
      · omega
    dsimp only
    refine ⟨fun x on => ⟨fun moved => ?_, fun working protect => ?_⟩, fun off => ⟨fun used => ?_, fun free => ?_⟩⟩
    · rw [on]
      exact congrArg _ (if_pos (moved.imp Ne.symm Ne.symm))
    · obtain ⟨toIdle, toWtr, stays⟩ := convert_state x (decide (rev = 1)) period
      refine ⟨x.reconfigure ⟨g, wl, pl, decide (rev = 1), ho.toNat, period, decide (acc = 1)⟩, ?_,
        fun state zero => toIdle state (off_of zero), fun state one => toWtr state (on_of one), fun noWtr noIdle => ?_, ?_⟩
      · rw [on]
        dsimp only
        rw [if_neg (by simp [working, protect]), replyGroup_of_some _ _ _ _ _ (State.group_setGroup ..), summary]
      · have same := stays (fun ⟨state, off⟩ => noWtr ⟨state, named.resolve_right fun one => by
          rw [on_of one] at off; cases off⟩) fun ⟨state, on⟩ => noIdle ⟨state, of_decide_eq_true on⟩
        simp only [Group.reconfigure, same, and_self]
      · simp only [Group.reconfigure]
        rw [convert_eq]
    · rw [off]
      exact congrArg _ (if_pos ((s.groupInUse_iff g wl pl).2 used))
    · rw [off]
      dsimp only
      rw [if_neg, State.replyGroup_redecide, summary]
      · rfl
      · rw [s.groupInUse_iff]
        rintro ⟨n, d, k, f, entry, reserved⟩
        obtain ⟨working, protect⟩ := free n d k f entry
        exact reserved.elim working protect
  · have row : exec (.deleteGroup group) s = .next (s.takeDeleteGroup r group) := exec_of_waits_ch0 h rfl rfl
    rw [row, State.takeDeleteGroup, groupOf]
    refine ⟨fun out => by rw [finOf_eq_none (by omega)]; rfl, fun g number => ?_⟩
    rw [finOf_of_val g _ number]
    dsimp only
    refine ⟨fun off => by rw [if_pos off]; rfl, fun on => ?_⟩
    rw [if_neg on]
    refine ⟨fun bound => by rw [if_pos ((s.groupBound_iff g).2 bound)]; rfl, fun entries inputs => ?_⟩
    rw [if_neg]
    · rfl
    · rw [s.groupBound_iff]
      rintro (⟨n, d, k, f, entry⟩ | ⟨i, bound⟩)
      · exact entries n d k f entry
      · exact inputs i bound

end Sys2Proof.Proofs

/-! The event inputs: a sample, the presenting of a request, and SET_INPUT. -/

namespace Sys2Proof.Proofs
open Sys2Proof.Machine

theorem edgeAmong_eq (i : InputId) (place : Nat) (es : List Event) :
    edgeAmong i place es = es.take place ++ [.inputEdge i] ++ es.drop place := by
  simp [edgeAmong]

theorem edgeAmong_nil (i : InputId) (place : Nat) : edgeAmong i place [] = [.inputEdge i] := by
  simp [edgeAmong]

theorem redecideAmong_eq_events (s : State) (g : GroupId) (x : Group) (among : List Event → List Event) :
    s.redecideAmong g x among = State.withEvents (s.setGroup g (some x.redecide))
      (among ((if x.mustDrop = true then [.requestDropped g] else []) ++
        (if x.selected = .working ∧ x.redecide.selected = .protect then [.groupToProtect g] else []) ++
        (if x.selected = .protect ∧ x.redecide.selected = .working then [.groupToWorking g] else []))) := by
  rw [State.redecideAmong_eq, redecideEvents_eq]

theorem sampleInput_of_same (s : State) (i : InputId) (level : Bool) (place : Nat)
    (same : ((s.input i).sample level).accepted = (s.input i).accepted) :
    s.sampleInput i level place = s.setInput i ((s.input i).sample level) := by
  rw [State.sampleInput]
  exact if_pos same

theorem sampleInput_of_changed (s : State) (i : InputId) (level : Bool) (place : Nat)
    (changed : ((s.input i).sample level).accepted ≠ (s.input i).accepted) :
    s.sampleInput i level place = (s.setInput i ((s.input i).sample level)).acceptChange i place := by
  rw [State.sampleInput]
  exact if_neg changed

/-- Settles O46: by whether the sample is accepted and the input's mode, then by the group and what is handed to it. -/
theorem inputSampled : Obligations.InputSampled := by
  unfold Obligations.InputSampled
  refine ⟨fun s i level place => ?_, fun s g among => ⟨fun off => ⟨fun i => ?_, ?_⟩, ?_, fun x on => ?_⟩,
    fun s g => rfl⟩
  · intro x y s1 edge
    have edges : edgeAmong i place = edge := funext fun es => edgeAmong_eq i place es
    have there : s1.input i = y := State.input_setInput ..
    refine ⟨fun same => sampleInput_of_same s i level place same, fun changed => ?_⟩
    have accepted : s.sampleInput i level place = s1.acceptChange i place := sampleInput_of_changed s i level place changed
    rw [accepted, State.acceptChange, there, edges]
    refine ⟨fun mode => ?_, fun mode => ?_, fun g mode => ?_, fun g mode => ?_⟩
    all_goals
      have mode : y.mode = _ := mode
      simp only [mode]
    · by_cases active : y.active = true
      · rw [if_pos active, if_pos active, ← edges, edgeAmong_nil, State.raiseAll_eq]
      · rw [if_neg active, if_neg active, id, State.raiseAll_eq, State.withEvents_nil]
    · by_cases active : y.active = true
      · rw [if_pos active, if_pos active, if_pos active]
      · rw [if_neg active, if_neg active]
    · by_cases active : y.active = true
      · rw [if_pos active, if_pos active]
      · rw [if_neg active, if_neg active]; rfl
  · rw [State.presentInput, off]
    exact State.raiseAll_eq ..
  · rw [State.reevaluateAmong, off]
    exact State.raiseAll_eq ..
  · exact lockoutLevel_iff s g
  · intro redecided
    refine ⟨fun i => ⟨fun outranked => ?_, fun accepted => ?_⟩, fun same => ?_, fun changed => ?_⟩
    · rw [State.presentInput, on]
      dsimp only
      rw [if_pos outranked, State.raiseAll_eq]
    · rw [State.presentInput, on]
      dsimp only
      rw [accepted, if_neg (by decide), redecideAmong_eq_events]
    · rw [State.reevaluateAmong, on]
      dsimp only
      rw [if_pos same, State.raiseAll_eq]
    · rw [State.reevaluateAmong, on]
      dsimp only
      rw [if_neg changed, redecideAmong_eq_events]

/-! ### SET_INPUT -/

/-- The occurrences of a re-evaluation of a group: none where its level stands. -/
def relevelEvents (level : Bool) (g : GroupId) (x : Option Group) : List Event :=
  match x with
  | some x => if level = x.inputLockout then [] else ({ x with inputLockout := level } : Group).redecideEvents g
  | none => []

theorem queue_reevaluate (s : State) (g : GroupId) (ch : ChannelId) : (s.reevaluate g).queue ch =
    s.queueAfter s.efa.superframes (relevelEvents (s.lockoutLevel g) g (s.group g)) ch := by
  rw [State.reevaluate, State.reevaluateAmong]
  rcases s.group g with - | x
  · dsimp only
    rw [State.raiseAll_eq, State.queue_withEvents]; rfl
  · dsimp only [relevelEvents]
    split_ifs
    · rw [State.raiseAll_eq, State.queue_withEvents]; rfl
    · rw [State.redecideAmong_eq]
      cases ch <;> rfl

theorem queue_forEach_reevaluate (s : State) (gs : List GroupId) (nodup : gs.Nodup) (ch : ChannelId) :
    (s.forEach gs State.reevaluate).queue ch = s.queueAfter s.efa.superframes
      ((openOrder s.free gs).flatMap fun g => relevelEvents (s.lockoutLevel g) g (s.group g)) ch := by
  have folded := State.queue_foldl State.reevaluate (fun g => relevelEvents (s.lockoutLevel g) g (s.group g))
    State.onlyGroups_reevaluate (fun t a g other => group_reevaluateAmong_of_ne t a g id other)
    { s with free := s.free + 1 } ch (fun t g only own => by
      have own : t.group g = s.group g := own
      rw [queue_reevaluate, own]
      obtain ⟨_, _, _, _, rfl⟩ := only
      rfl) (openOrder s.free gs) (nodup_openOrder _ _ nodup)
  exact folded.trans (by cases ch <;> rfl)

theorem mem_changedLockouts (s : State) (gs : List GroupId) (g : GroupId) : g ∈ s.changedLockouts gs ↔
    ∃ x, s.group g = some x ∧ g ∈ gs ∧ s.lockoutLevel g ≠ x.inputLockout := by
  rw [State.changedLockouts, List.mem_filter]
  rcases s.group g with - | x <;> simp

theorem inputModeOf_cases (mode group : Byte) (m : InputMode) (h : inputModeOf mode group = some m) :
    mode.toNat ≤ 3 ∧ (2 ≤ mode.toNat → group.toNat ≤ 15) := by
  unfold inputModeOf at h
  have number (f : GroupId → InputMode) (h : (groupOf group).map f = some m) : group.toNat ≤ 15 := by
    by_contra out
    rw [groupOf, finOf_eq_none (by omega)] at h
    cases h
  split at h
  · exact ⟨by omega, by omega⟩
  · exact ⟨by omega, by omega⟩
  · exact ⟨by omega, fun _ => number _ h⟩
  · exact ⟨by omega, fun _ => number _ h⟩
  · cases h

theorem inputModeOf_of_named (mode group : Byte) (m : InputMode)
    (named : mode = 0 ∧ m = .off ∨ mode = 1 ∧ m = .event ∨
      ∃ g : GroupId, g.val = group.toNat ∧ (mode = 2 ∧ m = .edgeManual g ∨ mode = 3 ∧ m = .levelLockout g)) :
    inputModeOf mode group = some m ∧ byteOf m.code = mode := by
  rcases named with ⟨rfl, rfl⟩ | ⟨rfl, rfl⟩ | ⟨g, number, ⟨rfl, rfl⟩ | ⟨rfl, rfl⟩⟩
  · exact ⟨rfl, rfl⟩
  · exact ⟨rfl, rfl⟩
  · refine ⟨?_, rfl⟩
    change (groupOf group).map InputMode.edgeManual = _
    rw [groupOf, finOf_of_val g _ number]; rfl
  · refine ⟨?_, rfl⟩
    change (groupOf group).map InputMode.levelLockout = _
    rw [groupOf, finOf_of_val g _ number]; rfl

/-- Settles O47: by the checks, and then by the groups whose level the new record changes. -/
theorem setInputDecided : Obligations.SetInputDecided := by
  unfold Obligations.SetInputDecided
  intro s r input polarity mode group h c
  have row : exec c s = .next (s.takeSetInput r input polarity mode group) := exec_of_waits_ch0 h rfl rfl
  rw [row]
  refine ⟨fun bad => ?_, fun i m number flag named => ⟨fun ⟨g, bound, off⟩ => ?_, fun configured => ?_⟩⟩
  · unfold State.takeSetInput
    split
    case h_2 => rfl
    case h_1 j low k hj hlow hk =>
      have : j.val = input.toNat := finOf_eq_some.1 hj
      have := j.isLt
      obtain ⟨low3, high⟩ := inputModeOf_cases mode group k hk
      rcases bad with bad | bad | bad | ⟨two, bad⟩
      · omega
      · rw [flagOf_eq_none polarity bad] at hlow; cases hlow
      · omega
      · have := high two
        omega
  · have asked := (inputModeOf_of_named mode group m named).1
    simp only [State.takeSetInput, finOf_of_val i _ number, flagOf_of_le polarity flag, asked]
    rw [if_pos (by rw [bound]; simp [off])]
    rfl
  obtain ⟨asked, code⟩ := inputModeOf_of_named mode group m named
  have pass : ¬ (m.bound.map fun g => s.group g == none) = some true := by
    rcases bound : m.bound with - | g
    · nofun
    · simpa using configured g bound
  set y : Input := { s.input i with mode := m, activeLow := decide (polarity = 1) } with hy
  set gs := (s.setInput i y).changedLockouts (lockoutGroups (s.input i).mode m) with hgs
  set u := (s.setInput i y).forEach gs State.reevaluate with hu
  have nodup : gs.Nodup := nodup_changedLockouts _ (nodup_lockoutGroups _ _)
  obtain ⟨groups, q0, q1, n, only⟩ : (s.setInput i y).OnlyGroups u :=
    State.OnlyGroups.forEach _ gs _ State.onlyGroups_reevaluate
  have group (g : GroupId) : u.group g =
      if g ∈ gs then (s.group g).map (relevelled ((s.setInput i y).lockoutLevel g)) else s.group g :=
    group_forEach_reevaluate _ gs nodup g
  have changes_iff (g : GroupId) : g ∈ gs ↔ ∃ x, s.group g = some x ∧
      ((s.input i).mode = .levelLockout g ∨ m = .levelLockout g) ∧ (s.setInput i y).lockoutLevel g ≠ x.inputLockout := by
    rw [hgs, mem_changedLockouts]
    simp only [mem_lockoutGroups]
    rfl
  have queue (ch : ChannelId) : u.queue ch = s.queueAfter s.efa.superframes ((openOrder s.free gs).flatMap fun g =>
      relevelEvents ((s.setInput i y).lockoutLevel g) g (s.group g)) ch :=
    (queue_forEach_reevaluate _ gs nodup ch).trans (by cases ch <;> rfl)
  refine ⟨u, ?_⟩
  intro y' locked changes occurrences
  have changed (g : GroupId) (x : Group) (on : s.group g = some x) : g ∈ gs ↔ changes g x := by
    rw [changes_iff]
    exact ⟨fun ⟨z, was, change⟩ => by rw [on] at was; cases was; exact change, fun change => ⟨x, on, change⟩⟩
  have stays : u.inputs = (s.setInput i y).inputs ∧ u.map = s.map ∧ u.efa = s.efa ∧ u.lanes = s.lanes ∧ u.ch0 = s.ch0 ∧
      u.ch1 = s.ch1 ∧ u.guard = s.guard ∧ u.operatorPlace = s.operatorPlace ∧ u.strapLane = s.strapLane ∧
      u.work = s.work ∧ u.pending = s.pending := by
    rw [only]
    exact ⟨rfl, rfl, rfl, rfl, rfl, rfl, rfl, rfl, rfl, rfl, rfl⟩
  obtain ⟨k1, k2, k3, k4, k5, k6, k7, k8, k9, k10, k11⟩ := stays
  refine ⟨?_, k1, k2, k3, k4, k5, k6, k7, k8, k9, k10, k11, fun g off => ?_, fun g x on => ⟨fun change => ?_,
    fun same => ?_⟩, ⟨openOrder s.free gs, nodup_openOrder _ _ nodup, fun g => ?_, fun ch => ?_⟩, fun quiet ch => ?_⟩
  · simp only [State.takeSetInput, finOf_of_val i _ number, flagOf_of_le polarity flag, asked, if_neg pass]
    have bytes : byteOf i.val :: y.bytes ++ [0] = [input, polarity, mode, BitVec.ofNat 8 m.groupField,
        (0 : BitVec 5) ++ BitVec.ofBool y.active ++ BitVec.ofBool y.lastSample ++ BitVec.ofBool y.accepted, 0] := by
      rw [Input.bytes, Input.levelByte_eq, byteOf_of_val i input number, hy]
      dsimp only
      rw [flagByte_of_le polarity flag, code]
      rfl
    exact congrArg (fun b => Host.Outcome.next (u.finish .ch0 r .ok b .none)) bytes
  · rw [group, off]
    exact ite_self _
  · rw [group, if_pos ((changed g x on).2 change), on, Option.map_some, relevelled, if_neg change.2]
  · rw [group, if_neg (mt (changed g x on).1 same), on]
  · rw [mem_openOrder, changes_iff]
  · rw [queue]
    refine congrArg (fun es => s.queueAfter _ es ch) (List.flatMap_congr fun g hg => ?_)
    obtain ⟨x, on, -, level⟩ := (changes_iff g).1 ((mem_openOrder _ _ _).1 hg)
    simp only [occurrences, relevelEvents, on]
    rw [if_neg level, redecideEvents_eq]
  · have none_changed : gs = [] := by
      refine List.eq_nil_iff_forall_not_mem.2 fun g hg => ?_
      obtain ⟨x, on, change⟩ := (changes_iff g).1 hg
      exact quiet g x on change
    rw [queue, none_changed]
    exact State.queueAfter_nil ..

end Sys2Proof.Proofs

/-! The formats: management words, the check and the entry records (R3, R128, R178, R179). -/

namespace Sys2Proof.Proofs
open Sys2Proof.Machine

/-! ### Fields of a word -/

/-- A field above the low part of a word is a field of the high part. -/
theorem extract_above {v w start len : Nat} {hi : BitVec v} {lo : BitVec w} {field : BitVec len} (h : w ≤ start)
    (rest : hi.extractLsb' (start - w) len = field) : (hi ++ lo).extractLsb' start len = field :=
  (BitVec.extractLsb'_append_eq_of_le h).trans rest

theorem decodeMgmtWord_idle (w : Word) (kind : w.extractLsb' 22 2 = 0) :
    decodeMgmtWord w = .idle (w.getLsbD 21) (w.extractLsb' 17 4) := by
  rw [decodeMgmtWord, kind]; rfl

theorem decodeMgmtWord_head (w : Word) (kind : w.extractLsb' 22 2 = 1) :
    decodeMgmtWord w = .head (w.extractLsb' 16 6) (w.extractLsb' 12 4) (w.extractLsb' 7 5) := by
  rw [decodeMgmtWord, kind]; rfl

theorem decodeMgmtWord_body (w : Word) (kind : w.extractLsb' 22 2 = 2) :
    decodeMgmtWord w = .body (w.extractLsb' 0 16) := by
  rw [decodeMgmtWord, kind]; rfl

theorem decodeMgmtWord_tail (w : Word) (kind : w.extractLsb' 22 2 = 3) :
    decodeMgmtWord w = .tail (w.extractLsb' 0 16) := by
  rw [decodeMgmtWord, kind]; rfl

/-- A word with a head's layout: kind, two fields of six bits in all, SEQ, LEN, and seven bits. -/
theorem fields_of_head (kind : BitVec 2) (code : BitVec 6) (seq : BitVec 4) (len : BitVec 5) (spare : BitVec 7) (w : Word)
    (h : w = kind ++ code ++ seq ++ len ++ spare) : w.extractLsb' 22 2 = kind ∧ w.extractLsb' 16 6 = code ∧
      w.extractLsb' 12 4 = seq ∧ w.extractLsb' 7 5 = len ∧ w.extractLsb' 0 7 = spare := by
  subst h
  exact ⟨extract_above (by decide) (extract_above (by decide) (extract_above (by decide) BitVec.extractLsb'_append_eq_left)),
    extract_above (by decide) (extract_above (by decide) (extract_above (by decide) BitVec.extractLsb'_append_eq_right)),
    extract_above (by decide) (extract_above (by decide) BitVec.extractLsb'_append_eq_right),
    extract_above (by decide) BitVec.extractLsb'_append_eq_right, BitVec.extractLsb'_append_eq_right⟩

/-- A word with the layout of a body or a tail: kind, six bits, sixteen bits. -/
theorem fields_of_body (kind : BitVec 2) (spare : BitVec 6) (payload : Half) (w : Word) (h : w = kind ++ spare ++ payload) :
    w.extractLsb' 22 2 = kind ∧ w.extractLsb' 16 6 = spare ∧ w.extractLsb' 0 16 = payload := by
  subst h
  exact ⟨extract_above (by decide) BitVec.extractLsb'_append_eq_left,
    extract_above (by decide) BitVec.extractLsb'_append_eq_right, BitVec.extractLsb'_append_eq_right⟩

/-- A word with the layout of an ingress IDLE word: kind, a flag, SEQ, and seventeen bits. -/
theorem fields_of_idle (kind : BitVec 2) (valid : Bool) (seq : BitVec 4) (spare : BitVec 17) (w : Word)
    (h : w = kind ++ BitVec.ofBool valid ++ seq ++ spare) :
    w.extractLsb' 22 2 = kind ∧ w.getLsbD 21 = valid ∧ w.extractLsb' 17 4 = seq := by
  subst h
  refine ⟨extract_above (by decide) (extract_above (by decide) BitVec.extractLsb'_append_eq_left), ?_,
    extract_above (by decide) BitVec.extractLsb'_append_eq_right⟩
  simp only [BitVec.getLsbD_append]
  simp

/-- The egress IDLE word of R178: kind, state, four flags, seven spare bits, the map generation. -/
theorem fields_of_idleWord (state : Nat) (events overflow lock fault : Bool) (generation : BitVec 8) (w : Word)
    (h : w = idleWord state events overflow lock fault generation) :
    w.extractLsb' 22 2 = 0 ∧ w.extractLsb' 19 3 = BitVec.ofNat 3 state ∧ w.getLsbD 18 = events ∧
      w.getLsbD 17 = overflow ∧ w.getLsbD 16 = lock ∧ w.getLsbD 15 = fault ∧ w.extractLsb' 8 7 = 0 ∧
      w.extractLsb' 0 8 = generation := by
  subst h
  have flags : ∀ k, (idleWord state events overflow lock fault generation).getLsbD k =
      ((0 : BitVec 2) ++ BitVec.ofNat 3 state ++ BitVec.ofBool events ++ BitVec.ofBool overflow ++ BitVec.ofBool lock ++
        BitVec.ofBool fault ++ (0 : BitVec 7) ++ generation).getLsbD k := fun _ => rfl
  refine ⟨?_, ?_, ?_, ?_, ?_, ?_, ?_, BitVec.extractLsb'_append_eq_right⟩
  · exact extract_above (by decide) (extract_above (by decide) (extract_above (by decide) (extract_above (by decide)
      (extract_above (by decide) (extract_above (by decide) BitVec.extractLsb'_append_eq_left)))))
  · exact extract_above (by decide) (extract_above (by decide) (extract_above (by decide) (extract_above (by decide)
      (extract_above (by decide) (extract_above (by decide) BitVec.extractLsb'_append_eq_right)))))
  · simp only [flags, BitVec.getLsbD_append]; simp
  · simp only [flags, BitVec.getLsbD_append]; simp
  · simp only [flags, BitVec.getLsbD_append]; simp
  · simp only [flags, BitVec.getLsbD_append]; simp
  · exact extract_above (by decide) BitVec.extractLsb'_append_eq_right

theorem eventsPending_iff (q : Queue) : q.eventsPending = true ↔ ∃ r ∈ q.records, r.inFlight = false := by
  simp [Queue.eventsPending]

theorem holder_eq_some (m : ConnectionMap) (ch : ChannelId) :
    (m.holder == some ch) = true ↔ ∃ e, m.session = some e ∧ e.holder = ch := by
  rw [beq_iff_eq, ConnectionMap.holder, Option.map_eq_some_iff]

/-- Settles O15: each word kind by the layout it is built in. -/
theorem managementWordFields : Obligations.ManagementWordFields := by
  unfold Obligations.ManagementWordFields
  refine ⟨⟨fun valid seq spare => ?_, fun code seq len spare => ?_, fun spare payload => ?_, fun spare check => ?_, rfl, rfl,
    rfl, rfl, rfl⟩, fun p short => ?_, fun p k h at_k => ?_, fun p => ?_, fun s ch code range => ?_⟩
  · obtain ⟨kind, flag, field⟩ := fields_of_idle 0 valid seq spare _ rfl
    rw [decodeMgmtWord_idle _ kind, flag, field]
  · obtain ⟨kind, c, q, n, -⟩ := fields_of_head 1 code seq len spare _ rfl
    rw [decodeMgmtWord_head _ kind, c, q, n]
  · obtain ⟨kind, -, field⟩ := fields_of_body 2 spare payload _ rfl
    rw [decodeMgmtWord_body _ kind, field]
  · obtain ⟨kind, -, field⟩ := fields_of_body 3 spare check _ rfl
    rw [decodeMgmtWord_tail _ kind, field]
  · have word : p.word 0 = headWord p.status p.seq p.body.length := rfl
    rw [word, headWord]
    refine ⟨?_, ?_, ?_, ?_, ?_, BitVec.extractLsb'_append_eq_right⟩
    · exact extract_above (by decide) (extract_above (by decide) (extract_above (by decide) (extract_above (by decide)
        BitVec.extractLsb'_append_eq_left)))
    · exact extract_above (by decide) (extract_above (by decide) (extract_above (by decide) (extract_above (by decide)
        BitVec.extractLsb'_append_eq_right)))
    · have field : (headWord p.status p.seq p.body.length).extractLsb' 16 5 = BitVec.ofNat 5 p.status.code :=
        extract_above (by decide) (extract_above (by decide) (extract_above (by decide) BitVec.extractLsb'_append_eq_right))
      rw [headWord] at field
      rw [field]
      cases p.status <;> rfl
    · exact extract_above (by decide) (extract_above (by decide) BitVec.extractLsb'_append_eq_right)
    · have field : (headWord p.status p.seq p.body.length).extractLsb' 7 5 = BitVec.ofNat 5 p.body.length :=
        extract_above (by decide) BitVec.extractLsb'_append_eq_right
      rw [headWord] at field
      rw [field, BitVec.toNat_ofNat, Nat.mod_eq_of_lt (by omega)]
  · have word : p.word (k + 1) = bodyWord h := by simp only [StoredReply.word, at_k]
    exact fields_of_body 2 0 h _ word
  · have past : p.body[p.body.length]? = none := by simp
    have word : p.word (p.body.length + 1) = tailWord p.check := by simp only [StoredReply.word, past]
    exact fields_of_body 3 0 p.check _ word
  · obtain ⟨kind, state, events, overflow, lock, fault, spare, generation⟩ :=
      fields_of_idleWord _ _ _ _ _ _ (s.idleWordOf ch code) rfl
    refine ⟨kind, ?_, ?_, overflow, ?_, ?_, spare, generation⟩
    · rw [state, BitVec.toNat_ofNat, Nat.mod_eq_of_lt (by omega)]
    · rw [events, eventsPending_iff]
    · rw [lock, holder_eq_some]
    · rw [fault, Bool.and_eq_true, beq_iff_eq, Option.isSome_iff_ne_none]

end Sys2Proof.Proofs

/-! The check of R128: the register of bits fed in one by one is the division of the message by the generator. -/

namespace Sys2Proof.Proofs
open Sys2Proof.Machine

/-- One step of the division by x^16 + x^12 + x^5 + 1 (R128). -/
def divide (r : Half) : Half :=
  if r.msb = true then (r <<< 1) ^^^ 0x1021 else r <<< 1

theorem divide_xor (c m : Half) : divide (c ^^^ m) = checkBit c m.msb ^^^ (m <<< 1) := by
  rw [divide, checkBit, BitVec.msb_xor, BitVec.shiftLeft_xor_distrib]
  cases c.msb <;> cases m.msb <;> simp [BitVec.xor_assoc, BitVec.xor_comm (m <<< 1)]

theorem divide_eq_checkBit (c : Half) : divide c = checkBit c false := by
  simp [divide, checkBit]

/-- Message bits that stand in the register are divided as those fed in from its left. -/
theorem divide_iterate_xor (n : Nat) (c m : Half) : divide^[n] (c ^^^ m) =
    (List.range n).foldl (fun c k => checkBit c (m <<< k).msb) c ^^^ (m <<< n) := by
  induction n with
  | zero => simp
  | succ n ih =>
    rw [Function.iterate_succ_apply', ih, divide_xor, List.range_succ, List.foldl_append, ← BitVec.shiftLeft_add]
    rfl

theorem msb_shiftLeft (m : Half) (k : Nat) (h : k < 16) : (m <<< k).msb = m.getLsbD (15 - k) := by
  rw [BitVec.msb_eq_getLsbD_last, BitVec.getLsbD_shiftLeft]
  simp [show ¬ 15 < k by omega]

theorem checkByte_eq_divide (c : Half) (b : Byte) : checkByte c b = divide^[8] (c ^^^ (b ++ (0 : Byte))) := by
  have gone : (b ++ (0 : Byte) : Half) <<< 8 = 0 := by
    refine BitVec.eq_of_getLsbD_eq fun i hi => ?_
    rw [BitVec.getLsbD_shiftLeft, BitVec.getLsbD_append]
    by_cases low : i < 8
    · simp [low]
    · rw [if_pos (by omega)]; simp
  have bits : ∀ k ∈ List.range 8, ∀ c : Half, checkBit c ((b ++ (0 : Byte) : Half) <<< k).msb = checkBit c (b.getLsbD (7 - k)) := by
    intro k hk c
    have := List.mem_range.1 hk
    rw [msb_shiftLeft _ _ (by omega), BitVec.getLsbD_append, if_neg (by omega), show 15 - k - 8 = 7 - k by omega]
  have gone' (x : Half) : x ^^^ 0 = x := by simp
  rw [divide_iterate_xor, gone, gone', List.foldl_ext _ _ _ fun c k hk => bits k hk c]
  rfl

/-- The second byte of a field that stands in the register. -/
theorem divide_iterate_low (c : Half) (b : Byte) :
    divide^[8] (c ^^^ ((0 : Byte) ++ b)) = divide^[8] c ^^^ (b ++ (0 : Byte)) := by
  have moved : ((0 : Byte) ++ b : Half) <<< 8 = b ++ (0 : Byte) := by
    refine BitVec.eq_of_getLsbD_eq fun i hi => ?_
    rw [BitVec.getLsbD_shiftLeft, BitVec.getLsbD_append, BitVec.getLsbD_append]
    by_cases low : i < 8
    · simp [low]
    · rw [if_pos (by omega), if_neg low]; simp [low, hi]
  have bits : ∀ k ∈ List.range 8, ∀ c : Half, checkBit c (((0 : Byte) ++ b : Half) <<< k).msb = divide c := by
    intro k hk c
    have := List.mem_range.1 hk
    rw [msb_shiftLeft _ _ (by omega), BitVec.getLsbD_append, if_neg (by omega), divide_eq_checkBit]
    simp
  rw [divide_iterate_xor, moved, List.foldl_ext _ _ _ fun c k hk => bits k hk c]
  rfl

/-- The generator's last term is 1, so a step loses nothing: a register with its top bit set does not become 0. -/
theorem divide_eq_zero (c : Half) : divide c = 0 ↔ c = 0 := by
  refine ⟨fun zero => ?_, fun zero => by rw [zero]; rfl⟩
  by_cases top : c.msb = true
  · rw [divide, if_pos top] at zero
    have last := congrArg (fun x : Half => x.getLsbD 0) zero
    simp at last
  · rw [divide, if_neg top] at zero
    refine BitVec.eq_of_getLsbD_eq fun i hi => ?_
    by_cases high : i = 15
    · subst high
      rw [BitVec.msb_eq_getLsbD_last] at top
      simpa using top
    · have bit := congrArg (fun x : Half => x.getLsbD (i + 1)) zero
      rw [BitVec.getLsbD_shiftLeft] at bit
      simpa [show i + 1 < 16 by omega] using bit

theorem divide_iterate_eq_zero (n : Nat) (c : Half) : divide^[n] c = 0 ↔ c = 0 := by
  induction n generalizing c with
  | zero => rfl
  | succ n ih => rw [Function.iterate_succ_apply, ih, divide_eq_zero]

theorem checkOf_append (bytes rest : List Byte) : checkOf (bytes ++ rest) = rest.foldl checkByte (checkOf bytes) :=
  List.foldl_append ..

/-- A register followed by two bytes is the division of their field from it. -/
theorem checkOf_halfBytes (bytes : List Byte) (sent : Half) :
    checkOf (bytes ++ halfBytes sent) = divide^[16] (checkOf bytes ^^^ sent) := by
  have field : (sent.extractLsb' 8 8 ++ (0 : Byte) : Half) ^^^ ((0 : Byte) ++ sent.extractLsb' 0 8) = sent := by
    rw [BitVec.xor_append]
    simpa using append_of_bytes sent
  rw [checkOf_append]
  change checkByte (checkByte (checkOf bytes) (sent.extractLsb' 8 8)) (sent.extractLsb' 0 8) = _
  rw [checkByte_eq_divide, checkByte_eq_divide, ← divide_iterate_low, BitVec.xor_assoc, field,
    ← Function.iterate_add_apply]

/-- Settles O16: by the division of what stands in the register. -/
theorem checkDividesToZero : Obligations.CheckDividesToZero := by
  unfold Obligations.CheckDividesToZero
  refine ⟨rfl, fun bytes b => ?_, by decide, fun bytes sent => ?_⟩
  · rw [checkOf_append]
    exact checkByte_eq_divide (checkOf bytes) b
  · rw [checkOf_halfBytes, divide_iterate_eq_zero]
    exact BitVec.xor_eq_zero_iff.trans eq_comm

end Sys2Proof.Proofs

/-! Entry records and entries in normal form (R3, R14, R179). -/

namespace Sys2Proof.Proofs
open Sys2Proof.Machine

theorem fallback_codes (c : BitVec 2) : c = 0 ∨ c = 1 ∨ c = 2 ∨ c = 3 := by
  decide +revert

theorem fallbackOf_eq_none_iff (c : BitVec 2) (w : Word) : fallbackOf c w = none ↔ c = 3 := by
  rcases fallback_codes c with rfl | rfl | rfl | rfl <;> simp [fallbackOf]

theorem fields_of_fallbackOf {c : BitVec 2} {w : Word} {f : Fallback} (h : fallbackOf c w = some f) :
    f.fields = (c, if c = 1 then w else 0) := by
  rcases fallback_codes c with rfl | rfl | rfl | rfl <;> cases h <;> rfl

theorem fallbackOf_fields (f : Fallback) : fallbackOf f.fields.1 f.fields.2 = some f := by
  cases f <;> rfl

theorem toNat_ofNat_fin {n w : Nat} (f : Fin n) (h : n ≤ 2 ^ w) : (BitVec.ofNat w f.val).toNat = f.val :=
  (BitVec.toNat_ofNat ..).trans (Nat.mod_eq_of_lt (Nat.lt_of_lt_of_le f.isLt h))

theorem entryOf_record (e : Entry) : entryOf e.record = some e := by
  cases e with
  | unused => rfl
  | fixed c => rfl
  | direct p f =>
    have lane := finOf_of_val p.lane _ (toNat_ofNat_fin (w := 4) p.lane (by decide)).symm
    have slot := finOf_of_val p.slot _ (toNat_ofNat_fin (w := 5) p.slot (by decide)).symm
    have mode : (1 : BitVec 4).toNat = 1 := rfl
    simp only [entryOf, Entry.record, mode, lane, slot, fallbackOf_fields]
  | protect g k f =>
    have group := finOf_of_val g _ (toNat_ofNat_fin (w := 8) g (by decide)).symm
    have slot := finOf_of_val k _ (toNat_ofNat_fin (w := 5) k (by decide)).symm
    have mode : (2 : BitVec 4).toNat = 2 := rfl
    simp only [entryOf, Entry.record, mode, groupOf, byteOf, group, slot, fallbackOf_fields]

theorem decode_encodeEntryRecord (r : EntryRecord) : ∃ b0 b1 b2 b3 b4 b5,
    encodeEntryRecord r = [b0, b1, b2, b3, b4, b5] ∧ decodeEntryRecord b0 b1 b2 b3 b4 b5 = r := by
  refine ⟨_, _, _, _, _, _, rfl, ?_⟩
  have mode : (r.mode ++ r.sourceLane).extractLsb' 4 4 = r.mode := BitVec.extractLsb'_append_eq_left
  have lane : (r.mode ++ r.sourceLane).extractLsb' 0 4 = r.sourceLane := BitVec.extractLsb'_append_eq_right
  have fallback : (r.fallback ++ (0 : BitVec 1) ++ r.sourceSlot).extractLsb' 6 2 = r.fallback :=
    extract_above (by decide) BitVec.extractLsb'_append_eq_left
  have slot : (r.fallback ++ (0 : BitVec 1) ++ r.sourceSlot).extractLsb' 0 5 = r.sourceSlot :=
    BitVec.extractLsb'_append_eq_right
  have constant : (r.constant.extractLsb' 16 8 ++ r.constant.extractLsb' 8 8 ++ r.constant.extractLsb' 0 8 : Word) =
      r.constant := by
    refine BitVec.eq_of_getLsbD_eq fun i hi => ?_
    rw [BitVec.getLsbD_append, BitVec.getLsbD_append]
    simp only [BitVec.getLsbD_extractLsb']
    by_cases low : i < 8
    · simp [low]
    · by_cases middle : i - 8 < 8
      · simp [low, middle]
        rw [show 8 + (i - 8) = i by omega]
      · simp [low, middle]
        rw [show 16 + (i - 8 - 8) = i by omega, decide_eq_true (show i - 8 - 8 < 8 by omega), Bool.true_and]
  rw [decodeEntryRecord, mode, lane, fallback, slot, constant]

theorem mode_cases (m : BitVec 4) : m = 0 ∨ m = 1 ∨ m = 2 ∨ m = 3 ∨ 3 < m.toNat := by
  decide +revert

/-- A record with an unnamed MODE asks for no entry. -/
theorem entryOf_of_unnamed (r : EntryRecord) (unnamed : 3 < r.mode.toNat) : entryOf r = none := by
  unfold entryOf
  split
  case h_5 => rfl
  all_goals omega

theorem entryOf_direct_cases (r : EntryRecord) (mode : r.mode = 1) :
    (entryOf r = none ∧ (7 < r.sourceLane.toNat ∨ 23 < r.sourceSlot.toNat ∨ r.fallback = 3)) ∨
    ∃ l s f, entryOf r = some (.direct ⟨l, s⟩ f) ∧ l.val = r.sourceLane.toNat ∧ s.val = r.sourceSlot.toNat ∧
      fallbackOf r.fallback r.constant = some f := by
  have one : (1 : BitVec 4).toNat = 1 := rfl
  simp only [entryOf, mode, one]
  split
  case h_1 l s f hl hs hf => exact .inr ⟨l, s, f, rfl, finOf_eq_some.1 hl, finOf_eq_some.1 hs, hf⟩
  case h_2 bad =>
    refine .inl ⟨rfl, ?_⟩
    by_contra good
    rw [not_or, not_or, not_lt, not_lt] at good
    obtain ⟨lane, slot, fallback⟩ := good
    obtain ⟨f, hf⟩ := Option.ne_none_iff_exists'.1 (mt (fallbackOf_eq_none_iff _ _).1 fallback)
    exact bad ⟨r.sourceLane.toNat, by omega⟩ ⟨r.sourceSlot.toNat, by omega⟩ f (finOf_eq_some.2 rfl) (finOf_eq_some.2 rfl) hf

theorem entryOf_protect_cases (r : EntryRecord) (mode : r.mode = 2) :
    (entryOf r = none ∧ (15 < r.group.toNat ∨ 23 < r.sourceSlot.toNat ∨ r.fallback = 3)) ∨
    ∃ g s f, entryOf r = some (.protect g s f) ∧ g.val = r.group.toNat ∧ s.val = r.sourceSlot.toNat ∧
      fallbackOf r.fallback r.constant = some f := by
  have two : (2 : BitVec 4).toNat = 2 := rfl
  simp only [entryOf, mode, two]
  split
  case h_1 g s f hg hs hf => exact .inr ⟨g, s, f, rfl, finOf_eq_some.1 hg, finOf_eq_some.1 hs, hf⟩
  case h_2 bad =>
    refine .inl ⟨rfl, ?_⟩
    by_contra good
    rw [not_or, not_or, not_lt, not_lt] at good
    obtain ⟨group, slot, fallback⟩ := good
    obtain ⟨f, hf⟩ := Option.ne_none_iff_exists'.1 (mt (fallbackOf_eq_none_iff _ _).1 fallback)
    exact bad ⟨r.group.toNat, by omega⟩ ⟨r.sourceSlot.toNat, by omega⟩ f (finOf_eq_some.2 rfl) (finOf_eq_some.2 rfl) hf

theorem entryOf_eq_none_iff (r : EntryRecord) : entryOf r = none ↔
    3 < r.mode.toNat ∨ (r.mode = 1 ∧ 7 < r.sourceLane.toNat) ∨ (r.mode = 2 ∧ 15 < r.group.toNat) ∨
      ((r.mode = 1 ∨ r.mode = 2) ∧ (23 < r.sourceSlot.toNat ∨ r.fallback = 3)) := by
  have present {s : SlotId} {f : Fallback} (slot : s.val = r.sourceSlot.toNat)
      (hf : fallbackOf r.fallback r.constant = some f) : ¬ (23 < r.sourceSlot.toNat ∨ r.fallback = 3) := by
    rintro (high | three)
    · have := s.isLt
      omega
    · rw [(fallbackOf_eq_none_iff _ _).2 three] at hf
      cases hf
  rcases mode_cases r.mode with mode | mode | mode | mode | unnamed
  · have asked : entryOf r = some .unused := by simp [entryOf, mode]
    simp [asked, mode]
  · rcases entryOf_direct_cases r mode with ⟨none, bad⟩ | ⟨l, s, f, some, lane, slot, hf⟩
    · simp only [none, mode, true_iff]
      tauto
    · have := l.isLt
      have := present slot hf
      simp only [some, mode, reduceCtorEq, false_iff]
      rintro (h | h | h | h)
      · exact absurd h (by decide)
      · omega
      · exact absurd h.1 (by decide)
      · exact this h.2
  · rcases entryOf_protect_cases r mode with ⟨none, bad⟩ | ⟨g, s, f, some, group, slot, hf⟩
    · simp only [none, mode, true_iff]
      tauto
    · have := g.isLt
      have := present slot hf
      simp only [some, mode, reduceCtorEq, false_iff]
      rintro (h | h | h | h)
      · exact absurd h (by decide)
      · exact absurd h.1 (by decide)
      · omega
      · exact this h.2
  · have asked : entryOf r = some (.fixed r.constant) := by simp [entryOf, mode]
    simp [asked, mode]
  · simp [entryOf_of_unnamed r unnamed, unnamed]

/-- Settles O17: by the MODE of the record. -/
theorem entryRecordNormalForm : Obligations.EntryRecordNormalForm := by
  unfold Obligations.EntryRecordNormalForm
  refine ⟨entryOf_record, fun e => decode_encodeEntryRecord e.record, entryOf_eq_none_iff, fun r e asked => ?_⟩
  rcases mode_cases r.mode with mode | mode | mode | mode | unnamed
  · have unused : entryOf r = some .unused := by simp [entryOf, mode]
    rw [unused] at asked
    cases asked
    simp [Entry.record, mode]
  · rcases entryOf_direct_cases r mode with ⟨none, -⟩ | ⟨l, s, f, some, lane, slot, hf⟩
    · rw [none] at asked; cases asked
    · rw [some] at asked
      cases asked
      simp [Entry.record, mode, fields_of_fallbackOf hf, lane, slot]
  · rcases entryOf_protect_cases r mode with ⟨none, -⟩ | ⟨g, s, f, some, group, slot, hf⟩
    · rw [none] at asked; cases asked
    · rw [some] at asked
      cases asked
      simp [Entry.record, mode, fields_of_fallbackOf hf, group, slot, byteOf]
  · have fixed : entryOf r = some (.fixed r.constant) := by simp [entryOf, mode]
    rw [fixed] at asked
    cases asked
    simp [Entry.record, mode]
  · rw [entryOf_of_unnamed r unnamed] at asked
    cases asked

end Sys2Proof.Proofs

/-! Rows that nothing asks for or that are not due (O3). -/

namespace Sys2Proof.Proofs
open Sys2Proof Sys2Proof.Machine

/-! ### When a row is due -/

theorem nextBoundary_iff (s : State) : s.nextBoundary = true ↔ s.efa.frameNo = 15 := beq_iff_eq

theorem exists_of_holdOffDue {s : State} {g : GroupId} (due : s.holdOffDue g = true) :
    s.work.groupsTaken.get g = false ∧ ∃ x, s.group g = some x ∧ x.holdOffRemaining = some 1 := by
  unfold State.holdOffDue at due
  cases on : s.group g with
  | none => simp [on] at due
  | some x =>
    simp only [on, Bool.and_eq_true, Bool.not_eq_true', beq_iff_eq] at due
    exact ⟨due.1, x, rfl, due.2⟩

theorem exists_of_wtrDue {s : State} {g : GroupId} (due : s.wtrDue g = true) :
    s.work.groupsTaken.get g = false ∧ s.efa.frameNo = 15 ∧
      ∃ x, s.group g = some x ∧ x.state = .pWtr ∧ x.wtrRemaining = some 1 := by
  unfold State.wtrDue at due
  cases on : s.group g with
  | none => simp [on] at due
  | some x =>
    simp only [on, Bool.and_eq_true, Bool.not_eq_true', beq_iff_eq, nextBoundary_iff] at due
    obtain ⟨⟨⟨fresh, last⟩, state⟩, running⟩ := due
    exact ⟨fresh, last, x, rfl, state, running⟩

theorem idleDue_iff (s : State) : s.idleDue = true ↔
    s.work.mapTaken = false ∧ s.efa.frameNo = 15 ∧ s.map.scheduled = none ∧
      ∃ e, s.map.session = some e ∧ e.idleRemaining = 1 := by
  simp only [State.idleDue, Bool.and_eq_true, Bool.not_eq_true', beq_iff_eq, nextBoundary_iff,
    Option.isNone_iff_eq_none, Option.map_eq_some_iff]
  tauto

theorem swapAhead_iff (s : State) : s.swapAhead = true ↔
    s.work.mapTaken = false ∧ s.efa.frameNo = 15 ∧ s.map.scheduled ≠ none := by
  simp only [State.swapAhead, Bool.and_eq_true, Bool.not_eq_true', nextBoundary_iff, Option.isSome_iff_ne_none]
  tauto

theorem replyHoldDue_iff (s : State) (ch : ChannelId) : s.replyHoldDue ch = true ↔
    s.enabled ch = true ∧ s.work.word ch = none ∧ (s.channel ch).phase = .awaitAck 1 ∧
      ¬ (s.work.mapTaken = false ∧ s.efa.frameNo = 15 ∧ s.map.scheduled ≠ none) := by
  rw [← swapAhead_iff]
  simp only [State.replyHoldDue, Bool.and_eq_true, Bool.not_eq_true', decide_eq_true_eq, Option.isNone_iff_eq_none,
    Bool.not_eq_true]
  tauto

theorem aligned_of_lossDue {s : State} {l : LaneId} {w : Word} (due : s.lossDue l w = true) :
    ∃ t, (s.lane l).alignment = .aligned t := by
  unfold State.lossDue at due
  cases al : (s.lane l).alignment with
  | aligned t => exact ⟨t, rfl⟩
  | _ => simp [al] at due

theorem aligned_of_windowEndDue {s : State} {l : LaneId} {w : Word} (due : s.windowEndDue l w = true) :
    ∃ t, (s.lane l).alignment = .aligned t := by
  unfold State.windowEndDue at due
  cases al : (s.lane l).alignment with
  | aligned t => exact ⟨t, rfl⟩
  | _ => simp [al] at due

/-! ### The rows -/

theorem exec_unasked {s : State} {ch : ChannelId} {c : Instr} (sender : c.sender = some ch)
    (unasked : ∀ r, (s.channel ch).phase = .executing r true → decodeCommand ch r.code (bodyBytes r.body) ≠ some c) :
    exec c s = .next s := by
  rw [exec_request s ch c sender, (s.asks_eq_none ch c).2 unasked]

/-- Settles O3: a request row that nothing asks for finds no request, and each other row is guarded by its being due. -/
theorem unaskedChangesNothing : Obligations.UnaskedChangesNothing := by
  unfold Obligations.UnaskedChangesNothing
  refine fun c s => ⟨fun ch sender unasked => exec_unasked sender unasked, ?_, ?_, ?_, ?_, ?_, ?_, ?_⟩
  · rintro g rfl idle
    refine congrArg _ (if_neg fun ⟨ready, due⟩ => idle ⟨s.ready_iff.1 ready, exists_of_holdOffDue due⟩)
  · rintro g rfl idle
    refine congrArg _ (if_neg fun ⟨ready, due⟩ => idle ⟨s.ready_iff.1 ready, exists_of_wtrDue due⟩)
  · rintro rfl idle
    refine congrArg _ (if_neg fun ⟨ready, due⟩ => idle ⟨s.ready_iff.1 ready, (idleDue_iff s).1 due⟩)
  · rintro rfl idle
    refine congrArg _ (if_neg fun ⟨ready, due⟩ => idle ⟨s.ready_iff.1 ready, (swapAhead_iff s).1 due⟩)
  · rintro ch rfl idle
    refine congrArg _ (if_neg fun ⟨ready, due⟩ => idle ⟨s.ready_iff.1 ready, (replyHoldDue_iff s ch).1 due⟩)
  · rintro l w rfl idle
    refine congrArg _ (if_neg fun due => idle ?_)
    obtain ⟨t, aligned⟩ := aligned_of_lossDue due
    exact ⟨t, aligned, (lossDue_iff aligned w).1 due⟩
  · rintro l w rfl idle
    refine congrArg _ (if_neg fun due => idle ?_)
    obtain ⟨t, aligned⟩ := aligned_of_windowEndDue due
    exact ⟨t, aligned, (windowEndDue_iff aligned w).1 due⟩

end Sys2Proof.Proofs

/-! What a word that arrives and a request that is taken leave as it was: the queue of waiting commands, the active bank
with its letter and generation, and a filled guard fault record (O2). -/

namespace Sys2Proof.Proofs
open Sys2Proof Sys2Proof.Machine

/-! ### The relation -/

/-- The two states have the same active bank, letter and generation (R2, R10). -/
structure SameBank (s t : State) : Prop where
  active : t.map.active = s.map.active
  bank : t.map.activeBank = s.map.activeBank
  generation : t.map.generation = s.map.generation

/-- A fault record that is filled stands (R157). -/
def FaultStands (s t : State) : Prop :=
  ∀ f, s.guard.fault = some f → t.guard.fault = some f

/-- The waiting commands, the active bank and a filled fault record are as they were. -/
structure Undisturbed (s t : State) : Prop where
  pending : t.pending = s.pending
  same : SameBank s t
  fault : FaultStands s t

section
variable {s t u : State}

theorem SameBank.of_map (map : t.map = s.map) : SameBank s t :=
  ⟨by rw [map], by rw [map], by rw [map]⟩

theorem SameBank.trans (h : SameBank s t) (k : SameBank t u) : SameBank s u :=
  ⟨k.active.trans h.active, k.bank.trans h.bank, k.generation.trans h.generation⟩

theorem FaultStands.of_guard (guard : t.guard = s.guard) : FaultStands s t := fun f filled => by
  rw [guard]
  exact filled

theorem FaultStands.trans (h : FaultStands s t) (k : FaultStands t u) : FaultStands s u :=
  fun f filled => k f (h f filled)

theorem faultStands_guardFault (s : State) (ch : ChannelId) (r : Request) (reason : FaultReason) (target : Target) :
    FaultStands s (s.guardFault ch r reason target) := by
  intro f filled
  rw [State.guardFault_eq, State.withEvents_guard]
  simp only [filled]

theorem Undisturbed.of_eq (pending : t.pending = s.pending) (map : t.map = s.map) (guard : t.guard = s.guard) :
    Undisturbed s t :=
  ⟨pending, .of_map map, .of_guard guard⟩

theorem Undisturbed.refl (s : State) : Undisturbed s s :=
  .of_eq rfl rfl rfl

theorem Undisturbed.trans (h : Undisturbed s t) (k : Undisturbed t u) : Undisturbed s u :=
  ⟨k.pending.trans h.pending, h.same.trans k.same, h.fault.trans k.fault⟩

theorem Undisturbed.of_onlyGroups (only : s.OnlyGroups t) : Undisturbed s t := by
  obtain ⟨gs, q0, q1, n, rfl⟩ := only
  exact .of_eq rfl rfl rfl

theorem Undisturbed.of_onlyLanes (only : OnlyLanes s t) : Undisturbed s t := by
  obtain ⟨ls, gs, q0, q1, n, rfl⟩ := only
  exact .of_eq rfl rfl rfl

theorem undisturbed_reportLanes (h : Undisturbed s t) : Undisturbed s t.reportLanes :=
  h.trans (.of_onlyGroups (State.onlyGroups_reportLanes _))

/-- The map with its idle timer reloaded, or with another session, keeps its banks. -/
theorem sameBank_reload (s : State) (ch : ChannelId) : SameBank s { s with map := s.map.reload ch } := by
  unfold ConnectionMap.reload
  split
  · split_ifs
    · exact ⟨rfl, rfl, rfl⟩
    · exact .of_map rfl
  · exact .of_map rfl

end

/-! ### Words -/

theorem undisturbed_acknowledge (s : State) (ch : ChannelId) : Undisturbed s (s.acknowledge ch) := by
  unfold State.acknowledge State.applyEffects
  split
  · split_ifs
    · exact .refl s
    · split <;> exact .of_eq (by simp [State.countChannel]) (by simp [State.countChannel]) (by simp [State.countChannel])
  · exact .refl s

theorem undisturbed_setPhase (s : State) (ch : ChannelId) (p : Phase) : Undisturbed s (s.setPhase ch p) :=
  .of_eq (by simp [State.setPhase]) (by simp [State.setPhase]) (by simp [State.setPhase])

theorem undisturbed_heard {s t : State} {ch : ChannelId} (heard : Heard s ch t) : Undisturbed s t := by
  have counted : ∀ (a : State) f, Undisturbed a (a.countChannel ch f) := fun a f =>
    .of_eq (by simp [State.countChannel]) (by simp [State.countChannel]) (by simp [State.countChannel])
  have reloaded : Undisturbed s { s with map := s.map.reload ch } := ⟨rfl, sameBank_reload s ch, .of_guard rfl⟩
  cases heard
  case ignored => exact .refl s
  case counted f => exact counted s f
  case begun r a f _ _ _ implicit =>
    refine Undisturbed.trans ?_ ((counted a f).trans (undisturbed_setPhase _ _ _))
    rcases implicit with rfl | ⟨rfl, -⟩
    · exact undisturbed_acknowledge s ch
    · exact .refl _
  case joined => exact undisturbed_setPhase s ch _
  case discarded r f es _ =>
    exact ((counted s f).trans (undisturbed_setPhase _ _ _)).trans (.of_eq rfl rfl rfl)
  case acknowledged => exact (undisturbed_acknowledge s ch).trans (undisturbed_setPhase _ _ _)
  case duplicated => exact .of_eq (by simp [State.duplicate]) (by simp [State.duplicate]) (by simp [State.duplicate])
  case refused q st u _ _ fault =>
    refine Undisturbed.trans (t := u) ?_ (.of_eq (by simp) (by simp) (by simp))
    rcases fault with rfl | ⟨-, a, b, rfl⟩
    · exact reloaded
    · exact reloaded.trans ⟨by simp, .of_map (by simp), faultStands_guardFault _ ch q a b⟩
  case handed => exact reloaded.trans (undisturbed_setPhase _ _ _)

theorem undisturbed_handOff (s : State) (p : Place) (w : Word) : Undisturbed s (s.handOff p w) := by
  have heard : ∀ (t : State) ch, Undisturbed t (t.takeWord ch w) := fun t ch => undisturbed_heard (takeWord_heard w)
  unfold State.handOff
  dsimp only
  split_ifs
  · exact (heard _ _).trans (heard _ _)
  · exact heard _ _
  · exact heard _ _
  · exact .refl s

theorem undisturbed_completeFrame (s : State) (l : LaneId) (f : Frame) : Undisturbed s (s.completeFrame l f) := by
  rw [State.completeFrame_eq]
  exact .of_eq rfl rfl rfl

theorem undisturbed_slotAligned (s : State) (l : LaneId) (t : Tracking) (w : Word) :
    Undisturbed s (s.slotAligned l t w) := by
  have tracked : ∀ n, Undisturbed s { s.track l (.aligned { t with slots := t.slots ++ [w] }) with free := n } :=
    fun n => .of_eq rfl rfl rfl
  unfold State.slotAligned
  dsimp only
  split
  · exact tracked s.free
  · split_ifs
    · exact (tracked s.free).trans (undisturbed_handOff ..)
    · exact ((tracked s.free).trans (undisturbed_handOff ..)).trans (undisturbed_completeFrame ..)
    · exact ((tracked _).trans (undisturbed_handOff ..)).trans (undisturbed_completeFrame ..)
    · exact ((tracked _).trans (undisturbed_completeFrame ..)).trans (undisturbed_handOff ..)

theorem undisturbed_leaveAligned (s : State) (l : LaneId) (a : Sys2Proof.Machine.Alignment)
    (count : LaneCounters → LaneCounters) : Undisturbed s (s.leaveAligned l a count) := by
  rw [leaveAligned_eq, reportLost_eq_ite]
  exact undisturbed_reportLanes (.of_eq rfl rfl rfl)

theorem undisturbed_markerAligned (s : State) (l : LaneId) (t : Tracking) (w : Word) :
    Undisturbed s (s.markerAligned l t w) := by
  unfold State.markerAligned
  dsimp only
  split
  · exact undisturbed_leaveAligned ..
  · split
    · exact .of_eq rfl rfl rfl
    · rw [State.raiseAll_eq]
      exact undisturbed_reportLanes (.of_eq rfl rfl rfl)

/-- The arrival of a word on a lane (R63 to R74). -/
theorem undisturbed_arrive (s : State) (l : LaneId) (w : Word) : Undisturbed s (s.arrive l w) := by
  have tracked : ∀ a, Undisturbed s (s.track l a) := fun a => .of_eq rfl rfl rfl
  unfold State.arrive
  split
  · exact .refl s
  · split_ifs
    · exact tracked _
    · exact .refl s
  · split_ifs
    · exact tracked _
    · exact tracked _
    · unfold State.declareAligned
      rw [State.raise_eq]
      exact undisturbed_reportLanes (.of_eq rfl rfl rfl)
    · exact tracked _
  · split_ifs
    · exact undisturbed_slotAligned ..
    · exact undisturbed_markerAligned ..

/-! ### Requests -/

section
variable {s t u : State} {ch : ChannelId} {r : Request} {i : Instr} {e : Deferred}

/-- A map with its pending bank, session and commit changed has the active bank that it had. -/
theorem sameBank_pending (b : Bank) (session : Option EditSession) (scheduled : Option ChannelId)
    (map : t.map = { s.map.setPending b with session := session, scheduled := scheduled }) : SameBank s t := by
  constructor <;> rw [map]
  · exact s.map.setPending_active b
  · exact ConnectionMap.activeBank_setPending s.map b
  · exact s.map.setPending_generation b

theorem sameBank_endSession (s : State) : SameBank s s.endSession :=
  sameBank_pending _ none none rfl

theorem sameBank_cancelCommit (s : State) : SameBank s s.cancelCommit := by
  obtain ⟨c0, c1, eq⟩ := cancelCommit_eq (s := s)
  rw [eq]
  exact .of_map rfl

theorem sameBank_restart (s : State) (p : Phase) : SameBank s (s.restart p) := by
  obtain ⟨m, es, map, eq⟩ := restart_cases s p
  rw [eq]
  rcases map with ⟨rfl, -⟩ | rfl
  · exact .of_map rfl
  · exact sameBank_pending s.map.activeBank none none rfl

/-- No request but DATAPATH_RESET changes the active bank before its reply (R39). -/
theorem Served.sameBank (served : Served s ch r i u e) (row : i ≠ .datapathReset) : SameBank s u := by
  have same : ∀ {t : State}, t.map = s.map → SameBank s t := .of_map
  cases served
  case placed p n _ _ _ _ =>
    rw [placeOperator_eq]
    have before : SameBank s { s.setReplyHold .ch1 n with operatorPlace := some p } := .of_map rfl
    exact (before.trans (sameBank_restart _ .idle)).trans (.of_map rfl)
  case removed n _ _ => 
    have before : SameBank s { s.setReplyHold .ch1 n with operatorPlace := none } := .of_map rfl
    exact before.trans (sameBank_restart _ .off)
  case restarted => exact sameBank_restart s .idle
  case datapathReset eq => exact absurd eq row
  case opened => exact sameBank_pending s.map.activeBank _ s.map.restore.scheduled rfl
  case reopened => exact ⟨rfl, rfl, rfl⟩
  case abandoned => exact sameBank_endSession s
  case broken => exact ((sameBank_cancelCommit s).trans (sameBank_endSession _)).trans (.of_map rfl)
  case wrote f _ _ => exact sameBank_pending (f s.map.pendingBank) _ _ rfl
  case laneSet l on n _ _ free => exact (Undisturbed.of_onlyLanes (onlyLanes_laneSet s l on n free)).same
  case configured => exact (Undisturbed.of_onlyGroups (s.onlyGroups_redecide _ _)).same
  case requested => exact (Undisturbed.of_onlyGroups (s.onlyGroups_redecide _ _)).same
  case inputSet n m low _ _ =>
    have set : Undisturbed s (s.setInput n { s.input n with mode := m, activeLow := low }) := .of_eq rfl rfl rfl
    exact (set.trans (.of_onlyGroups (onlyGroups_inputSet _ _))).same
  all_goals exact same (by simp [State.setReplyHold, State.setRegion])

theorem guard_restart (s : State) (p : Phase) : (s.restart p).guard = s.guard := by
  obtain ⟨m, es, -, eq⟩ := restart_cases s p
  rw [eq]

theorem guard_cancelCommit (s : State) : s.cancelCommit.guard = s.guard := by
  obtain ⟨c0, c1, eq⟩ := cancelCommit_eq (s := s)
  rw [eq]

/-- No request but CLEAR_FAULT empties the fault record (R157). -/
theorem Served.faultStands (served : Served s ch r i u e) (row : i ≠ .clearFault) : FaultStands s u := by
  have same : ∀ {t : State}, t.guard = s.guard → FaultStands s t := .of_guard
  cases served
  case faulted reason target _ => exact faultStands_guardFault s ch r reason target
  case placed p n _ _ _ _ =>
    rw [placeOperator_eq]
    exact same (guard_restart { s.setReplyHold .ch1 n with operatorPlace := some p } .idle)
  case removed n _ _ => exact same (guard_restart { s.setReplyHold .ch1 n with operatorPlace := none } .off)
  case restarted => exact same (guard_restart s .idle)
  case datapathReset => exact same (guard_cancelCommit s)
  case broken => exact same (guard_cancelCommit s)
  case laneSet l on n _ _ free => exact (Undisturbed.of_onlyLanes (onlyLanes_laneSet s l on n free)).fault
  case configured => exact (Undisturbed.of_onlyGroups (s.onlyGroups_redecide _ _)).fault
  case requested => exact (Undisturbed.of_onlyGroups (s.onlyGroups_redecide _ _)).fault
  case inputSet n m low _ _ =>
    have set : Undisturbed s (s.setInput n { s.input n with mode := m, activeLow := low }) := .of_eq rfl rfl rfl
    exact (set.trans (.of_onlyGroups (onlyGroups_inputSet _ _))).fault
  case regionSet => exact fun f filled => filled
  case faultCleared eq => exact absurd eq row
  all_goals exact same (by simp [State.setReplyHold, State.endSession, State.writePending])

theorem sameBank_takeCommand (sender : i.sender = some ch) (row : i ≠ .datapathReset) : SameBank s (s.takeCommand r i) := by
  rcases takeCommand_cases (s := s) (r := r) sender with ⟨u, e, st, b, served, -, -, eq⟩ | ⟨-, -, eq⟩ <;> rw [eq]
  · exact (served.sameBank row).trans (.of_map (by simp))
  · exact ⟨by simp [State.setPhase], by simp [State.setPhase]; rfl, by simp [State.setPhase]⟩

theorem faultStands_takeCommand (sender : i.sender = some ch) (row : i ≠ .clearFault) :
    FaultStands s (s.takeCommand r i) := by
  rcases takeCommand_cases (s := s) (r := r) sender with ⟨u, e, st, b, served, -, -, eq⟩ | ⟨-, -, eq⟩ <;> rw [eq]
  · exact (served.faultStands row).trans (.of_guard (by simp))
  · exact .of_guard (by simp [State.setPhase])

end

/-! ### Every command completes -/

/-- A unit's event of the coming frame start leaves what the event itself leaves. -/
theorem pending_atNextStart (s : State) (f : State → State) (kept : ∀ t, (f t).pending = t.pending) :
    (s.atNextStart f).pending = s.pending :=
  kept { s with efa := s.efa.advance }

theorem pending_tickGroup (s : State) (g : GroupId) : (s.tickGroup g).pending = s.pending := by
  obtain ⟨gs, q0, q1, w, eq, -⟩ := s.tickGroup_eq g
  rw [eq]

/-- A row that takes a unit's event ahead leaves the queue of waiting commands, due or not. -/
theorem pending_ahead (s : State) (due : Prop) [Decidable due] (f : State → State)
    (kept : ∀ t, (f t).pending = t.pending) : (if due then s.atNextStart f else s).pending = s.pending := by
  split_ifs
  · exact pending_atNextStart s f kept
  · rfl

theorem pending_arrive_ite (s : State) (l : LaneId) (w : Word) (due : Prop) [Decidable due] :
    (if due then s.arrive l w else s).pending = s.pending := by
  split_ifs
  · exact (undisturbed_arrive s l w).pending
  · rfl

theorem pending_frameStart (s : State) (e : FrameEdge) : (s.frameStart e).pending = s.pending := by
  have taken := (s.sameTimebase_takeAllWaiting e).pending
  exact (State.sameFrame_foldl e (frameSchedule e) _).pending.trans taken

theorem pending_request (s : State) (ch : ChannelId) (i : Instr) (sender : i.sender = some ch) :
    ∃ t, exec i s = .next t ∧ t.pending = s.pending := by
  refine ⟨_, exec_request s ch i sender, ?_⟩
  split
  · rename_i r _
    exact ((s.sameTimebase_beforeRestart i).trans (State.sameTimebase_takeCommand _ r i)).pending
  · rfl

/-- Settles O2: by the kinds of row. A request row takes a request or changes nothing, a row of an expiry takes a unit's
event ahead or changes nothing, and a row of a word's consequence is the word's arrival or changes nothing. -/
theorem everyCommandCompletes : Obligations.EveryCommandCompletes := by
  unfold Obligations.EveryCommandCompletes
  intro c s
  cases sender : c.sender with
  | some ch => exact pending_request s ch c sender
  | none =>
    have map : ∀ t : State, t.mapEvent.pending = t.pending := fun t => t.sameFrame_mapEvent.pending
    cases c
    case deviceReset => exact ⟨_, rfl, rfl⟩
    case egressFrameStart e => exact ⟨_, rfl, pending_frameStart s e⟩
    case holdOffExpiry g => exact ⟨_, rfl, pending_ahead s _ _ fun t => pending_tickGroup t g⟩
    case wtrExpiry g => exact ⟨_, rfl, pending_ahead s _ _ fun t => pending_tickGroup t g⟩
    case idleExpiry => exact ⟨_, rfl, pending_ahead s _ _ map⟩
    case bankSwap => exact ⟨_, rfl, pending_ahead s _ _ map⟩
    case replyHoldExpiry ch => exact ⟨_, rfl, pending_ahead s _ _ fun t => (t.sameFrame_mccEvent ch).pending⟩
    case ingressWordArrival l w => exact ⟨_, rfl, (undisturbed_arrive s l w).pending⟩
    case lossOfAlignment l w => exact ⟨_, rfl, pending_arrive_ite s l w _⟩
    case degradeWindowEnd l w => exact ⟨_, rfl, pending_arrive_ite s l w _⟩
    all_goals cases sender

end Sys2Proof.Proofs

/-! What no request of channel 1 changes, and what outlasts every command: the fault record and the active bank (O11, O12,
O13). -/

namespace Sys2Proof.Proofs
open Sys2Proof Sys2Proof.Machine

/-! ### Requests of channel 1 -/

/-- A group after a request of channel 1: its configuration, input lockout and conditions stand, and a request is the
channel's own manual one, dropped, or the one that stood (R106). -/
def OperatorGroup (x y : Group) : Prop :=
  y.workingLane = x.workingLane ∧ y.protectLane = x.protectLane ∧ y.revertive = x.revertive ∧
    y.holdOff = x.holdOff ∧ y.wtrPeriod = x.wtrPeriod ∧ y.operatorAccess = x.operatorAccess ∧
    y.inputLockout = x.inputLockout ∧ y.conditions = x.conditions ∧
    ((∃ k, y.standing = some ⟨k, .channel .ch1⟩ ∧ (k = .manualP ∨ k = .manualW)) ∨ y.standing = none ∨
      y.standing = x.standing) ∧
    (x.operatorAccess = false → y = x)

theorem operatorGroup_refl (x : Group) : OperatorGroup x x :=
  ⟨rfl, rfl, rfl, rfl, rfl, rfl, rfl, rfl, .inr (.inr rfl), fun _ => rfl⟩

theorem operatorGroup_redecide (x : Group) (q : Option Standing) (access : x.operatorAccess = true)
    (own : ∀ k, q = some k → k.origin = .channel .ch1 ∧ (k.kind = .manualP ∨ k.kind = .manualW)) :
    OperatorGroup x { x with standing := q }.redecide := by
  obtain ⟨p, st, h, w, dropped, eq⟩ := Group.redecide_eq { x with standing := q }
  rw [eq]
  refine ⟨rfl, rfl, rfl, rfl, rfl, rfl, rfl, rfl, ?_, fun denied => absurd (access.symm.trans denied) nofun⟩
  rcases dropped with ⟨rfl, -⟩ | ⟨rfl, -⟩
  · cases p with
    | none => exact .inr (.inl rfl)
    | some k =>
      obtain ⟨kind, origin⟩ := k
      obtain ⟨rfl, manual⟩ := own _ rfl
      exact .inl ⟨kind, rfl, manual⟩
  · exact .inr (.inl rfl)

/-- What a request of channel 1 can do to what the supervisor holds, and to the pending bank (R106, R134, R149 to R153). -/
structure OperatorStep (s t : State) : Prop where
  map : SameBank s t
  lanes : t.lanes = s.lanes
  efa : t.efa = s.efa
  inputs : t.inputs = s.inputs
  regions : t.guard.regions = s.guard.regions
  strapLane : t.strapLane = s.strapLane
  operatorPlace : t.operatorPlace = s.operatorPlace
  ch0 : t.ch0 = s.ch0
  group : ∀ g, (s.group g = none → t.group g = none) ∧
    ∀ x, s.group g = some x → ∃ y, t.group g = some y ∧ OperatorGroup x y
  entry : ∀ d, t.map.pendingBank.get d = s.map.pendingBank.get d ∨ s.guard.Grants Region.modifyPermit d ∨
    t.map.pendingBank.get d = s.map.activeBank.get d

section
variable {s t u : State} {r : Request} {i : Instr} {e : Deferred}

theorem operatorGroups_of_groups (groups : t.groups = s.groups) (g : GroupId) :
    (s.group g = none → t.group g = none) ∧ ∀ x, s.group g = some x → ∃ y, t.group g = some y ∧ OperatorGroup x y := by
  rw [State.group_congr s g t groups]
  exact ⟨id, fun x on => ⟨x, on, operatorGroup_refl x⟩⟩

/-- Only the queues, the fault and the requesting channel's record differ. -/
theorem operatorStep_of_map (map : SameBank s t) (lanes : t.lanes = s.lanes) (efa : t.efa = s.efa)
    (inputs : t.inputs = s.inputs) (regions : t.guard.regions = s.guard.regions) (strapLane : t.strapLane = s.strapLane)
    (operatorPlace : t.operatorPlace = s.operatorPlace) (ch0 : t.ch0 = s.ch0) (groups : t.groups = s.groups)
    (entry : ∀ d, t.map.pendingBank.get d = s.map.pendingBank.get d ∨ s.guard.Grants Region.modifyPermit d ∨
      t.map.pendingBank.get d = s.map.activeBank.get d) : OperatorStep s t :=
  ⟨map, lanes, efa, inputs, regions, strapLane, operatorPlace, ch0, operatorGroups_of_groups groups, entry⟩

theorem operatorStep_served (served : Served s .ch1 r i u e) (row : i ≠ .datapathReset) : OperatorStep s u := by
  have kept : ∀ {t : State}, t.map = s.map → ∀ d, t.map.pendingBank.get d = s.map.pendingBank.get d ∨
      s.guard.Grants Region.modifyPermit d ∨ t.map.pendingBank.get d = s.map.activeBank.get d :=
    fun map d => .inl (by rw [map])
  have map := served.sameBank row
  cases served
  case faulted =>
    exact operatorStep_of_map map (by simp) (by simp) (by simp) (by simp) (by simp) (by simp) (by simp) (by simp)
      (kept (by simp))
  case opened =>
    refine operatorStep_of_map map rfl rfl rfl rfl rfl rfl rfl rfl fun d => .inr (.inr ?_)
    exact congrArg (·.get d) (pendingBank_restore s.map)
  case abandoned =>
    refine operatorStep_of_map map rfl rfl rfl rfl rfl rfl rfl rfl fun d => .inr (.inr ?_)
    exact congrArg (·.get d) (pendingBank_restore s.map)
  case wrote f _ permitted =>
    refine operatorStep_of_map map rfl rfl rfl rfl rfl rfl rfl rfl fun d => ?_
    have pending : (s.writePending f).map.pendingBank = f s.map.pendingBank := ConnectionMap.pendingBank_setPending ..
    rw [pending]
    rcases permitted s.map.pendingBank d with same | granted
    · exact .inl same
    · exact .inr (.inl (not_not.1 fun denied => granted ⟨rfl, denied⟩))
  case requested g x q on operator =>
    obtain ⟨access, own⟩ := operator rfl
    obtain ⟨gs, q0, q1, n, eq⟩ := s.onlyGroups_redecide g { x with standing := q }
    refine ⟨map, by rw [eq], by rw [eq], by rw [eq], by rw [eq], by rw [eq], by rw [eq], by rw [eq], fun h => ?_,
      kept (by rw [eq])⟩
    by_cases own_ : h = g
    · subst own_
      rw [State.group_redecide, on]
      exact ⟨nofun, fun y eq => ⟨_, rfl, by cases eq; exact operatorGroup_redecide x q access own⟩⟩
    · rw [State.group_redecide_of_ne _ _ _ _ own_]
      exact ⟨id, fun y other => ⟨y, other, operatorGroup_refl y⟩⟩
  case reopened => exact operatorStep_of_map map rfl rfl rfl rfl rfl rfl rfl rfl fun d => .inl rfl
  case nothing => exact operatorStep_of_map map rfl rfl rfl rfl rfl rfl rfl rfl (kept rfl)
  case laneRead => exact operatorStep_of_map map rfl rfl rfl rfl rfl rfl rfl rfl (kept rfl)
  case channelRead => exact operatorStep_of_map map rfl rfl rfl rfl rfl rfl rfl rfl (kept rfl)
  case subscribed => exact operatorStep_of_map map rfl rfl rfl rfl rfl rfl rfl rfl (kept rfl)
  case eventsRead => exact operatorStep_of_map map rfl rfl rfl rfl rfl rfl rfl rfl (kept rfl)
  all_goals contradiction

/-- A step that goes on to change the record of channel 1 and schedule a commit alone. -/
theorem OperatorStep.ch1 (step : OperatorStep s t) (c : Channel) (scheduled : Option ChannelId) :
    OperatorStep s { t with ch1 := c, map := { t.map with scheduled := scheduled } } :=
  ⟨step.map.trans ⟨rfl, rfl, rfl⟩, step.lanes, step.efa, step.inputs, step.regions, step.strapLane, step.operatorPlace,
    step.ch0, step.group, step.entry⟩

theorem operatorStep_refl (s : State) : OperatorStep s s :=
  operatorStep_of_map ⟨rfl, rfl, rfl⟩ rfl rfl rfl rfl rfl rfl rfl rfl fun _ => .inl rfl

theorem operatorStep_takeCommand (sender : i.sender = some .ch1) : OperatorStep s (s.takeCommand r i) := by
  have row : i ≠ .datapathReset := by
    rintro rfl
    cases sender
  rcases takeCommand_cases (s := s) (r := r) sender with ⟨u, e, st, b, served, -, -, eq⟩ | ⟨-, -, eq⟩ <;> rw [eq]
  · exact (operatorStep_served served row).ch1 _ u.map.scheduled
  · exact (operatorStep_refl s).ch1 _ (some .ch1)

theorem exec_operator (sender : i.sender = some .ch1) : ∃ t, exec i s = .next t ∧ OperatorStep s t := by
  have first : s.beforeRestart i = s := by
    unfold State.beforeRestart
    rw [s.restarts_of_sender i sender]
    rfl
  refine ⟨_, exec_request s .ch1 i sender, ?_⟩
  rw [first]
  split
  · exact operatorStep_takeCommand sender
  · exact operatorStep_refl s

end

/-- Settles O11: by what a request of channel 1 can be served with. -/
theorem operatorCannotReshape : Obligations.OperatorCannotReshape := by
  unfold Obligations.OperatorCannotReshape
  have stepped : ∀ (c : Instr) (s t : State), c.sender = some .ch1 → exec c s = .next t → OperatorStep s t := by
    intro c s t sender done
    obtain ⟨u, reached, step⟩ := exec_operator (s := s) sender
    rw [reached] at done
    cases done
    exact step
  refine ⟨fun c s t sender done => ?_, fun c s t sender done => (stepped c s t sender done).entry⟩
  obtain ⟨⟨active, bank, generation⟩, lanes, efa, inputs, regions, strapLane, operatorPlace, ch0, group, -⟩ :=
    stepped c s t sender done
  exact ⟨⟨active, bank, generation⟩, lanes, efa, inputs, regions, strapLane, operatorPlace, ch0, group⟩

/-! ### Relations that every request but one row keeps -/

/-- A relation of states that every request keeps, the row `row` of the supervisor apart. -/
structure RequestsKeep (row : Instr) (R : State → State → Prop) : Prop where
  supervisor : row.sender = some .ch0
  refl : ∀ s, R s s
  trans : ∀ s t u, R s t → R t u → R s u
  taken : ∀ s ch r i, i.sender = some ch → i ≠ row → R s (s.takeCommand r i)

/-- The request of channel 0 that waits asks for `row`. -/
def Asked (row : Instr) (s : State) : Prop :=
  ∃ r, s.ch0.phase = .executing r true ∧ decodeCommand .ch0 r.code (bodyBytes r.body) = some row

section
variable {row : Instr} {R : State → State → Prop} (keep : RequestsKeep row R) (s : State)
include keep

theorem RequestsKeep.ne_of_ch1 (i : Instr) (sender : i.sender = some .ch1) : i ≠ row := by
  rintro rfl
  cases sender.symm.trans keep.supervisor

theorem RequestsKeep.beforeRestart (i : Instr) :
    R s (s.beforeRestart i) ∧ (s.beforeRestart i).ch0.phase = s.ch0.phase := by
  rcases s.beforeRestart_eq i with same | ⟨r, j, -, asks, sender, eq⟩
  · rw [same]
    exact ⟨keep.refl s, rfl⟩
  · rw [eq]
    exact ⟨keep.taken s .ch1 r j sender (keep.ne_of_ch1 j sender),
      phase_takeCommand_ch0 sender ((s.asks_eq_some .ch1 j r).mp asks).1⟩

theorem RequestsKeep.request (ch : ChannelId) (r : Request) (i : Instr) (sender : i.sender = some ch) (ne : i ≠ row) :
    R s ((s.beforeRestart i).takeCommand r i) :=
  keep.trans _ _ _ (keep.beforeRestart s i).1 (keep.taken _ ch r i sender ne)

theorem RequestsKeep.takeWaiting_ch0 (unasked : ¬ Asked row s) : R s (s.takeWaiting .ch0) := by
  rcases s.takeBy_eq .ch0 State.beforeRestart with same | ⟨r, i, waits, sender, asks, eq⟩
  · rw [State.takeWaiting, same]
    exact keep.refl s
  · rw [State.takeWaiting, eq]
    refine keep.request s .ch0 r i sender ?_
    rintro rfl
    exact unasked ⟨r, waits, ((s.asks_eq_some .ch0 i r).mp asks).2⟩

theorem RequestsKeep.takeWaiting_ch1 : R s (s.takeWaiting .ch1) ∧ (s.takeWaiting .ch1).ch0.phase = s.ch0.phase := by
  rcases s.takeBy_eq .ch1 State.beforeRestart with same | ⟨r, i, waits, sender, -, eq⟩
  · rw [State.takeWaiting, same]
    exact ⟨keep.refl s, rfl⟩
  · have first : s.beforeRestart i = s := by
      unfold State.beforeRestart
      rw [s.restarts_of_sender i sender]
      rfl
    rw [State.takeWaiting, eq, first]
    exact ⟨keep.taken s .ch1 r i sender (keep.ne_of_ch1 i sender), phase_takeCommand_ch0 sender waits⟩

/-- The requests that a frame start takes (R134). -/
theorem RequestsKeep.takeAllWaiting (e : FrameEdge) (unasked : ¬ Asked row s) : R s (s.takeAllWaiting e) := by
  unfold State.takeAllWaiting
  split_ifs
  · exact keep.trans _ _ _ (keep.takeWaiting_ch0 s unasked) (keep.takeWaiting_ch1 _).1
  · obtain ⟨first, phase⟩ := keep.takeWaiting_ch1 s
    refine keep.trans _ _ _ first (keep.takeWaiting_ch0 _ fun ⟨r, waits, decoded⟩ => unasked ⟨r, ?_, decoded⟩)
    rw [← phase]
    exact waits

/-- A request row keeps the relation unless it is `row` and is asked for. -/
theorem RequestsKeep.exec (ch : ChannelId) (i : Instr) (sender : i.sender = some ch) (unasked : i = row → ¬ Asked row s) :
    ∃ t, exec i s = .next t ∧ R s t := by
  refine ⟨_, exec_request s ch i sender, ?_⟩
  split
  · rename_i r asks
    refine keep.request s ch r i sender ?_
    rintro rfl
    cases sender.symm.trans keep.supervisor
    obtain ⟨waits, decoded⟩ := (s.asks_eq_some .ch0 _ r).mp asks
    exact unasked rfl ⟨r, waits, decoded⟩
  · exact keep.refl s

end

/-- The code of a command is that of no other row (10.6). -/
theorem code_of_decodeCommand {code : BitVec 6} {bytes : List Byte} {i : Instr}
    (decoded : decodeCommand .ch0 code bytes = some i) :
    (i = .clearFault → code = 0x33) ∧ (i = .datapathReset → code = 0x05) := by
  have number : ∀ n : BitVec 6, code.toNat = n.toNat → code = n := fun n same => BitVec.eq_of_toNat_eq same
  rw [decodeCommand_ch0] at decoded
  unfold commandOf decodeGroupRequest at decoded
  refine ⟨fun row => number 0x33 ?_, fun row => number 0x05 ?_⟩ <;> subst row <;> split at decoded <;>
    first | assumption | (repeat' split at decoded) <;> cases decoded

end Sys2Proof.Proofs

/-! The fault record and the active bank over every command (O12, O13). -/

namespace Sys2Proof.Proofs
open Sys2Proof Sys2Proof.Machine

variable {s t u : State}

/-! ### The fault record -/

theorem requestsKeep_faultStands : RequestsKeep .clearFault FaultStands where
  supervisor := rfl
  refl _ := .of_guard rfl
  trans _ _ _ := .trans
  taken _ _ _ _ sender ne := faultStands_takeCommand sender ne

theorem guard_frameStart (s : State) (e : FrameEdge) : (s.frameStart e).guard = (s.takeAllWaiting e).guard :=
  (State.sameFrame_foldl e (frameSchedule e) _).guard

theorem guard_ahead (s : State) (due : Prop) [Decidable due] (f : State → State) (kept : ∀ t, (f t).guard = t.guard) :
    (if due then s.atNextStart f else s).guard = s.guard := by
  split_ifs
  · exact kept { s with efa := s.efa.advance }
  · rfl

theorem undisturbed_arrive_ite (s : State) (l : LaneId) (w : Word) (due : Prop) [Decidable due] :
    Undisturbed s (if due then s.arrive l w else s) := by
  split_ifs
  · exact undisturbed_arrive s l w
  · exact .refl s

theorem guard_tickGroup (s : State) (g : GroupId) : (s.tickGroup g).guard = s.guard := by
  obtain ⟨gs, q0, q1, w, eq, -⟩ := s.tickGroup_eq g
  rw [eq]

/-- Settles O12: a request row keeps the record unless it takes a CLEAR_FAULT, a frame start unless one waits, and
neither a unit's event nor a word touches it. -/
theorem faultRecordKept : Obligations.FaultRecordKept := by
  unfold Obligations.FaultRecordKept
  intro c s t f filled done
  have stands : ∀ {u}, exec c s = .next u → FaultStands s u → t.guard.fault = some f := fun reached kept => by
    rw [reached] at done
    cases done
    exact kept f filled
  have coded : Asked .clearFault s → ∃ r, s.ch0.phase = .executing r true ∧ r.code = 0x33 := fun ⟨r, waits, decoded⟩ =>
    ⟨r, waits, (code_of_decodeCommand decoded).1 rfl⟩
  cases sender : c.sender with
  | some ch =>
    by_cases cleared : c = .clearFault ∧ Asked .clearFault s
    · exact .inr (.inr ⟨.inl cleared.1, coded cleared.2⟩)
    · obtain ⟨u, reached, kept⟩ := requestsKeep_faultStands.exec s ch c sender fun row asked => cleared ⟨row, asked⟩
      exact .inl (stands reached kept)
  | none =>
    have map : ∀ t : State, t.mapEvent.guard = t.guard := fun t => t.sameFrame_mapEvent.guard
    cases c
    case deviceReset straps pins => exact .inr (.inl ⟨straps, pins, rfl⟩)
    case egressFrameStart e =>
      by_cases asked : Asked .clearFault s
      · exact .inr (.inr ⟨.inr ⟨e, rfl⟩, coded asked⟩)
      · exact .inl (stands rfl ((requestsKeep_faultStands.takeAllWaiting s e asked).trans (.of_guard (guard_frameStart s e))))
    case holdOffExpiry g => exact .inl (stands rfl (.of_guard (guard_ahead s _ _ fun t => guard_tickGroup t g)))
    case wtrExpiry g => exact .inl (stands rfl (.of_guard (guard_ahead s _ _ fun t => guard_tickGroup t g)))
    case idleExpiry => exact .inl (stands rfl (.of_guard (guard_ahead s _ _ map)))
    case bankSwap => exact .inl (stands rfl (.of_guard (guard_ahead s _ _ map)))
    case replyHoldExpiry ch =>
      exact .inl (stands rfl (.of_guard (guard_ahead s _ _ fun t => (t.sameFrame_mccEvent ch).guard)))
    case ingressWordArrival l w => exact .inl (stands rfl (undisturbed_arrive s l w).fault)
    case lossOfAlignment l w => exact .inl (stands rfl (undisturbed_arrive_ite s l w _).fault)
    case degradeWindowEnd l w => exact .inl (stands rfl (undisturbed_arrive_ite s l w _).fault)
    all_goals cases sender

/-! ### The active bank over a frame start -/

theorem requestsKeep_sameBank : RequestsKeep .datapathReset SameBank where
  supervisor := rfl
  refl _ := .of_map rfl
  trans _ _ _ := .trans
  taken _ _ _ _ sender ne := sameBank_takeCommand sender ne

/-- What a unit's event does to the active bank: nothing, or the one swap of its boundary (R39). -/
structure BankEvent (s t : State) : Prop where
  frameNo : t.efa.frameNo = s.efa.frameNo
  bank : (SameBank s t ∧ (s.work.mapTaken = true → t.work.mapTaken = true)) ∨
    (s.work.mapTaken = false ∧ t.work.mapTaken = true ∧ s.efa.frameNo = 0 ∧
      t.map.active ≠ s.map.active ∧ t.map.generation = s.map.generation + 1)

theorem BankEvent.of_eq (frameNo : t.efa.frameNo = s.efa.frameNo) (map : t.map = s.map)
    (taken : t.work.mapTaken = s.work.mapTaken) : BankEvent s t :=
  ⟨frameNo, .inl ⟨.of_map map, fun was => taken.trans was⟩⟩

theorem BankEvent.trans (h : BankEvent s t) (k : BankEvent t u) : BankEvent s u := by
  refine ⟨k.frameNo.trans h.frameNo, ?_⟩
  rcases h.bank with ⟨same, mono⟩ | ⟨fresh, taken, boundary, active, generation⟩
  · rcases k.bank with ⟨same', mono'⟩ | ⟨fresh', taken', boundary', active', generation'⟩
    · exact .inl ⟨same.trans same', fun was => mono' (mono was)⟩
    · refine .inr ⟨?_, taken', h.frameNo.symm.trans boundary', same.active ▸ active', same.generation ▸ generation'⟩
      by_contra was
      rw [mono (by simpa using was)] at fresh'
      cases fresh'
  · rcases k.bank with ⟨same', mono'⟩ | ⟨fresh', -⟩
    · exact .inr ⟨fresh, mono' taken, boundary, by rwa [same'.active], by rwa [same'.generation]⟩
    · rw [taken] at fresh'
      cases fresh'

theorem other_ne (n : BankName) : n.other ≠ n := by
  cases n <;> decide

theorem map_swap (m : ConnectionMap) : m.swap.active = m.active.other ∧ m.swap.generation = m.generation + 1 := by
  simp [ConnectionMap.swap, ConnectionMap.release, ConnectionMap.restore]

theorem map_completeCommit (s : State) (c : ChannelId) (st : Status) (b : List Byte) :
    (s.completeCommit c st b).map = s.map := by
  rcases completeCommit_cases s c st b with same | ⟨q, -, done⟩
  · rw [same]
  · rw [done, State.finish_map]

theorem map_bankSwap (s : State) (c : ChannelId) : (s.bankSwap c).map = s.map.swap := by
  rw [bankSwap_eq]
  exact map_completeCommit (swapBanks s) c _ _

theorem idleTick_sameBank (s : State) : SameBank s s.idleTick ∧ s.idleTick.work = s.work := by
  unfold State.idleTick
  split
  · split_ifs
    · rw [State.raise_eq]
      exact ⟨(sameBank_endSession s).trans (.of_map rfl), rfl⟩
    · exact ⟨⟨rfl, rfl, rfl⟩, rfl⟩
  · exact ⟨.of_map rfl, rfl⟩

theorem bankEvent_mapEvent (s : State) : BankEvent s s.mapEvent := by
  refine ⟨s.sameFrame_mapEvent.frameNo, ?_⟩
  unfold State.mapEvent
  split_ifs with still
  · exact .inl ⟨.of_map rfl, id⟩
  · simp only [Bool.or_eq_true, Bool.not_eq_true', not_or, Bool.not_eq_true, Bool.not_eq_false] at still
    obtain ⟨fresh, boundary⟩ := still
    dsimp only
    split
    · rename_i c _
      obtain ⟨active, generation⟩ := map_swap s.map
      refine .inr ⟨fresh, by rw [bankSwap_eq]; rfl, by simpa [State.boundary] using boundary, ?_, ?_⟩
      · rw [map_bankSwap]
        exact fun same => other_ne _ (active.symm.trans same)
      · rw [map_bankSwap]
        exact generation
    · obtain ⟨same, work⟩ := idleTick_sameBank { s with work := { s.work with mapTaken := true } }
      exact .inl ⟨SameBank.trans (t := { s with work := { s.work with mapTaken := true } }) (.of_map rfl) same,
        fun _ => by rw [work]⟩

theorem bankEvent_mccEvent (s : State) (ch : ChannelId) : BankEvent s (s.mccEvent ch) := by
  obtain ⟨c, w, es, eq | eq⟩ := s.mccEvent_eq ch <;> rw [eq] <;> cases ch <;> exact .of_eq rfl rfl rfl

theorem bankEvent_swapFirst (s : State) : BankEvent s s.swapFirst := by
  unfold State.swapFirst
  split_ifs
  · exact bankEvent_mapEvent s
  · exact .of_eq rfl rfl rfl

theorem bankEvent_unitEvent (s : State) (e : FrameEdge) (u : FrameUnit) : BankEvent s (s.unitEvent e u) := by
  cases u
  · exact bankEvent_mapEvent s
  · obtain ⟨q0, q1, n, eq⟩ := s.efaEvent_eq
    change BankEvent s s.efaEvent
    rw [eq]
    exact .of_eq rfl rfl rfl
  · obtain ⟨gs, q0, q1, w, n, eq, -⟩ := s.pscEvent_eq
    change BankEvent s s.pscEvent
    rw [eq]
    exact .of_eq rfl rfl rfl
  · obtain ⟨is, gs, q0, q1, n, eq, -⟩ := s.eiuEvent_eq e.pins e.edgePlace
    change BankEvent s (s.eiuEvent e.pins e.edgePlace)
    rw [eq]
    exact .of_eq rfl rfl rfl
  · exact (bankEvent_swapFirst s).trans (bankEvent_mccEvent _ _)
  · exact (bankEvent_swapFirst s).trans (bankEvent_mccEvent _ _)

theorem bankEvent_foldl (e : FrameEdge) (us : List FrameUnit) (s : State) :
    BankEvent s (us.foldl (fun s u => s.unitEvent e u) s) := by
  induction us generalizing s with
  | nil => exact .of_eq rfl rfl rfl
  | cons u us ih => exact (bankEvent_unitEvent s e u).trans (ih _)

/-! ### The generation -/

theorem SameBank.maps {s' t' : State} (h : SameBank s t) (before : s'.map = s.map) (after : t'.map = t.map) :
    SameBank s' t' :=
  ⟨by rw [before, after, h.active], by rw [before, after, h.bank], by rw [before, after, h.generation]⟩

/-- The banks have stood, or been swapped once at the superframe boundary that follows FRAME_NO 15. -/
def Followed (s t : State) : Prop :=
  SameBank s t ∨ (t.map.active ≠ s.map.active ∧ t.map.generation = s.map.generation + 1 ∧ s.efa.frameNo = 15)

/-- The units' events of a coming frame start. -/
theorem followed_of_bankEvent {v : State} (advanced : t.efa.frameNo = s.efa.frameNo + 1) (same : SameBank s t)
    (event : BankEvent t u) (map : v.map = u.map) : Followed s v := by
  unfold Followed
  rw [map]
  rcases event.bank with ⟨kept, -⟩ | ⟨-, -, boundary, active, generation⟩
  · exact .inl ((same.trans kept).trans (.of_map map))
  · refine .inr ⟨same.active ▸ active, same.generation ▸ generation, ?_⟩
    have zero := advanced.symm.trans boundary
    bv_omega

theorem followed_frameStart (s : State) (e : FrameEdge) (unasked : ¬ Asked .datapathReset s) :
    Followed s (s.frameStart e) := by
  have before := requestsKeep_sameBank.takeAllWaiting s e unasked
  have timebase := (s.sameTimebase_takeAllWaiting e).frameNo
  let t : State :=
    { s.takeAllWaiting e with efa := ((s.takeAllWaiting e).efa.cut e.sent).advance }
  have advanced : t.efa.frameNo = s.efa.frameNo + 1 := congrArg (· + 1) timebase
  exact followed_of_bankEvent advanced (before.trans (.of_map rfl)) (bankEvent_foldl e (frameSchedule e) t)
    rfl

theorem sameBank_ahead (s : State) (due : Prop) [Decidable due] (f : State → State)
    (kept : ∀ t, due → t.map = s.map → SameBank t (f t)) : SameBank s (if due then s.atNextStart f else s) := by
  split_ifs with h
  · exact (kept { s with efa := s.efa.advance } h rfl).maps rfl rfl
  · exact .of_map rfl

theorem sameBank_mapEvent (free : s.map.scheduled = none) : SameBank s s.mapEvent := by
  unfold State.mapEvent
  split_ifs
  · exact .of_map rfl
  · rw [free]
    exact (idleTick_sameBank { s with work := { s.work with mapTaken := true } }).1.maps rfl rfl

theorem sameBank_tickGroup (s : State) (g : GroupId) : SameBank s (s.tickGroup g) := by
  obtain ⟨gs, q0, q1, w, eq, -⟩ := s.tickGroup_eq g
  rw [eq]
  exact .of_map rfl

theorem sameBank_mccEvent (s : State) (ch : ChannelId) : SameBank s (s.mccEvent ch) := by
  obtain ⟨c, w, es, eq | eq⟩ := s.mccEvent_eq ch <;> rw [eq] <;> exact .of_map (by simp)

theorem followed_bankSwap (s : State) (due : Prop) [Decidable due] :
    Followed s (if due then s.atNextStart State.mapEvent else s) := by
  split_ifs
  · exact followed_of_bankEvent (t := { s with efa := s.efa.advance }) rfl (.of_map rfl) (bankEvent_mapEvent _)
      rfl
  · exact .inl (.of_map rfl)

/-- Settles O13: only the MAP's event of a boundary swaps, at most once a frame start, and only a DATAPATH_RESET sets
the generation otherwise. -/
theorem generationFollowsSwap : Obligations.GenerationFollowsSwap := by
  unfold Obligations.GenerationFollowsSwap
  intro c s t done alive codes
  have unasked : ¬ Asked .datapathReset s := fun ⟨r, waits, decoded⟩ =>
    codes r waits ((code_of_decodeCommand decoded).2 rfl)
  have stood : ∀ {u}, exec c s = .next u → SameBank s u → SameBank s t := fun reached same => by
    rw [reached] at done
    cases done
    exact same
  have followed : ∀ {u}, exec c s = .next u → Followed s u → Followed s t := fun reached kept => by
    rw [reached] at done
    cases done
    exact kept
  suffices outcome : SameBank s t ∨ (c = .bankSwap ∨ ∃ e, c = .egressFrameStart e) ∧ Followed s t by
    rcases outcome with same | ⟨row, same | ⟨active, generation, last⟩⟩
    · exact .inl ⟨same.active, same.bank, same.generation⟩
    · exact .inl ⟨same.active, same.bank, same.generation⟩
    · exact .inr ⟨active, generation, row, last⟩
  cases sender : c.sender with
  | some ch =>
    obtain ⟨u, reached, same⟩ := requestsKeep_sameBank.exec s ch c sender fun _ => unasked
    exact .inl (stood reached same)
  | none =>
    cases c
    case deviceReset straps pins => exact absurd rfl (alive straps pins)
    case egressFrameStart e => exact .inr ⟨.inr ⟨e, rfl⟩, followed rfl (followed_frameStart s e unasked)⟩
    case bankSwap => exact .inr ⟨.inl rfl, followed rfl (followed_bankSwap s _)⟩
    case holdOffExpiry g => exact .inl (stood rfl (sameBank_ahead s _ _ fun t _ _ => sameBank_tickGroup t g))
    case wtrExpiry g => exact .inl (stood rfl (sameBank_ahead s _ _ fun t _ _ => sameBank_tickGroup t g))
    case idleExpiry =>
      refine .inl (stood rfl (sameBank_ahead s _ _ fun t due map => sameBank_mapEvent ?_))
      rw [map]
      exact ((idleDue_iff s).1 due.2).2.2.1
    case replyHoldExpiry ch => exact .inl (stood rfl (sameBank_ahead s _ _ fun t _ _ => sameBank_mccEvent t ch))
    case ingressWordArrival l w => exact .inl (stood rfl (undisturbed_arrive s l w).same)
    case lossOfAlignment l w => exact .inl (stood rfl (undisturbed_arrive_ite s l w _).same)
    case degradeWindowEnd l w => exact .inl (stood rfl (undisturbed_arrive_ite s l w _).same)
    all_goals cases sender

end Sys2Proof.Proofs

/-! The bank swap of a scheduled commit (O27). -/

namespace Sys2Proof.Proofs
open Sys2Proof Sys2Proof.Machine

section
variable (s : State)

/-! ### The swap in one form -/

theorem completeCommit_efa (c : ChannelId) (st : Status) (b : List Byte) (a : Assembler) :
    State.completeCommit { s with efa := a } c st b = { s.completeCommit c st b with efa := a } := by
  unfold State.completeCommit
  cases c <;> dsimp only [State.channel] <;> split <;> rfl

/-- The committer answered by a state whose banks have been exchanged. -/
def answered (c : ChannelId) : State :=
  State.completeCommit { s with map := s.map.swap } c .ok (swapBody s)

/-- A bank swap by its parts: the committer's answer, held state, the mark of the swap, and COMMIT_DONE (R39, R57). -/
theorem bankSwap_parts (c : ChannelId) : s.bankSwap c =
    State.withEvents { answered s c with
      efa := { s.efa with held := heldAfterSwap s }, work := { s.work with swapped := some c } } [.commitDone c] := by
  rw [bankSwap_eq]
  exact congrArg (fun u => State.withEvents { u with work := { s.work with swapped := some c } } [.commitDone c])
    (completeCommit_efa { s with map := s.map.swap } c .ok (swapBody s) { s.efa with held := heldAfterSwap s })

theorem heldAfterSwap_get (d : Place) :
    (s.map.activeBank.get d = s.map.pendingBank.get d ∨
      (s.map.activeBank.get d).KeepsSource (s.map.pendingBank.get d) →
        (heldAfterSwap s).get d = s.efa.held.get d) ∧
    (s.map.activeBank.get d ≠ s.map.pendingBank.get d →
      ¬ (s.map.activeBank.get d).KeepsSource (s.map.pendingBank.get d) →
        (heldAfterSwap s).get d = ⟨0, s.efa.holdLimit⟩) := by
  simp only [heldAfterSwap, swapHeld, Grid.get_ofFn, ConnectionMap.activeBank_swap, ← Entry.sameSource_iff]
  exact ⟨fun kept => if_pos kept, fun differ other => if_neg (not_or.2 ⟨differ, other⟩)⟩

theorem swapBody_eq : swapBody s = [s.map.generation + 1, if s.map.active = .a then 1 else 0,
    BitVec.ofNat 8 (Place.all.countP fun d => decide (s.map.pendingBank.get d ≠ s.map.activeBank.get d)), 0] := by
  obtain ⟨active, generation⟩ := map_swap s.map
  rw [swapBody, active, generation, byteOf_bankCode, differing_eq]
  cases s.map.active <;> rfl

theorem bankSwap_of_executing (c : ChannelId) (q : Request) (executing : (s.channel c).phase = .executing q false) :
    s.bankSwap c =
      (State.finish
          { s with
            map := s.map.swap, efa := { s.efa with held := heldAfterSwap s }
            work := { s.work with swapped := some c } } c q .ok (swapBody s) .none).withEvents [.commitDone c] := by
  rw [bankSwap_parts, answered, completeCommit_of_executing _ c .ok _ q (by cases c <;> exact executing)]
  cases c <;> rfl

/-- No request comes to wait by the answer to a commit. -/
theorem noneWaits_completeCommit (c : ChannelId) (st : Status) (b : List Byte)
    (none_ : ∀ ch r, (s.channel ch).phase ≠ .executing r true) (ch : ChannelId) (r : Request) :
    ((s.completeCommit c st b).channel ch).phase ≠ .executing r true := by
  rcases completeCommit_cases s c st b with same | ⟨q, -, done⟩
  · rw [same]
    exact none_ ch r
  · rw [done]
    by_cases own : ch = c
    · subst own
      rw [State.channel_finish]
      nofun
    · rw [State.channel_finish_of_ne s c ch q own]
      exact none_ ch r

/-! ### The swap ahead of its frame start -/

/-- A swap at the superframe boundary that comes, by its parts. -/
theorem mapEvent_parts (a : Assembler) (c : ChannelId) (scheduled : s.map.scheduled = some c)
    (fresh : s.work.mapTaken = false) (boundary : a.frameNo = 0) :
    State.mapEvent { s with efa := a } =
      State.withEvents { answered s c with
        efa := { a with held := swapHeld a.holdLimit s.map.activeBank s.map.swap.activeBank a.held }
        work := { s.work with mapTaken := true, swapped := some c } } [.commitDone c] := by
  rw [mapEvent_of_scheduled { s with efa := a } fresh boundary c scheduled, bankSwap_parts]
  have plain : answered { s with efa := a, work := { s.work with mapTaken := true } } c =
      { answered s c with efa := a, work := { s.work with mapTaken := true } } := by
    refine (completeCommit_work { s with efa := a, map := s.map.swap } c .ok (swapBody s) _).trans ?_
    exact congrArg (fun u => { u with work := { s.work with mapTaken := true } })
      (completeCommit_efa { s with map := s.map.swap } c .ok (swapBody s) a)
  rw [plain]
  rfl

end

/-- A frame start whose schedule begins with the MAP. -/
theorem frameStart_of_map (s : State) (e : FrameEdge) (rest : List FrameUnit) (first : e.order = .map :: rest)
    (idle : ∀ ch r, (s.channel ch).phase ≠ .executing r true) :
    s.frameStart e = ((frameSchedule e).tail.foldl (fun t u => t.unitEvent e u)
      (State.mapEvent { s with efa := (s.efa.cut e.sent).advance })).compose := by
  have schedule : frameSchedule e = .map :: (frameSchedule e).tail := by
    unfold frameSchedule
    rw [first]
    rfl
  unfold State.frameStart
  rw [s.takeAllWaiting_of_none e idle, schedule]
  rfl

/-- The state that a swap taken ahead of its frame start leaves. -/
def swappedAhead (s : State) (c : ChannelId) : State :=
  State.withEventsAhead { answered s c with
    efa := { s.efa with held := heldAfterSwap s }, work := { s.work with mapTaken := true, swapped := some c } }
    [.commitDone c]

theorem atNextStart_swap (s : State) (c : ChannelId) (scheduled : s.map.scheduled = some c)
    (fresh : s.work.mapTaken = false) (last : s.efa.frameNo = 15) :
    s.atNextStart State.mapEvent = swappedAhead s c := by
  unfold State.atNextStart
  rw [mapEvent_parts s s.efa.advance c scheduled fresh (advance_frameNo _ last)]
  rfl

/-- The frame start of the boundary finds its swap taken. -/
theorem frameStart_swappedAhead (s : State) (c : ChannelId) (scheduled : s.map.scheduled = some c)
    (fresh : s.work.mapTaken = false) (last : s.efa.frameNo = 15)
    (idle : ∀ ch r, (s.channel ch).phase ≠ .executing r true) (e : FrameEdge) (rest : List FrameUnit)
    (first : e.order = .map :: rest) : (swappedAhead s c).frameStart e = s.frameStart e := by
  have idle' : ∀ ch r, ((swappedAhead s c).channel ch).phase ≠ .executing r true := fun ch r => by
    have none_ := noneWaits_completeCommit { s with map := s.map.swap } c .ok (swapBody s)
      (fun | .ch0 => idle .ch0 | .ch1 => idle .ch1) ch r
    cases ch <;> exact none_
  rw [frameStart_of_map _ e rest first idle', frameStart_of_map s e rest first idle, mapEvent_of_not_due _ (.inl rfl),
    mapEvent_parts s (s.efa.cut e.sent).advance c scheduled fresh (advance_frameNo _ last)]
  rfl

/-- Settles O27: the swap by its parts, and the row by the same swap at the boundary that comes. -/
theorem bankSwapTaken : Obligations.BankSwapTaken := by
  unfold Obligations.BankSwapTaken
  constructor
  · intro s c q executing
    refine ⟨s.map.swap, heldAfterSwap s, (map_swap s.map).1, (map_swap s.map).2, rfl, rfl,
      ConnectionMap.activeBank_swap _, ConnectionMap.pendingBank_swap _, heldAfterSwap_get s, ?_⟩
    rw [bankSwap_of_executing s c q executing, swapBody_eq]
  · intro s c startable last scheduled fresh
    have due : s.ready = true ∧ s.swapAhead = true :=
      ⟨s.ready_iff.2 startable, (swapAhead_iff s).2 ⟨fresh, last, by simp [scheduled]⟩⟩
    have map : (swappedAhead s c).map = s.map.swap := map_completeCommit { s with map := s.map.swap } c _ _
    obtain ⟨active, generation⟩ := map_swap s.map
    refine ⟨swappedAhead s c, congrArg _ ((if_pos due).trans (atNextStart_swap s c scheduled fresh last)), ?_⟩
    rw [map]
    exact ⟨generation, active, ConnectionMap.activeBank_swap _, rfl, fun e rest first => congrArg Host.Outcome.next
      (frameStart_swappedAhead s c scheduled fresh last startable.2 e rest first)⟩

end Sys2Proof.Proofs

/-! The take from each store, the slot words and the composition (O31). -/

namespace Sys2Proof.Proofs
open Sys2Proof Sys2Proof.Machine

/-! ### The take -/

theorem take_snd_of_unaligned (x : Lane) (off : x.isAligned = false) : x.take.2 = x := by
  simp [Lane.take, off]

theorem take_snd_of_unread (x : Lane) (on : x.isAligned = true) (f : Frame) (rest : List Frame)
    (unread : x.unread = f :: rest) : x.take.2 = { x with unread := rest, lastRead := some f } := by
  simp [Lane.take, on, unread]

theorem take_snd_of_repeat (x : Lane) (on : x.isAligned = true) (f : Frame) (empty : x.unread = [])
    (last : x.lastRead = some f) : x.take.2 = { x with counters := x.counters.incRepeatSlips } := by
  simp [Lane.take, on, empty, last]

theorem take_snd_of_empty (x : Lane) (on : x.isAligned = true) (empty : x.unread = []) (last : x.lastRead = none) :
    x.take.2 = x := by
  simp [Lane.take, on, empty, last]

theorem repeats_iff (x : Lane) : x.repeats = true ↔ x.isAligned = true ∧ x.unread = [] ∧ x.lastRead ≠ none := by
  simp [Lane.repeats, and_assoc, Option.isSome_iff_ne_none]

/-- The lanes whose take at this frame start is a repeat slip (R75). -/
def slippedLanes (s : State) : List LaneId :=
  (List.finRange 8).filter fun l => (s.lane l).repeats

theorem mem_slippedLanes (s : State) (l : LaneId) : l ∈ slippedLanes s ↔
    (s.lane l).isAligned = true ∧ (s.lane l).unread = [] ∧ (s.lane l).lastRead ≠ none := by
  simp [slippedLanes, repeats_iff]

theorem queue_efaEvent (s : State) (ch : ChannelId) : s.efaEvent.queue ch =
    s.queueAfter s.efa.superframes ((openOrder s.free (slippedLanes s)).map .laneSlip) ch := by
  unfold State.efaEvent
  dsimp only
  rw [forEach_raise_eq]
  cases ch <;> rfl

theorem lane_efaEvent (s : State) (l : LaneId) : s.efaEvent.lane l = (s.lane l).take.2 := by
  obtain ⟨q0, q1, n, eq⟩ := s.efaEvent_eq
  rw [eq]
  exact get_map (fun x : Lane => x.take.2) s.lanes l

theorem taken_efaEvent (s : State) (l : LaneId) : s.efaEvent.work.taken.get l = (s.lane l).answer := by
  obtain ⟨q0, q1, n, eq⟩ := s.efaEvent_eq
  rw [eq, ← Lane.take_fst]
  exact get_map (fun x : Lane => x.take.1) s.lanes l

theorem snapshot_efaEvent (s : State) (g : GroupId) : s.efaEvent.work.snapshot.get g =
    (s.group g).map fun x => if x.selected = .working then x.workingLane else x.protectLane := by
  obtain ⟨q0, q1, n, eq⟩ := s.efaEvent_eq
  rw [eq]
  exact get_map _ s.groups g

/-! ### Slot words -/

section
variable (s : State) (d : Place)

theorem managementWord_of_none (free : ∀ ch, s.place ch ≠ some d) : s.managementWord d = none := by
  rw [State.managementWord, if_neg (free .ch0), if_neg (free .ch1)]

theorem managementWord_of_place (ch : ChannelId) (w : Word) (at_ : s.place ch = some d) (word : s.work.word ch = some w)
    (alone : ∀ c, c ≠ ch → s.place c ≠ some d) : s.managementWord d = some w := by
  unfold State.managementWord
  cases ch
  · rw [if_pos at_]
    exact congrArg (fun x : Option Word => some (x.getD 0)) word
  · rw [if_neg (alone .ch0 (by decide)), if_pos at_]
    exact congrArg (fun x : Option Word => some (x.getD 0)) word

/-- The slot word of a destination that is no management location (R52 cases 2 to 5). -/
theorem slotWord_of_free (free : ∀ ch, s.place ch ≠ some d) :
    s.slotWord d = s.entryWord (s.map.activeBank.get d) (s.efa.held.get d) := by
  rw [State.slotWord, managementWord_of_none s d free]

theorem slotWord_of_place (ch : ChannelId) (w : Word) (at_ : s.place ch = some d) (word : s.work.word ch = some w)
    (alone : ∀ c, c ≠ ch → s.place c ≠ some d) : s.slotWord d = (w, s.efa.held.get d) := by
  rw [State.slotWord, managementWord_of_place s d ch w at_ word alone]

/-- An entry that draws, by its fallback, from the source `p` of this frame (R6, R7, R50). -/
def Draws (e : Entry) (f : Fallback) (p : Place) : Prop :=
  e = .direct p f ∨ ∃ g, e = .protect g p.slot f ∧ s.work.snapshot.get g = some p.lane

theorem entryWord_of_draws {e : Entry} {f : Fallback} {p : Place} (draws : Draws s e f p) (h : HeldState) :
    s.entryWord e h = match s.work.taken.get p.lane with
      | some frame => (frame.get p.slot, ⟨frame.get p.slot, 0⟩)
      | none => fallbackWord s.efa.holdLimit f h := by
  have source : s.frameSource e = some p ∧ s.entryWord e h = s.drawnWord e f h := by
    rcases draws with rfl | ⟨g, rfl, lane⟩
    · exact ⟨rfl, rfl⟩
    · exact ⟨by simp [State.frameSource, lane], rfl⟩
  rw [source.2, State.drawnWord, source.1, Option.bind_some, State.sampleOf]
  cases s.work.taken.get p.lane <;> rfl

theorem fallbackWord_spec (limit : Nat) (f : Fallback) (h : HeldState) :
    (f = .silence → fallbackWord limit f h = (0, h)) ∧ (∀ c, f = .pattern c → fallbackWord limit f h = (c, h)) ∧
    (f = .hold → h.count < limit → fallbackWord limit f h = (h.value, ⟨h.value, h.count + 1⟩)) ∧
    (f = .hold → limit ≤ h.count → fallbackWord limit f h = (0, h)) := by
  refine ⟨?_, ?_, ?_, ?_⟩
  · rintro rfl; rfl
  · rintro c rfl; rfl
  · rintro rfl room; exact if_pos room
  · rintro rfl full; exact if_neg (Nat.not_lt.2 full)

/-! ### The composition -/

theorem sentWord_compose (on : s.efa.enables.getLsbD d.lane.val = true) :
    s.compose.sentWord d = some (s.slotWord d).1 := by
  have frame : s.compose.efa.lines.get d.lane = s.laneFrame d.lane := get_ofFn _ _
  rw [State.sentWord, frame, State.laneFrame, State.egressEnabled, if_pos on]
  exact congrArg some (get_ofFn _ _)

theorem lines_compose_of_disabled (off : s.efa.enables.getLsbD d.lane.val = false) :
    s.compose.efa.lines.get d.lane = none := by
  have frame : s.compose.efa.lines.get d.lane = s.laneFrame d.lane := get_ofFn _ _
  rw [frame, State.laneFrame, State.egressEnabled, off]
  rfl

theorem held_compose : s.compose.efa.held.get d =
    if s.efa.enables.getLsbD d.lane.val = true then (s.slotWord d).2 else s.efa.held.get d := by
  change s.heldAfter.get d = _
  unfold State.heldAfter State.egressEnabled
  rw [Grid.get_ofFn]

end

/-- Settles O31: the take by the branches of a store, the slot word by the entry's kind, the composition by the enable. -/
theorem takeAndSlotWords : Obligations.TakeAndSlotWords := by
  unfold Obligations.TakeAndSlotWords
  refine ⟨fun s => ⟨taken_efaEvent s, fun l off => ?_, fun l on => ⟨fun f rest unread => ?_, fun f empty last => ?_,
      fun empty last => ?_⟩, snapshot_efaEvent s, ?_, ?_, ?_, ?_⟩,
    fun s d => ⟨fun ch w => slotWord_of_place s d ch w, ?_⟩, fun s d => ⟨fun on => ?_, fun off => ?_, rfl⟩⟩
  · rw [lane_efaEvent, take_snd_of_unaligned _ off]
  · rw [lane_efaEvent, take_snd_of_unread _ on f rest unread]
  · rw [lane_efaEvent, take_snd_of_repeat _ on f empty last]
    rfl
  · rw [lane_efaEvent, take_snd_of_empty _ on empty last]
  · obtain ⟨q0, q1, n, eq⟩ := s.efaEvent_eq
    rw [eq]
  · obtain ⟨q0, q1, n, eq⟩ := s.efaEvent_eq
    rw [eq]
  · obtain ⟨q0, q1, n, eq⟩ := s.efaEvent_eq
    rw [eq]
  · exact ⟨openOrder s.free (slippedLanes s), nodup_openOrder _ _ ((List.nodup_finRange 8).filter _),
      fun l => (mem_openOrder ..).trans (mem_slippedLanes s l), queue_efaEvent s⟩
  · intro free
    rw [slotWord_of_free s d free]
    refine ⟨fun unused => by rw [unused]; rfl, fun c fixed => by rw [fixed]; rfl, fun f p draws => ?_⟩
    rw [entryWord_of_draws s draws]
    exact ⟨fun frame taken => by rw [taken], fun gone => by rw [gone]; exact fallbackWord_spec _ f _⟩
  · exact ⟨sentWord_compose s d on, by rw [held_compose, if_pos on]⟩
  · exact ⟨lines_compose_of_disabled s d off, by rw [held_compose, if_neg (by rw [off]; nofun)]⟩

end Sys2Proof.Proofs

/-! Every slot word of a frame comes from one active bank, one frame a lane and one lane a group (O30). -/

namespace Sys2Proof.Proofs
open Sys2Proof Sys2Proof.Machine

/-! ### A frame start around the EFA's event -/

/-- The state at which the units' events of a frame start begin, where no request waits. -/
def edgeTaken (s : State) (e : FrameEdge) : State :=
  { s with efa := (s.efa.cut e.sent).advance }

/-- The units' events, in the order `us`. -/
def unitEvents (s : State) (e : FrameEdge) (us : List FrameUnit) : State :=
  us.foldl (fun s u => s.unitEvent e u) s

theorem frameStart_of_idle (s : State) (e : FrameEdge) (idle : ∀ ch r, (s.channel ch).phase ≠ .executing r true) :
    s.frameStart e = (unitEvents (edgeTaken s e) e (frameSchedule e)).compose := by
  unfold State.frameStart
  rw [s.takeAllWaiting_of_none e idle]
  rfl

theorem unitEvents_append (s : State) (e : FrameEdge) (us vs : List FrameUnit) :
    unitEvents s e (us ++ vs) = unitEvents (unitEvents s e us) e vs :=
  List.foldl_append

/-- A frame start by the state before the composition: that state has the frames that the stores of `s` answered, and
the snapshot of one lane for each configured group. -/
structure Composed (s v : State) : Prop where
  groupLanes : s.SameGroupLanes v
  taken : ∀ l, v.work.taken.get l = (s.lane l).answer
  snapshot : ∃ a : State, s.SameGroupLanes a ∧ ∀ g, v.work.snapshot.get g =
    (a.group g).map fun x => if x.selected = .working then x.workingLane else x.protectLane

theorem composed_frameStart (s : State) (e : FrameEdge) :
    Composed s (unitEvents (edgeTaken s e) e (frameSchedule e)) := by
  obtain ⟨pre, post, schedule, before, after⟩ := frameSchedule_split e .efa
  rw [schedule, unitEvents_append]
  have toEfa := State.sameTaken_foldl e pre before (edgeTaken s e)
  have lanesToEfa := (State.sameFrame_foldl e pre (edgeTaken s e)).groupLanes
  have fromEfa := State.sameTaken_foldl e post after (unitEvents (edgeTaken s e) e pre).efaEvent
  refine ⟨?_, fun l => ?_, unitEvents (edgeTaken s e) e pre, lanesToEfa, fun g => ?_⟩
  · exact lanesToEfa.trans (State.sameFrame_foldl e (.efa :: post) _).groupLanes
  · refine (congrArg (·.get l) fromEfa.taken).trans ((taken_efaEvent _ l).trans ?_)
    exact congrArg Lane.answer (State.lane_congr (edgeTaken s e) l _ toEfa.lanes)
  · exact (congrArg (·.get g) fromEfa.snapshot).trans (snapshot_efaEvent _ g)

/-! ### One lane a group -/

/-- The lane that a group draws from in a frame. -/
def snapshotLane (v : State) (g : GroupId) : LaneId :=
  (v.work.snapshot.get g).getD 0

section
variable {s v : State} (composed : Composed s v)
include composed

theorem snapshotLane_group (g : GroupId) (x : Group) (on : s.group g = some x) :
    snapshotLane v g = x.workingLane ∨ snapshotLane v g = x.protectLane := by
  obtain ⟨a, lanes, snapshot⟩ := composed.snapshot
  have same := lanes g
  rw [on] at same
  obtain ⟨y, on', eq⟩ := Option.map_eq_some_iff.1 same
  obtain ⟨working, protect⟩ := Prod.mk.inj eq
  rw [snapshotLane, snapshot, on', Option.map_some, Option.getD_some]
  split_ifs
  · exact .inl working
  · exact .inr protect

theorem snapshot_eq_snapshotLane (g : GroupId) : v.work.snapshot.get g = (v.group g).map fun _ => snapshotLane v g := by
  obtain ⟨a, lanes, snapshot⟩ := composed.snapshot
  have same := (lanes g).trans (composed.groupLanes g).symm
  rw [snapshotLane, snapshot]
  cases ha : a.group g <;> cases hv : v.group g <;> simp [ha, hv] at same ⊢

end

/-! ### The words drawn -/

/-- The fallback of an entry that draws. -/
def fallbackOf : Entry → Fallback
  | .direct _ f => f
  | .protect _ _ f => f
  | _ => .silence

theorem drawnWord_of_sample (v : State) {e : Entry} {p : Place} {frame : Frame} (source : v.frameSource e = some p)
    (taken : v.work.taken.get p.lane = some frame) (f : Fallback) (h : HeldState) :
    v.drawnWord e f h = (frame.get p.slot, ⟨frame.get p.slot, 0⟩) := by
  simp [State.drawnWord, source, State.sampleOf, taken]

/-- An entry that has a source draws from it. -/
theorem entryWord_of_source (v : State) {e : Entry} {p : Place} (source : v.frameSource e = some p) (h : HeldState) :
    v.entryWord e h = v.drawnWord e (fallbackOf e) h := by
  cases e with
  | direct q f => rfl
  | protect g k f => rfl
  | _ => cases source

theorem entryWord_of_fallback (v : State) {e : Entry} {f : Fallback}
    (draws : (∃ p, e = .direct p f) ∨ ∃ g k, e = .protect g k f) (h : HeldState) :
    v.entryWord e h = v.drawnWord e f h := by
  rcases draws with ⟨p, rfl⟩ | ⟨g, k, rfl⟩ <;> rfl

theorem drawnWord_of_unavailable (v : State) {e : Entry}
    (gone : ∀ p, v.frameSource e = some p → v.work.taken.get p.lane = none) (f : Fallback) (h : HeldState) :
    v.drawnWord e f h = fallbackWord v.efa.holdLimit f h := by
  have none_ : (v.frameSource e).bind v.sampleOf = none := by
    rw [Option.bind_eq_none_iff]
    exact fun p source => by simp [State.sampleOf, gone p source]
  simp [State.drawnWord, none_]

/-- A word that falls back, by its held state after (R56). -/
theorem fallbackWord_held (limit : Nat) (f : Fallback) (h : HeldState) :
    let x := fallbackWord limit f h
    (f = .silence → x.1 = 0) ∧ (∀ c, f = .pattern c → x.1 = c) ∧
      (f = .hold → (x.1 = 0 ∧ limit ≤ x.2.count) ∨ (x.1 = x.2.value ∧ 0 < x.2.count ∧ x.2.count ≤ limit)) := by
  obtain ⟨silence, pattern, held, full⟩ := fallbackWord_spec limit f h
  refine ⟨fun is => by rw [silence is], fun c is => by rw [pattern c is], fun is => ?_⟩
  by_cases room : h.count < limit
  · rw [held is room]
    exact .inr ⟨rfl, Nat.succ_pos _, room⟩
  · rw [full is (Nat.not_lt.1 room)]
    exact .inl ⟨rfl, Nat.not_lt.1 room⟩

/-- A destination that sends a word is on an enabled lane, and its word and held state are those of its slot. -/
theorem sent_compose (v : State) (d : Place) (w : Word) (sent : v.compose.sentWord d = some w) :
    w = (v.slotWord d).1 ∧ v.compose.efa.held.get d = (v.slotWord d).2 := by
  by_cases on : v.efa.enables.getLsbD d.lane.val = true
  · rw [sentWord_compose v d on] at sent
    exact ⟨(Option.some.inj sent).symm, by rw [held_compose, if_pos on]⟩
  · rw [State.sentWord, lines_compose_of_disabled v d (by simpa using on)] at sent
    cases sent

theorem place_compose (v : State) (ch : ChannelId) : v.compose.place ch = v.place ch := by
  cases ch <;> rfl

/-- Settles O30: the frame start around its EFA's event, which alone takes frames and the snapshot. -/
theorem frameComposedWhole : Obligations.FrameComposedWhole := by
  unfold Obligations.FrameComposedWhole
  intro s e idle
  have composed := composed_frameStart s e
  refine ⟨_, congrArg Host.Outcome.next (frameStart_of_idle s e idle), snapshotLane _, snapshotLane_group composed, ?_⟩
  generalize unitEvents (edgeTaken s e) e (frameSchedule e) = v at composed ⊢
  intro d w sent free
  obtain ⟨rfl, held⟩ := sent_compose v d w sent
  rw [held]
  have word := slotWord_of_free v d fun ch => by
    rw [← place_compose]
    exact free ch
  intro source
  have source_eq : source = v.frameSource (v.map.activeBank.get d) := by
    change _ = v.frameSource (v.compose.map.activeBank.get d)
    dsimp only [source]
    cases v.compose.map.activeBank.get d with
    | protect g k f =>
      rw [State.frameSource, snapshot_eq_snapshotLane composed, Option.map_map]
      rfl
    | _ => rfl
  rw [word]
  refine ⟨fun unused => ?_, fun c fixed => ?_, fun p f drawn answer => ?_, fun f draws gone => ?_⟩
  · rw [show v.map.activeBank.get d = .unused from unused]
    rfl
  · rw [show v.map.activeBank.get d = .fixed c from fixed]
    rfl
  · rw [source_eq] at drawn
    have taken := (composed.taken p.lane).trans answer
    rw [entryWord_of_source v drawn, drawnWord_of_sample v drawn taken]
    exact ⟨rfl, rfl⟩
  · rw [source_eq] at gone
    have drawn : v.entryWord (v.map.activeBank.get d) (v.efa.held.get d) =
        fallbackWord v.efa.holdLimit f (v.efa.held.get d) := by
      rw [entryWord_of_fallback v (e := v.map.activeBank.get d) draws]
      exact drawnWord_of_unavailable v (fun p source => (composed.taken p.lane).trans (gone p source)) f _
    rw [drawn]
    exact fallbackWord_held v.efa.holdLimit f _

end Sys2Proof.Proofs

/-! The controller's event of a frame start (O53). -/

namespace Sys2Proof.Proofs
open Sys2Proof Sys2Proof.Machine

/-! ### By state -/

section
variable (s : State) (ch : ChannelId)

theorem mccEvent_of_spare (spare : s.enabled ch = false ∨ s.work.word ch ≠ none) : s.mccEvent ch = s := by
  refine if_neg fun ⟨on, fresh⟩ => ?_
  rcases spare with off | supplied
  · rw [on] at off
    cases off
  · exact supplied fresh

variable {s ch} (on : s.enabled ch = true) (fresh : s.work.word ch = none)
include on fresh

theorem mccEvent_of_idleWord (replying : ∀ k, (s.channel ch).phase ≠ .replying k)
    (held : ∀ n, (s.channel ch).phase ≠ .awaitAck n) :
    s.mccEvent ch = s.supply ch (s.idleWordOf ch (s.channel ch).phase.code) := by
  rw [s.mccEvent_of_due ch on fresh]
  cases phase : (s.channel ch).phase with
  | replying k => exact absurd phase (replying k)
  | awaitAck n => exact absurd phase (held n)
  | _ => rfl

theorem mccEvent_of_replying {k : Nat} {p : StoredReply} (replying : (s.channel ch).phase = .replying k)
    (stored : (s.channel ch).stored = some p) (sent : s.work.swapped ≠ some ch) :
    s.mccEvent ch = (s.supply ch (p.word k)).setPhase ch
      (if k ≤ p.body.length then .replying (k + 1) else .awaitAck (s.channel ch).replyHold) := by
  have word : s.mccEvent ch = s.sendReplyWord ch k := by
    rw [s.mccEvent_of_due ch on fresh, replying]
    cases k with
    | zero => exact if_neg sent
    | succ k => rfl
  rw [word, State.sendReplyWord, stored]

theorem mccEvent_of_swapped (replying : (s.channel ch).phase = .replying 0) (swapped : s.work.swapped = some ch) :
    s.mccEvent ch = s.supply ch (s.idleWordOf ch 3) := by
  rw [s.mccEvent_of_due ch on fresh, replying]
  exact if_pos swapped

theorem mccEvent_of_awaitAck {n : Nat} (held : (s.channel ch).phase = .awaitAck n) :
    s.mccEvent ch =
      if n ≤ 1 then (s.supply ch (s.idleWordOf ch 5)).expireHold ch
      else (s.supply ch (s.idleWordOf ch 5)).setPhase ch (.awaitAck (n - 1)) := by
  rw [s.mccEvent_of_due ch on fresh, held]

end

/-- The hold timer ends with a retransmission, or with the reply abandoned (R139). -/
theorem expireHold_of_stored (s : State) (ch : ChannelId) (p : StoredReply) (w : Word)
    (stored : (s.channel ch).stored = some p) :
    (p.resends < 3 → (s.supply ch w).expireHold ch = (s.supply ch w).setChannel ch { s.channel ch with
      phase := .replying 0, stored := some { p with resends := p.resends + 1 }
      counters := (s.channel ch).counters.incRetransmits }) ∧
    (3 ≤ p.resends → (s.supply ch w).expireHold ch = ((s.supply ch w).setChannel ch { s.channel ch with
      phase := .idle, counters := (s.channel ch).counters.incAbandoned }).withEvents [.replyAbandoned ch]) := by
  have same : (s.supply ch w).channel ch = s.channel ch := by cases ch <;> rfl
  unfold State.expireHold
  rw [same, stored]
  refine ⟨fun more => if_pos more, fun last => (if_neg (Nat.not_lt.2 last)).trans ?_⟩
  rw [State.raise_eq]
  cases ch <;> rfl

/-- Settles O53: by the state of the channel, and the row by the same event at the frame start that comes. -/
theorem controllerAtFrameStart : Obligations.ControllerAtFrameStart := by
  unfold Obligations.ControllerAtFrameStart
  refine ⟨fun s ch => ⟨mccEvent_of_spare s ch, fun on fresh => ⟨fun between => ?_, fun k p replying stored sent => ?_,
    fun replying swapped => mccEvent_of_swapped on fresh replying swapped, fun n p held stored => ?_⟩⟩,
    fun s ch p held stored on fresh still startable => ?_⟩
  · refine mccEvent_of_idleWord on fresh (fun k replying => ?_) fun n held => ?_
    · rcases between with idle | ⟨r, receiving⟩ | ⟨r, b, executing⟩ <;> simp_all
    · rcases between with idle | ⟨r, receiving⟩ | ⟨r, b, executing⟩ <;> simp_all
  · rw [mccEvent_of_replying on fresh replying stored sent]
    exact ⟨fun more => by rw [if_pos more], fun last => by rw [if_neg (Nat.not_le.2 last)]⟩
  · obtain ⟨resend, abandon⟩ := expireHold_of_stored s ch p (s.idleWordOf ch 5) stored
    rw [mccEvent_of_awaitAck on fresh held]
    refine ⟨fun running => if_neg (Nat.not_le.2 running), fun ends more => ?_, fun ends last => ?_⟩
    · rw [if_pos ends]
      exact resend more
    · rw [if_pos ends]
      exact abandon last
  · have due : s.ready = true ∧ s.replyHoldDue ch = true := by
      refine ⟨s.ready_iff.2 startable, (replyHoldDue_iff s ch).2 ⟨on, fresh, held, ?_⟩⟩
      rintro ⟨early, last, scheduled⟩
      rcases still with other | free | taken
      · exact other last
      · exact scheduled free
      · rw [early] at taken
        cases taken
    let ahead : State := { s with efa := s.efa.advance }
    have taken : ahead.mccEvent ch = (ahead.supply ch (s.idleWordOf ch 5)).expireHold ch :=
      (mccEvent_of_awaitAck (s := ahead) (ch := ch) (by cases ch <;> exact on) fresh
        (by cases ch <;> exact held)).trans (if_pos (Nat.le_refl 1))
    obtain ⟨resend, abandon⟩ := expireHold_of_stored ahead ch p (s.idleWordOf ch 5) (by cases ch <;> exact stored)
    have row : exec (.replyHoldExpiry ch) s = .next (s.atNextStart fun s => s.mccEvent ch) :=
      congrArg Host.Outcome.next (if_pos due)
    rw [row]
    refine ⟨fun more => congrArg _ (atNextStart_eq s _ [] _ ?_ ((taken.trans (resend more)).trans ?_)),
      fun last => congrArg _ (atNextStart_eq s _ _ _ ?_ ((taken.trans (abandon last)).trans ?_))⟩ <;>
      cases ch <;> rfl

end Sys2Proof.Proofs

/-! The word of a channel in the frame sent (O54). -/

namespace Sys2Proof.Proofs
open Sys2Proof Sys2Proof.Machine

/-! ### No second swap -/

theorem swapDue_iff (s : State) : s.swapDue = true ↔
    s.efa.frameNo = 0 ∧ s.map.scheduled ≠ none ∧ s.work.mapTaken = false := by
  simp [State.swapDue, State.boundary, Option.isSome_iff_ne_none, and_assoc]

theorem mapTaken_mapEvent (s : State) (boundary : s.efa.frameNo = 0) : s.mapEvent.work.mapTaken = true := by
  by_cases taken : s.work.mapTaken = true
  · rw [mapEvent_of_not_due s (.inl taken)]
    exact taken
  · have fresh : s.work.mapTaken = false := by simpa using taken
    cases scheduled : s.map.scheduled with
    | some c =>
      rw [mapEvent_of_scheduled s fresh boundary c scheduled, bankSwap_parts]
      rfl
    | none =>
      rw [mapEvent_of_unscheduled s fresh boundary scheduled,
        (idleTick_sameBank { s with work := { s.work with mapTaken := true } }).2]

theorem swapDue_of_taken {s : State} (taken : s.work.mapTaken = true) : s.swapDue = false := by
  simp [State.swapDue, taken]

theorem swapDue_swapFirst (s : State) : s.swapFirst.swapDue = false := by
  unfold State.swapFirst
  split_ifs with due
  · exact swapDue_of_taken (mapTaken_mapEvent s ((swapDue_iff s).1 due).1)
  · simpa using due

/-- The banks stand, and no swap is due. -/
def Settled (s t : State) : Prop :=
  SameBank s t ∧ t.swapDue = false

theorem settled_of_eq {s t : State} (settled : s.swapDue = false) (frameNo : t.efa.frameNo = s.efa.frameNo)
    (map : t.map = s.map) (taken : t.work.mapTaken = s.work.mapTaken) : Settled s t := by
  refine ⟨.of_map map, ?_⟩
  rw [← settled, State.swapDue, State.swapDue, State.boundary, State.boundary, frameNo, map, taken]

theorem settled_mapEvent (s : State) (settled : s.swapDue = false) : Settled s s.mapEvent := by
  by_cases due : s.efa.frameNo = 0 ∧ s.work.mapTaken = false
  · obtain ⟨boundary, fresh⟩ := due
    have free : s.map.scheduled = none := by
      by_contra scheduled
      rw [(swapDue_iff s).2 ⟨boundary, scheduled, fresh⟩] at settled
      cases settled
    exact ⟨sameBank_mapEvent free, swapDue_of_taken (mapTaken_mapEvent s boundary)⟩
  · rw [mapEvent_of_not_due s (by
      rcases not_and_or.1 due with between | taken
      · exact .inr between
      · exact .inl (by simpa using taken))]
    exact ⟨.of_map rfl, settled⟩

theorem settled_mccEvent (s : State) (ch : ChannelId) (settled : s.swapDue = false) : Settled s (s.mccEvent ch) := by
  obtain ⟨c, w, es, eq | eq⟩ := s.mccEvent_eq ch <;> rw [eq] <;> cases ch <;> exact settled_of_eq settled rfl rfl rfl

/-- Once no swap is due, no unit's event of the frame start swaps. -/
theorem settled_unitEvent (s : State) (e : FrameEdge) (u : FrameUnit) (settled : s.swapDue = false) :
    Settled s (s.unitEvent e u) := by
  have first : s.swapFirst = s := if_neg (by rw [settled]; nofun)
  cases u
  · exact settled_mapEvent s settled
  · obtain ⟨q0, q1, n, eq⟩ := s.efaEvent_eq
    change Settled s s.efaEvent
    rw [eq]
    exact settled_of_eq settled rfl rfl rfl
  · obtain ⟨gs, q0, q1, w, n, eq, -⟩ := s.pscEvent_eq
    change Settled s s.pscEvent
    rw [eq]
    exact settled_of_eq settled rfl rfl rfl
  · obtain ⟨is, gs, q0, q1, n, eq, -⟩ := s.eiuEvent_eq e.pins e.edgePlace
    change Settled s (s.eiuEvent e.pins e.edgePlace)
    rw [eq]
    exact settled_of_eq settled rfl rfl rfl
  · change Settled s (s.swapFirst.mccEvent .ch0)
    rw [first]
    exact settled_mccEvent s .ch0 settled
  · change Settled s (s.swapFirst.mccEvent .ch1)
    rw [first]
    exact settled_mccEvent s .ch1 settled

theorem sameBank_unitEvents (e : FrameEdge) (us : List FrameUnit) (s : State) (settled : s.swapDue = false) :
    SameBank s (unitEvents s e us) := by
  induction us generalizing s with
  | nil => exact .of_map rfl
  | cons u us ih =>
    obtain ⟨same, still⟩ := settled_unitEvent s e u settled
    exact same.trans (ih _ still)

/-! ### A frame start around a controller's event -/

/-- The word of a channel that is not sending a reply, and the map it stands beside. -/
theorem word_of_idleWord {s : State} {ch : ChannelId} (on : s.enabled ch = true) (fresh : s.work.word ch = none)
    (silent : ∀ k, (s.channel ch).phase ≠ .replying k) :
    (s.mccEvent ch).work.word ch = some (s.idleWordOf ch (s.channel ch).phase.code) := by
  by_cases held : ∃ n, (s.channel ch).phase = .awaitAck n
  · obtain ⟨n, held⟩ := held
    rw [mccEvent_of_awaitAck on fresh held, held]
    split_ifs
    · unfold State.expireHold
      split
      · split_ifs
        · simp
          rfl
        · rw [State.raise_eq]
          simp [State.discard, State.countChannel, State.setPhase]
          rfl
      · simp [State.setPhase]
        rfl
    · simp [State.setPhase]
      rfl
  · rw [mccEvent_of_idleWord on fresh silent fun n is => held ⟨n, is⟩, FrameWork.word_supply]

theorem mccEvent_kept (s : State) (ch : ChannelId) :
    (s.mccEvent ch).map = s.map ∧ (s.mccEvent ch).work.swapped = s.work.swapped := by
  obtain ⟨c, w, es, eq | eq⟩ := s.mccEvent_eq ch <;> rw [eq] <;> cases ch <;> exact ⟨rfl, rfl⟩

theorem code_lt (p : Phase) : p.code < 2 ^ 3 := by
  cases p <;> simp [Phase.code]

/-- What reaches the composition of a channel that is no committer: the record and the word that its controller's event
leaves, and the banks that it saw. The event starts from the channel as the frame start found it. -/
structure Supplied (s v : State) (ch : ChannelId) : Prop where
  around : ∃ c : State, c.channel ch = s.channel ch ∧ c.work.word ch = s.work.word ch ∧ c.work.swapped ≠ some ch ∧
    (∀ x, c.place x = s.place x) ∧ v.channel ch = (c.mccEvent ch).channel ch ∧
    v.work.word ch = (c.mccEvent ch).work.word ch ∧ SameBank c v

theorem supplied_frameStart (s : State) (e : FrameEdge) (ch : ChannelId) (sent : s.work.swapped ≠ some ch)
    (free : s.map.scheduled ≠ some ch) : Supplied s (unitEvents (edgeTaken s e) e (frameSchedule e)) ch := by
  obtain ⟨pre, post, schedule, before, after⟩ := frameSchedule_split e (controllerOf ch)
  rw [schedule, unitEvents_append]
  have reach : (edgeTaken s e).SameChannel (unitEvents (edgeTaken s e) e pre) ch :=
    State.sameChannel_foldl e ch pre before (edgeTaken s e) sent free
  have frame : (edgeTaken s e).SameFrame (unitEvents (edgeTaken s e) e pre) := State.sameFrame_foldl e pre _
  generalize unitEvents (edgeTaken s e) e pre = a at reach frame ⊢
  obtain ⟨sent', free'⟩ := reach.idle sent free
  have swapped := reach.trans (a.sameChannel_swapFirst ch free')
  obtain ⟨sent'', free''⟩ := swapped.idle sent free
  have event : a.unitEvent e (controllerOf ch) = a.swapFirst.mccEvent ch := by cases ch <;> rfl
  have split_ : unitEvents a e (controllerOf ch :: post) = unitEvents (a.swapFirst.mccEvent ch) e post :=
    congrArg (fun t => unitEvents t e post) event
  rw [split_]
  obtain ⟨map, mark⟩ := mccEvent_kept a.swapFirst ch
  have rest : (a.swapFirst.mccEvent ch).SameChannel (unitEvents (a.swapFirst.mccEvent ch) e post) ch :=
    State.sameChannel_foldl e ch post after _ (by rw [mark]; exact sent'') (by rw [map]; exact free'')
  obtain ⟨same, still⟩ := settled_mccEvent a.swapFirst ch (swapDue_swapFirst a)
  refine ⟨a.swapFirst, swapped.channel.trans (by cases ch <;> rfl), swapped.word, sent'', fun x => ?_, rest.channel,
    rest.word, same.trans (sameBank_unitEvents e post _ still)⟩
  rw [a.sameFrame_swapFirst.place x, frame.place x]
  cases x <;> rfl

/-- Settles O54: the frame start around the channel's own controller, which alone touches its record and word. -/
theorem replyWordSent : Obligations.ReplyWordSent := by
  unfold Obligations.ReplyWordSent
  intro s e ch d idle at_ apart enabled fresh sent free
  have frame : (edgeTaken s e).SameFrame (unitEvents (edgeTaken s e) e (frameSchedule e)) :=
    State.sameFrame_foldl e (frameSchedule e) _
  obtain ⟨c, channel, word, sent', place, left, supplied, banks⟩ := (supplied_frameStart s e ch sent free).around
  have started : exec (.egressFrameStart e) s =
      .next (unitEvents (edgeTaken s e) e (frameSchedule e)).compose :=
    congrArg Host.Outcome.next (frameStart_of_idle s e idle)
  generalize unitEvents (edgeTaken s e) e (frameSchedule e) = v at frame left supplied banks started
  have on : c.enabled ch = true := by
    rw [State.enabled, place, at_]
    rfl
  have placed : ∀ x, v.place x = s.place x := fun x => (frame.place x).trans (by cases x <;> rfl)
  have alone : ∀ x, x ≠ ch → v.place x ≠ some d := by
    intro x other same
    rw [placed, ← at_] at same
    cases x <;> cases ch <;> first | exact other rfl | exact apart same | exact apart same.symm
  have sentWord : ∀ w, v.work.word ch = some w → v.compose.sentWord d = some w := by
    intro w supplied
    have on : v.efa.enables.getLsbD d.lane.val = true := by
      rw [frame.enables]
      exact enabled
    rw [sentWord_compose v d on, slotWord_of_place v d ch w ((placed ch).trans at_) supplied alone]
  have composed : v.compose.channel ch = v.channel ch := by cases ch <;> rfl
  refine ⟨fun k p replying stored => ⟨_, started, ?_⟩, fun silent => ?_⟩
  · rw [← channel] at replying stored
    have event := mccEvent_of_replying on (word.trans fresh) replying stored sent'
    rw [event] at left supplied
    rw [composed, left, ← channel]
    refine ⟨sentWord _ (supplied.trans (by simp [State.setPhase])), ?_, ?_⟩
    · cases ch <;> exact stored
    · cases ch <;> rfl
  · rw [← channel] at silent ⊢
    rw [word_of_idleWord on (word.trans fresh) silent] at supplied
    obtain ⟨kind, state, -, -, -, -, spare, generation⟩ := fields_of_idleWord _ _ _ _ _ _ _ rfl
    refine ⟨_, _, started, sentWord _ supplied, kind, ?_, spare, ?_⟩
    · exact (congrArg BitVec.toNat state).trans ((BitVec.toNat_ofNat ..).trans (Nat.mod_eq_of_lt (code_lt _)))
    · exact generation.trans banks.generation.symm

end Sys2Proof.Proofs

/-! A restart of channel 1, and the commands that bring it about (O55, O56). -/

namespace Sys2Proof.Proofs
open Sys2Proof Sys2Proof.Machine

/-! ### A request of channel 1 that waits at a restart (R145) -/

theorem beforeRestart_of_stays {s : State} {i : Instr} (stays : s.restarts i = false) : s.beforeRestart i = s := by
  unfold State.beforeRestart
  rw [stays]
  rfl

theorem restarts_restartChannel (s : State) : s.restarts .restartChannel = s.operatorPlace.isSome := rfl

/-- The request of channel 1 is taken first: its row leaves the supervisor's request waiting and the place of channel 1,
and the restart then goes as it goes with nothing waiting. -/
theorem restart_after_waiting {s : State} {r : Request} {code : BitVec 6} {bytes : List Byte} {i : Instr}
    (h : s.Waits .ch0 r code bytes) (decoded : decodeCommand .ch0 code bytes = some i) (restarts : s.restarts i = true)
    (q : Request) (j : Instr) (waits : s.ch1.phase = .executing q true)
    (asks : decodeCommand .ch1 q.code (bodyBytes q.body) = some j) :
    ∃ t, exec j s = .next t ∧ t.Waits .ch0 r code bytes ∧ t.operatorPlace = s.operatorPlace ∧
      (∀ q, t.ch1.phase ≠ .executing q true) ∧ exec i s = exec i t := by
  have sender := sender_of_decodeCommand .ch1 _ _ j asks
  have asked : s.asks .ch1 j = some q := (s.asks_eq_some .ch1 j q).mpr ⟨waits, asks⟩
  have waits' : (s.takeCommand q j).Waits .ch0 r code bytes :=
    ⟨(phase_takeCommand_ch0 sender waits).trans h.phase, h.code_eq, h.bytes_eq⟩
  have done : ∀ x, (s.takeCommand q j).ch1.phase ≠ .executing x true := fun x after =>
    (waits_of_waits_takeCommand sender waits .ch1 x after).1 rfl
  have first : s.beforeRestart j = s := beforeRestart_of_stays (s.restarts_of_sender j sender)
  refine ⟨s.takeCommand q j, ?_, waits', (operatorStep_takeCommand sender).operatorPlace, done, ?_⟩
  · rw [exec_request s .ch1 j sender, asked, first]
  · have mine : ∀ u : State, u.Waits .ch0 r code bytes → u.asks .ch0 i = some r := fun u hu =>
      (u.asks_eq_some .ch0 i r).mpr ⟨hu.phase, by rw [hu.code_eq, hu.bytes_eq]; exact decoded⟩
    have before : s.beforeRestart i = s.takeCommand q j := by
      unfold State.beforeRestart State.takeBy
      rw [restarts, (s.waiting_eq_some .ch1 q).mpr waits]
      simp only [asks, if_true]
    have sender' := sender_of_decodeCommand .ch0 _ _ i decoded
    rw [exec_request s .ch0 i sender', exec_request _ .ch0 i sender', mine s h, mine _ waits', before,
      (s.takeCommand q j).beforeRestart_of_none i done]

/-- Settles O56: the restart by who holds the lock, and the row by the place of channel 1. -/
theorem channelRestarted : Obligations.ChannelRestarted := by
  unfold Obligations.ChannelRestarted
  refine ⟨fun s phase => ?_, fun s r h => ?_⟩
  · intro q c work
    exact ⟨restart_of_free s phase, restart_of_held s phase⟩
  · have taken : exec .restartChannel s = .next ((s.beforeRestart .restartChannel).takeRestartChannel r) :=
      exec_of_waits_ch0 h rfl rfl
    refine ⟨fun off => ?_, fun on idle => ?_, fun q j on waits asks => ?_⟩
    · have stays : s.restarts .restartChannel = false := by rw [restarts_restartChannel, off]; rfl
      rw [taken, beforeRestart_of_stays stays, State.takeRestartChannel, if_pos off]
      rfl
    · rw [taken, s.beforeRestart_of_none .restartChannel idle, State.takeRestartChannel, if_neg on]
      rfl
    · have restarts : s.restarts .restartChannel = true := by
        rw [restarts_restartChannel]
        exact Option.isSome_iff_ne_none.2 on
      exact restart_after_waiting h ((decodeCommand_ch0 _ _).trans rfl) restarts q j waits asks

end Sys2Proof.Proofs

/-! SET_CHANNEL (O55). -/

namespace Sys2Proof.Proofs
open Sys2Proof Sys2Proof.Machine

/-! ### What is asked for -/

theorem replyHoldOf_of_range (hold : Byte) (range : hold = 0 ∨ 8 ≤ hold.toNat) :
    replyHoldOf hold = some (if hold = 0 then 48 else hold.toNat) := by
  by_cases zero : hold = 0
  · subst zero
    rfl
  · have above : 8 ≤ hold.toNat := range.resolve_left zero
    rw [replyHoldOf, if_neg (by omega), if_neg (by omega), if_neg zero]

theorem replyHoldOf_eq_none (hold : Byte) (low : 1 ≤ hold.toNat) (high : hold.toNat ≤ 7) : replyHoldOf hold = none := by
  rw [replyHoldOf, if_neg (by omega), if_pos (by omega)]

section
variable (s : State) (enable l k hold : Byte) (range : hold = 0 ∨ 8 ≤ hold.toNat)
include range

theorem planChannel_ch0 :
    s.planChannel 0 enable l k hold = .holdOnly .ch0 (if hold = 0 then 48 else hold.toNat) := by
  unfold State.planChannel
  rw [replyHoldOf_of_range hold range]
  rfl

theorem planChannel_disable : s.planChannel 1 0 l k hold =
    if s.operatorPlace = none then .holdOnly .ch1 (if hold = 0 then 48 else hold.toNat)
    else .disabled (if hold = 0 then 48 else hold.toNat) := by
  unfold State.planChannel
  rw [replyHoldOf_of_range hold range]
  rfl

theorem planChannel_enable (p : Place) (lane : p.lane.val = l.toNat) (slot : p.slot.val = k.toNat) :
    s.planChannel 1 1 l k hold = s.planEnable p (if hold = 0 then 48 else hold.toNat) := by
  unfold State.planChannel
  rw [replyHoldOf_of_range hold range, placeOf_of_val p l k lane slot]
  rfl

end

/-- The place asked for is the strapped one of channel 0 (R143). -/
theorem planEnable_refused (s : State) (p : Place) (H : Nat) {l k : Byte} (found : placeOf l k = some p)
    (place : 7 < l.toNat ∨ 23 < k.toNat ∨ (l.toNat = s.strapLane.val ∧ k.toNat = 23)) :
    s.planEnable p H = .refused .badField := by
  obtain ⟨lane, slot⟩ := val_of_placeOf found
  rcases place with far | far | ⟨strap, last⟩
  · omega
  · omega
  · have own : p = ⟨s.strapLane, 23⟩ := by
      obtain ⟨x, y⟩ := p
      exact congrArg₂ Place.mk (Fin.ext (lane.trans strap)) (Fin.ext (slot.trans last))
    rw [State.planEnable, own]
    exact if_pos rfl

theorem planChannel_refused (s : State) (c enable l k hold : Byte)
    (bad : 1 < c.toNat ∨ (1 ≤ hold.toNat ∧ hold.toNat ≤ 7) ∨
      (c = 1 ∧ (1 < enable.toNat ∨ (enable = 1 ∧ (7 < l.toNat ∨ 23 < k.toNat ∨
        (l.toNat = s.strapLane.val ∧ k.toNat = 23)))))) :
    s.planChannel c enable l k hold = .refused .badField := by
  unfold State.planChannel
  rcases channelOf_cases c with ⟨rfl, named⟩ | ⟨rfl, named⟩ | ⟨out, unnamed⟩
  · rcases bad with far | ⟨low, high⟩ | ⟨other, -⟩
    · exact absurd far (by decide)
    · rw [replyHoldOf_eq_none hold low high, named]
    · exact absurd other (by decide)
  · rw [named]
    by_cases held : 1 ≤ hold.toNat ∧ hold.toNat ≤ 7
    · rw [replyHoldOf_eq_none hold held.1 held.2]
    · rw [replyHoldOf_of_range hold (by
        by_cases zero : hold = 0
        · exact .inl zero
        · have positive : hold.toNat ≠ 0 := fun is => zero (BitVec.eq_of_toNat_eq is)
          exact .inr (by omega))]
      rcases bad with far | inside | ⟨-, flag | ⟨rfl, place⟩⟩
      · exact absurd far (by decide)
      · exact absurd inside held
      · rw [flagOf_eq_none enable flag]
      · rw [show flagOf 1 = some true from rfl]
        cases found : placeOf l k with
        | none => rfl
        | some p => exact planEnable_refused s p _ found place
  · rw [unnamed]

/-! ### Replies -/

theorem byteOf_of_val {n : Nat} {b : Byte} (same : n = b.toNat) : byteOf n = b := by
  subst same
  exact BitVec.eq_of_toNat_eq (by simp [byteOf])

theorem placeBytes_ch1_of_none (s : State) (off : s.operatorPlace = none) : s.placeBytes .ch1 = [1, 0, 0, 0] := by
  simp only [State.placeBytes, State.enabled, State.place, off]
  rfl

theorem placeBytes_ch1_of_some (s : State) (p : Place) (at_ : s.operatorPlace = some p) {l k : Byte}
    (lane : p.lane.val = l.toNat) (slot : p.slot.val = k.toNat) : s.placeBytes .ch1 = [1, 1, l, k] := by
  simp only [State.placeBytes, State.enabled, State.place, at_, Option.map_some, Option.getD_some, byteOf_of_val lane,
    byteOf_of_val slot]
  rfl

/-- A restart keeps the place and the REPLY_HOLD of channel 1, the lanes and the egress side. -/
theorem restart_kept (s : State) (p : Phase) : (s.restart p).operatorPlace = s.operatorPlace ∧
    (s.restart p).ch1.replyHold = s.ch1.replyHold ∧ (s.restart p).lanes = s.lanes ∧ (s.restart p).efa = s.efa := by
  obtain ⟨m, es, -, eq⟩ := restart_cases s p
  rw [eq]
  exact ⟨rfl, rfl, rfl, rfl⟩

section
variable (s : State) (r : Request) (H : Nat)

theorem replyChannel_eq (c : ChannelId) (bytes : List Byte) (place : s.placeBytes c = bytes)
    (hold : (s.channel c).replyHold = H) :
    s.replyChannel r c = s.finish .ch0 r .ok (bytes ++ [BitVec.ofNat 8 H, 0]) .none := by
  rw [State.replyChannel, place, hold]
  rfl

/-- Channel 1 disabled (R144). -/
theorem removeOperator_reply : (s.setReplyHold .ch1 H).removeOperator.replyChannel r .ch1 =
    (State.restart { s with ch1 := { s.ch1 with replyHold := H }, operatorPlace := none } .off).finish .ch0 r .ok
      [1, 0, 0, 0, BitVec.ofNat 8 H, 0] .none := by
  obtain ⟨place, hold, -, -⟩ :=
    restart_kept { s with ch1 := { s.ch1 with replyHold := H }, operatorPlace := none } .off
  exact replyChannel_eq _ r H .ch1 [1, 0, 0, 0] (placeBytes_ch1_of_none _ place) hold

/-- Channel 1 at a new place (R144). -/
theorem placeOperator_reply (p : Place) {l k : Byte} (lane : p.lane.val = l.toNat) (slot : p.slot.val = k.toNat)
    (u : State)
    (restarted : u = State.restart { s with ch1 := { s.ch1 with replyHold := H }, operatorPlace := some p } .idle) :
    ((s.setReplyHold .ch1 H).placeOperator p).replyChannel r .ch1 =
      State.finish
        { u.setLane p.lane { u.lane p.lane with
            alignment := if (s.lane p.lane).alignment = .off then .hunt else (s.lane p.lane).alignment } with
          efa := { u.efa with enables := s.efa.enables ||| BitVec.twoPow 8 p.lane.val } } .ch0 r .ok
        [1, 1, l, k, BitVec.ofNat 8 H, 0] .none := by
  obtain ⟨place, hold, lanes, efa⟩ :=
    restart_kept { s with ch1 := { s.ch1 with replyHold := H }, operatorPlace := some p } .idle
  rw [← restarted] at place hold lanes efa
  have placed : (s.setReplyHold .ch1 H).placeOperator p =
      { u.setLane p.lane { u.lane p.lane with alignment := enabledAlignment (s.lane p.lane).alignment } with
        efa := { u.efa with enables := s.efa.enables ||| BitVec.twoPow 8 p.lane.val } } := by
    rw [placeOperator_eq, State.lane_congr s p.lane u lanes, efa, restarted]
    rfl
  rw [placed]
  exact replyChannel_eq _ r H .ch1 [1, 1, l, k] (placeBytes_ch1_of_some _ p place lane slot) hold

end

/-! ### The row -/

section
variable {s : State} {r : Request} {c enable l k hold spare : Byte}

/-- A SET_CHANNEL that enables channel 1 at a new place or disables it restarts it (R144). -/
def ChannelPlan.restarting : ChannelPlan → Bool
  | .enabledAt _ _ => true
  | .disabled _ => true
  | _ => false

theorem restarts_setChannel (s : State) (c enable l k hold : Byte) : s.restarts (.setChannel c enable l k hold) =
    ChannelPlan.restarting (s.planChannel c enable l k hold) := rfl

theorem restarts_of_plan {plan : ChannelPlan} (planned : s.planChannel c enable l k hold = plan) :
    s.restarts (.setChannel c enable l k hold) = ChannelPlan.restarting plan := by
  rw [restarts_setChannel, planned]

theorem place_ch0_ne {s : State} {p : Place} (strap : p ≠ ⟨s.strapLane, 23⟩) : s.place .ch0 ≠ some p :=
  fun same => strap (Option.some.inj same).symm

theorem planEnable_free (s : State) (p : Place) (H : Nat) (strap : p ≠ ⟨s.strapLane, 23⟩) (new : s.operatorPlace ≠ some p)
    (free : s.placeInUse p = false) : s.planEnable p H = .enabledAt p H := by
  rw [State.planEnable, if_neg (place_ch0_ne strap), if_neg new, free]
  rfl

variable (h : s.Waits .ch0 r 0x03 [c, enable, l, k, hold, spare])
include h

theorem exec_setChannel : exec (.setChannel c enable l k hold) s =
    .next ((s.beforeRestart (.setChannel c enable l k hold)).takeSetChannel r c enable l k hold) :=
  exec_of_waits_ch0 h rfl rfl

theorem exec_setChannel_refused {st : Status} (plan : s.planChannel c enable l k hold = .refused st) :
    exec (.setChannel c enable l k hold) s = .next (s.finish .ch0 r st [] .none) := by
  rw [exec_setChannel h, beforeRestart_of_stays (restarts_of_plan plan), State.takeSetChannel, plan]
  rfl

theorem exec_setChannel_holdOnly {d : ChannelId} {H : Nat} (plan : s.planChannel c enable l k hold = .holdOnly d H) :
    exec (.setChannel c enable l k hold) s = .next ((s.setReplyHold d H).replyChannel r d) := by
  rw [exec_setChannel h, beforeRestart_of_stays (restarts_of_plan plan), State.takeSetChannel, plan]

theorem exec_setChannel_disabled {H : Nat} (plan : s.planChannel c enable l k hold = .disabled H)
    (idle : ∀ q, s.ch1.phase ≠ .executing q true) : exec (.setChannel c enable l k hold) s =
      .next ((s.setReplyHold .ch1 H).removeOperator.replyChannel r .ch1) := by
  rw [exec_setChannel h, s.beforeRestart_of_none _ idle, State.takeSetChannel, plan]

theorem exec_setChannel_enabledAt {p : Place} {H : Nat} (plan : s.planChannel c enable l k hold = .enabledAt p H)
    (idle : ∀ q, s.ch1.phase ≠ .executing q true) : exec (.setChannel c enable l k hold) s =
      .next (((s.setReplyHold .ch1 H).placeOperator p).replyChannel r .ch1) := by
  rw [exec_setChannel h, s.beforeRestart_of_none _ idle, State.takeSetChannel, plan]

end

/-- Settles O55: by what is asked for, checked in order, and with a request of channel 1 taken first where it waits. -/
theorem setChannelDecided : Obligations.SetChannelDecided := by
  unfold Obligations.SetChannelDecided
  intro s r c enable l k hold spare h i H free
  have unused : ∀ p, free p → s.placeInUse p = false := fun p clear => by
    rw [← Bool.not_eq_true, State.placeInUse_iff]
    rintro ⟨n, d, use⟩
    exact clear n d use
  refine ⟨fun q j waits asks ⟨one, range, change_⟩ => ?_, fun bad => exec_setChannel_refused h
      (planChannel_refused s c enable l k hold bad),
    fun range => ⟨fun zero => ?_, fun one off free_ => ?_, fun one off on idle => ?_, fun one on p lane slot strap =>
      ⟨fun same => ?_, fun new => ⟨fun used => ?_, fun clear idle => ?_⟩⟩⟩⟩
  · have restarts : s.restarts i = true := by
      subst one
      rcases change_ with ⟨rfl, on⟩ | ⟨rfl, p, lane, slot, strap, new, clear⟩
      · exact restarts_of_plan ((planChannel_disable s l k hold range).trans (if_neg on))
      · exact restarts_of_plan ((planChannel_enable s l k hold range p lane slot).trans
          (planEnable_free s p H strap new (unused p clear)))
    obtain ⟨t, row, waits', -, done, same⟩ :=
      restart_after_waiting h ((decodeCommand_ch0 _ _).trans rfl) restarts q j waits asks
    exact ⟨t, row, waits', done, same⟩
  · subst zero
    refine (exec_setChannel_holdOnly h (planChannel_ch0 s enable l k hold range)).trans ?_
    exact congrArg _ (replyChannel_eq _ r H .ch0 _ rfl rfl)
  · subst one off
    refine (exec_setChannel_holdOnly h ((planChannel_disable s l k hold range).trans (if_pos free_))).trans ?_
    exact congrArg _ (replyChannel_eq _ r H .ch1 [1, 0, 0, 0] (placeBytes_ch1_of_none _ free_) rfl)
  · subst one off
    refine (exec_setChannel_disabled h ((planChannel_disable s l k hold range).trans (if_neg on)) idle).trans ?_
    exact congrArg _ (removeOperator_reply s r H)
  · subst one on
    have plan : s.planChannel 1 1 l k hold = .holdOnly .ch1 H := by
      rw [planChannel_enable s l k hold range p lane slot, State.planEnable, if_neg (place_ch0_ne strap),
        if_pos same]
    refine (exec_setChannel_holdOnly h plan).trans ?_
    exact congrArg _ (replyChannel_eq _ r H .ch1 [1, 1, l, k] (placeBytes_ch1_of_some _ p same lane slot) rfl)
  · subst one on
    refine exec_setChannel_refused h ?_
    rw [planChannel_enable s l k hold range p lane slot, State.planEnable, if_neg (place_ch0_ne strap),
      if_neg new, if_pos ((s.placeInUse_iff p).2 used)]
  · subst one on
    refine ⟨_, rfl, ?_⟩
    refine (exec_setChannel_enabledAt h ((planChannel_enable s l k hold range p lane slot).trans
      (planEnable_free s p H strap new (unused p clear))) idle).trans ?_
    exact congrArg _ (placeOperator_reply s r H p lane slot _ rfl)

end Sys2Proof.Proofs

/-! The frame start as a whole (O29). -/

namespace Sys2Proof.Proofs
open Sys2Proof Sys2Proof.Machine

/-! ### The groups' timers once each -/

/-- The group's timers have been run at this frame start, or it has none (R92). -/
def Spent (s : State) (g : GroupId) : Prop :=
  s.work.groupsTaken.get g = true ∨ s.group g = none

theorem tickGroup_of_spent {s : State} {g : GroupId} (spent : Spent s g) : s.tickGroup g = s := by
  unfold State.tickGroup
  rcases spent with taken | off
  · rw [taken]
  · rw [off]
    cases s.work.groupsTaken.get g <;> rfl

theorem spent_tickGroup (s : State) (g : GroupId) : Spent (s.tickGroup g) g := by
  by_cases spent : Spent s g
  · rw [tickGroup_of_spent spent]
    exact spent
  · obtain ⟨fresh, on⟩ := not_or.1 spent
    obtain ⟨x, on⟩ := Option.ne_none_iff_exists'.1 on
    rw [s.tickGroup_of_some g x (by simpa using fresh) on]
    exact .inl (Vector.getElem_set_self ..)

theorem spent_tickGroup_of_spent {s : State} {g : GroupId} (spent : Spent s g) (h : GroupId) :
    Spent (s.tickGroup h) g := by
  by_cases own : g = h
  · subst own
    exact spent_tickGroup s g
  · by_cases other : Spent s h
    · rw [tickGroup_of_spent other]
      exact spent
    · obtain ⟨fresh, on⟩ := not_or.1 other
      obtain ⟨x, on⟩ := Option.ne_none_iff_exists'.1 on
      rw [s.tickGroup_of_some h x (by simpa using fresh) on]
      refine spent.imp (fun taken => ?_) fun off => ?_
      · exact (Vector.getElem_set_ne h.isLt g.isLt fun same => own (Fin.ext same.symm)).trans taken
      · exact (State.group_setGroup_of_ne s h g _ own).trans off

theorem spent_foldl {s : State} {g : GroupId} (spent : Spent s g) (xs : List GroupId) :
    Spent (xs.foldl State.tickGroup s) g := by
  induction xs generalizing s with
  | nil => exact spent
  | cons x xs ih => exact ih (spent_tickGroup_of_spent spent x)

theorem spent_foldl_of_mem (s : State) {g : GroupId} {xs : List GroupId} (mem : g ∈ xs) :
    Spent (xs.foldl State.tickGroup s) g := by
  induction xs generalizing s with
  | nil => cases mem
  | cons x xs ih =>
    rcases List.mem_cons.1 mem with rfl | later
    · exact spent_foldl (spent_tickGroup s g) xs
    · exact ih (s.tickGroup x) later

/-- Groups whose timers have been run are passed over. -/
theorem foldl_tickGroup_filter (s : State) (done : List GroupId) (spent : ∀ g ∈ done, Spent s g) (xs : List GroupId) :
    xs.foldl State.tickGroup s = (xs.filter fun g => g ∉ done).foldl State.tickGroup s := by
  induction xs generalizing s with
  | nil => rfl
  | cons x xs ih =>
    by_cases old : x ∈ done
    · rw [List.foldl_cons, tickGroup_of_spent (spent x old), List.filter_cons_of_neg (by simpa using old)]
      exact ih s spent
    · rw [List.foldl_cons, List.filter_cons_of_pos (by simpa using old), List.foldl_cons]
      exact ih _ fun g mem => spent_tickGroup_of_spent (spent g mem) x

theorem pscEvent_once (s : State) : ∃ gs : List GroupId, gs.Nodup ∧ (∀ g, g ∈ gs) ∧
    s.pscEvent = gs.foldl State.tickGroup { s with free := s.free + 1 } := by
  let first := openOrder s.free s.expiringGroups
  let rest := (List.finRange 16).filter fun g => g ∉ first
  have fresh : first.Nodup := nodup_openOrder _ _ ((List.nodup_finRange 16).filter _)
  refine ⟨first ++ rest, ?_, fun g => ?_, ?_⟩
  · refine List.nodup_append.2 ⟨fresh, (List.nodup_finRange 16).filter _, fun g mem h later => ?_⟩
    rintro rfl
    exact absurd mem (by simpa [rest] using later)
  · by_cases mem : g ∈ first
    · exact List.mem_append_left _ mem
    · exact List.mem_append_right _ (by simpa [rest] using mem)
  · rw [List.foldl_append]
    exact foldl_tickGroup_filter _ first (fun g mem => spent_foldl_of_mem _ mem) _


/-! ### The order of the units -/

/-- `a` stands in the list, and `b` not before it. -/
def Precedes (a b : FrameUnit) (us : List FrameUnit) : Prop :=
  ∃ xs ys, us = xs ++ a :: ys ∧ b ∉ xs

theorem idxOf_lt_of_precedes {a b : FrameUnit} {us : List FrameUnit} (apart : b ≠ a) (first : Precedes a b us) :
    us.idxOf a < us.idxOf b := by
  obtain ⟨xs, ys, rfl, absent⟩ := first
  rw [List.idxOf_append_of_notMem absent, List.idxOf_cons_ne _ apart.symm, List.idxOf_append]
  split_ifs with mem
  · have := List.idxOf_lt_length_iff.2 mem
    omega
  · rw [List.idxOf_cons_self]
    omega

/-- The units of an order, each once, `base` after them. -/
def scheduleOver (base order : List FrameUnit) : List FrameUnit :=
  order.foldr (fun u rest => u :: rest.filter fun v => v ≠ u) base

theorem precedes_cons {a b x : FrameUnit} {us : List FrameUnit} (other : x ≠ b) (first : Precedes a b us) :
    Precedes a b (x :: us.filter fun v => v ≠ x) := by
  obtain ⟨xs, ys, rfl, absent⟩ := first
  by_cases own : x = a
  · subst own
    exact ⟨[], _, rfl, by simp⟩
  · refine ⟨x :: xs.filter fun v => v ≠ x, ys.filter fun v => v ≠ x, ?_, ?_⟩
    · rw [List.filter_append, List.filter_cons_of_pos (by simpa using Ne.symm own), List.cons_append]
    · rw [List.mem_cons, not_or]
      exact ⟨other.symm, fun mem => absent (List.mem_of_mem_filter mem)⟩

theorem precedes_scheduleOver {a b : FrameUnit} {base xs : List FrameUnit} (absent : b ∉ xs) (ys : List FrameUnit)
    (first : Precedes a b (scheduleOver base ys)) : Precedes a b (scheduleOver base (xs ++ ys)) := by
  induction xs with
  | nil => exact first
  | cons x xs ih =>
    rw [List.mem_cons, not_or] at absent
    exact precedes_cons (Ne.symm absent.1) (ih absent.2)

theorem isPrefix_scheduleOver {order : List FrameUnit} (distinct : order.Nodup) (base : List FrameUnit) :
    order <+: scheduleOver base order := by
  induction order with
  | nil => exact List.nil_prefix
  | cons u us ih =>
    obtain ⟨absent, distinct⟩ := List.nodup_cons.1 distinct
    have kept : us.filter (fun v => v ≠ u) = us :=
      List.filter_eq_self.2 fun v mem => by simpa using fun same : v = u => absent (same ▸ mem)
    have later : us.filter (fun v => v ≠ u) <+: (scheduleOver base us).filter fun v => v ≠ u := (ih distinct).filter _
    rw [kept] at later
    exact List.cons_prefix_cons.2 ⟨rfl, later⟩

/-! ### Requests that still wait (R134) -/

section
variable {s : State} {ch : ChannelId}

theorem takeWaiting_of_none (idle : ∀ r, (s.channel ch).phase ≠ .executing r true) : s.takeWaiting ch = s := by
  unfold State.takeWaiting State.takeBy
  rw [(s.waiting_eq_none ch).mpr idle]

theorem takeWaiting_of_waits {r : Request} {c : Instr} (waits : (s.channel ch).phase = .executing r true)
    (decoded : decodeCommand ch r.code (bodyBytes r.body) = some c) :
    s.takeWaiting ch = (s.beforeRestart c).takeCommand r c := by
  unfold State.takeWaiting State.takeBy
  rw [(s.waiting_eq_some ch r).mpr waits]
  simp only [decoded]

/-- No request comes to wait while one is taken before a restart, and a supervisor's request stays. -/
theorem waits_beforeRestart (c : Instr) (x : ChannelId) (q : Request)
    (after : ((s.beforeRestart c).channel x).phase = .executing q true) : (s.channel x).phase = .executing q true := by
  rcases s.beforeRestart_eq c with same | ⟨r, j, -, asks, sender, eq⟩
  · rwa [same] at after
  · rw [eq] at after
    exact (waits_of_waits_takeCommand sender ((s.asks_eq_some .ch1 j r).mp asks).1 x q after).2

theorem waits_at_request {r : Request} {c : Instr} (waits : (s.channel ch).phase = .executing r true)
    (sender : c.sender = some ch) : ((s.beforeRestart c).channel ch).phase = .executing r true := by
  cases ch
  · rcases s.beforeRestart_eq c with same | ⟨q, j, -, asks, operator, eq⟩
    · rwa [same]
    · rw [eq]
      exact (phase_takeCommand_ch0 operator ((s.asks_eq_some .ch1 j q).mp asks).1).trans waits
  · rwa [beforeRestart_of_stays (s.restarts_of_sender c sender)]

/-- The row of a request that waits, and what waits after it. -/
theorem takeWaiting_row {r : Request} {c : Instr} (waits : (s.channel ch).phase = .executing r true)
    (decoded : decodeCommand ch r.code (bodyBytes r.body) = some c) :
    exec c s = .next (s.takeWaiting ch) ∧ ∀ x q, ((s.takeWaiting ch).channel x).phase = .executing q true →
      x ≠ ch ∧ (s.channel x).phase = .executing q true := by
  have sender := sender_of_decodeCommand ch _ _ c decoded
  rw [takeWaiting_of_waits waits decoded]
  constructor
  · rw [exec_request s ch c sender, (s.asks_eq_some ch c r).mpr ⟨waits, decoded⟩]
  · intro x q after
    obtain ⟨other, before⟩ := waits_of_waits_takeCommand sender (waits_at_request waits sender) x q after
    exact ⟨other, waits_beforeRestart c x q before⟩

end

/-- The frame start from the state in which no request waits any more. -/
theorem frameStart_congr {s t : State} (e : FrameEdge) (same : s.takeAllWaiting e = t.takeAllWaiting e) :
    s.frameStart e = t.frameStart e := by
  unfold State.frameStart
  rw [same]

/-- The channel whose request is taken first. -/
def firstTaken (e : FrameEdge) : ChannelId :=
  if (frameSchedule e).idxOf .mcc0 < (frameSchedule e).idxOf .mcc1 then .ch0 else .ch1

/-- The other channel. -/
def otherChannel : ChannelId → ChannelId
  | .ch0 => .ch1
  | .ch1 => .ch0

theorem takeAllWaiting_eq (s : State) (e : FrameEdge) :
    s.takeAllWaiting e = (s.takeWaiting (firstTaken e)).takeWaiting (otherChannel (firstTaken e)) := by
  unfold State.takeAllWaiting firstTaken
  split_ifs <;> rfl

/-- Taking by hand the request that the frame start would take first changes nothing of the frame start. -/
theorem takeAllWaiting_after (s : State) (e : FrameEdge) (ch : ChannelId)
    (left : ∀ x q, ((s.takeWaiting ch).channel x).phase = .executing q true →
      x ≠ ch ∧ (s.channel x).phase = .executing q true)
    (first : (∃ x q, x ≠ ch ∧ (s.channel x).phase = .executing q true) → firstTaken e = ch) :
    s.takeAllWaiting e = (s.takeWaiting ch).takeAllWaiting e := by
  have taken : (s.takeWaiting ch).takeWaiting ch = s.takeWaiting ch :=
    takeWaiting_of_none fun q after => (left ch q after).1 rfl
  by_cases both : ∃ x q, x ≠ ch ∧ (s.channel x).phase = .executing q true
  · rw [takeAllWaiting_eq, takeAllWaiting_eq, first both, taken]
  · have alone : ∀ x, x ≠ ch → s.takeWaiting x = s ∧ (s.takeWaiting ch).takeWaiting x = s.takeWaiting ch := fun x other =>
      ⟨takeWaiting_of_none fun q waits => both ⟨x, q, other, waits⟩,
        takeWaiting_of_none fun q after => both ⟨x, q, left x q after⟩⟩
    rw [takeAllWaiting_eq, takeAllWaiting_eq]
    generalize firstTaken e = x
    by_cases own : x = ch
    · subst own
      rw [taken]
    · have last : otherChannel x = ch := by cases x <;> cases ch <;> first | rfl | exact absurd rfl own
      rw [(alone x own).1, (alone x own).2, last, taken]

theorem firstTaken_of_order (e : FrameEdge) (ch : ChannelId)
    (order : (∃ before after, e.order = before ++ controllerOf ch :: after ∧ controllerOf (otherChannel ch) ∉ before) ∨
      (ch = .ch0 ∧ .mcc0 ∉ e.order ∧ .mcc1 ∉ e.order)) : firstTaken e = ch := by
  have first : Precedes (controllerOf ch) (controllerOf (otherChannel ch)) (frameSchedule e) := by
    change Precedes _ _ (scheduleOver _ e.order)
    rcases order with ⟨before, after, eq, absent⟩ | ⟨rfl, -, absent⟩
    · rw [eq]
      exact precedes_scheduleOver absent _ ⟨[], _, rfl, by simp⟩
    · rw [← List.append_nil e.order]
      exact precedes_scheduleOver absent [] ⟨[.map, .efa, .psc, .eiu], [.mcc1], rfl, by decide⟩
  have lt := idxOf_lt_of_precedes (by cases ch <;> decide) first
  unfold firstTaken
  cases ch
  · exact if_pos lt
  · exact if_neg (Nat.not_lt.2 (Nat.le_of_lt lt))

end Sys2Proof.Proofs

/-! A frame start by its timebase and its units' events (O29). -/

namespace Sys2Proof.Proofs
open Sys2Proof Sys2Proof.Machine

/-! ### The timebase and the lines -/

/-- A frame start leaves the composition of a state with the timebase advanced. -/
theorem frameStart_composed (s : State) (e : FrameEdge) : ∃ v : State, s.frameStart e = v.compose ∧
    v.efa.frameNo = s.efa.frameNo + 1 ∧ v.efa.started = true ∧
    v.efa.superframes =
      (if s.efa.frameNo = 15 ∧ s.efa.started = true then s.efa.superframes + 1 else s.efa.superframes) ∧
    v.efa.sent = (s.efa.cut e.sent).sent := by
  have before := s.sameTimebase_takeAllWaiting e
  have frame := State.sameFrame_foldl e (frameSchedule e) (edgeTaken (s.takeAllWaiting e) e)
  refine ⟨_, rfl, frame.frameNo.trans ?_, frame.started, frame.superframes.trans ?_, frame.sent.trans ?_⟩
  · exact congrArg (· + 1) before.frameNo
  · simp only [edgeTaken, Assembler.advance, Assembler.cut, before.frameNo, before.started, before.superframes]
  · simp only [edgeTaken, Assembler.advance, Assembler.cut, before.lines]

theorem cut_sent (a : Assembler) (n : Nat) (l : LaneId) :
    (∀ f, a.lines.get l = some f → (a.cut n).sent.get l = (f.marker :: f.slots.toList).take n) ∧
    (a.lines.get l = none → (a.cut n).sent.get l = []) := by
  have at_ : (a.cut n).sent.get l = ((a.lines.get l).map fun f => f.words.take n).getD [] := by
    refine (get_map _ a.lines l).trans ?_
    cases a.lines.get l <;> rfl
  rw [at_]
  exact ⟨fun f sent => by rw [sent]; rfl, fun off => by rw [off]; rfl⟩

theorem lines_compose (v : State) (l : LaneId) :
    (v.efa.enables.getLsbD l.val = true → ∃ f, v.compose.efa.lines.get l = some f ∧
      f.marker = markerWord v.efa.frameNo v.map.generation) ∧
    (v.efa.enables.getLsbD l.val = false → v.compose.efa.lines.get l = none) := by
  have frame : v.compose.efa.lines.get l = v.laneFrame l := get_ofFn _ _
  rw [frame, State.laneFrame, State.egressEnabled]
  exact ⟨fun on => ⟨_, if_pos on, rfl⟩, fun off => if_neg (by rw [off]; nofun)⟩

theorem frameStart_timebase (s : State) (e : FrameEdge) : ∃ t, exec (.egressFrameStart e) s = .next t ∧
    t.efa.frameNo = s.efa.frameNo + 1 ∧ t.efa.started = true ∧
    t.efa.superframes =
      (if s.efa.frameNo = 15 ∧ s.efa.started = true then s.efa.superframes + 1 else s.efa.superframes) ∧
    (∀ l : LaneId,
      (∀ f, s.efa.lines.get l = some f → t.efa.sent.get l = (f.marker :: f.slots.toList).take e.sent) ∧
      (s.efa.lines.get l = none → t.efa.sent.get l = []) ∧
      (t.efa.enables.getLsbD l.val = true → ∃ f, t.efa.lines.get l = some f ∧
        f.marker = (0x2F71 : Half) ++ (s.efa.frameNo + 1) ++ t.map.generation.extractLsb' 0 4) ∧
      (t.efa.enables.getLsbD l.val = false → t.efa.lines.get l = none)) := by
  obtain ⟨v, eq, frameNo, started, superframes, sent⟩ := frameStart_composed s e
  refine ⟨v.compose, congrArg Host.Outcome.next eq, frameNo, started, superframes, fun l => ?_⟩
  obtain ⟨enabled, disabled⟩ := lines_compose v l
  obtain ⟨cut, empty⟩ := cut_sent s.efa e.sent l
  have sent_ : v.compose.efa.sent.get l = (s.efa.cut e.sent).sent.get l := congrArg (·.get l) sent
  rw [sent_]
  refine ⟨cut, empty, fun on => ?_, disabled⟩
  obtain ⟨f, line, marker⟩ := enabled on
  rw [frameNo] at marker
  exact ⟨f, line, marker⟩

/-! ### The units' events -/

theorem swapFirst_eq (t : State) :
    t.swapFirst = if t.efa.frameNo = 0 ∧ t.map.scheduled ≠ none ∧ t.work.mapTaken = false then t.mapEvent else t := by
  unfold State.swapFirst
  exact if_congr (swapDue_iff t) rfl rfl

theorem eiuEvent_eq_samples (t : State) (pins : BitVec 4) (places : Vector (Fin 3) 4) :
    let sampled (t : State) (i : InputId) : State := t.sampleInput i (pins.getLsbD i.val) (places.get i).val
    t.eiuEvent pins places = sampled (sampled (sampled (sampled t 0) 1) 2) 3 := by
  intro sampled
  have order : List.finRange 4 = [0, 1, 2, 3] := by decide
  unfold State.eiuEvent
  rw [order]
  rfl

/-- Settles O29: the timebase through the requests and the units' events; the schedule, which no order repeats; the
request that is taken first, which a row may take as well; and the groups, once each. -/
theorem frameStartTimebase : Obligations.FrameStartTimebase := by
  unfold Obligations.FrameStartTimebase
  refine ⟨frameStart_timebase, fun s e idle => ?_, ?_, pscEvent_once⟩
  · have perm := frameSchedule_perm e
    refine ⟨frameSchedule e, perm.nodup_iff.mpr (by decide), fun u => perm.mem_iff.mpr (by cases u <;> decide),
      fun distinct => isPrefix_scheduleOver distinct _, ?_⟩
    intro swapped sampled event
    have event_eq : event = fun t u => t.unitEvent e u := by
      funext t u
      cases u
      case eiu => exact (eiuEvent_eq_samples t e.pins e.edgePlace).symm
      case mcc0 => exact congrArg (fun x : State => x.mccEvent .ch0) (swapFirst_eq t).symm
      case mcc1 => exact congrArg (fun x : State => x.mccEvent .ch1) (swapFirst_eq t).symm
      all_goals rfl
    rw [event_eq]
    exact congrArg Host.Outcome.next (frameStart_of_idle s e idle)
  · intro s e ch r c waits decoded controller order
    obtain ⟨row, left⟩ := takeWaiting_row waits decoded
    have controller_eq : ∀ x, controller x = controllerOf x := fun x => by cases x <;> rfl
    refine ⟨s.takeWaiting ch, row, congrArg Host.Outcome.next (frameStart_congr e (takeAllWaiting_after s e ch left ?_)),
      fun q after => (left ch q after).1 rfl⟩
    rintro ⟨x, q, other, standing⟩
    have last : x = otherChannel ch := by cases x <;> cases ch <;> first | rfl | exact absurd rfl other
    refine firstTaken_of_order e ch ?_
    have ordered := order x q other standing
    rw [controller_eq, controller_eq, last] at ordered
    exact ordered

end Sys2Proof.Proofs
